-- ==== Sys2Proof/Word.lean ====
section
/-! DEFINITION. The word of the K718 and the small bit vectors beside it. -/

namespace Sys2Proof

/-- A word is 16 bits everywhere: on the link, in picture memory and in every record (00_scope.md, 4.2). -/
abbrev Word := BitVec 16

/-- A sequence number, 0-255, which wraps (00_scope.md, 4.2; R158). -/
abbrev Seq := BitVec 8

/-- A packet kind code, bits 15-11 of header word 1 (R197). -/
abbrev KindCode := BitVec 5

end Sys2Proof
end

