-- ==== Sys2Proof/Config.lean ====
section
/-! DEFINITION. What the part fixes: capacities and codes the spec gives as numbers; and the one value the spec leaves
open, as a constant without a body. -/

namespace Sys2Proof

/-- Line slots of the line store (R82). -/
def Config.lineSlots : Nat := 32
/-- Entries of the deferred-write queue (R135). -/
def Config.deferredEntries : Nat := 64
/-- Packets of the command queue (R160). -/
def Config.commandPackets : Nat := 4
/-- Replies of the reply history (R167). -/
def Config.historyReplies : Nat := 8
/-- Places of the notice queue (R182). -/
def Config.noticePlaces : Nat := 4
/-- Places of the reply queue (R182). -/
def Config.replyPlaces : Nat := 8
/-- Places of the report queue (R182). -/
def Config.reportPlaces : Nat := 4
/-- The most words one packet's MEM_READ commands may return (R126). -/
def Config.packetReadWords : Nat := 256
/-- The longest payload the link receiver acts on (R99). -/
def Config.maxPayload : Nat := 1100
/-- The longest CONTROL payload (R158). -/
def Config.maxControlPayload : Nat := 512
/-- The start marker (R197). -/
def Config.startMarker : Word := 0xA5C3
/-- Pixels of a picture memory row (R15, R118). -/
def Config.rowPixels : Nat := 1024
/-- The default loss timeout in ms (R175). -/
def Config.defaultLossTimeout : Nat := 100
/-- The default holdover period in ms (R175). -/
def Config.defaultHoldoverPeriod : Nat := 20

/-- Free value: how far a line that a soft reset cuts has been sent, one value for each cut. The spec leaves the rate of
the panel lanes to the data sheet (R71, R80, 00_scope.md section 3; log entry 25, DESIGN CHOICE). -/
opaque Config.codesSent : Nat → Nat

/-- The capability record that IDENTIFY returns (R172). -/
def Config.capabilities : List Word :=
  [0x4E42, 0x0718, 1, 32, 16, 8, 32, 256, 256, 1024, 1024, 64, 4, 8, 8]

end Sys2Proof
end

