-- ==== Sys2Proof/Machine/Records.lean ====
section
/-! DEFINITION. The records and enumerations the blocks of the K718 hold, each under the spec's own name. -/

namespace Sys2Proof.Machine

/-- Delineation state (R98). -/
inductive Delineation where
  | aligned
  | hunt
deriving DecidableEq, Repr

/-- Parser state (R103). -/
inductive Parser where
  | search
  | gap
  | inFrame
deriving DecidableEq, Repr

/-- An input frame as its FRAME_OPEN announces it: tag, declared lines 1-1024, width 16-1024 (R104). -/
structure InputFrame where
  tag : Word
  declared : Nat
  width : Nat
deriving DecidableEq, Repr

/-- The link receiver's record of the input frame that is open (R103). -/
structure CurrentFrame where
  frame : InputFrame
  highest : Option Nat
deriving DecidableEq, Repr

/-- How an input frame was closed (R83). -/
inductive CloseKind where
  | normal
  | tagMismatch
  | truncated
deriving DecidableEq, Repr

/-- A frame entry of the line store (R83); it is OPEN while `close` is absent. -/
structure FrameEntry where
  frame : InputFrame
  highest : Option Nat
  close : Option CloseKind
deriving DecidableEq, Repr

/-- The two entries of the line store: the bound entry and the pending entry (R83). -/
inductive EntryRef where
  | bound
  | waiting
deriving DecidableEq, Repr

/-- A stored line (R82); its arrival position is its place in the list of slots. -/
structure StoredLine where
  entry : EntryRef
  tag : Word
  number : Nat
  pixels : List Word
deriving DecidableEq, Repr

/-- The line store's answer to a query (R92). -/
inductive Answer where
  | present (line : StoredLine)
  | missing
  | waiting
deriving DecidableEq, Repr

/-- Source of a segment's base lines (R6). -/
inductive SegKind where
  | link
  | memory
  | fill
deriving DecidableEq, Repr

/-- Change of source position per output line (R6). -/
inductive Step where
  | minus2
  | minus1
  | zero
  | plus1
  | plus2
deriving DecidableEq, Repr

/-- A segment record (R6). -/
structure Segment where
  first : Nat
  count : Nat
  kind : SegKind
  srcStart : Nat
  step : Step
  windowBase : Nat
  windowRows : Nat
  colStart : Nat
  mirror : Bool
  palette : Nat
  fill : Word
  overlay : Option Nat
deriving DecidableEq, Repr

/-- An overlay record (R21). -/
structure Overlay where
  rowBase : Nat
  rows : Nat
  lineOffset : Nat
  srcCol : Nat
  span : Nat
  destX : Nat
  palette : Nat
  key : Option Nat
deriving DecidableEq, Repr

/-- The output override (R25). -/
inductive OutputOverride where
  | normal
  | blank
  | invert
deriving DecidableEq, Repr

/-- A configuration set: the items of R29. -/
structure ConfigSet where
  hOut : Nat
  wOut : Nat
  mapLength : Nat
  segments : Vector Segment 32
  overlays : Vector (Option Overlay) 16
  palettes : Vector (Vector Word 16) 8
  lossColour : Word
  blankColour : Word
  outputOverride : OutputOverride
  tearGuard : Bool
  panelDrive : Bool
deriving DecidableEq, Repr

/-- State of the commit request (R44). -/
inductive CommitState where
  | none
  | armed
  | announcing
deriving DecidableEq, Repr

/-- Due condition of a commit request (R44). -/
inductive Due where
  | next
  | at (tag : Word)
deriving DecidableEq, Repr

/-- Why a COMMIT is INVALID (R47). -/
inductive InvalidReason where
  | emptyMap
  | tiling
  | height
  | window
  | overlayRef
  | overlayFit
deriving DecidableEq, Repr

/-- State of the output sequencer (R59). -/
inductive OutState where
  | wait
  | frame
  | holdGap
  | holdFrame
deriving DecidableEq, Repr

/-- Kind of an output frame (R60). -/
inductive FrameKind where
  | bound (input : InputFrame)
  | holdover
deriving DecidableEq, Repr

/-- The output frame record (R60); the bound input frame stands in its kind. -/
structure FrameRecord where
  tag : Word
  kind : FrameKind
  generation : Word
  lines : Nat
  drive : Bool
  outputOverride : OutputOverride
  announce : Option (Nat × Nat)
  nextLine : Nat
  substituted : Nat
deriving DecidableEq, Repr

/-- A line in emission (R71): its number and whether the composer reported it substituted (R1). -/
structure Emission where
  line : Nat
  substituted : Bool
deriving DecidableEq, Repr

/-- The holdover timer (R59, R67); a period is in ms. -/
inductive HoldTimer where
  | stopped
  | running (period : Nat)
  | expired
deriving DecidableEq, Repr

/-- A line as the composer hands it to the panel port, with its substitution indication (R1). -/
structure ComposedLine where
  codes : List Word
  substituted : Bool
deriving DecidableEq, Repr

/-- A strobe of the panel port with the words on PD0-PD15 (R73, R211): the FRAME strobe, a LINE strobe with the codes
of its line, and a LINE strobe whose line a soft reset has cut (R28, R80), with the codes that had gone out by then. -/
inductive Strobe where
  | frame (words : List Word)
  | line (codes : List Word)
  | cutLine (codes : List Word)
deriving DecidableEq, Repr

/-- A word address of picture memory: row and word column, 0-255 each (R117). -/
structure Addr where
  row : BitVec 8
  col : BitVec 8
deriving DecidableEq, Repr

/-- The picture memory array: (row x 256 + column, word) in rising order, no listed word 0 (log entry 10, DESIGN CHOICE). -/
abbrev Memory := List (Nat × Word)

/-- The read holder (R120). -/
structure Holder where
  addr : Addr
  value : Word
deriving DecidableEq, Repr

/-- An entry of the deferred-write queue (R135). -/
structure Deferred where
  addr : Addr
  value : Word
deriving DecidableEq, Repr

/-- What picture memory holds for the output frame in progress (R131, R132): the frame row set (rising, without
repeats), the frame's guard setting and the torn flag. -/
structure FrameView where
  rowSet : List Nat
  guard : Bool
  torn : Bool
deriving DecidableEq, Repr

/-- Mover state (R142). -/
inductive MoverState where
  | idle
  | running
  | stalled
deriving DecidableEq, Repr

/-- Kind of a mover operation (R142). -/
inductive MoveKind where
  | fill
  | copy
deriving DecidableEq, Repr

/-- Order in which an operation takes its rows (R147). -/
inductive Direction where
  | ascending
  | descending
deriving DecidableEq, Repr

/-- The mover's operation record (R142). -/
structure MoveOp where
  kind : MoveKind
  dstRow : Nat
  dstCol : Nat
  srcRow : Nat
  srcCol : Nat
  rows : Nat
  words : Nat
  value : Word
  direction : Direction
  rowsDone : Nat
  stepRow : Option Nat
deriving DecidableEq, Repr

/-- How a mover operation ended (R154). -/
inductive MoveOutcome where
  | complete
  | aborted
deriving DecidableEq, Repr

/-- Status of a command or of a packet (R170). -/
inductive Status where
  | ok
  | busy
  | full
  | range
  | length
  | mode
  | invalid
  | unknown
  | notRun
  | seq
deriving DecidableEq, Repr

/-- The result of a command: its status and data words (R171). -/
structure Result where
  status : Status
  data : List Word
deriving DecidableEq, Repr

/-- A command entry of a control packet (R202). -/
structure CommandEntry where
  code : BitVec 8
  operands : List Word
deriving DecidableEq, Repr

/-- An accepted control packet, held whole (R158, R160). -/
structure ControlPacket where
  seq : Seq
  sync : Bool
  entries : List CommandEntry
deriving DecidableEq, Repr

/-- A reply (R206). `expected` is the E that a SEQ reply carries, absent in every other reply. -/
structure Reply where
  seq : Seq
  replayed : Bool
  status : Status
  results : List Result
  expected : Option Seq
deriving DecidableEq, Repr

/-- A notice with its fields (R190). -/
inductive Notice where
  | linkLost (tag : Word)
  | linkRegained (tag : Word)
  | commitApplied (generation tag : Word)
  | moveDone (outcome : MoveOutcome) (kind : MoveKind) (rowsDone : Nat)
deriving DecidableEq, Repr

/-- The flags of a frame report (R77). -/
structure ReportFlags where
  holdover : Bool
  dark : Bool
  announce : Bool
  torn : Bool
  inputTruncated : Bool
  tagMismatch : Bool
  blanked : Bool
deriving DecidableEq, Repr

/-- A frame report (R76). -/
structure Report where
  tag : Word
  generation : Word
  flags : ReportFlags
  substituted : Nat
  skipped : Word
  drained : Nat
  lost : Word
deriving DecidableEq, Repr

/-- A packet of the reverse channel (R186). -/
inductive ReversePacket where
  | notice (n : Notice)
  | reply (r : Reply)
  | report (r : Report)
deriving DecidableEq, Repr

/-- The three queues of the reverse transmitter (R182). -/
inductive ReverseQueue where
  | notice
  | reply
  | report
deriving DecidableEq, Repr

/-- What the transmitter is sending: the packet, and the queue it heads; absent when a soft reset has emptied
that queue during the transmission (R182, R195). -/
structure Transmission where
  packet : ReversePacket
  queue : Option ReverseQueue
deriving DecidableEq, Repr

/-- State of the link receiver (R98, R103, R114, R116). A running loss timer holds its period in ms (R110). -/
structure LinkReceiver where
  ignoring : Bool
  delineation : Delineation
  parser : Parser
  current : Option CurrentFrame
  locked : Bool
  lastTag : Word
  lossTimer : Option Nat
  headerErrors : Word
  payloadErrors : Word
  strayPackets : Word
  lineErrors : Word
deriving DecidableEq, Repr

/-- State of the line store (R82, R83, R93): stored lines oldest first, the bound and the pending entry, the held
query. -/
structure LineStore where
  slots : List StoredLine
  bound : Option FrameEntry
  waiting : Option FrameEntry
  held : Option Int
deriving DecidableEq, Repr

/-- State of the configuration store (R29, R44, R51). -/
structure ConfigStore where
  pending : ConfigSet
  live : ConfigSet
  generation : Word
  commit : CommitState
  due : Option Due
deriving DecidableEq, Repr

/-- State of the output sequencer (R59-R61, R64, R65, R67, R78). -/
structure Sequencer where
  state : OutState
  record : Option FrameRecord
  emission : Option Emission
  slot : Option InputFrame
  holdTimer : HoldTimer
  tagCounter : Word
  skipAcc : Word
  framesSkipped : Word
deriving DecidableEq, Repr

/-- The panel port: the level of PANNOUNCE, and the strobes given so far, oldest first (R73, R74; log entry 15,
DESIGN CHOICE); `cuts` numbers the free values of log entry 25 (DESIGN CHOICE). -/
structure PanelPort where
  announce : Bool
  strobes : List Strobe
  cuts : Nat
deriving DecidableEq, Repr

/-- State of picture memory (chapter 6, its opening list). -/
structure PictureMemory where
  array : Memory
  cursor : Addr
  holder : Holder
  patch : Option Addr
  view : Option FrameView
  deferred : List Deferred
deriving DecidableEq, Repr

/-- State of the memory mover (R142). -/
structure Mover where
  state : MoverState
  op : MoveOp
deriving DecidableEq, Repr

/-- State of the management unit (R160); `results` are those of the execution under way (log entry 2, DESIGN CHOICE). -/
structure Management where
  expected : Seq
  queue : List ControlPacket
  history : List Reply
  lossTimeout : Nat
  holdoverPeriod : Nat
  reports : Bool
  controlDropped : Word
  duplicates : Word
  readTotal : Nat
  results : List Result
deriving DecidableEq, Repr

/-- State of the reverse transmitter (R182); `lane` is what has been started on RVL, oldest first (log entry 15, DESIGN CHOICE). -/
structure ReverseTransmitter where
  notices : List Notice
  replies : List Reply
  reports : List Report
  transmitter : Option Transmission
  noticesLost : Word
  reportsLost : Word
  lane : List ReversePacket
deriving DecidableEq, Repr

end Sys2Proof.Machine
end

