-- ==== Sys2Proof/Machine/Flags.lean ====
section
/-! DEFINITION. The codes of statuses, states and reasons, and the flags word of a frame report. -/

namespace Sys2Proof.Machine

/-- A flag or an off/on value as a word: 0 or 1 (R205, R208). -/
def boolWord (b : Bool) : Word :=
  if b then 1 else 0

/-- Status codes (R206). -/
def Status.code : Status → Word
  | .ok => 0
  | .busy => 1
  | .full => 2
  | .range => 3
  | .length => 4
  | .mode => 5
  | .invalid => 6
  | .unknown => 7
  | .notRun => 8
  | .seq => 9

/-- INVALID reason codes (R207). -/
def InvalidReason.code : InvalidReason → Word
  | .emptyMap => 1
  | .tiling => 2
  | .height => 3
  | .window => 4
  | .overlayRef => 5
  | .overlayFit => 6

/-- Parser state codes (R208). -/
def Parser.code : Parser → Word
  | .search => 0
  | .gap => 1
  | .inFrame => 2

/-- Output state codes (R208). -/
def OutState.code : OutState → Word
  | .wait => 0
  | .frame => 1
  | .holdGap => 2
  | .holdFrame => 3

/-- Commit state codes (R208, R209). -/
def CommitState.code : CommitState → Word
  | .none => 0
  | .armed => 1
  | .announcing => 2

/-- Due kind codes, 0 for no due condition (R208, R209). -/
def dueKindCode : Option Due → Word
  | none => 0
  | some .next => 1
  | some (.at _) => 2

/-- Due tag word: the tag for AT, 0 otherwise (R208, R209). -/
def dueTagWord : Option Due → Word
  | some (.at t) => t
  | _ => 0

/-- Mover state codes (R208). -/
def MoverState.code : MoverState → Word
  | .idle => 0
  | .running => 1
  | .stalled => 2

/-- Outcome codes of MOVE_DONE (R210). -/
def MoveOutcome.code : MoveOutcome → Word
  | .complete => 0
  | .aborted => 1

/-- Kind codes of MOVE_DONE (R210). -/
def MoveKind.code : MoveKind → Word
  | .fill => 0
  | .copy => 1

/-- The flags word of a report: bits 0-6 in the order of R210, bits 15-7 are 0. -/
def ReportFlags.word (f : ReportFlags) : Word :=
  boolWord f.holdover
    ||| boolWord f.dark <<< 1
    ||| boolWord f.announce <<< 2
    ||| boolWord f.torn <<< 3
    ||| boolWord f.inputTruncated <<< 4
    ||| boolWord f.tagMismatch <<< 5
    ||| boolWord f.blanked <<< 6

/-- The flags of a frame report (R77), from the frame record, the torn flag that picture memory hands on, and the
bound entry's close kind. -/
def reportFlags (record : FrameRecord) (torn : Bool) (close : Option CloseKind) : ReportFlags :=
  let isBound := match record.kind with
    | .bound _ => true
    | .holdover => false
  { holdover := !isBound
    dark := !record.drive
    announce := record.announce.isSome
    torn := torn
    inputTruncated := isBound && close == some .truncated
    tagMismatch := isBound && close == some .tagMismatch
    blanked := record.outputOverride == .blank }

end Sys2Proof.Machine
end

