-- ==== Sys2Proof/Machine/Formats.lean ====
section
/-! DEFINITION. Packet framing, the check word, and the payloads of the packets the part sends. -/

namespace Sys2Proof.Machine

/-- One bit into the check register: x^16 + x^12 + x^5 + 1, feedback from bit 15 (R199). -/
def crcBit (reg : Word) (bit : Bool) : Word :=
  let shifted := reg <<< 1
  if reg.getMsbD 0 ^^ bit then shifted ^^^ 0x1021 else shifted

/-- One word into the check register: high byte first, each byte from bit 7 down, so bit 15 first (R199). -/
def crcWord (reg w : Word) : Word :=
  (List.range 16).foldl (fun r i => crcBit r (w.getMsbD i)) reg

/-- The check value of a list of words, from 0xFFFF, with no final inversion (R199). -/
def crc (words : List Word) : Word :=
  words.foldl crcWord 0xFFFF

/-- Header word 1: kind code in bits 15-11, payload length in bits 10-0 (R197). -/
def headerWord (kind : KindCode) (length : Nat) : Word :=
  kind ++ BitVec.ofNat 11 length

/-- The kind code of header word 1 (R197, R198). -/
def headerKind (w1 : Word) : KindCode :=
  w1.extractLsb' 11 5

/-- The payload length of header word 1 (R197, R198). -/
def headerLength (w1 : Word) : Nat :=
  (w1.extractLsb' 0 11).toNat

/-- A packet's words on its lane (R197). -/
def frameWords (kind : KindCode) (payload : List Word) : List Word :=
  let w1 := headerWord kind payload.length
  [Config.startMarker, w1, crc [Config.startMarker, w1]] ++ payload ++ [crc payload]

/-- Word 0 of a reply: REPLAYED in bit 15, seq in bits 7-0 (R206). -/
def replyWord0 (replayed : Bool) (seq : Seq) : Word :=
  (if replayed then (0x8000 : Word) else 0) ||| seq.setWidth 16

/-- A result: status code and data count, then the data (R206). -/
def resultWords (r : Result) : List Word :=
  (r.status.code <<< 8 ||| BitVec.ofNat 16 r.data.length) :: r.data

/-- The payload of a REPLY packet (R206, R207). -/
def replyPayload (r : Reply) : List Word :=
  replyWord0 r.replayed r.seq :: r.status.code :: BitVec.ofNat 16 r.results.length
    :: (match r.expected with
        | some e => [e.setWidth 16]
        | none => r.results.flatMap resultWords)

/-- The payload of a NOTICE packet (R210). -/
def noticePayload : Notice → List Word
  | .linkLost tag => [1, tag]
  | .linkRegained tag => [2, tag]
  | .commitApplied generation tag => [3, generation, tag]
  | .moveDone outcome kind rowsDone => [4, outcome.code, kind.code, BitVec.ofNat 16 rowsDone]

/-- The payload of a REPORT packet (R210). -/
def reportPayload (r : Report) : List Word :=
  [r.tag, r.generation, r.flags.word, BitVec.ofNat 16 r.substituted, r.skipped, BitVec.ofNat 16 r.drained, r.lost]

/-- The words of a reverse packet on RVL (R186, R198, R200). -/
def reversePacketWords : ReversePacket → List Word
  | .reply r => frameWords 0x11 (replyPayload r)
  | .notice n => frameWords 0x12 (noticePayload n)
  | .report r => frameWords 0x13 (reportPayload r)

end Sys2Proof.Machine
end

