-- ==== Sys2Proof/Syntax.lean ====
section
/-! DEFINITION. The commands of the K718: one constructor per row of spec/opcode_table.json, in its order.
A packet row carries the packet's payload words; a command row carries its operand words as R204 orders them. -/

namespace Sys2Proof

/-- The 44 rows of the table of operations and events. -/
inductive Instr where
  /-- End of power-on reset (R116). -/
  | powerOn
  /-- Picture memory has set its array to 0; the link is listened to (R141, R116). -/
  | initialisationComplete
  /-- A header, or a candidate in HUNT, fails its check (R99). -/
  | headerCheckFailure
  /-- Arrival of a checked FRAME_OPEN packet (R105). -/
  | frameOpen (payload : List Word)
  /-- Arrival of a checked LINE packet (R107). -/
  | line (payload : List Word)
  /-- Arrival of a checked FRAME_CLOSE packet (R109). -/
  | frameClose (payload : List Word)
  /-- Arrival of a CONTROL packet that passed both checks (R161). -/
  | control (payload : List Word)
  /-- Arrival of a FILLER packet (R102). -/
  | filler (payload : List Word)
  /-- Arrival of a checked packet of an unknown kind code (R102). -/
  | unknownKindPacket (kind : KindCode) (payload : List Word)
  /-- The loss timer expires (R111). -/
  | lossExpiry
  /-- The holdover timer expires (R67). -/
  | holdoverTimerExpiry
  /-- The next output line may begin; `pready` is the level of the pin PREADY at that moment (R69). -/
  | emissionBegin (pready : Bool)
  /-- The last code of the line in emission has been sent (R71). -/
  | lineCompletion
  /-- The mover's row step in progress completes (R149). -/
  | rowStepCompletion
  /-- The reverse packet in transmission completes (R185). -/
  | transmissionCompletion
  /-- The packet at the head of the command queue executes (R168). -/
  | execution
  | nop
  | identify
  | status
  | setParam (lossTimeout holdoverPeriod reportEnable : Word)
  | clearCounts
  | softReset
  | setGeometry (hOut wOut : Word)
  | mapLength (n : Word)
  | segWrite (slot : Word) (record : List Word)
  | ovlWrite (slot : Word) (record : List Word)
  | ovlClear (slot : Word)
  | palWrite (palette firstEntry : Word) (codes : List Word)
  | setColours (loss blank : Word)
  | setOutput (mode guard drive : Word)
  | copyLiveToPending
  | readConfig (selector item index : Word)
  | commit (dueKind dueTag : Word)
  | cancelCommit
  | memAddress (row col : Word)
  | memWrite (words : List Word)
  | memRead (n : Word)
  | patchBegin
  | patchEnd
  | moveFill (row col rows words value : Word)
  | moveCopy (srcRow srcCol dstRow dstCol rows words : Word)
  | moveAbort
  /-- Arrival of a packet whose header passed and whose payload CRC differs (R101). -/
  | payloadCheckFailedPacket (kind : KindCode) (payload : List Word)
  /-- In HUNT, a received word equals the start marker (R100). -/
  | startMarkerInHunt
deriving DecidableEq, Repr

end Sys2Proof
end

