-- ==== Sys2Proof/Decode.lean ====
section
/-! DEFINITION. From words to rows of the table: what a stream of words on the forward link brings about, and the
table's own words (no row of the table has bits). -/

namespace Sys2Proof

open Sys2Proof.Machine (Delineation frameWords crc headerKind headerLength)

/-- The row that the arrival of a packet is, once both its checks have passed: dispatch by kind code (R102, R200). -/
def packetEvent (kind : KindCode) (payload : List Word) : Instr :=
  if kind = 0x01 then .frameOpen payload
  else if kind = 0x02 then .line payload
  else if kind = 0x03 then .frameClose payload
  else if kind = 0x04 then .control payload
  else if kind = 0x1F then .filler payload
  else .unknownKindPacket kind payload

/-- The header check of R99 beyond word 0: the check word matches and the length is at most 1100. -/
def headerPasses (w1 w2 : Word) : Bool :=
  decide (w2 = crc [Config.startMarker, w1]) && decide (headerLength w1 ≤ Config.maxPayload)

/-- What the link receiver makes of words that begin where a packet must begin (ALIGNED): the row that comes about,
the delineation state after it, and the words not yet taken. `none` while the packet is incomplete.
After a failed header the words after its word 0 are examined again (R98-R101). -/
def receivePacket : List Word → Option (Instr × Delineation × List Word)
  | [] => none
  | w0 :: rest =>
    if w0 ≠ Config.startMarker then some (.headerCheckFailure, .hunt, rest)
    else match rest with
      | w1 :: w2 :: body =>
        if headerPasses w1 w2 then
          let n := headerLength w1
          match body.drop n with
          | [] => none
          | check :: after =>
            if check = crc (body.take n) then some (packetEvent (headerKind w1) (body.take n), .aligned, after)
            else some (.payloadCheckFailedPacket (headerKind w1) (body.take n), .aligned, after)
        else some (.headerCheckFailure, .hunt, rest)
      | _ => none

/-- The rows that a stream of words brings about, in order, the delineation state after them, and the words of a
packet still in reception. In HUNT words are discarded up to a start marker (R100). `fuel` bounds the rows and
discarded words; the number of words is enough. -/
def linkEvents : Nat → Delineation → List Word → List Instr × Delineation × List Word
  | 0, d, ws => ([], d, ws)
  | _ + 1, .hunt, [] => ([], .hunt, [])
  | fuel + 1, .hunt, w :: rest =>
    if w = Config.startMarker then
      match receivePacket (w :: rest) with
      | none => ([.startMarkerInHunt], .aligned, w :: rest)
      | some (i, d, after) =>
        let r := linkEvents fuel d after
        (.startMarkerInHunt :: i :: r.1, r.2)
    else linkEvents fuel .hunt rest
  | fuel + 1, .aligned, ws =>
    match receivePacket ws with
    | none => ([], .aligned, ws)
    | some (i, d, after) =>
      let r := linkEvents fuel d after
      (i :: r.1, r.2)

/-- The same from the link receiver as it stands: words taken while the link is ignored bring nothing about, and none of
them is kept, so what has begun during initialisation is lost (R116). -/
def receiveWords (ignoring : Bool) (d : Delineation) (words : List Word) : List Instr × Delineation × List Word :=
  if ignoring then ([], d, []) else linkEvents words.length d words

/-- The words on the forward link of the packet whose arrival a row is; no words for a row that is no packet. -/
def encodePacket : Instr → List Word
  | .frameOpen p => frameWords 0x01 p
  | .line p => frameWords 0x02 p
  | .frameClose p => frameWords 0x03 p
  | .control p => frameWords 0x04 p
  | .filler p => frameWords 0x1F p
  | .unknownKindPacket k p => frameWords k p
  | _ => []

/-- The command that a word spells by the table's bits: spec/opcode_table.json gives no row any bits, so none
(log entry 20, DEDUCED). -/
def decodeTableWord (nbits w : Nat) : Option Instr :=
  match nbits, w with
  | _, _ => none

end Sys2Proof
end

