-- ==== Sys2Proof/Machine/Ops.lean ====
section
/-! DEFINITION. Shared operations: counters, and reads and writes of the picture memory array. -/

namespace Sys2Proof.Machine

/-- A 16-bit counter raised by 1 that stays at 65535 (00_scope.md, 4.2; R114). -/
def satInc (n : Word) : Word :=
  if n = 0xFFFF then n else n + 1

/-- `n` is in the range `lo`-`hi`, both ends included (00_scope.md, 4.2). -/
def within (lo hi n : Nat) : Bool :=
  decide (lo ≤ n ∧ n ≤ hi)

/-- The key of the word (row, col): rows of 256 words (R117). -/
def wordKey (row col : Nat) : Nat :=
  row * 256 + col

/-- The key of a word address (R117). -/
def Addr.key (a : Addr) : Nat :=
  wordKey a.row.toNat a.col.toNat

/-- One advance of the access cursor, from (255, 255) to (0, 0) (R119). -/
def Addr.next (a : Addr) : Addr :=
  if a.col = 255 then { row := a.row + 1, col := 0 } else { a with col := a.col + 1 }

/-- The word at a key; a word not listed reads 0 (R141, log entry 10, DESIGN CHOICE). -/
def Memory.read : Memory → Nat → Word
  | [], _ => 0
  | (k, v) :: rest, a => if k = a then v else if a < k then 0 else Memory.read rest a

/-- Write one word, keeping the canonical form: rising keys, no listed word 0. -/
def Memory.write : Memory → Nat → Word → Memory
  | [], a, v => if v = 0 then [] else [(a, v)]
  | (k, w) :: rest, a, v =>
    if k < a then (k, w) :: Memory.write rest a v
    else if k = a then (if v = 0 then rest else (a, v) :: rest)
    else (if v = 0 then (k, w) :: rest else (a, v) :: (k, w) :: rest)

/-- Keys rise strictly from `lo` on, lie in the array, and no listed word is 0. -/
def Memory.wfFrom (lo : Nat) : Memory → Bool
  | [] => true
  | (k, v) :: rest => decide (lo ≤ k) && decide (k < 65536) && decide (v ≠ 0) && Memory.wfFrom (k + 1) rest

/-- The canonical form of the array. -/
def Memory.wf (m : Memory) : Bool :=
  Memory.wfFrom 0 m

/-- Read a run of `n` words from a key on (a row span, R147). -/
def Memory.readSpan (m : Memory) (key n : Nat) : List Word :=
  (List.range n).map fun j => m.read (key + j)

/-- Write a run of words from a key on (a row span, R148). -/
def Memory.writeSpan (m : Memory) (key : Nat) : List Word → Memory
  | [] => m
  | w :: ws => Memory.writeSpan (m.write key w) (key + 1) ws

/-- The pixel index at pixel column `p` mod 4 of a word: the leftmost pixel is the most significant nibble (R211). -/
def wordPixel (w : Word) (p : Nat) : Nat :=
  (w.toNat / 16 ^ (3 - p % 4)) % 16

/-- The 4-bit pixel index at a row and a pixel column (R118, R211). -/
def Memory.pixel (m : Memory) (row p : Nat) : Nat :=
  wordPixel (m.read (wordKey row (p / 4))) p

end Sys2Proof.Machine
end

