-- ==== Sys2Proof/Machine/LineStore.lean ====
section
/-! DEFINITION. The line store: entries, storing and freeing lines, line resolution and the held query. -/

namespace Sys2Proof.Machine

/-- The entry of the input frame that is open at the link receiver: the pending entry when there is one, for the
latest FRAME_OPEN takes it; otherwise the bound entry (R84, R90; log entry 11, DEDUCED). -/
def LineStore.receiving (l : LineStore) : Option EntryRef :=
  if l.waiting.isSome then some .waiting
  else if l.bound.isSome then some .bound
  else none

/-- The entry itself (R83). -/
def LineStore.entry (l : LineStore) : EntryRef → Option FrameEntry
  | .bound => l.bound
  | .waiting => l.waiting

/-- A change of one entry, if it exists. -/
def LineStore.mapEntry (l : LineStore) (r : EntryRef) (f : FrameEntry → FrameEntry) : LineStore :=
  match r with
  | .bound => { l with bound := l.bound.map f }
  | .waiting => { l with waiting := l.waiting.map f }

/-- A new entry: OPEN, nothing received (R84). -/
def newEntry (f : InputFrame) : FrameEntry :=
  { frame := f, highest := none, close := none }

/-- The stored line of the bound entry with number `q`, if there is one (row 1 of R92). -/
def LineStore.stored (l : LineStore) (q : Int) : Option StoredLine :=
  l.slots.find? fun line => line.entry == .bound && decide ((line.number : Int) = q)

/-- The answer to a query for input line `q` of the bound input frame: the first row of R92 that applies. Without a
bound entry nothing is asked (R13); the answer then is missing. -/
def LineStore.query (l : LineStore) (q : Int) : Answer :=
  match l.bound with
  | none => .missing
  | some e =>
    match l.stored q with
    | some line => .present line
    | none =>
      if q < 0 ∨ (e.frame.declared : Int) ≤ q then .missing
      else if e.close.isSome then .missing
      else if e.highest.any fun (h : Nat) => decide (q ≤ (h : Int)) then .missing
      else .waiting

/-- The held query is answered again, and dropped once its answer is present or missing (R93). -/
def LineStore.answerHeld (l : LineStore) : LineStore :=
  match l.held with
  | none => l
  | some q => if l.query q = .waiting then l else { l with held := none }

/-- The composer asks for input line `q`; a waiting answer is kept as the held query (R93). -/
def LineStore.ask (l : LineStore) (q : Int) : LineStore :=
  if l.query q = .waiting then { l with held := some q } else l

/-- The close of the open input frame reaches the store (R85): its entry, if it has one and is OPEN, takes the
kind, and a held query is answered again. -/
def LineStore.closeFrame (l : LineStore) (kind : CloseKind) : LineStore :=
  match l.receiving with
  | none => l
  | some r =>
    LineStore.answerHeld
      (l.mapEntry r fun e => if e.close.isNone then { e with close := some kind } else e)

/-- Steps 2 and 3 of R86: a line of the other entry with the same tag and number is freed (R88); otherwise, with all
32 slots occupied, the oldest line is (R87). -/
def makeRoom (slots : List StoredLine) (r : EntryRef) (tag : Word) (number : Nat) : List StoredLine :=
  if slots.any fun s => s.entry != r && s.tag == tag && s.number == number then
    slots.filter fun s => !(s.entry != r && s.tag == tag && s.number == number)
  else if slots.length < Config.lineSlots then slots
  else slots.tail

/-- An accepted LINE reaches the store (R86); for a frame without an entry it is a late line (R89). -/
def LineStore.storeLine (l : LineStore) (tag : Word) (number : Nat) (pixels : List Word) : LineStore :=
  match l.receiving with
  | none => l
  | some r =>
    let raised := l.mapEntry r fun e => { e with highest := some number }
    let line : StoredLine := { entry := r, tag := tag, number := number, pixels := pixels }
    LineStore.answerHeld { raised with slots := makeRoom raised.slots r tag number ++ [line] }

/-- A valid FRAME_OPEN whose frame is bound at once (R84). -/
def LineStore.openBound (l : LineStore) (f : InputFrame) : LineStore :=
  { l with bound := some (newEntry f) }

/-- A valid FRAME_OPEN whose frame is placed in the pending slot, replacing an earlier one (R84, R91). -/
def LineStore.openWaiting (l : LineStore) (f : InputFrame) : LineStore :=
  { l with
    slots := l.slots.filter fun s => s.entry != .waiting
    waiting := some (newEntry f) }

/-- The end of a bound output frame: every line of the bound entry is freed and the entry removed (R90). -/
def LineStore.freeBound (l : LineStore) : LineStore :=
  { l with
    slots := l.slots.filter fun s => s.entry != .bound
    bound := none
    held := none }

/-- The pending entry becomes the bound entry with its lines (R83, R90). -/
def LineStore.bindWaiting (l : LineStore) : LineStore :=
  { l with
    slots := l.slots.map fun s => if s.entry = .waiting then { s with entry := .bound } else s
    bound := l.waiting
    waiting := none }

end Sys2Proof.Machine
end

