-- ==== Sys2Proof/Machine/Operands.lean ====
section
/-! DEFINITION. Every operand form of R205: words to values with their ranges, and values to words as R209 returns
them. `none` is "out of range". -/

namespace Sys2Proof.Machine

/-- A numeric operand in the range `lo`-`hi`. -/
def numOperand (lo hi : Nat) (w : Word) : Option Nat :=
  if within lo hi w.toNat then some w.toNat else none

/-- Off/on operands: mirror, guard, drive, report enable. -/
def boolOperand (w : Word) : Option Bool :=
  if w = 0 then some false else if w = 1 then some true else none

/-- Segment kind codes. -/
def kindOperand (w : Word) : Option SegKind :=
  if w = 0 then some .link else if w = 1 then some .memory else if w = 2 then some .fill else none

def kindWord : SegKind → Word
  | .link => 0
  | .memory => 1
  | .fill => 2

/-- Step codes: the two's complement of the step in 16 bits. -/
def stepOperand (w : Word) : Option Step :=
  if w = 0xFFFE then some .minus2
  else if w = 0xFFFF then some .minus1
  else if w = 0 then some .zero
  else if w = 1 then some .plus1
  else if w = 2 then some .plus2
  else none

def stepWord : Step → Word
  | .minus2 => 0xFFFE
  | .minus1 => 0xFFFF
  | .zero => 0
  | .plus1 => 1
  | .plus2 => 2

/-- The step as a number (R6). -/
def Step.toInt : Step → Int
  | .minus2 => -2
  | .minus1 => -1
  | .zero => 0
  | .plus1 => 1
  | .plus2 => 2

/-- A field 0-15 or "absent", for which only the whole word 0x00FF stands (overlay, key). -/
def absentOperand (w : Word) : Option (Option Nat) :=
  if w = 0x00FF then some none
  else if w.toNat ≤ 15 then some (some w.toNat)
  else none

def absentWord : Option Nat → Word
  | none => 0x00FF
  | some n => BitVec.ofNat 16 n

/-- Output override codes. -/
def overrideOperand (w : Word) : Option OutputOverride :=
  if w = 0 then some .normal else if w = 1 then some .blank else if w = 2 then some .invert else none

def overrideWord : OutputOverride → Word
  | .normal => 0
  | .blank => 1
  | .invert => 2

/-- COMMIT's two operands; with NEXT the due tag is not examined. -/
def dueOperand (kind tag : Word) : Option Due :=
  if kind = 1 then some .next else if kind = 2 then some (.at tag) else none

/-- READ_CONFIG's selector: false is pending, true is live. -/
def selectorOperand (w : Word) : Option Bool :=
  boolOperand w

/-- The range of src_start follows the kind (R35). -/
def srcStartLimit : SegKind → Nat
  | .memory => 255
  | .link => 1023
  | .fill => 1023

/-- Every field of the record lies within its range (R6, R35). -/
def Segment.inRange (g : Segment) : Bool :=
  within 0 1023 g.first && within 1 1024 g.count && within 0 (srcStartLimit g.kind) g.srcStart
    && within 0 255 g.windowBase && within 1 256 g.windowRows && within 0 1023 g.colStart && within 0 7 g.palette
    && g.overlay.all fun j => within 0 15 j

/-- Every field of the record lies within its range (R21, R36). -/
def Overlay.inRange (o : Overlay) : Bool :=
  within 0 255 o.rowBase && within 1 256 o.rows && within 0 1023 o.lineOffset && within 0 1023 o.srcCol
    && (within 4 1024 o.span && decide (o.span % 4 = 0)) && within 0 1023 o.destX && within 0 7 o.palette
    && o.key.all fun i => within 0 15 i

/-- The twelve words of a segment record read as a record, each field checked (R35, R205). -/
def segmentOperand : List Word → Option Segment
  | [first, count, kind, srcStart, step, windowBase, windowRows, colStart, mirror, palette, fill, overlay] =>
    match kindOperand kind, stepOperand step, boolOperand mirror, absentOperand overlay with
    | some k, some st, some mi, some ov =>
      let g : Segment :=
        { first := first.toNat, count := count.toNat, kind := k, srcStart := srcStart.toNat, step := st,
          windowBase := windowBase.toNat, windowRows := windowRows.toNat, colStart := colStart.toNat, mirror := mi,
          palette := palette.toNat, fill := fill, overlay := ov }
      if g.inRange then some g else none
    | _, _, _, _ => none
  | _ => none

/-- The twelve words of a segment record, as READ_CONFIG returns them (R209). -/
def segmentWords (g : Segment) : List Word :=
  [BitVec.ofNat 16 g.first, BitVec.ofNat 16 g.count, kindWord g.kind, BitVec.ofNat 16 g.srcStart, stepWord g.step,
   BitVec.ofNat 16 g.windowBase, BitVec.ofNat 16 g.windowRows, BitVec.ofNat 16 g.colStart, boolWord g.mirror,
   BitVec.ofNat 16 g.palette, g.fill, absentWord g.overlay]

/-- The eight words of an overlay record read as a record, each field checked (R36, R205). -/
def overlayOperand : List Word → Option Overlay
  | [rowBase, rows, lineOffset, srcCol, span, destX, palette, key] =>
    match absentOperand key with
    | some k =>
      let o : Overlay :=
        { rowBase := rowBase.toNat, rows := rows.toNat, lineOffset := lineOffset.toNat, srcCol := srcCol.toNat,
          span := span.toNat, destX := destX.toNat, palette := palette.toNat, key := k }
      if o.inRange then some o else none
    | none => none
  | _ => none

/-- The eight words of an overlay record (R209). -/
def overlayWords (o : Overlay) : List Word :=
  [BitVec.ofNat 16 o.rowBase, BitVec.ofNat 16 o.rows, BitVec.ofNat 16 o.lineOffset, BitVec.ofNat 16 o.srcCol,
   BitVec.ofNat 16 o.span, BitVec.ofNat 16 o.destX, BitVec.ofNat 16 o.palette, absentWord o.key]

end Sys2Proof.Machine
end

