-- ==== Sys2Proof/Machine/ConfigStore.lean ====
section
/-! DEFINITION. The configuration store: edits of the pending set, reading back, validation, the commit request, and
the decision at an output frame start. -/

namespace Sys2Proof.Machine

/-- A result with status OK. -/
def okResult (data : List Word) : Result :=
  { status := .ok, data := data }

/-- A refusal, or a status that carries no data (R207). -/
def refusal (status : Status) : Result :=
  { status := status, data := [] }

/-- An edit command: BUSY unless the commit request is NONE, before any operand is looked at; then one whole change
of the pending set, or a refusal that writes nothing (R31). -/
def ConfigStore.edit (c : ConfigStore) (change : ConfigSet → Except Status ConfigSet) : ConfigStore × Result :=
  if c.commit = .none then
    match change c.pending with
    | .ok set => ({ c with pending := set }, okResult [])
    | .error status => (c, refusal status)
  else (c, refusal .busy)

/-- SET_GEOMETRY (R33). -/
def ConfigStore.setGeometry (c : ConfigStore) (hOut wOut : Word) : ConfigStore × Result :=
  c.edit fun p =>
    match numOperand 1 1024 hOut, numOperand 16 1024 wOut with
    | some h, some w => if w % 4 = 0 then .ok { p with hOut := h, wOut := w } else .error .range
    | _, _ => .error .range

/-- MAP_LENGTH (R34). -/
def ConfigStore.setMapLength (c : ConfigStore) (n : Word) : ConfigStore × Result :=
  c.edit fun p =>
    match numOperand 0 32 n with
    | some k => .ok { p with mapLength := k }
    | none => .error .range

/-- SEG_WRITE (R35). -/
def ConfigStore.writeSegment (c : ConfigStore) (slot : Word) (record : List Word) : ConfigStore × Result :=
  c.edit fun p =>
    match numOperand 0 31 slot, segmentOperand record with
    | some i, some g => .ok { p with segments := p.segments.setIfInBounds i g }
    | _, _ => .error .range

/-- OVL_WRITE (R36). -/
def ConfigStore.writeOverlay (c : ConfigStore) (slot : Word) (record : List Word) : ConfigStore × Result :=
  c.edit fun p =>
    match numOperand 0 15 slot, overlayOperand record with
    | some j, some o => .ok { p with overlays := p.overlays.setIfInBounds j (some o) }
    | _, _ => .error .range

/-- OVL_CLEAR (R37). -/
def ConfigStore.clearOverlay (c : ConfigStore) (slot : Word) : ConfigStore × Result :=
  c.edit fun p =>
    match numOperand 0 15 slot with
    | some j => .ok { p with overlays := p.overlays.setIfInBounds j none }
    | none => .error .range

/-- Consecutive entries of a palette, from entry `i` on (R38). -/
def writeEntries (palette : Vector Word 16) (i : Nat) : List Word → Vector Word 16
  | [] => palette
  | code :: codes => writeEntries (palette.setIfInBounds i code) (i + 1) codes

/-- PAL_WRITE: the ranges first, then the fit (R38). -/
def ConfigStore.writePalette (c : ConfigStore) (palette firstEntry : Word) (codes : List Word) :
    ConfigStore × Result :=
  c.edit fun p =>
    match p.palettes[palette.toNat]?, numOperand 0 15 firstEntry with
    | some pal, some i =>
      if i + codes.length > 16 then .error .length
      else .ok { p with palettes := p.palettes.setIfInBounds palette.toNat (writeEntries pal i codes) }
    | _, _ => .error .range

/-- SET_COLOURS (R39). -/
def ConfigStore.setColours (c : ConfigStore) (loss blank : Word) : ConfigStore × Result :=
  c.edit fun p => .ok { p with lossColour := loss, blankColour := blank }

/-- SET_OUTPUT (R40). -/
def ConfigStore.setOutput (c : ConfigStore) (mode guard drive : Word) : ConfigStore × Result :=
  c.edit fun p =>
    match overrideOperand mode, boolOperand guard, boolOperand drive with
    | some o, some g, some d => .ok { p with outputOverride := o, tearGuard := g, panelDrive := d }
    | _, _, _ => .error .range

/-- COPY_LIVE_TO_PENDING (R41). -/
def ConfigStore.copyLiveToPending (c : ConfigStore) : ConfigStore × Result :=
  c.edit fun _ => .ok c.live

/-- The data of one item of a set (R209); `none` where item or index stands for no value (R42). -/
def ConfigStore.itemWords (c : ConfigStore) (set : ConfigSet) (item index : Word) : Option (List Word) :=
  if item = 0 then some [BitVec.ofNat 16 set.hOut, BitVec.ofNat 16 set.wOut]
  else if item = 1 then some [BitVec.ofNat 16 set.mapLength]
  else if item = 2 then set.segments[index.toNat]?.map segmentWords
  else if item = 3 then
    match set.overlays[index.toNat]? with
    | none => none
    | some none => some [0]
    | some (some o) => some (1 :: overlayWords o)
  else if item = 4 then set.palettes[index.toNat]?.map Vector.toList
  else if item = 5 then some [set.lossColour, set.blankColour]
  else if item = 6 then some [overrideWord set.outputOverride, boolWord set.tearGuard, boolWord set.panelDrive]
  else if item = 7 then
    some [c.generation, c.commit.code, dueKindCode c.due, dueTagWord c.due, boolWord (decide (c.pending ≠ c.live))]
  else none

/-- READ_CONFIG (R42, R43). -/
def ConfigStore.readItem (c : ConfigStore) (selector item index : Word) : Result :=
  match selectorOperand selector with
  | none => refusal .range
  | some isLive =>
    match c.itemWords (if isLive then c.live else c.pending) item index with
    | some data => okResult data
    | none => refusal .range

/-- Segments 0 to n - 1 of a set (R3). -/
def ConfigSet.list (p : ConfigSet) : List Segment :=
  p.segments.toList.take p.mapLength

/-- Checks 2 to 5 of R46 on one segment. -/
def segmentFault (p : ConfigSet) (expected : Nat) (g : Segment) : Option InvalidReason :=
  if g.first ≠ expected then some .tiling
  else if g.first + g.count > p.hOut then some .height
  else if g.kind = .memory ∧ (g.windowBase + g.windowRows > 256 ∨ g.srcStart ≥ g.windowRows) then some .window
  else if g.overlay.any fun j => decide (p.overlays[j]? = some none) then some .overlayRef
  else none

/-- The pass of R46 over segments i, i + 1, …, and check 6 at its end. `expected` is where segment i has to
start. -/
def passSegments (p : ConfigSet) (i expected : Nat) : List Segment → Option (InvalidReason × Nat)
  | [] => if expected ≠ p.hOut then some (.height, i - 1) else none
  | g :: rest =>
    match segmentFault p expected g with
    | some reason => some (reason, i)
    | none => passSegments p (i + 1) (g.first + g.count) rest

/-- Overlay slot j is named by at least one segment of the list (R46, R131). -/
def ConfigSet.names (p : ConfigSet) (j : Nat) : Bool :=
  p.list.any fun g => g.overlay == some j

/-- The overlay in slot j fails check 7 (R46). -/
def overlayMisfit (p : ConfigSet) (j : Nat) : Bool :=
  match p.overlays[j]? with
  | some (some o) => decide (o.rowBase + o.rows > 256) || decide (o.srcCol + o.span > 1024)
  | _ => false

/-- Validation of a set: the first failure in the order of R46, with the index of R47. -/
def validate (p : ConfigSet) : Option (InvalidReason × Nat) :=
  if p.mapLength = 0 then some (.emptyMap, 0)
  else
    match passSegments p 0 0 p.list with
    | some failure => some failure
    | none => ((List.range 16).find? fun j => p.names j && overlayMisfit p j).map fun j => (.overlayFit, j)

/-- COMMIT (R45). -/
def ConfigStore.requestCommit (c : ConfigStore) (dueKind dueTag : Word) : ConfigStore × Result :=
  if c.commit = .none then
    match dueOperand dueKind dueTag with
    | none => (c, refusal .range)
    | some due =>
      match validate c.pending with
      | some (reason, index) => (c, { status := .invalid, data := [reason.code, BitVec.ofNat 16 index] })
      | none => ({ c with commit := .armed, due := some due }, okResult [c.generation + 1])
  else (c, refusal .busy)

/-- CANCEL_COMMIT (R54). -/
def ConfigStore.cancelCommit (c : ConfigStore) : ConfigStore × Result :=
  match c.commit with
  | .none => (c, okResult [])
  | .armed => ({ c with commit := .none, due := none }, okResult [])
  | .announcing => (c, refusal .busy)

/-- The request is due at an output frame start with tag T: NEXT always, AT t when (T - t) mod 65536 < 32768
(R48, R49). -/
def dueAt (due : Option Due) (tag : Word) : Bool :=
  match due with
  | some .next => true
  | some (.at t) => decide ((tag - t).toNat < 32768)
  | none => false

/-- Pending and live geometry are equal (R50). -/
def ConfigStore.sameGeometry (c : ConfigStore) : Bool :=
  decide (c.pending.hOut = c.live.hOut ∧ c.pending.wOut = c.live.wOut)

/-- A transfer: the pending set becomes live, the generation rises, the request is NONE (R50, R51). -/
def ConfigStore.transfer (c : ConfigStore) : ConfigStore :=
  { c with live := c.pending, generation := c.generation + 1, commit := .none, due := none }

/-- What CFG decides at an output frame start: its new state, the announced geometry, and the COMMIT_APPLIED notice of
a transfer (R50, R52, R53). -/
structure StartDecision where
  config : ConfigStore
  announce : Option (Nat × Nat)
  notice : Option Notice
deriving DecidableEq, Repr

/-- A start at which CFG does nothing (R50). -/
def keepLive (c : ConfigStore) : StartDecision :=
  { config := c, announce := none, notice := none }

/-- A start at which CFG transfers (R50, R53). -/
def transferNow (c : ConfigStore) (tag : Word) : StartDecision :=
  { config := c.transfer, announce := none, notice := some (.commitApplied (c.generation + 1) tag) }

/-- A start that becomes the announce frame (R52). -/
def announceNow (c : ConfigStore) : StartDecision :=
  { config := { c with commit := .announcing }, announce := some (c.pending.hOut, c.pending.wOut), notice := none }

/-- CFG's decision at an output frame start with the given tag (R50). -/
def ConfigStore.frameStart (c : ConfigStore) (tag : Word) : StartDecision :=
  match c.commit with
  | .none => keepLive c
  | .armed =>
    if dueAt c.due tag then (if c.sameGeometry then transferNow c tag else announceNow c)
    else keepLive c
  | .announcing => transferNow c tag

end Sys2Proof.Machine
end

