-- ==== Sys2Proof/Machine/Mover.lean ====
section
/-! DEFINITION. The memory mover: its rectangles, the order of its row steps, the stall, and one row step's effect on
the array. -/

namespace Sys2Proof.Machine

/-- The address lies in the rectangle of `rows` rows and `words` word columns from (row, col) (R146). -/
def inRectangle (row col rows words : Nat) (a : Addr) : Bool :=
  decide (row ≤ a.row.toNat ∧ a.row.toNat < row + rows) && decide (col ≤ a.col.toNat ∧ a.col.toNat < col + words)

/-- The address lies in a protected rectangle of the operation: the destination, and the source of a COPY (R146). -/
def MoveOp.covers (o : MoveOp) (a : Addr) : Bool :=
  inRectangle o.dstRow o.dstCol o.rows o.words a
    || (o.kind == .copy && inRectangle o.srcRow o.srcCol o.rows o.words a)

/-- An operation is in flight, in RUNNING and in STALLED (R142). -/
def Mover.inFlight (m : Mover) : Bool :=
  m.state != .idle

/-- A command word at the address fails the protected-rectangle check (R122, R146). -/
def Mover.protects (m : Mover) (a : Addr) : Bool :=
  m.inFlight && m.op.covers a

/-- DESCENDING for a COPY whose destination row lies above its source row, else ASCENDING (R147). -/
def moveDirection (kind : MoveKind) (srcRow dstRow : Nat) : Direction :=
  if kind = .copy ∧ dstRow > srcRow then .descending else .ascending

/-- The offset to step next: the first in the order that has not been applied (R147). -/
def MoveOp.nextOffset (o : MoveOp) : Nat :=
  match o.direction with
  | .ascending => o.rowsDone
  | .descending => o.rows - 1 - o.rowsDone

/-- The stall condition for row offset i (R150). -/
def MoveOp.stalls (o : MoveOp) (p : PictureMemory) (i : Nat) : Bool :=
  match p.view with
  | none => false
  | some v =>
    v.guard
      && (v.rowSet.contains (o.dstRow + i)
        || (o.kind == .copy && p.deferred.any fun d => d.addr.row.toNat == o.srcRow + i))

/-- The mover decides about the next step: it begins the step, or becomes STALLED (R145, R149, R150). -/
def Mover.decideStep (m : Mover) (p : PictureMemory) : Mover :=
  if m.op.stalls p m.op.nextOffset then
    { state := .stalled, op := { m.op with stepRow := none } }
  else
    { state := .running, op := { m.op with stepRow := some m.op.nextOffset } }

/-- A STALLED operation resumes at an output frame end: it is decided again, against the frame that has followed at
once, if one has (R151). -/
def Mover.resume (m : Mover) (p : PictureMemory) : Mover :=
  if m.state = .stalled then m.decideStep p else m

/-- Acceptance: the record is filled, rows done is 0, and the first step is decided (R145). The record has a source only
in a COPY and a value only in a FILL (R142); the model's fields hold the 0 that the caller gives them in the other kind
(log entry 14, DESIGN CHOICE). -/
def startMove (kind : MoveKind) (srcRow srcCol dstRow dstCol rows words : Nat) (value : Word) (p : PictureMemory) :
    Mover :=
  Mover.decideStep
    { state := .running
      op := { kind := kind, dstRow := dstRow, dstCol := dstCol, srcRow := srcRow, srcCol := srcCol, rows := rows,
              words := words, value := value, direction := moveDirection kind srcRow dstRow, rowsDone := 0,
              stepRow := none } }
    p

/-- A rectangle lies within the array (R143, R144). -/
def rectangleFits (row col rows words : Nat) : Bool :=
  decide (row ≤ 255 ∧ col ≤ 255 ∧ 1 ≤ rows ∧ 1 ≤ words ∧ row + rows ≤ 256 ∧ col + words ≤ 256)

/-- The destination row span's words after the step for offset i: the fill value, or the source row span (R148). -/
def MoveOp.stepWords (o : MoveOp) (array : Memory) (i : Nat) : List Word :=
  match o.kind with
  | .fill => List.replicate o.words o.value
  | .copy => array.readSpan (wordKey (o.srcRow + i) o.srcCol) o.words

/-- The array after the step for offset i: the span is read whole before it is written (R148). -/
def MoveOp.applyStep (o : MoveOp) (array : Memory) (i : Nat) : Memory :=
  array.writeSpan (wordKey (o.dstRow + i) o.dstCol) (o.stepWords array i)

/-- The mover is IDLE with the record's kind and rows done kept; no step is in progress (R142, R152, R153, R156). The
record's other fields, which have no effect in IDLE, are kept too (log entry 14, DESIGN CHOICE). -/
def Mover.halt (m : Mover) : Mover :=
  { state := .idle, op := { m.op with stepRow := none } }

end Sys2Proof.Machine
end

