-- ==== Sys2Proof/Machine/PictureMemory.lean ====
section
/-! DEFINITION. Picture memory: the cursor, the read holder, memory commands, patch mode, the frame row set, the tear
guard and deferred writes. -/

namespace Sys2Proof.Machine

/-- The newest value the host has written to a word: the youngest deferred entry for it, else the array's (R120). -/
def PictureMemory.newest (p : PictureMemory) (a : Addr) : Word :=
  match p.deferred.reverse.find? fun d => d.addr == a with
  | some d => d.value
  | none => p.array.read a.key

/-- A holder load at an address (R120). -/
def PictureMemory.load (p : PictureMemory) (a : Addr) : PictureMemory :=
  { p with holder := { addr := a, value := p.newest a } }

/-- A row lies in the frame row set of the frame in progress (R131). -/
def PictureMemory.inRowSet (p : PictureMemory) (row : Nat) : Bool :=
  p.view.any fun v => v.rowSet.contains row

/-- The tear guard requires a word at this address to be deferred (R133). -/
def PictureMemory.defers (p : PictureMemory) (a : Addr) : Bool :=
  p.view.any fun v => v.guard && v.rowSet.contains a.row.toNat

/-- A write applied to the array at `row`: with the frame's guard off and the row in the set, the frame is torn
(R134). -/
def PictureMemory.tear (p : PictureMemory) (row : Nat) : PictureMemory :=
  { p with view := p.view.map fun v => if !v.guard && v.rowSet.contains row then { v with torn := true } else v }

/-- A taken word at the cursor: deferred, or written at once (R133, R134). -/
def PictureMemory.place (p : PictureMemory) (w : Word) : PictureMemory :=
  if p.defers p.cursor then { p with deferred := p.deferred ++ [{ addr := p.cursor, value := w }] }
  else PictureMemory.tear { p with array := p.array.write p.cursor.key w } p.cursor.row.toNat

/-- The holder takes a word written at its address (R121). -/
def PictureMemory.refreshHolder (p : PictureMemory) (a : Addr) (w : Word) : PictureMemory :=
  if p.holder.addr = a then { p with holder := { p.holder with value := w } } else p

/-- One word of a MEM_WRITE: BUSY, FULL, or taken with the cursor advanced (R124). -/
def PictureMemory.writeWord (p : PictureMemory) (m : Mover) (w : Word) : Except Status PictureMemory :=
  if m.protects p.cursor then .error .busy
  else if p.defers p.cursor && decide (p.deferred.length ≥ Config.deferredEntries) then .error .full
  else .ok { PictureMemory.refreshHolder (p.place w) p.cursor w with cursor := p.cursor.next }

/-- The words of a MEM_WRITE in operand order, `taken` so far (R124, R125). -/
def PictureMemory.writeWords (m : Mover) : List Word → Nat → PictureMemory → PictureMemory × Result
  | [], taken, p => (p, okResult [BitVec.ofNat 16 taken])
  | w :: ws, taken, p =>
    match p.writeWord m w with
    | .ok p' => PictureMemory.writeWords m ws (taken + 1) p'
    | .error status => (p, { status := status, data := [BitVec.ofNat 16 taken] })

/-- MEM_WRITE (R124, R125). -/
def PictureMemory.memWrite (p : PictureMemory) (m : Mover) (words : List Word) : PictureMemory × Result :=
  PictureMemory.writeWords m words 0 p

/-- MEM_ADDRESS (R123). -/
def PictureMemory.memAddress (p : PictureMemory) (row col : Word) : PictureMemory × Result :=
  if p.patch.isSome then (p, refusal .mode)
  else if row.toNat > 255 ∨ col.toNat > 255 then (p, refusal .range)
  else
    let a : Addr := { row := row.setWidth 8, col := col.setWidth 8 }
    (PictureMemory.load { p with cursor := a } a, okResult [])

/-- The state after one word of a MEM_READ: the cursor advances outside patch mode, and the holder is loaded at it
(R127). -/
def PictureMemory.afterRead (p : PictureMemory) : PictureMemory :=
  let c := if p.patch.isSome then p.cursor else p.cursor.next
  PictureMemory.load { p with cursor := c } c

/-- `n` words of a MEM_READ, `got` (in order) so far (R127). -/
def PictureMemory.readWords (m : Mover) : Nat → List Word → PictureMemory → PictureMemory × Result
  | 0, got, p => (p, okResult got)
  | n + 1, got, p =>
    if m.protects p.cursor || m.protects p.holder.addr then (p, { status := .busy, data := got })
    else PictureMemory.readWords m n (got ++ [p.holder.value]) p.afterRead

/-- PATCH_BEGIN (R128). -/
def PictureMemory.patchBegin (p : PictureMemory) : PictureMemory × Result :=
  if p.patch.isSome then (p, refusal .mode) else ({ p with patch := some p.cursor }, okResult [])

/-- PATCH_END (R129). -/
def PictureMemory.patchEnd (p : PictureMemory) : PictureMemory × Result :=
  match p.patch with
  | none => (p, refusal .mode)
  | some saved => (PictureMemory.load { p with cursor := saved, patch := none } saved, okResult [])

/-- The rows of a MEMORY segment's window, and of an overlay (R131). -/
def segmentReaches (set : ConfigSet) (row : Nat) (g : Segment) : Bool :=
  (g.kind == .memory && decide (g.windowBase ≤ row ∧ row < g.windowBase + g.windowRows))
    || g.overlay.any fun j =>
        match set.overlays[j]? with
        | some (some o) => decide (o.rowBase ≤ row ∧ row < o.rowBase + o.rows)
        | _ => false

/-- The frame row set of a set, rising and without repeats; empty under BLANK (R131). -/
def frameRows (set : ConfigSet) : List Nat :=
  if set.outputOverride = .blank then []
  else (List.range 256).filter fun row => set.list.any (segmentReaches set row)

/-- An output frame start reaches picture memory (R131). -/
def PictureMemory.startFrame (p : PictureMemory) (live : ConfigSet) : PictureMemory :=
  { p with view := some { rowSet := frameRows live, guard := live.tearGuard, torn := false } }

/-- The drain: every deferred entry is written, oldest first (R137). -/
def PictureMemory.drain (p : PictureMemory) : PictureMemory :=
  { p with
    array := p.deferred.foldl (fun m d => m.write d.addr.key d.value) p.array
    deferred := [] }

/-- The torn flag as the frame end hands it on (R132). -/
def PictureMemory.torn (p : PictureMemory) : Bool :=
  p.view.any fun v => v.torn

/-- An output frame end reaches picture memory: drain, and the row set is cleared (R132). -/
def PictureMemory.endFrame (p : PictureMemory) : PictureMemory :=
  { p.drain with view := none }

/-- Soft reset of picture memory, after the drain (R140). -/
def PictureMemory.softReset (p : PictureMemory) : PictureMemory :=
  let origin : Addr := { row := 0, col := 0 }
  PictureMemory.load { p.drain with view := none, patch := none, cursor := origin } origin

end Sys2Proof.Machine
end

