-- ==== Sys2Proof/Machine/Composer.lean ====
section
/-! DEFINITION. The line composer: from the live set, the line store and the array to one composed line. -/

namespace Sys2Proof.Machine

/-- The segment that covers output line y (R5). -/
def ConfigSet.segmentAt (set : ConfigSet) (y : Nat) : Option Segment :=
  set.list.find? fun g => decide (g.first ≤ y ∧ y < g.first + g.count)

/-- src_start + k x step, as a signed number (R7, R14). -/
def Segment.position (g : Segment) (y : Nat) : Int :=
  (g.srcStart : Int) + ((y - g.first : Nat) : Int) * g.step.toInt

/-- The source column of output pixel x (R17). -/
def Segment.column (g : Segment) (wOut x : Nat) : Nat :=
  if g.mirror then g.colStart + (wOut - 1 - x) else g.colStart + x

/-- The code of an index through a palette (R20). -/
def ConfigSet.paletteCode (set : ConfigSet) (palette index : Nat) : Word :=
  match set.palettes[palette]? with
  | some pal => pal[index]?.getD 0
  | none => 0

/-- A base line from a stored line: source columns beyond the declared width are padded (R9, R17, R18). -/
def linkBase (set : ConfigSet) (g : Segment) (width : Nat) (pixels : List Word) : List Word :=
  (List.range set.wOut).map fun x =>
    let c := g.column set.wOut x
    if c < width then pixels.getD c g.fill else g.fill

/-- The memory row of output line y in a MEMORY segment (R14). -/
def Segment.memoryRow (g : Segment) (y : Nat) : Nat :=
  g.windowBase + (g.position y % (g.windowRows : Int)).toNat

/-- A base line from a memory row through the segment's palette (R15, R17, R18). -/
def memoryBase (set : ConfigSet) (g : Segment) (array : Memory) (row : Nat) : List Word :=
  (List.range set.wOut).map fun x =>
    let c := g.column set.wOut x
    if c < Config.rowPixels then set.paletteCode g.palette (array.pixel row c) else g.fill

/-- The overlay row that output line y draws, with its overlay (R22). -/
def ConfigSet.overlayAt (set : ConfigSet) (g : Segment) (y : Nat) : Option (Overlay × Nat) :=
  match g.overlay with
  | none => none
  | some j =>
    match set.overlays[j]? with
    | some (some o) =>
      if g.first + o.lineOffset ≤ y ∧ y - g.first - o.lineOffset < o.rows then
        some (o, o.rowBase + (y - g.first - o.lineOffset))
      else none
    | _ => none

/-- Output pixel x of a base line with an overlay row drawn over it (R23, R24). -/
def overlayPixel (set : ConfigSet) (array : Memory) (o : Overlay) (row x : Nat) (base : Word) : Word :=
  if o.destX ≤ x ∧ x < o.destX + o.span then
    let index := array.pixel row (o.srcCol + (x - o.destX))
    if o.key = some index then base else set.paletteCode o.palette index
  else base

/-- An overlay row drawn over a base line (R23); pixels beyond W_out are clipped, as the line ends there. -/
def drawOverlay (set : ConfigSet) (array : Memory) (o : Overlay) (row : Nat) (base : List Word) : List Word :=
  base.mapIdx fun x code => overlayPixel set array o row x code

/-- INVERT: each code c becomes 65535 - c (R25). -/
def invertCode (c : Word) : Word :=
  0xFFFF - c

/-- A line of the loss colour (R12). -/
def lossLine (set : ConfigSet) : List Word :=
  List.replicate set.wOut set.lossColour

/-- The base line and whether it counts as substituted (R7-R9, R12-R15, R19).
`bound` is the bound input frame; it is absent in a holdover frame. -/
def baseLine (set : ConfigSet) (lines : LineStore) (array : Memory) (bound : Option InputFrame) (g : Segment)
    (y : Nat) : ComposedLine :=
  match g.kind with
  | .fill => { codes := List.replicate set.wOut g.fill, substituted := false }
  | .memory => { codes := memoryBase set g array (g.memoryRow y), substituted := false }
  | .link =>
    match bound with
    | none => { codes := lossLine set, substituted := true }
    | some f =>
      match lines.query (g.position y) with
      | .present line => { codes := linkBase set g f.width line.pixels, substituted := false }
      | _ => { codes := lossLine set, substituted := true }

/-- The overlay step of R2. -/
def overlaid (set : ConfigSet) (array : Memory) (g : Segment) (y : Nat) (base : List Word) : List Word :=
  match set.overlayAt g y with
  | some (o, row) => drawOverlay set array o row base
  | none => base

/-- The override step of R2 for NORMAL and INVERT (R25). -/
def overridden (mode : OutputOverride) (codes : List Word) : List Word :=
  match mode with
  | .invert => codes.map invertCode
  | _ => codes

/-- Output line y of a frame built from `set` (R1, R2, R26). A line that no segment covers cannot come about, by R4;
it is given in the loss colour (log entry 13, DESIGN CHOICE). -/
def composeLine (set : ConfigSet) (lines : LineStore) (array : Memory) (bound : Option InputFrame) (y : Nat) :
    ComposedLine :=
  if set.outputOverride = .blank then { codes := List.replicate set.wOut set.blankColour, substituted := false }
  else
    match set.segmentAt y with
    | none => { codes := lossLine set, substituted := false }
    | some g =>
      let base := baseLine set lines array bound g y
      { codes := overridden set.outputOverride (overlaid set array g y base.codes), substituted := base.substituted }

/-- The input line that output line y asks the line store for: only a LINK line of a frame with a bound input frame,
and none under BLANK (R8, R13, R26, R28). -/
def sourceQuery (set : ConfigSet) (bound : Option InputFrame) (y : Nat) : Option Int :=
  if set.outputOverride = .blank then none
  else
    match bound, set.segmentAt y with
    | some _, some g => if g.kind = .link then some (g.position y) else none
    | _, _ => none

end Sys2Proof.Machine
end

