-- ==== Sys2Proof/Machine/ReverseChannel.lean ====
section
/-! DEFINITION. The reverse transmitter: its three queues, the arbiter, and completions. -/

namespace Sys2Proof.Machine

/-- A notice that reaches the transmitter: it joins the queue, or is discarded and counted (R189). -/
def ReverseTransmitter.takeNotice (x : ReverseTransmitter) (n : Notice) : ReverseTransmitter :=
  if x.notices.length < Config.noticePlaces then { x with notices := x.notices ++ [n] }
  else { x with noticesLost := satInc x.noticesLost }

/-- A frame report that reaches the transmitter: it carries reports_lost and joins the queue, or is discarded and
counted (R192). -/
def ReverseTransmitter.takeReport (x : ReverseTransmitter) (r : Report) : ReverseTransmitter :=
  if x.reports.length < Config.reportPlaces then
    { x with reports := x.reports ++ [{ r with lost := x.reportsLost }], reportsLost := 0 }
  else { x with reportsLost := satInc x.reportsLost }

/-- The reply queue has a free place; one held by the reply in transmission is not free (R168, R187). -/
def ReverseTransmitter.replyFree (x : ReverseTransmitter) : Bool :=
  decide (x.replies.length < Config.replyPlaces)

/-- An entry joins the reply queue; the management unit has seen a free place (R187). -/
def ReverseTransmitter.takeReply (x : ReverseTransmitter) (r : Reply) : ReverseTransmitter :=
  { x with replies := x.replies ++ [r] }

/-- The head of the first queue, in the order notice, reply, report, that holds an entry (R184). -/
def ReverseTransmitter.nextEntry (x : ReverseTransmitter) : Option Transmission :=
  match x.notices with
  | n :: _ => some { packet := .notice n, queue := some .notice }
  | [] =>
    match x.replies with
    | r :: _ => some { packet := .reply r, queue := some .reply }
    | [] =>
      match x.reports with
      | p :: _ => some { packet := .report p, queue := some .report }
      | [] => none

/-- The arbiter's decision: an IDLE transmitter starts the next entry, which keeps its place (R184). -/
def ReverseTransmitter.arbitrate (x : ReverseTransmitter) : ReverseTransmitter :=
  match x.transmitter with
  | some _ => x
  | none =>
    match x.nextEntry with
    | none => x
    | some t => { x with transmitter := some t, lane := x.lane ++ [t.packet] }

/-- Step 1 of a completion: the entry leaves its queue. An entry whose queue a soft reset emptied is in none
(R185, R195). -/
def ReverseTransmitter.dropSent (x : ReverseTransmitter) : Option ReverseQueue → ReverseTransmitter
  | some .notice => { x with notices := x.notices.tail }
  | some .reply => { x with replies := x.replies.tail }
  | some .report => { x with reports := x.reports.tail }
  | none => x

/-- Step 3 of a completion: the transmitter is IDLE and the arbiter decides at once (R185). -/
def ReverseTransmitter.release (x : ReverseTransmitter) : ReverseTransmitter :=
  ReverseTransmitter.arbitrate { x with transmitter := none }

/-- Soft reset of the transmitter: the queues are emptied, a packet in transmission goes on without a queue
(R195). -/
def ReverseTransmitter.softReset (x : ReverseTransmitter) : ReverseTransmitter :=
  { x with
    notices := []
    replies := []
    reports := []
    transmitter := x.transmitter.map fun t => { t with queue := none }
    noticesLost := 0
    reportsLost := 0 }

end Sys2Proof.Machine
end

