-- ==== Sys2Proof/Machine/Defaults.lean ====
section
/-! DEFINITION. The values the blocks take at power-on and at a soft reset. -/

namespace Sys2Proof.Machine

/-- Default segment slot 0 (R32). -/
def defaultFirstSegment : Segment :=
  { first := 0, count := 480, kind := .link, srcStart := 0, step := .plus1, windowBase := 0, windowRows := 1,
    colStart := 0, mirror := false, palette := 0, fill := 0, overlay := none }

/-- Default segment slots 1-31 (R32). -/
def defaultSpareSegment : Segment :=
  { first := 0, count := 1, kind := .fill, srcStart := 0, step := .zero, windowBase := 0, windowRows := 1,
    colStart := 0, mirror := false, palette := 0, fill := 0, overlay := none }

/-- The default grey ramp: entry i is i x 4369 (R32). -/
def greyRamp : Vector Word 16 :=
  Vector.ofFn fun i => BitVec.ofNat 16 (i.val * 4369)

/-- The default configuration set (R32). -/
def defaultSet : ConfigSet :=
  { hOut := 480
    wOut := 640
    mapLength := 1
    segments := (Vector.replicate 32 defaultSpareSegment).set 0 defaultFirstSegment
    overlays := Vector.replicate 16 none
    palettes := Vector.replicate 8 greyRamp
    lossColour := 0
    blankColour := 0
    outputOverride := .normal
    tearGuard := false
    panelDrive := false }

/-- CFG after power-on and after a soft reset (R32, R57, R58). -/
def defaultConfig : ConfigStore :=
  { pending := defaultSet, live := defaultSet, generation := 0, commit := .none, due := none }

/-- LRX at the end of power-on reset (R116); the delineation state is the one R116 gives for the end of
initialisation (log entry 6, DESIGN CHOICE). -/
def powerOnLink : LinkReceiver :=
  { ignoring := true
    delineation := .hunt
    parser := .search
    current := none
    locked := false
    lastTag := 0
    lossTimer := some Config.defaultLossTimeout
    headerErrors := 0
    payloadErrors := 0
    strayPackets := 0
    lineErrors := 0 }

/-- LST after power-on and after a soft reset (R96, R97). -/
def emptyLines : LineStore :=
  { slots := [], bound := none, waiting := none, held := none }

/-- OSQ at power-on (R81). -/
def powerOnSequencer : Sequencer :=
  { state := .wait, record := none, emission := none, slot := none, holdTimer := .stopped, tagCounter := 0,
    skipAcc := 0, framesSkipped := 0 }

/-- PMEM at the end of power-on reset (R141); its array reads 0 (log entry 10, DESIGN CHOICE). -/
def powerOnPictureMemory : PictureMemory :=
  { array := []
    cursor := { row := 0, col := 0 }
    holder := { addr := { row := 0, col := 0 }, value := 0 }
    patch := none
    view := none
    deferred := [] }

/-- MOV at power-on: kind FILL and rows done 0 (R157); the other fields are DESIGN CHOICE (log entry 14). -/
def powerOnMover : Mover :=
  { state := .idle
    op := { kind := .fill, dstRow := 0, dstCol := 0, srcRow := 0, srcCol := 0, rows := 0, words := 0, value := 0,
            direction := .ascending, rowsDone := 0, stepRow := none } }

/-- MGT at power-on (R181, R175). -/
def powerOnManagement : Management :=
  { expected := 0
    queue := []
    history := []
    lossTimeout := Config.defaultLossTimeout
    holdoverPeriod := Config.defaultHoldoverPeriod
    reports := true
    controlDropped := 0
    duplicates := 0
    readTotal := 0
    results := [] }

/-- RTX at power-on (R196). -/
def powerOnReverse : ReverseTransmitter :=
  { notices := [], replies := [], reports := [], transmitter := none, noticesLost := 0, reportsLost := 0,
    lane := [] }

/-- The panel port between frames, with nothing given yet (R74). -/
def powerOnPanel : PanelPort :=
  { announce := false, strobes := [], cuts := 0 }

end Sys2Proof.Machine
end

