-- ==== Sys2Proof/Machine/State.lean ====
section
/-! DEFINITION. The state of the K718, the reasons a step could stop, and the state after reset. -/

namespace Sys2Proof.Machine

/-- The faults of the part. There are none: the spec gives every event and every command an effect, and reports
errors in statuses, counters and flags. Nobody raises one, so the type is empty (safe). -/
inductive Fault where
deriving DecidableEq, Repr

/-- The refusals of the model. -/
inductive Refusal where
  /-- Raised by an arm of `exec` whose row has no meaning yet (safe). No arm raises it now. -/
  | notModelled (mnemonic : String)
deriving DecidableEq, Repr

/-- The state: one field per block that holds state (00_scope.md, 2.1), the panel port's outputs, and the queue of
waiting commands (log entry 9, DESIGN CHOICE). -/
structure State where
  link : LinkReceiver
  lines : LineStore
  config : ConfigStore
  osq : Sequencer
  panel : PanelPort
  pmem : PictureMemory
  mover : Mover
  mgt : Management
  rtx : ReverseTransmitter
  pending : List Instr
deriving DecidableEq, Repr

/-- The part at the end of power-on reset, before picture memory has initialised its array
(R58, R81, R97, R116, R141, R157, R181, R196). -/
def State.reset : State :=
  { link := powerOnLink
    lines := emptyLines
    config := defaultConfig
    osq := powerOnSequencer
    panel := powerOnPanel
    pmem := powerOnPictureMemory
    mover := powerOnMover
    mgt := powerOnManagement
    rtx := powerOnReverse
    pending := [] }

end Sys2Proof.Machine
end

