-- ==== Sys2Proof/Machine/Sequencer.lean ====
section
/-! DEFINITION. The output sequencer: frame start, frame end, line emission, holdover; and the hand-overs to the
reverse transmitter that events make. -/

namespace Sys2Proof.Machine

/-- The arbiter decides (R184). -/
def State.arbitrate (s : State) : State :=
  { s with rtx := s.rtx.arbitrate }

/-- A notice is handed to the transmitter, without a decision of the arbiter: inside an execution (R169, R191). -/
def State.queueNotice (s : State) (n : Notice) : State :=
  { s with rtx := s.rtx.takeNotice n }

/-- A notice is handed to the transmitter at an event; an IDLE transmitter decides at its arrival (R184, R189). -/
def State.handNotice (s : State) (n : Notice) : State :=
  { s with rtx := (s.rtx.takeNotice n).arbitrate }

/-- A notice, if there is one. -/
def State.handNotice? (s : State) (n : Option Notice) : State :=
  match n with
  | some n => s.handNotice n
  | none => s

/-- A frame report is handed to the transmitter (R184, R192). -/
def State.handReport (s : State) (r : Report) : State :=
  { s with rtx := (s.rtx.takeReport r).arbitrate }

/-- The bound input frame of the frame in progress. -/
def FrameRecord.input (r : FrameRecord) : Option InputFrame :=
  match r.kind with
  | .bound f => some f
  | .holdover => none

/-- The composer asks the line store about the source of the record's next line; a waiting answer is held
(R8, R93; log entry 12, DEDUCED). -/
def State.askNext (s : State) : State :=
  match s.osq.record with
  | none => s
  | some r =>
    if r.nextLine < r.lines then
      match sourceQuery s.config.live r.input r.nextLine with
      | some q => { s with lines := s.lines.ask q }
      | none => s
    else s

/-- The output tag of a starting frame (R61). -/
def Sequencer.startTag (q : Sequencer) : FrameKind → Word
  | .bound f => f.tag
  | .holdover => q.tagCounter + 1

/-- The state the sequencer is in while a frame of this kind is in progress (R59). -/
def startState : FrameKind → OutState
  | .bound _ => .frame
  | .holdover => .holdFrame

/-- The holdover timer at a frame start: started for a holdover frame, stopped for a bound one (R62, R67). -/
def startTimer (period : Nat) : FrameKind → HoldTimer
  | .bound _ => .stopped
  | .holdover => .running period

/-- The record of a starting frame, with the live set's values copied after CFG's decision (R60, R62). -/
def newRecord (kind : FrameKind) (tag : Word) (d : StartDecision) : FrameRecord :=
  { tag := tag
    kind := kind
    generation := d.config.generation
    lines := d.config.live.hOut
    drive := d.config.live.panelDrive
    outputOverride := d.config.live.outputOverride
    announce := d.announce
    nextLine := 0
    substituted := 0 }

/-- The words on the FRAME strobe: the announced geometry, or none (R73, R211). -/
def announceWords : Option (Nat × Nat) → List Word
  | some (h, w) => [BitVec.ofNat 16 h, BitVec.ofNat 16 w]
  | none => []

/-- The panel port at a frame start: in a driven frame the FRAME strobe, and PANNOUNCE for an announce frame
(R73, R74). -/
def PanelPort.startFrame (p : PanelPort) (r : FrameRecord) : PanelPort :=
  if r.drive then
    { p with announce := r.announce.isSome, strobes := p.strobes ++ [.frame (announceWords r.announce)] }
  else { p with announce := false }

/-- An output frame start, in the order of R62: tag and record, CFG's decision, the live set's values, picture memory,
the timer, the FRAME strobe; then the source of line 0 is asked for. -/
def State.startFrame (s : State) (kind : FrameKind) : State :=
  let tag := s.osq.startTag kind
  let d := s.config.frameStart tag
  let r := newRecord kind tag d
  let s1 : State := { s with config := d.config }
  let s2 := s1.handNotice? d.notice
  State.askNext
    { s2 with
      pmem := s2.pmem.startFrame d.config.live
      panel := s2.panel.startFrame r
      osq :=
        { s2.osq with
          state := startState kind
          record := some r
          emission := none
          holdTimer := startTimer s2.mgt.holdoverPeriod kind
          tagCounter := tag } }

/-- The frame report of a frame that ends (R76): the sequencer's fields, the drained count and the torn flag. -/
def endReport (r : FrameRecord) (q : Sequencer) (close : Option CloseKind) (drained : Nat) (torn : Bool) : Report :=
  { tag := r.tag
    generation := r.generation
    flags := reportFlags r torn close
    substituted := r.substituted
    skipped := q.skipAcc
    drained := drained
    lost := 0 }

/-- Steps 1 and 2 of R75: picture memory's frame end, and the report while reports are enabled; the skip accumulator
is zeroed when a report is assembled (R78). -/
def State.reportFrame (s : State) (r : FrameRecord) : State :=
  let drained := s.pmem.deferred.length
  let torn := s.pmem.torn
  let s1 : State := { s with pmem := s.pmem.endFrame }
  if s1.mgt.reports then
    let report := endReport r s1.osq (s1.lines.bound.bind FrameEntry.close) drained torn
    State.handReport { s1 with osq := { s1.osq with skipAcc := 0 } } report
  else s1

/-- Step 3 of R75, and the discarding of the record; PANNOUNCE is deasserted between frames (R74). -/
def State.discardFrame (s : State) (r : FrameRecord) : State :=
  { s with
    lines := if r.input.isSome then s.lines.freeBound else s.lines
    osq := { s.osq with record := none, emission := none }
    panel := { s.panel with announce := false } }

/-- Step 4 of R75: the next state, by the pending slot, the link-locked flag, the kind of the frame that ended and the
holdover timer. -/
def State.chooseNext (s : State) (r : FrameRecord) : State :=
  match s.osq.slot with
  | some f =>
    State.startFrame
      { s with lines := s.lines.bindWaiting, osq := { s.osq with slot := none } } (.bound f)
  | none =>
    if s.link.locked then { s with osq := { s.osq with state := .wait, holdTimer := .stopped } }
    else
      match r.kind, s.osq.holdTimer with
      | .holdover, .running _ => { s with osq := { s.osq with state := .holdGap } }
      | _, _ => s.startFrame .holdover

/-- An output frame end (R75); a STALLED mover resumes, tested against the frame that has followed at once, if one
has (R151). -/
def State.endFrame (s : State) (r : FrameRecord) : State :=
  let s1 := ((s.reportFrame r).discardFrame r).chooseNext r
  { s1 with mover := s1.mover.resume s1.pmem }

/-- A line completes: it is counted if substituted, and the frame ends with its last line; otherwise the next line's
source is asked for (R60, R71, R75). -/
def State.completeLine (s : State) (r : FrameRecord) (substituted : Bool) : State :=
  let r' := if substituted then { r with substituted := r.substituted + 1 } else r
  let s1 : State := { s with osq := { s.osq with record := some r', emission := none } }
  if r'.nextLine < r'.lines then s1.askNext else s1.endFrame r'

/-- The source of output line y is resolved (R69): nothing is asked for it, or the answer is present or missing. -/
def State.sourceResolved (s : State) (r : FrameRecord) (y : Nat) : Bool :=
  match sourceQuery s.config.live r.input y with
  | none => true
  | some q => s.lines.query q != .waiting

/-- Every condition of R69 holds for the record's next line, PREADY being at the given level. -/
def State.mayBegin (s : State) (r : FrameRecord) (pready : Bool) : Bool :=
  s.osq.emission.isNone && decide (r.nextLine < r.lines) && s.sourceResolved r r.nextLine && (!r.drive || pready)

/-- The composed line of the record's next line (R1). -/
def State.composeNext (s : State) (r : FrameRecord) : ComposedLine :=
  composeLine s.config.live s.lines s.pmem.array r.input r.nextLine

/-- EMISSION_BEGIN (R69, R71, R72): a driven line is presented with the LINE strobe and is in emission; a line of a
dark frame completes at once. While a condition fails no line begins; a waiting source is held. -/
def execEmissionBegin (pready : Bool) (s : State) : Host.Outcome State Fault Refusal :=
  match s.osq.record with
  | none => .next s
  | some r =>
    if s.mayBegin r pready then
      let c := s.composeNext r
      let r' := { r with nextLine := r.nextLine + 1 }
      if r.drive then
        .next
          { s with
            panel := { s.panel with strobes := s.panel.strobes ++ [.line c.codes] }
            osq :=
              { s.osq with
                record := some r'
                emission := some { line := r.nextLine, substituted := c.substituted } } }
      else .next (State.completeLine s r' c.substituted)
    else if s.osq.emission.isNone then .next s.askNext
    else .next s

/-- LINE_COMPLETION (R71, R75); without a line in emission it cannot come about and has no effect (log entry 4, DESIGN CHOICE). -/
def execLineCompletion (s : State) : Host.Outcome State Fault Refusal :=
  match s.osq.record, s.osq.emission with
  | some r, some e => .next (s.completeLine r e.substituted)
  | _, _ => .next s

/-- HOLDOVER_TIMER_EXPIRY (R67): in HOLD_GAP the next holdover frame starts at once; in HOLD_FRAME the timer stays
expired. A timer that is not running does not expire (log entry 4, DESIGN CHOICE). -/
def execHoldoverTimerExpiry (s : State) : Host.Outcome State Fault Refusal :=
  match s.osq.holdTimer with
  | .running _ =>
    let s1 : State := { s with osq := { s.osq with holdTimer := .expired } }
    if s.osq.state = .holdGap then .next (s1.startFrame .holdover) else .next s1
  | _ => .next s

/-- Loss expiry at the sequencer (R66): from WAIT holdover is entered; in the other states nothing changes. -/
def State.lossAtSequencer (s : State) : State :=
  if s.osq.state = .wait then s.startFrame .holdover else s

/-- The arrival of a valid FRAME_OPEN at the sequencer (R63-R65), with the entry it gives the frame in the line store
(R84, R91). -/
def State.frameOpenArrival (s : State) (f : InputFrame) : State :=
  match s.osq.state with
  | .wait | .holdGap => State.startFrame { s with lines := s.lines.openBound f } (.bound f)
  | .frame | .holdFrame =>
    let skips := s.osq.slot.isSome
    { s with
      lines := s.lines.openWaiting f
      osq :=
        { s.osq with
          slot := some f
          skipAcc := if skips then satInc s.osq.skipAcc else s.osq.skipAcc
          framesSkipped := if skips then satInc s.osq.framesSkipped else s.osq.framesSkipped } }

end Sys2Proof.Machine
end

