-- ==== Sys2Proof/Machine/Reset.lean ====
section
/-! DEFINITION. Power-on, the end of initialisation, and the part's soft reset, block by block. -/

namespace Sys2Proof.Machine

/-- POWER_ON: every block takes its power-on values (R58, R81, R97, R116, R141, R157, R181, R196). The waiting
commands are the sender's and stay, and the free values go on (log entries 16 and 25, DESIGN CHOICE). -/
def execPowerOn (s : State) : Host.Outcome State Fault Refusal :=
  .next { State.reset with pending := s.pending, panel := { powerOnPanel with cuts := s.panel.cuts } }

/-- INITIALISATION_COMPLETE: every word of the array is 0, and the link receiver stops ignoring the link and is in
HUNT (R116, R141). Once initialised, it cannot come about again and has no effect (log entry 4, DESIGN CHOICE). -/
def execInitialisationComplete (s : State) : Host.Outcome State Fault Refusal :=
  if s.link.ignoring then
    .next
      { s with
        pmem := { s.pmem with array := [] }
        link := { s.link with ignoring := false, delineation := .hunt } }
  else .next s

/-- LRX at a soft reset; delineation, the last input tag, and whether the link is ignored are kept (R115). -/
def LinkReceiver.softReset (l : LinkReceiver) : LinkReceiver :=
  { l with
    parser := .search
    current := none
    locked := false
    lossTimer := some Config.defaultLossTimeout
    headerErrors := 0
    payloadErrors := 0
    strayPackets := 0
    lineErrors := 0 }

/-- OSQ at a soft reset; the frame tag counter is kept (R80). -/
def Sequencer.softReset (q : Sequencer) : Sequencer :=
  { powerOnSequencer with tagCounter := q.tagCounter }

/-- The expected sequence number after a soft reset: the seq of the packet under execution plus 1 (R179). Without a
packet there is no seq to follow and E is kept (log entry 3, DESIGN CHOICE). -/
def Management.resetExpected (g : Management) : Seq :=
  match g.queue with
  | p :: _ => p.seq + 1
  | [] => g.expected

/-- MGT at a soft reset, steps 1 to 4 of R179: only the packet under execution stays in the command queue, until its
execution ends. -/
def Management.softReset (g : Management) : Management :=
  { g with
    expected := g.resetExpected
    queue := g.queue.take 1
    history := []
    lossTimeout := Config.defaultLossTimeout
    holdoverPeriod := Config.defaultHoldoverPeriod
    reports := true
    controlDropped := 0
    duplicates := 0 }

/-- The history with its last line cut after n codes, where it is a LINE strobe (R28, R80). -/
def cutLastLine (n : Nat) (strobes : List Strobe) : List Strobe :=
  match strobes.getLast? with
  | some (.line codes) => strobes.dropLast ++ [.cutLine (codes.take n)]
  | _ => strobes

/-- How many codes of the present line are out when a soft reset cuts it: a free value below W_out, since the line has
not completed (R71, R80; log entry 25, DESIGN CHOICE). -/
def PanelPort.codesOut (p : PanelPort) (wOut : Nat) : Nat :=
  Config.codesSent p.cuts % wOut

/-- The panel port at a soft reset: PANNOUNCE is deasserted, and a line in emission is not completed (R28, R74, R80). -/
def PanelPort.softReset (p : PanelPort) (wOut : Nat) : Option Emission → PanelPort
  | none => { p with announce := false }
  | some _ => { announce := false, strobes := cutLastLine (p.codesOut wOut) p.strobes, cuts := p.cuts + 1 }

/-- The part's soft reset: the drain first, then every block's soft-reset values, as one change (R178). -/
def State.softReset (s : State) : State :=
  { s with
    link := s.link.softReset
    lines := emptyLines
    config := defaultConfig
    osq := s.osq.softReset
    panel := s.panel.softReset s.config.live.wOut s.osq.emission
    pmem := s.pmem.softReset
    mover := s.mover.halt
    mgt := s.mgt.softReset
    rtx := s.rtx.softReset }

end Sys2Proof.Machine
end

