-- ==== Sys2Proof/Machine/Management.lean ====
section
/-! DEFINITION. The management unit: the commands by name and code, their checks, execution, replies, and the
acceptance of control packets. -/

namespace Sys2Proof.Machine

/-- The commands of R204, by name. -/
inductive CommandName where
  | nop | identify | status | setParam | clearCounts | softReset
  | setGeometry | mapLength | segWrite | ovlWrite | ovlClear | palWrite | setColours | setOutput
  | copyLiveToPending | readConfig | commit | cancelCommit
  | memAddress | memWrite | memRead | patchBegin | patchEnd
  | moveFill | moveCopy | moveAbort
deriving DecidableEq, Repr

/-- Command codes (R204); a code the table does not list names no command. -/
def commandOfCode (code : BitVec 8) : Option CommandName :=
  match code.toNat with
  | 0x00 => some .nop
  | 0x01 => some .identify
  | 0x02 => some .status
  | 0x03 => some .setParam
  | 0x04 => some .clearCounts
  | 0x05 => some .softReset
  | 0x10 => some .setGeometry
  | 0x11 => some .mapLength
  | 0x12 => some .segWrite
  | 0x13 => some .ovlWrite
  | 0x14 => some .ovlClear
  | 0x15 => some .palWrite
  | 0x16 => some .setColours
  | 0x17 => some .setOutput
  | 0x18 => some .copyLiveToPending
  | 0x19 => some .readConfig
  | 0x1A => some .commit
  | 0x1B => some .cancelCommit
  | 0x20 => some .memAddress
  | 0x21 => some .memWrite
  | 0x22 => some .memRead
  | 0x23 => some .patchBegin
  | 0x24 => some .patchEnd
  | 0x30 => some .moveFill
  | 0x31 => some .moveCopy
  | 0x32 => some .moveAbort
  | _ => none

/-- The operand counts a command takes, least and most (R204). -/
def operandCounts : CommandName → Nat × Nat
  | .nop => (0, 0)
  | .identify => (0, 0)
  | .status => (0, 0)
  | .setParam => (3, 3)
  | .clearCounts => (0, 0)
  | .softReset => (0, 0)
  | .setGeometry => (2, 2)
  | .mapLength => (1, 1)
  | .segWrite => (13, 13)
  | .ovlWrite => (9, 9)
  | .ovlClear => (1, 1)
  | .palWrite => (3, 18)
  | .setColours => (2, 2)
  | .setOutput => (3, 3)
  | .copyLiveToPending => (0, 0)
  | .readConfig => (3, 3)
  | .commit => (2, 2)
  | .cancelCommit => (0, 0)
  | .memAddress => (2, 2)
  | .memWrite => (1, 64)
  | .memRead => (1, 1)
  | .patchBegin => (0, 0)
  | .patchEnd => (0, 0)
  | .moveFill => (5, 5)
  | .moveCopy => (6, 6)
  | .moveAbort => (0, 0)

/-- The operand count check (R170, R204). -/
def countAllowed (c : CommandName) (n : Nat) : Bool :=
  within (operandCounts c).1 (operandCounts c).2 n

/-- The snapshot of STATUS, 25 words (R173, R208). -/
def State.snapshot (s : State) : List Word :=
  [s.link.parser.code, boolWord s.link.locked, s.osq.state.code, s.osq.tagCounter,
   s.config.commit.code, dueKindCode s.config.due, dueTagWord s.config.due, s.config.generation,
   s.mgt.expected.setWidth 16, BitVec.ofNat 16 s.mgt.queue.length, BitVec.ofNat 16 s.rtx.replies.length,
   s.mover.state.code, BitVec.ofNat 16 s.mover.op.rowsDone,
   boolWord s.pmem.patch.isSome, s.pmem.cursor.row.setWidth 16, s.pmem.cursor.col.setWidth 16,
   BitVec.ofNat 16 s.pmem.deferred.length,
   s.link.headerErrors, s.link.payloadErrors, s.link.strayPackets, s.link.lineErrors,
   s.mgt.controlDropped, s.mgt.duplicates, s.osq.framesSkipped, s.rtx.noticesLost]

/-- SET_PARAM: all three unit parameters, or RANGE (R174). -/
def Management.setParam (g : Management) (lossTimeout holdoverPeriod reportEnable : Word) : Management × Result :=
  match numOperand 1 255 lossTimeout, numOperand 10 255 holdoverPeriod, boolOperand reportEnable with
  | some t, some h, some e =>
    ({ g with lossTimeout := 10 * t, holdoverPeriod := h, reports := e }, okResult [])
  | _, _, _ => (g, refusal .range)

/-- CLEAR_COUNTS: the eight counters of the snapshot (R176). -/
def State.clearCounts (s : State) : State :=
  { s with
    link := { s.link with headerErrors := 0, payloadErrors := 0, strayPackets := 0, lineErrors := 0 }
    mgt := { s.mgt with controlDropped := 0, duplicates := 0 }
    osq := { s.osq with framesSkipped := 0 }
    rtx := { s.rtx with noticesLost := 0 } }

/-- A command that CFG owns. -/
def State.byConfig (s : State) (r : ConfigStore × Result) : State × Result :=
  ({ s with config := r.1 }, r.2)

/-- A command that PMEM owns. -/
def State.byMemory (s : State) (r : PictureMemory × Result) : State × Result :=
  ({ s with pmem := r.1 }, r.2)

/-- MEM_READ: the operand's range, the packet's read total, then the words (R126, R127). -/
def State.memRead (s : State) (n : Word) : State × Result :=
  if within 1 64 n.toNat then
    if s.mgt.readTotal + n.toNat > Config.packetReadWords then (s, refusal .length)
    else
      State.byMemory { s with mgt := { s.mgt with readTotal := s.mgt.readTotal + n.toNat } }
        (PictureMemory.readWords s.mover n.toNat [] s.pmem)
  else (s, refusal .range)

/-- A MOVE command: BUSY in flight, RANGE where a rectangle does not fit, else accepted (R143, R144, R145). -/
def State.acceptMove (s : State) (fits : Bool) (m : Mover) : State × Result :=
  if s.mover.inFlight then (s, refusal .busy)
  else if fits then ({ s with mover := m }, okResult [])
  else (s, refusal .range)

/-- MOVE_FILL (R143); the record's source, which a FILL does not have, is set to 0 (R142; log entry 14, DESIGN CHOICE). -/
def State.moveFill (s : State) (row col rows words value : Word) : State × Result :=
  s.acceptMove (rectangleFits row.toNat col.toNat rows.toNat words.toNat)
    (startMove .fill 0 0 row.toNat col.toNat rows.toNat words.toNat value s.pmem)

/-- MOVE_COPY (R144); the record's value, which a COPY does not have, is set to 0 (R142; log entry 14, DESIGN CHOICE). -/
def State.moveCopy (s : State) (srcRow srcCol dstRow dstCol rows words : Word) : State × Result :=
  s.acceptMove
    (rectangleFits srcRow.toNat srcCol.toNat rows.toNat words.toNat
      && rectangleFits dstRow.toNat dstCol.toNat rows.toNat words.toNat)
    (startMove .copy srcRow.toNat srcCol.toNat dstRow.toNat dstCol.toNat rows.toNat words.toNat 0 s.pmem)

/-- MOVE_ABORT (R153): in flight, the step in progress is abandoned, MOVE_DONE ABORTED is handed over and the mover
is IDLE. -/
def State.moveAbort (s : State) : State × Result :=
  if s.mover.inFlight then
    (State.queueNotice { s with mover := s.mover.halt } (.moveDone .aborted s.mover.op.kind s.mover.op.rowsDone),
     okResult [])
  else (s, okResult [])

/-- A command handed to its owner with its operands (R169, R204). The operand lists that the count check has let
through are the ones with an arm; any other would be a wrong count. -/
def runOwner (s : State) (c : CommandName) (operands : List Word) : State × Result :=
  match c with
  | .nop => (s, okResult [])
  | .identify => (s, okResult Config.capabilities)
  | .status => (s, okResult s.snapshot)
  | .setParam =>
    match operands with
    | [t, h, e] =>
      let r := s.mgt.setParam t h e
      ({ s with mgt := r.1 }, r.2)
    | _ => (s, refusal .length)
  | .clearCounts => (s.clearCounts, okResult [])
  | .softReset => (s.softReset, okResult [])
  | .setGeometry =>
    match operands with
    | [h, w] => s.byConfig (s.config.setGeometry h w)
    | _ => (s, refusal .length)
  | .mapLength =>
    match operands with
    | [n] => s.byConfig (s.config.setMapLength n)
    | _ => (s, refusal .length)
  | .segWrite =>
    match operands with
    | slot :: record => s.byConfig (s.config.writeSegment slot record)
    | _ => (s, refusal .length)
  | .ovlWrite =>
    match operands with
    | slot :: record => s.byConfig (s.config.writeOverlay slot record)
    | _ => (s, refusal .length)
  | .ovlClear =>
    match operands with
    | [slot] => s.byConfig (s.config.clearOverlay slot)
    | _ => (s, refusal .length)
  | .palWrite =>
    match operands with
    | palette :: firstEntry :: codes => s.byConfig (s.config.writePalette palette firstEntry codes)
    | _ => (s, refusal .length)
  | .setColours =>
    match operands with
    | [loss, blank] => s.byConfig (s.config.setColours loss blank)
    | _ => (s, refusal .length)
  | .setOutput =>
    match operands with
    | [mode, guard, drive] => s.byConfig (s.config.setOutput mode guard drive)
    | _ => (s, refusal .length)
  | .copyLiveToPending => s.byConfig s.config.copyLiveToPending
  | .readConfig =>
    match operands with
    | [selector, item, index] => (s, s.config.readItem selector item index)
    | _ => (s, refusal .length)
  | .commit =>
    match operands with
    | [dueKind, dueTag] => s.byConfig (s.config.requestCommit dueKind dueTag)
    | _ => (s, refusal .length)
  | .cancelCommit => s.byConfig s.config.cancelCommit
  | .memAddress =>
    match operands with
    | [row, col] => s.byMemory (s.pmem.memAddress row col)
    | _ => (s, refusal .length)
  | .memWrite => s.byMemory (s.pmem.memWrite s.mover operands)
  | .memRead =>
    match operands with
    | [n] => s.memRead n
    | _ => (s, refusal .length)
  | .patchBegin => s.byMemory s.pmem.patchBegin
  | .patchEnd => s.byMemory s.pmem.patchEnd
  | .moveFill =>
    match operands with
    | [row, col, rows, words, value] => s.moveFill row col rows words value
    | _ => (s, refusal .length)
  | .moveCopy =>
    match operands with
    | [srcRow, srcCol, dstRow, dstCol, rows, words] => s.moveCopy srcRow srcCol dstRow dstCol rows words
    | _ => (s, refusal .length)
  | .moveAbort => s.moveAbort

/-- A command whose code is known: the operand count check, then the owner (R170). -/
def runCommand (s : State) (c : CommandName) (operands : List Word) : State × Result :=
  if countAllowed c operands.length then runOwner s c operands else (s, refusal .length)

/-- A command entry: the code check first (R170). -/
def runEntry (s : State) (e : CommandEntry) : State × Result :=
  match commandOfCode e.code with
  | some c => runCommand s c e.operands
  | none => (s, refusal .unknown)

/-- The result of a command that has run joins those of its execution (R171). -/
def State.recordResult (r : State × Result) : State :=
  { r.1 with mgt := { r.1.mgt with results := r.1.mgt.results ++ [r.2] } }

/-- The entry's command ends the execution: its status is not OK, or it is SOFT_RESET (R170, R178). -/
def endsExecution (e : CommandEntry) (r : Result) : Bool :=
  r.status != .ok || commandOfCode e.code == some .softReset

/-- The commands of a packet in entry order, up to the one that ends the execution (R169, R170). -/
def runEntries : List CommandEntry → State → State
  | [], s => s
  | e :: es, s =>
    let r := runEntry s e
    let s1 := State.recordResult r
    if endsExecution e r.2 then s1 else runEntries es s1

/-- The packet status: that of the last command that ran when it is not OK, else OK (R171). -/
def packetStatus (results : List Result) : Status :=
  match results.getLast? with
  | some r => r.status
  | none => .ok

/-- The reply of a packet from the results of the commands that ran: NOT_RUN for every other entry (R170, R171,
R207). -/
def formReply (p : ControlPacket) (results : List Result) : Reply :=
  { seq := p.seq
    replayed := false
    status := packetStatus results
    results := results ++ List.replicate (p.entries.length - results.length) (refusal .notRun)
    expected := none }

/-- A reply enters the history as the youngest: one with the same seq is removed first, then the oldest of 8
(R167). -/
def enterHistory (history : List Reply) (r : Reply) : List Reply :=
  let others := history.filter fun h => h.seq != r.seq
  (if others.length < Config.historyReplies then others else others.tail) ++ [r]

/-- The end of an execution: the reply of the packet at the head enters the history and the reply queue, and the
packet leaves the command queue (R171). Without a packet no reply is formed (log entry 3, DESIGN CHOICE). -/
def State.endExecution (s : State) : State :=
  match s.mgt.queue with
  | [] => { s with mgt := { s.mgt with readTotal := 0, results := [] } }
  | p :: rest =>
    let reply := formReply p s.mgt.results
    { s with
      mgt :=
        { s.mgt with
          queue := rest
          history := enterHistory s.mgt.history reply
          readTotal := 0
          results := [] }
      rtx := s.rtx.takeReply reply }

/-- One execution of the packet at the head (R169): its commands run in order, and its reply is formed. -/
def State.executePacket (s : State) (p : ControlPacket) : State :=
  State.endExecution (runEntries p.entries { s with mgt := { s.mgt with readTotal := 0, results := [] } })

/-- Executions, one after another, while the command queue holds a packet and the reply queue has a free place; at the
end of one the next follows at once (R168). At most `fuel` of them; each takes one packet from the queue. -/
def executeWhileReady : Nat → State → State
  | 0, s => s
  | fuel + 1, s =>
    match s.mgt.queue with
    | [] => s
    | p :: _ => if s.rtx.replyFree then executeWhileReady fuel (s.executePacket p) else s

/-- The head executes if it can, and every packet after it that then can (R168). -/
def State.executeReady (s : State) : State :=
  executeWhileReady s.mgt.queue.length s

/-- A row of the table that is one command: it runs as the next command of the execution under way (log entry 2, DESIGN
CHOICE). It runs so in every state, also while the link is ignored, when no command comes (R141, R196; log entry 24,
DESIGN CHOICE). -/
def commandRow (c : CommandName) (operands : List Word) (s : State) : State :=
  State.recordResult (runCommand s c operands)

/-- The command entries of a payload, taken one after another; `none` unless they end at its last word
(R159, R202). -/
def parseEntries : Nat → List Word → Option (List CommandEntry)
  | 0, [] => some []
  | 0, _ :: _ => none
  | _ + 1, [] => none
  | n + 1, w :: rest =>
    let k := (w.extractLsb' 0 8).toNat
    if rest.length < k then none
    else
      match parseEntries n (rest.drop k) with
      | some es => some ({ code := w.extractLsb' 8 8, operands := rest.take k } :: es)
      | none => none

/-- The form check of R159 with the layout of R202; bits 14-8 of word 0 are ignored (R203). -/
def parseControl (payload : List Word) : Option ControlPacket :=
  if payload.length ≤ Config.maxControlPayload then
    match payload with
    | w0 :: w1 :: area =>
      if within 1 16 w1.toNat then
        match parseEntries w1.toNat area with
        | some es => some { seq := w0.extractLsb' 0 8, sync := w0.getLsbD 15, entries := es }
        | none => none
      else none
    | _ => none
  else none

/-- The class of a well-formed control packet (R161). -/
inductive PacketClass where
  | queuedDuplicate
  | synchronising
  | new
  | answeredDuplicate (reply : Reply)
  | unansweredDuplicate
  | outOfOrder
deriving DecidableEq, Repr

/-- Classification by the first row of R161 that applies. -/
def Management.classify (g : Management) (p : ControlPacket) : PacketClass :=
  if g.queue.any fun q => q.seq == p.seq then .queuedDuplicate
  else if p.sync then .synchronising
  else if p.seq = g.expected then .new
  else if (g.expected - p.seq).toNat ≤ 8 then
    match g.history.find? fun r => r.seq == p.seq with
    | some r => .answeredDuplicate r
    | none => .unansweredDuplicate
  else .outOfOrder

/-- control_dropped is raised (R177). -/
def Management.dropControl (g : Management) : Management :=
  { g with controlDropped := satInc g.controlDropped }

/-- duplicates is raised (R177). -/
def Management.countDuplicate (g : Management) : Management :=
  { g with duplicates := satInc g.duplicates }

/-- A SEQ reply (R166). -/
def seqReply (seq expected : Seq) : Reply :=
  { seq := seq, replayed := false, status := .seq, results := [], expected := some expected }

/-- A replay or a SEQ reply joins the reply queue if it has a free place (R165, R166); the arbiter decides at its
arrival (R184). -/
def State.answer (s : State) (r : Reply) : State :=
  if s.rtx.replyFree then { s with rtx := (s.rtx.takeReply r).arbitrate } else s

/-- A packet joins the command queue; in an empty queue it executes if the reply queue has a place (R168; log entry
1, DEDUCED), and the arbiter decides after the execution (R191). -/
def State.accept (s : State) (p : ControlPacket) (expected : Seq) (history : List Reply) : State :=
  let s1 : State :=
    { s with mgt := { s.mgt with queue := s.mgt.queue ++ [p], expected := expected, history := history } }
  if s.mgt.queue.isEmpty then s1.executeReady.arbitrate else s1

/-- A well-formed control packet is handled by its class (R162-R166). -/
def State.acceptControl (s : State) (p : ControlPacket) : State :=
  match s.mgt.classify p with
  | .queuedDuplicate => { s with mgt := s.mgt.countDuplicate }
  | .synchronising =>
    if s.mgt.queue.length < Config.commandPackets then s.accept p (p.seq + 1) []
    else { s with mgt := s.mgt.dropControl }
  | .new =>
    if s.mgt.queue.length < Config.commandPackets then s.accept p (s.mgt.expected + 1) s.mgt.history
    else { s with mgt := s.mgt.dropControl }
  | .answeredDuplicate r => State.answer { s with mgt := s.mgt.countDuplicate } { r with replayed := true }
  | .unansweredDuplicate => State.answer { s with mgt := s.mgt.countDuplicate } (seqReply p.seq s.mgt.expected)
  | .outOfOrder =>
    if s.rtx.replyFree then s.answer (seqReply p.seq s.mgt.expected) else { s with mgt := s.mgt.dropControl }

end Sys2Proof.Machine
end

