-- ==== Sys2Proof/Machine/Background.lean ====
section
/-! DEFINITION. The meanings of the completions of background work: mover row steps, reverse transmissions, and the
execution of the packet at the head. -/

namespace Sys2Proof.Machine

/-- A row step is applied (R148, R149): the array, the torn flag, and rows done. -/
def State.applyRowStep (s : State) (i : Nat) : State :=
  let op := s.mover.op
  { s with
    pmem := PictureMemory.tear { s.pmem with array := op.applyStep s.pmem.array i } (op.dstRow + i)
    mover := { s.mover with op := { op with rowsDone := op.rowsDone + 1, stepRow := none } } }

/-- The operation completes: MOVE_DONE COMPLETE is handed over and the mover is IDLE (R152). -/
def State.completeMove (s : State) : State :=
  State.handNotice { s with mover := s.mover.halt } (.moveDone .complete s.mover.op.kind s.mover.op.rowsDone)

/-- After an applied step: the operation completes, or the next offset is decided at once (R149). -/
def State.afterRowStep (s : State) : State :=
  if s.mover.op.rowsDone = s.mover.op.rows then s.completeMove
  else { s with mover := s.mover.decideStep s.pmem }

/-- ROW_STEP_COMPLETION: the stall test, then the step is applied or discarded (R149, R150). With no step in progress
it has no effect (R156). -/
def execRowStepCompletion (s : State) : Host.Outcome State Fault Refusal :=
  match s.mover.state, s.mover.op.stepRow with
  | .running, some i =>
    if s.mover.op.stalls s.pmem i then
      .next { s with mover := { state := .stalled, op := { s.mover.op with stepRow := none } } }
    else .next (s.applyRowStep i).afterRowStep
  | _, _ => .next s

/-- Step 2 of R185: when a reply's place has become free, the management unit executes what it can (R168). -/
def State.afterSent (s : State) (queue : Option ReverseQueue) : State :=
  if queue = some .reply then s.executeReady else s

/-- TRANSMISSION_COMPLETION, in the three steps of R185. An IDLE transmitter completes nothing (log entry 4, DESIGN CHOICE). -/
def execTransmissionCompletion (s : State) : Host.Outcome State Fault Refusal :=
  match s.rtx.transmitter with
  | none => .next s
  | some t =>
    let s1 : State := { s with rtx := s.rtx.dropSent t.queue }
    let s2 := s1.afterSent t.queue
    .next { s2 with rtx := s2.rtx.release }

/-- EXECUTION: the head of the command queue executes if the reply queue has a free place, and the packets after it
that then can (R168, R169); the arbiter decides after the execution (R191). Otherwise it has no effect (log entry
4, DESIGN CHOICE). -/
def execExecution (s : State) : Host.Outcome State Fault Refusal :=
  if !s.mgt.queue.isEmpty && s.rtx.replyFree then .next s.executeReady.arbitrate else .next s

end Sys2Proof.Machine
end

