-- ==== Sys2Proof/Machine/Commands.lean ====
section
/-! DEFINITION. The meanings of the table's command rows, each run as the next command of the execution under way
(log entry 2, DESIGN CHOICE). -/

namespace Sys2Proof.Machine

/-- NOP (R172). -/
def execNop (s : State) : Host.Outcome State Fault Refusal :=
  .next (commandRow .nop [] s)

/-- IDENTIFY (R172). -/
def execIdentify (s : State) : Host.Outcome State Fault Refusal :=
  .next (commandRow .identify [] s)

/-- STATUS (R173). -/
def execStatus (s : State) : Host.Outcome State Fault Refusal :=
  .next (commandRow .status [] s)

/-- SET_PARAM (R174). -/
def execSetParam (lossTimeout holdoverPeriod reportEnable : Word) (s : State) : Host.Outcome State Fault Refusal :=
  .next (commandRow .setParam [lossTimeout, holdoverPeriod, reportEnable] s)

/-- CLEAR_COUNTS (R176). -/
def execClearCounts (s : State) : Host.Outcome State Fault Refusal :=
  .next (commandRow .clearCounts [] s)

/-- SOFT_RESET: the part's soft reset, and the end of the execution with its reply; the arbiter decides at the end
(R178, R179, R184, R195). -/
def execSoftReset (s : State) : Host.Outcome State Fault Refusal :=
  .next (commandRow .softReset [] s).endExecution.arbitrate

/-- SET_GEOMETRY (R33). -/
def execSetGeometry (hOut wOut : Word) (s : State) : Host.Outcome State Fault Refusal :=
  .next (commandRow .setGeometry [hOut, wOut] s)

/-- MAP_LENGTH (R34). -/
def execMapLength (n : Word) (s : State) : Host.Outcome State Fault Refusal :=
  .next (commandRow .mapLength [n] s)

/-- SEG_WRITE (R35). -/
def execSegWrite (slot : Word) (record : List Word) (s : State) : Host.Outcome State Fault Refusal :=
  .next (commandRow .segWrite (slot :: record) s)

/-- OVL_WRITE (R36). -/
def execOvlWrite (slot : Word) (record : List Word) (s : State) : Host.Outcome State Fault Refusal :=
  .next (commandRow .ovlWrite (slot :: record) s)

/-- OVL_CLEAR (R37). -/
def execOvlClear (slot : Word) (s : State) : Host.Outcome State Fault Refusal :=
  .next (commandRow .ovlClear [slot] s)

/-- PAL_WRITE (R38). -/
def execPalWrite (palette firstEntry : Word) (codes : List Word) (s : State) : Host.Outcome State Fault Refusal :=
  .next (commandRow .palWrite (palette :: firstEntry :: codes) s)

/-- SET_COLOURS (R39). -/
def execSetColours (loss blank : Word) (s : State) : Host.Outcome State Fault Refusal :=
  .next (commandRow .setColours [loss, blank] s)

/-- SET_OUTPUT (R40). -/
def execSetOutput (mode guard drive : Word) (s : State) : Host.Outcome State Fault Refusal :=
  .next (commandRow .setOutput [mode, guard, drive] s)

/-- COPY_LIVE_TO_PENDING (R41). -/
def execCopyLiveToPending (s : State) : Host.Outcome State Fault Refusal :=
  .next (commandRow .copyLiveToPending [] s)

/-- READ_CONFIG (R42, R43). -/
def execReadConfig (selector item index : Word) (s : State) : Host.Outcome State Fault Refusal :=
  .next (commandRow .readConfig [selector, item, index] s)

/-- COMMIT (R45). -/
def execCommit (dueKind dueTag : Word) (s : State) : Host.Outcome State Fault Refusal :=
  .next (commandRow .commit [dueKind, dueTag] s)

/-- CANCEL_COMMIT (R54). -/
def execCancelCommit (s : State) : Host.Outcome State Fault Refusal :=
  .next (commandRow .cancelCommit [] s)

/-- MEM_ADDRESS (R123). -/
def execMemAddress (row col : Word) (s : State) : Host.Outcome State Fault Refusal :=
  .next (commandRow .memAddress [row, col] s)

/-- MEM_WRITE (R124). -/
def execMemWrite (words : List Word) (s : State) : Host.Outcome State Fault Refusal :=
  .next (commandRow .memWrite words s)

/-- MEM_READ (R126, R127). -/
def execMemRead (n : Word) (s : State) : Host.Outcome State Fault Refusal :=
  .next (commandRow .memRead [n] s)

/-- PATCH_BEGIN (R128). -/
def execPatchBegin (s : State) : Host.Outcome State Fault Refusal :=
  .next (commandRow .patchBegin [] s)

/-- PATCH_END (R129). -/
def execPatchEnd (s : State) : Host.Outcome State Fault Refusal :=
  .next (commandRow .patchEnd [] s)

/-- MOVE_FILL (R143). -/
def execMoveFill (row col rows words value : Word) (s : State) : Host.Outcome State Fault Refusal :=
  .next (commandRow .moveFill [row, col, rows, words, value] s)

/-- MOVE_COPY (R144). -/
def execMoveCopy (srcRow srcCol dstRow dstCol rows words : Word) (s : State) : Host.Outcome State Fault Refusal :=
  .next (commandRow .moveCopy [srcRow, srcCol, dstRow, dstCol, rows, words] s)

/-- MOVE_ABORT (R153); the arbiter decides at the arrival of its notice, after the command (R184, R191). -/
def execMoveAbort (s : State) : Host.Outcome State Fault Refusal :=
  .next (commandRow .moveAbort [] s).arbitrate

end Sys2Proof.Machine
end

