-- ==== Sys2Proof/Machine/LinkEvents.lean ====
section
/-! DEFINITION. The meanings of the forward link's events: packet arrivals, check failures, start markers and the loss
of the link. While the link is ignored every word is discarded and no event has an effect (R116); a header is checked
and a packet received only in ALIGNED, which its start marker has brought about (R98, R100). -/

namespace Sys2Proof.Machine

/-- stray_packets is raised (R114). -/
def State.countStray (s : State) : State :=
  { s with link := { s.link with strayPackets := satInc s.link.strayPackets } }

/-- line_errors is raised (R114). -/
def State.countLineError (s : State) : State :=
  { s with link := { s.link with lineErrors := satInc s.link.lineErrors } }

/-- Headers are checked and packets received: the link is not ignored (R116) and the receiver is ALIGNED (R98). In HUNT
every word up to the next start marker is discarded, so a packet that began while the link was ignored is lost (R100,
R116; log entry 5, DEDUCED). -/
def LinkReceiver.receives (l : LinkReceiver) : Bool :=
  !l.ignoring && l.delineation == .aligned

/-- The end of a header or packet on the forward link: nothing where none is received (R98, R116). -/
def State.onLink (s : State) (event : State → State) : Host.Outcome State Fault Refusal :=
  if s.link.receives then .next (event s) else .next s

/-- HEADER_CHECK_FAILURE (R99, R100). -/
def execHeaderCheckFailure (s : State) : Host.Outcome State Fault Refusal :=
  s.onLink fun s =>
    { s with link := { s.link with headerErrors := satInc s.link.headerErrors, delineation := .hunt } }

/-- START_MARKER_IN_HUNT: the receiver becomes ALIGNED at that word (R100). In ALIGNED it cannot come about and changes
nothing (log entry 4, DESIGN CHOICE); while the link is ignored it is discarded like every word (R116). -/
def execStartMarkerInHunt (s : State) : Host.Outcome State Fault Refusal :=
  if s.link.ignoring then .next s else .next { s with link := { s.link with delineation := .aligned } }

/-- PAYLOAD_CHECK_FAILED_PACKET: discarded whole, whatever its kind and payload; the receiver stays ALIGNED
(R101). -/
def execPayloadCheckFailedPacket (_kind : KindCode) (_payload : List Word) (s : State) :
    Host.Outcome State Fault Refusal :=
  s.onLink fun s => { s with link := { s.link with payloadErrors := satInc s.link.payloadErrors } }

/-- FILLER: discarded, no counter and no state (R102). -/
def execFiller (_payload : List Word) (s : State) : Host.Outcome State Fault Refusal :=
  s.onLink id

/-- UNKNOWN_KIND_PACKET: discarded and counted (R102). -/
def execUnknownKindPacket (_kind : KindCode) (_payload : List Word) (s : State) : Host.Outcome State Fault Refusal :=
  s.onLink State.countStray

/-- The fields of a FRAME_OPEN that is valid (R104, R201). -/
def frameOpenFields : List Word → Option InputFrame
  | [tag, declared, width] =>
    if within 1 1024 declared.toNat && (within 16 1024 width.toNat && decide (width.toNat % 4 = 0)) then
      some { tag := tag, declared := declared.toNat, width := width.toNat }
    else none
  | _ => none

/-- The open input frame is closed: the line store learns the kind and the record is discarded (R85, R106, R109). -/
def State.closeCurrent (s : State) (kind : CloseKind) : State :=
  { s with lines := s.lines.closeFrame kind, link := { s.link with current := none } }

/-- Step 2 of R105: an unlocked link is locked, with LINK_REGAINED (R112). -/
def State.lockLink (s : State) (tag : Word) : State :=
  if s.link.locked then s
  else State.handNotice { s with link := { s.link with locked := true } } (.linkRegained tag)

/-- The truncation of the input frame that is open, if one is (R106). -/
def State.truncateOpen (s : State) : State :=
  if s.link.current.isSome then s.closeCurrent .truncated else s

/-- A valid FRAME_OPEN, in the five steps of R105. -/
def State.openFrame (s : State) (f : InputFrame) : State :=
  let s1 : State := { s with link := { s.link with lossTimer := some s.mgt.lossTimeout } }
  let s3 := (s1.lockLink f.tag).truncateOpen
  let s4 : State :=
    { s3 with
      link :=
        { s3.link with current := some { frame := f, highest := none }, lastTag := f.tag, parser := .inFrame } }
  s4.frameOpenArrival f

/-- FRAME_OPEN (R104, R105). -/
def execFrameOpen (payload : List Word) (s : State) : Host.Outcome State Fault Refusal :=
  s.onLink fun s =>
    match frameOpenFields payload with
    | some f => s.openFrame f
    | none => s.countLineError

/-- The checks of R107 on a LINE's payload: its line number and pixels when it is accepted. -/
def acceptedLine (c : CurrentFrame) : List Word → Option (Nat × List Word)
  | [] => none
  | number :: pixels =>
    let n := number.toNat
    if (c.highest.all fun h => decide (h < n)) && decide (n < c.frame.declared)
        && decide (pixels.length = c.frame.width) then
      some (n, pixels)
    else none

/-- A LINE in IN_FRAME (R107). -/
def State.lineInFrame (s : State) (c : CurrentFrame) (payload : List Word) : State :=
  match acceptedLine c payload with
  | some (n, pixels) =>
    { s with
      link := { s.link with current := some { c with highest := some n } }
      lines := s.lines.storeLine c.frame.tag n pixels }
  | none => s.countLineError

/-- LINE (R107, R108). -/
def execLine (payload : List Word) (s : State) : Host.Outcome State Fault Refusal :=
  s.onLink fun s =>
    match s.link.parser, s.link.current with
    | .inFrame, some c => s.lineInFrame c payload
    | _, _ => s.countStray

/-- A FRAME_CLOSE in IN_FRAME (R109). -/
def State.closeInFrame (s : State) (c : CurrentFrame) (payload : List Word) : State :=
  match payload with
  | [tag] =>
    let s1 := s.closeCurrent (if tag = c.frame.tag then .normal else .tagMismatch)
    { s1 with link := { s1.link with parser := .gap } }
  | _ => s.countLineError

/-- FRAME_CLOSE (R109). -/
def execFrameClose (payload : List Word) (s : State) : Host.Outcome State Fault Refusal :=
  s.onLink fun s =>
    match s.link.parser, s.link.current with
    | .inFrame, some c => s.closeInFrame c payload
    | _, _ => s.countStray

/-- CONTROL (R102, R159, R161): a malformed packet is discarded and counted, a well-formed one is handled by its
class. -/
def execControl (payload : List Word) (s : State) : Host.Outcome State Fault Refusal :=
  s.onLink fun s =>
    match parseControl payload with
    | some p => s.acceptControl p
    | none => { s with mgt := s.mgt.dropControl }

/-- Step 3 of R111: a locked link is unlocked, with LINK_LOST carrying the last input tag (R112). -/
def State.unlockLink (s : State) : State :=
  if s.link.locked then
    State.handNotice { s with link := { s.link with locked := false } } (.linkLost s.link.lastTag)
  else s

/-- The loss timer expires: it stops (R110), and the four steps of R111 follow. -/
def State.loseLink (s : State) : State :=
  let s1 := State.truncateOpen { s with link := { s.link with lossTimer := none } }
  let s2 : State := { s1 with link := { s1.link with parser := .search } }
  s2.unlockLink.lossAtSequencer

/-- LOSS_EXPIRY (R110, R111). A stopped timer does not expire (log entry 4, DESIGN CHOICE), and a running one does not
while the link is ignored, for initialisation completes before the default loss timeout has passed (R116, R141, R196;
log entry 23, DEDUCED). -/
def execLossExpiry (s : State) : Host.Outcome State Fault Refusal :=
  if s.link.ignoring || s.link.lossTimer.isNone then .next s else .next s.loseLink

end Sys2Proof.Machine
end

