-- ==== Sys2Proof/Machine/Dispatch.lean ====
section
/-! DEFINITION. One arm per row of the table, each one direct call of its meaning. -/

namespace Sys2Proof.Machine

def exec (i : Instr) (s : State) : Host.Outcome State Fault Refusal :=
  match i with
  | .powerOn => Sys2Proof.Machine.execPowerOn s
  | .initialisationComplete => Sys2Proof.Machine.execInitialisationComplete s
  | .headerCheckFailure => Sys2Proof.Machine.execHeaderCheckFailure s
  | .frameOpen payload => Sys2Proof.Machine.execFrameOpen payload s
  | .line payload => Sys2Proof.Machine.execLine payload s
  | .frameClose payload => Sys2Proof.Machine.execFrameClose payload s
  | .control payload => Sys2Proof.Machine.execControl payload s
  | .filler payload => Sys2Proof.Machine.execFiller payload s
  | .unknownKindPacket kind payload => Sys2Proof.Machine.execUnknownKindPacket kind payload s
  | .lossExpiry => Sys2Proof.Machine.execLossExpiry s
  | .holdoverTimerExpiry => Sys2Proof.Machine.execHoldoverTimerExpiry s
  | .emissionBegin pready => Sys2Proof.Machine.execEmissionBegin pready s
  | .lineCompletion => Sys2Proof.Machine.execLineCompletion s
  | .rowStepCompletion => Sys2Proof.Machine.execRowStepCompletion s
  | .transmissionCompletion => Sys2Proof.Machine.execTransmissionCompletion s
  | .execution => Sys2Proof.Machine.execExecution s
  | .nop => Sys2Proof.Machine.execNop s
  | .identify => Sys2Proof.Machine.execIdentify s
  | .status => Sys2Proof.Machine.execStatus s
  | .setParam lossTimeout holdoverPeriod reportEnable => Sys2Proof.Machine.execSetParam lossTimeout holdoverPeriod reportEnable s
  | .clearCounts => Sys2Proof.Machine.execClearCounts s
  | .softReset => Sys2Proof.Machine.execSoftReset s
  | .setGeometry hOut wOut => Sys2Proof.Machine.execSetGeometry hOut wOut s
  | .mapLength n => Sys2Proof.Machine.execMapLength n s
  | .segWrite slot record => Sys2Proof.Machine.execSegWrite slot record s
  | .ovlWrite slot record => Sys2Proof.Machine.execOvlWrite slot record s
  | .ovlClear slot => Sys2Proof.Machine.execOvlClear slot s
  | .palWrite palette firstEntry codes => Sys2Proof.Machine.execPalWrite palette firstEntry codes s
  | .setColours loss blank => Sys2Proof.Machine.execSetColours loss blank s
  | .setOutput mode guard drive => Sys2Proof.Machine.execSetOutput mode guard drive s
  | .copyLiveToPending => Sys2Proof.Machine.execCopyLiveToPending s
  | .readConfig selector item index => Sys2Proof.Machine.execReadConfig selector item index s
  | .commit dueKind dueTag => Sys2Proof.Machine.execCommit dueKind dueTag s
  | .cancelCommit => Sys2Proof.Machine.execCancelCommit s
  | .memAddress row col => Sys2Proof.Machine.execMemAddress row col s
  | .memWrite words => Sys2Proof.Machine.execMemWrite words s
  | .memRead n => Sys2Proof.Machine.execMemRead n s
  | .patchBegin => Sys2Proof.Machine.execPatchBegin s
  | .patchEnd => Sys2Proof.Machine.execPatchEnd s
  | .moveFill row col rows words value => Sys2Proof.Machine.execMoveFill row col rows words value s
  | .moveCopy srcRow srcCol dstRow dstCol rows words => Sys2Proof.Machine.execMoveCopy srcRow srcCol dstRow dstCol rows words s
  | .moveAbort => Sys2Proof.Machine.execMoveAbort s
  | .payloadCheckFailedPacket kind payload => Sys2Proof.Machine.execPayloadCheckFailedPacket kind payload s
  | .startMarkerInHunt => Sys2Proof.Machine.execStartMarkerInHunt s

end Sys2Proof.Machine
end

