-- ==== Sys2Proof/Safety.lean ====
section
/-! DEFINITION. What a good state of the K718 is: the relations the spec says always hold, each as a Bool. -/

namespace Sys2Proof.Machine

/-- SEARCH exactly when the link is not locked; an input frame is open exactly in IN_FRAME (R103). -/
def LinkReceiver.consistent (l : LinkReceiver) : Bool :=
  (l.parser == .search) == !l.locked && (l.parser == .inFrame) == l.current.isSome

/-- The table of R59: what each output state holds. -/
def Sequencer.consistent (q : Sequencer) : Bool :=
  (match q.state, q.record, q.holdTimer with
   | .wait, none, .stopped => q.slot.isNone
   | .frame, some r, .stopped => r.input.isSome
   | .holdGap, none, .running _ => q.slot.isNone
   | .holdFrame, some r, .running _ => r.input.isNone
   | .holdFrame, some r, .expired => r.input.isNone
   | _, _, _ => false)
    && (q.emission.isNone || q.record.isSome)

/-- The entries of the line store: the bound entry exists exactly while a bound frame is in progress, and is the
frame's own input frame; the pending entry exists exactly while the pending slot holds its input frame (R83). -/
def entriesMatch (q : Sequencer) (l : LineStore) : Bool :=
  l.bound.map (fun e => e.frame) == q.record.bind FrameRecord.input && l.waiting.map (fun e => e.frame) == q.slot

/-- Every stored line belongs to an entry that exists, carries its tag and exactly as many pixels as its width, and
has a number that the entry has received (R82). -/
def LineStore.linesBelong (l : LineStore) : Bool :=
  l.slots.all fun s =>
    (l.entry s.entry).any fun e =>
      s.tag == e.frame.tag && decide (s.pixels.length = e.frame.width) && e.highest.any fun h => decide (s.number ≤ h)

/-- No two stored lines have the same tag and line number (R82). -/
def LineStore.linesDistinct (l : LineStore) : Bool :=
  decide (l.slots.Pairwise fun a b => ¬(a.tag = b.tag ∧ a.number = b.number))

/-- A query is held only while it would be answered waiting (R93). -/
def LineStore.heldWaits (l : LineStore) : Bool :=
  l.held.all fun q => l.query q == .waiting

/-- The receiver's open input frame is the one of the receiving entry, if the store has an entry for it, and both have
the same highest received line; every other entry is CLOSED (R83, R85, R103). -/
def receiverMatches (l : LinkReceiver) (t : LineStore) : Bool :=
  let closed := fun (e : Option FrameEntry) => e.all fun e => e.close.isSome
  match l.current, t.receiving with
  | none, _ => closed t.bound && closed t.waiting
  | some _, none => true
  | some c, some r =>
    (t.entry r).any (fun e => e.frame == c.frame && e.highest == c.highest && e.close.isNone)
      && (r == .bound || closed t.bound)

/-- Every item of a set is within its range (R29). -/
def ConfigSet.inRange (p : ConfigSet) : Bool :=
  within 1 1024 p.hOut && (within 16 1024 p.wOut && decide (p.wOut % 4 = 0)) && within 0 32 p.mapLength
    && p.segments.toList.all Segment.inRange && p.overlays.toList.all fun o => o.all Overlay.inRange

/-- Both sets are within their ranges (R29). -/
def ConfigStore.inRange (c : ConfigStore) : Bool :=
  c.pending.inRange && c.live.inRange

/-- The live set passes validation, and so does the frozen pending set while a commit request waits (R4, R31, R46). -/
def ConfigStore.validated (c : ConfigStore) : Bool :=
  (validate c.live).isNone && (c.commit == .none || (validate c.pending).isNone)

/-- There is a due condition exactly while a commit request waits (R44). -/
def ConfigStore.dueConsistent (c : ConfigStore) : Bool :=
  c.due.isSome == (c.commit != .none)

/-- The output lines 0 to H_out - 1 are tiled by the list in ascending order without gap or overlap (R4). -/
def tiles (start stop : Nat) : List Segment → Bool
  | [] => decide (start = stop)
  | g :: rest => decide (g.first = start) && tiles (g.first + g.count) stop rest

/-- The frame in progress is built from the live set as it stands, which does not change until the frame ends
(R30, R60). -/
def frameMatchesLive (q : Sequencer) (c : ConfigStore) : Bool :=
  q.record.all fun r =>
    r.generation == c.generation && decide (r.lines = c.live.hOut) && r.drive == c.live.panelDrive
      && r.outputOverride == c.live.outputOverride

/-- Picture memory has a frame view exactly while a frame is in progress, with the row set and the guard of the live
set (R131, R132). -/
def viewMatches (q : Sequencer) (c : ConfigStore) (p : PictureMemory) : Bool :=
  match q.record, p.view with
  | none, none => true
  | some _, some v => v.rowSet == frameRows c.live && v.guard == c.live.tearGuard
  | _, _ => false

/-- The deferred-write queue holds at most 64 entries, none while no frame is in progress or its guard is off, and
every entry's row lies in the frame row set (R135, R133). -/
def PictureMemory.deferredOk (p : PictureMemory) : Bool :=
  decide (p.deferred.length ≤ Config.deferredEntries)
    && p.deferred.all fun d => p.view.any fun v => v.guard && v.rowSet.contains d.addr.row.toNat

/-- Guarded frames are not torn (R134). -/
def PictureMemory.guardHolds (p : PictureMemory) : Bool :=
  p.view.all fun v => !(v.guard && v.torn)

/-- The mover holds a step in progress exactly in RUNNING, and it is the next offset; an operation in flight has rows
left and rectangles that fit (R142-R147). -/
def Mover.consistent (m : Mover) : Bool :=
  match m.state with
  | .idle => m.op.stepRow.isNone
  | .running =>
    m.op.stepRow == some m.op.nextOffset && decide (m.op.rowsDone < m.op.rows)
      && rectangleFits m.op.dstRow m.op.dstCol m.op.rows m.op.words
      && (m.op.kind == .fill || rectangleFits m.op.srcRow m.op.srcCol m.op.rows m.op.words)
  | .stalled =>
    m.op.stepRow.isNone && decide (m.op.rowsDone < m.op.rows)
      && rectangleFits m.op.dstRow m.op.dstCol m.op.rows m.op.words
      && (m.op.kind == .fill || rectangleFits m.op.srcRow m.op.srcCol m.op.rows m.op.words)

/-- At most 4 packets and never two with the same seq in the command queue; at most 8 replies and one for each seq in
the history (R160, R167). -/
def Management.queuesOk (g : Management) : Bool :=
  decide (g.queue.length ≤ Config.commandPackets) && decide (g.queue.Pairwise fun a b => a.seq ≠ b.seq)
    && decide (g.history.length ≤ Config.historyReplies) && decide (g.history.Pairwise fun a b => a.seq ≠ b.seq)
    && g.history.all fun r => !r.replayed

/-- The reverse queues keep their capacities (R182, R183). -/
def ReverseTransmitter.withinPlaces (x : ReverseTransmitter) : Bool :=
  decide (x.notices.length ≤ Config.noticePlaces) && decide (x.replies.length ≤ Config.replyPlaces)
    && decide (x.reports.length ≤ Config.reportPlaces)

/-- A BUSY transmitter sends the head of the queue its packet belongs to; an IDLE one finds every queue empty
(R182, R184). -/
def ReverseTransmitter.laneServed (x : ReverseTransmitter) : Bool :=
  match x.transmitter with
  | none => x.notices.isEmpty && x.replies.isEmpty && x.reports.isEmpty
  | some t =>
    match t.queue with
    | none => true
    | some .notice => x.notices.head?.map ReversePacket.notice == some t.packet
    | some .reply => x.replies.head?.map ReversePacket.reply == some t.packet
    | some .report => x.reports.head?.map ReversePacket.report == some t.packet

/-- A packet waits in the command queue only while the reply queue is full (R168; log entry 1, DEDUCED). -/
def headWaits (g : Management) (x : ReverseTransmitter) : Bool :=
  g.queue.isEmpty || !x.replyFree

/-- Every relation above at once. -/
def State.good (s : State) : Bool :=
  s.link.consistent && s.osq.consistent && entriesMatch s.osq s.lines
    && decide (s.lines.slots.length ≤ Config.lineSlots) && s.lines.linesBelong && s.lines.linesDistinct
    && s.lines.heldWaits && receiverMatches s.link s.lines && s.config.inRange && s.config.validated && s.config.dueConsistent
    && frameMatchesLive s.osq s.config && viewMatches s.osq s.config s.pmem && s.pmem.deferredOk && s.pmem.guardHolds
    && s.pmem.array.wf && s.mover.consistent && s.mgt.queuesOk && s.rtx.withinPlaces && s.rtx.laneServed
    && headWaits s.mgt s.rtx

end Sys2Proof.Machine
end

