-- ==== Sys2Proof/WellFormed.lean ====
section
/-! DEFINITION. Which terms of `Instr` are events and commands that can occur as the table means them. -/

namespace Sys2Proof

/-- A payload that a passed header check allows: at most 1100 words (R99). -/
def payloadFits (payload : List Word) : Bool :=
  decide (payload.length ≤ Config.maxPayload)

/-- The forward kind codes of R200 that are not unknown. -/
def forwardKindCodes : List KindCode := [0x01, 0x02, 0x03, 0x04, 0x1F]

/-- A row's operands have the numbers of words their command takes (R204), a packet's payload is one the
header check lets through (R99), and an unknown kind is none of the five forward kinds (R200).
Values out of range are well formed: the part refuses them itself. -/
def Instr.wellFormed : Instr → Bool
  | .frameOpen p => payloadFits p
  | .line p => payloadFits p
  | .frameClose p => payloadFits p
  | .control p => payloadFits p
  | .filler p => payloadFits p
  | .unknownKindPacket k p => payloadFits p && !forwardKindCodes.contains k
  | .payloadCheckFailedPacket _ p => payloadFits p
  | .segWrite _ record => decide (record.length = 12)
  | .ovlWrite _ record => decide (record.length = 8)
  | .palWrite _ _ codes => decide (1 ≤ codes.length ∧ codes.length ≤ 16)
  | .memWrite words => decide (1 ≤ words.length ∧ words.length ≤ 64)
  | .powerOn | .initialisationComplete | .headerCheckFailure | .lossExpiry | .holdoverTimerExpiry => true
  | .emissionBegin _ | .lineCompletion | .rowStepCompletion | .transmissionCompletion | .execution => true
  | .nop | .identify | .status | .setParam _ _ _ | .clearCounts | .softReset => true
  | .setGeometry _ _ | .mapLength _ | .ovlClear _ | .setColours _ _ | .setOutput _ _ _ => true
  | .copyLiveToPending | .readConfig _ _ _ | .commit _ _ | .cancelCommit => true
  | .memAddress _ _ | .memRead _ | .patchBegin | .patchEnd => true
  | .moveFill _ _ _ _ _ | .moveCopy _ _ _ _ _ _ | .moveAbort | .startMarkerInHunt => true

end Sys2Proof
end

