-- ==== Sys2Proof/Certificates/Slice0/Obligations.lean ====
section
/-! DEFINITION. The statements about the model, for the provers. Each cites the rule of spec/ it formalises.
`recorded`, `rowsAfter` and the other names under `Claims` are only the statements' vocabulary. -/

open Sys2Proof Sys2Proof.Machine

namespace Sys2Proof.Claims

/-- A result with status OK and its data. -/
def ok (data : List Word) : Result := { status := .ok, data := data }

/-- A result of another status, without data. -/
def refused (status : Status) : Result := { status := status, data := [] }

/-- The state with one more result in the execution under way, and nothing else changed. That a command row leaves its
result there is the model's choice (log entry 2, DESIGN CHOICE). -/
def recorded (s : State) (r : Result) : State :=
  { s with mgt := { s.mgt with results := s.mgt.results ++ [r] } }

/-- The state after a list of rows, each of which answers a next state. -/
def rowsAfter (s : State) : List Instr → Option State
  | [] => some s
  | c :: cs =>
    match exec c s with
    | .next t => rowsAfter t cs
    | _ => none

/-- The pending set replaced in the state. -/
def withPending (s : State) (p : ConfigSet) : State :=
  { s with config := { s.config with pending := p } }

/-- A 16-bit counter after one more event: raised by 1, or left at 65535. -/
def raised (n : Word) : Word :=
  if n.toNat < 65535 then n + 1 else n

/-- A FRAME_OPEN whose fields are in range (R104). -/
def validOpen (lines width : Word) : Prop :=
  1 ≤ lines.toNat ∧ lines.toNat ≤ 1024 ∧ 16 ≤ width.toNat ∧ width.toNat ≤ 1024 ∧ width.toNat % 4 = 0

/-- The input frame that a FRAME_OPEN with these fields announces. -/
def opened (tag lines width : Word) : InputFrame :=
  { tag := tag, declared := lines.toNat, width := width.toNat }

/-- The defaults of R32 in the configuration store. -/
def holdsDefaults (c : ConfigStore) : Prop :=
  c.pending = c.live ∧ c.live.hOut = 480 ∧ c.live.wOut = 640 ∧ c.live.mapLength = 1
    ∧ c.live.segments[0] =
        { first := 0, count := 480, kind := .link, srcStart := 0, step := .plus1, windowBase := 0, windowRows := 1,
          colStart := 0, mirror := false, palette := 0, fill := 0, overlay := none }
    ∧ (∀ i : Fin 32, i ≠ 0 → c.live.segments[i] =
        { first := 0, count := 1, kind := .fill, srcStart := 0, step := .zero, windowBase := 0, windowRows := 1,
          colStart := 0, mirror := false, palette := 0, fill := 0, overlay := none })
    ∧ (∀ j : Fin 16, c.live.overlays[j] = none)
    ∧ (∀ (p : Fin 8) (i : Fin 16), c.live.palettes[p][i] = BitVec.ofNat 16 (i.val * 4369))
    ∧ c.live.lossColour = 0 ∧ c.live.blankColour = 0 ∧ c.live.outputOverride = .normal
    ∧ c.live.tearGuard = false ∧ c.live.panelDrive = false
    ∧ tiles 0 480 c.live.list = true
    ∧ c.generation = 0 ∧ c.commit = .none ∧ c.due = none

/-- The relations of R46 that a set passes: the list is not empty and tiles the geometry, every MEMORY window fits,
and every named overlay is filled and fits. -/
def passesR46 (p : ConfigSet) : Prop :=
  p.mapLength ≠ 0 ∧ tiles 0 p.hOut p.list = true
    ∧ (∀ g ∈ p.list, g.kind = .memory → g.windowBase + g.windowRows ≤ 256 ∧ g.srcStart < g.windowRows)
    ∧ (∀ g ∈ p.list, ∀ j, g.overlay = some j → p.overlays[j]? ≠ some none)
    ∧ (∀ g ∈ p.list, ∀ j o, g.overlay = some j → p.overlays[j]? = some (some o) →
        o.rowBase + o.rows ≤ 256 ∧ o.srcCol + o.span ≤ 1024)

/-- An unlocked link has been locked by a FRAME_OPEN with this tag: LINK_REGAINED joins the notices, or is counted in
notices_lost when they are full (R105, R112, R189, R190). -/
def regained (s : State) (tag : Word) (t : State) : Prop :=
  (s.rtx.notices.length < 4 →
      t.rtx.notices = s.rtx.notices ++ [.linkRegained tag] ∧ t.rtx.noticesLost = s.rtx.noticesLost)
    ∧ (4 ≤ s.rtx.notices.length →
      t.rtx.notices = s.rtx.notices ∧ t.rtx.noticesLost = raised s.rtx.noticesLost)
    ∧ t.rtx.replies = s.rtx.replies ∧ t.rtx.reports = s.rtx.reports ∧ t.rtx.reportsLost = s.rtx.reportsLost

/-- Where R46's check 2 expects segment i to start. -/
def expectedStart (p : ConfigSet) : Nat → Nat
  | 0 => 0
  | i + 1 =>
    match p.list[i]? with
    | some g => g.first + g.count
    | none => 0

/-- Segment i of the list fails check 2 (tiling) of R46. -/
def failsTiling (p : ConfigSet) (i : Nat) (g : Segment) : Prop :=
  g.first ≠ expectedStart p i

/-- A segment fails check 3 (height) of R46. -/
def failsHeight (p : ConfigSet) (g : Segment) : Prop :=
  p.hOut < g.first + g.count

/-- A segment fails check 4 (window) of R46. -/
def failsWindow (g : Segment) : Prop :=
  g.kind = .memory ∧ (256 < g.windowBase + g.windowRows ∨ g.windowRows ≤ g.srcStart)

/-- A segment fails check 5 (overlay reference) of R46. -/
def failsReference (p : ConfigSet) (g : Segment) : Prop :=
  ∃ j, g.overlay = some j ∧ p.overlays[j]? = some none

/-- A filled overlay slot fails check 7 (overlay fit) of R46. -/
def failsFit (p : ConfigSet) (j : Nat) : Prop :=
  ∃ o, p.overlays[j]? = some (some o) ∧ (256 < o.rowBase + o.rows ∨ 1024 < o.srcCol + o.span)

/-- Segment i passes checks 2 to 5 of R46. -/
def passesSegment (p : ConfigSet) (i : Nat) (g : Segment) : Prop :=
  ¬failsTiling p i g ∧ ¬failsHeight p g ∧ ¬failsWindow g ∧ ¬failsReference p g

/-- The address lies in the rectangle of `rows` rows and `words` word columns whose first word is (row, col) (R146). -/
def insideRectangle (row col rows words : Nat) (a : Addr) : Prop :=
  row ≤ a.row.toNat ∧ a.row.toNat < row + rows ∧ col ≤ a.col.toNat ∧ a.col.toNat < col + words

/-- The address is protected: an operation is in flight and the address lies in its destination rectangle or, for a
COPY, in its source rectangle (R146). -/
def protectedWord (m : Mover) (a : Addr) : Prop :=
  m.state ≠ .idle
    ∧ (insideRectangle m.op.dstRow m.op.dstCol m.op.rows m.op.words a
      ∨ (m.op.kind = .copy ∧ insideRectangle m.op.srcRow m.op.srcCol m.op.rows m.op.words a))

/-- A row that starts an output frame with this output tag at once, outside a frame end (R61, R63, R67): the expiry of
the holdover timer in HOLD_GAP, and a valid FRAME_OPEN in WAIT or HOLD_GAP, the link locked. -/
def startsFrame (s : State) (c : Instr) (tag : Word) : Prop :=
  (c = .holdoverTimerExpiry ∧ (∃ period, s.osq.holdTimer = .running period) ∧ s.osq.state = .holdGap
      ∧ tag = s.osq.tagCounter + 1)
    ∨ (∃ lines width, c = .frameOpen [tag, lines, width] ∧ validOpen lines width ∧ s.link.ignoring = false
      ∧ s.link.delineation = .aligned ∧ s.link.locked = true ∧ (s.osq.state = .wait ∨ s.osq.state = .holdGap))

/-- The commit request is due at a frame start with output tag T (R48, R49). -/
def requestDue (s : State) (tag : Word) : Prop :=
  s.config.due = some .next
    ∨ ∃ a : Word, s.config.due = some (.at a) ∧ (tag.toNat + 65536 - a.toNat) % 65536 < 32768

/-- A row that ends the output frame with this record, for it completes the frame's last line (R72, R75):
LINE_COMPLETION of the line in emission, no line being left to begin; or, in a dark frame, EMISSION_BEGIN of its last
line with a resolved source. `sub` says that this line was substituted. -/
def endsFrame (s : State) (c : Instr) (r : FrameRecord) (sub : Bool) : Prop :=
  s.osq.record = some r
    ∧ ((c = .lineCompletion ∧ r.lines ≤ r.nextLine ∧ ∃ e, s.osq.emission = some e ∧ e.substituted = sub)
      ∨ (∃ pready, c = .emissionBegin pready ∧ s.osq.emission = none ∧ r.drive = false ∧ r.nextLine + 1 = r.lines
          ∧ s.sourceResolved r r.nextLine = true
          ∧ (composeLine s.config.live s.lines s.pmem.array r.input r.nextLine).substituted = sub))

/-- A row that starts an output frame with this output tag at the end of another (R61, R75): bound to the input frame
in the pending slot; or, with the slot empty and the link unlocked, a holdover frame, after a bound frame or after a
holdover frame whose timer has expired. -/
def startsNextFrame (s : State) (c : Instr) (tag : Word) : Prop :=
  ∃ r sub, endsFrame s c r sub
    ∧ ((∃ f, s.osq.slot = some f ∧ tag = f.tag)
      ∨ (s.osq.slot = none ∧ s.link.locked = false ∧ tag = s.osq.tagCounter + 1
          ∧ (r.kind ≠ .holdover ∨ s.osq.holdTimer = .expired)))

/-- The stall condition of R150 for row offset i of an operation. -/
def stallCondition (p : PictureMemory) (op : MoveOp) (i : Nat) : Prop :=
  ∃ v, p.view = some v ∧ v.guard = true
    ∧ (op.dstRow + i ∈ v.rowSet ∨ (op.kind = .copy ∧ ∃ d ∈ p.deferred, d.addr.row.toNat = op.srcRow + i))

/-- The mover that has decided about row offset i of an operation: the step begins, or under the stall condition none
does and the mover is STALLED (R145, R150). -/
def decides (p : PictureMemory) (op : MoveOp) (i : Nat) (m : Mover) : Prop :=
  (¬stallCondition p op i → m = { state := .running, op := { op with stepRow := some i } })
    ∧ (stallCondition p op i → m = { state := .stalled, op := { op with stepRow := none } })

/-- The mover after an output frame end that leaves picture memory as p: a STALLED one decides again about the offset
it stalled on, any other goes on as it was (R151). -/
def resumes (before : Mover) (p : PictureMemory) (m : Mover) : Prop :=
  (before.state ≠ .stalled → m = before)
    ∧ (before.state = .stalled → decides p before.op before.op.nextOffset m)

/-- The report of an output frame with this record, closed or not, at its end in state s; `sub` says that its last line
was substituted (R76, R77, R192). -/
def reportOf (s : State) (r : FrameRecord) (sub : Bool) (close : Option CloseKind) : Report :=
  { tag := r.tag
    generation := r.generation
    flags := { holdover := decide (r.kind = .holdover), dark := !r.drive, announce := r.announce.isSome
               torn := s.pmem.torn
               inputTruncated := decide (r.kind ≠ .holdover ∧ close = some .truncated)
               tagMismatch := decide (r.kind ≠ .holdover ∧ close = some .tagMismatch)
               blanked := decide (r.outputOverride = .blank) }
    substituted := r.substituted + (if sub then 1 else 0)
    skipped := s.osq.skipAcc
    drained := s.pmem.deferred.length
    lost := s.rtx.reportsLost }

/-- What the end of the output frame with record r does whatever follows it. Picture memory is drained; the cursor, the
holder and patch mode stay (R121, R137). Reports decide by the parameter at this moment: enabled, the skip accumulator
is zeroed, and the report joins a queue with a place and resets reports_lost, or is discarded and counted there;
disabled, the accumulator goes on and no report is handed over (R76, R78, R192). A STALLED mover is tested against what
follows (R151). -/
def endsWhole (s : State) (r : FrameRecord) (sub : Bool) (t : State) : Prop :=
  (s.pmem.array.wf = true → ∀ a : Addr, t.pmem.array.read a.key = s.pmem.newest a)
    ∧ t.pmem.deferred = [] ∧ t.pmem.cursor = s.pmem.cursor ∧ t.pmem.holder = s.pmem.holder
    ∧ t.pmem.patch = s.pmem.patch
    ∧ t.link = s.link ∧ t.mgt = s.mgt ∧ t.pending = s.pending
    ∧ t.osq.slot = none ∧ t.osq.emission = none ∧ t.osq.framesSkipped = s.osq.framesSkipped
    ∧ t.rtx.replies = s.rtx.replies
    ∧ (s.mgt.reports = false → t.osq.skipAcc = s.osq.skipAcc ∧ t.rtx.reports = s.rtx.reports
        ∧ t.rtx.reportsLost = s.rtx.reportsLost)
    ∧ (s.mgt.reports = true → t.osq.skipAcc = 0
        ∧ (s.rtx.reports.length < 4 → t.rtx.reportsLost = 0
            ∧ (r.kind = .holdover → t.rtx.reports = s.rtx.reports ++ [reportOf s r sub none])
            ∧ (∀ f entry, r.kind = .bound f → s.lines.bound = some entry →
                t.rtx.reports = s.rtx.reports ++ [reportOf s r sub entry.close]))
        ∧ (4 ≤ s.rtx.reports.length →
            t.rtx.reports = s.rtx.reports ∧ t.rtx.reportsLost = raised s.rtx.reportsLost))
    ∧ resumes s.mover t.pmem t.mover

/-- The transmitter after a decision of the arbiter that found it IDLE: it sends the head of the first queue that holds
an entry, in the order notice, reply, report, and the packet goes out on the lane; with none it is IDLE (R184). -/
def servesHead (before after : ReverseTransmitter) : Prop :=
  (∀ n rest, after.notices = n :: rest → after.transmitter = some ⟨.notice n, some .notice⟩)
    ∧ (∀ r rest, after.notices = [] → after.replies = r :: rest → after.transmitter = some ⟨.reply r, some .reply⟩)
    ∧ (∀ r rest, after.notices = [] → after.replies = [] → after.reports = r :: rest →
        after.transmitter = some ⟨.report r, some .report⟩)
    ∧ (after.notices = [] → after.replies = [] → after.reports = [] →
        after.transmitter = none ∧ after.lane = before.lane)
    ∧ (∀ x, after.transmitter = some x → after.lane = before.lane ++ [x.packet])

/-- The transmitter after a notice has reached it outside an execution or at the end of one: the notice joins a queue
with a place, or is counted in notices_lost; a BUSY transmitter goes on, an IDLE one serves the head of its queues
(R184, R189). -/
def takesNotice (before : ReverseTransmitter) (n : Notice) (after : ReverseTransmitter) : Prop :=
  (before.notices.length < 4 → after.notices = before.notices ++ [n] ∧ after.noticesLost = before.noticesLost)
    ∧ (4 ≤ before.notices.length →
        after.notices = before.notices ∧ after.noticesLost = raised before.noticesLost)
    ∧ after.replies = before.replies ∧ after.reports = before.reports ∧ after.reportsLost = before.reportsLost
    ∧ (before.transmitter ≠ none → after.transmitter = before.transmitter ∧ after.lane = before.lane)
    ∧ (before.transmitter = none → servesHead before after)

/-- The words of a command entry: command code in bits 15-8 and operand count in bits 7-0, then the operands (R202). -/
def entryWords (e : CommandEntry) : List Word :=
  (e.code ++ BitVec.ofNat 8 e.operands.length) :: e.operands

/-- A CONTROL payload with this word 0 and these command entries (R202). -/
def controlWords (word0 : Word) (entries : List CommandEntry) : List Word :=
  word0 :: BitVec.ofNat 16 entries.length :: entries.flatMap entryWords

/-- The row of a command without operands. -/
def row0 (i : Instr) : List Word → Option Instr
  | [] => some i
  | _ => none

/-- The row of a command with one operand. -/
def row1 (i : Word → Instr) : List Word → Option Instr
  | [a] => some (i a)
  | _ => none

/-- The row of a command with two operands. -/
def row2 (i : Word → Word → Instr) : List Word → Option Instr
  | [a, b] => some (i a b)
  | _ => none

/-- The row of a command with three operands. -/
def row3 (i : Word → Word → Word → Instr) : List Word → Option Instr
  | [a, b, c] => some (i a b c)
  | _ => none

/-- The row of a command with a slot number and a record of `n` words. -/
def rowRecord (n : Nat) (i : Word → List Word → Instr) : List Word → Option Instr
  | slot :: record => if record.length = n then some (i slot record) else none
  | _ => none

/-- The row of PAL_WRITE, with 1-16 codes. -/
def rowPalette : List Word → Option Instr
  | p :: first :: codes => if 1 ≤ codes.length ∧ codes.length ≤ 16 then some (.palWrite p first codes) else none
  | _ => none

/-- The row of MEM_WRITE, with 1-64 words. -/
def rowWords (words : List Word) : Option Instr :=
  if 1 ≤ words.length ∧ words.length ≤ 64 then some (.memWrite words) else none

/-- The row of MOVE_FILL. -/
def rowFill : List Word → Option Instr
  | [row, col, rows, words, value] => some (.moveFill row col rows words value)
  | _ => none

/-- The row of MOVE_COPY. -/
def rowCopy : List Word → Option Instr
  | [srcRow, srcCol, dstRow, dstCol, rows, words] => some (.moveCopy srcRow srcCol dstRow dstCol rows words)
  | _ => none

/-- The row that a command entry is, by its code and its operand count (R204). -/
def entryRow (e : CommandEntry) : Option Instr :=
  match e.code.toNat with
  | 0x00 => row0 .nop e.operands
  | 0x01 => row0 .identify e.operands
  | 0x02 => row0 .status e.operands
  | 0x03 => row3 .setParam e.operands
  | 0x04 => row0 .clearCounts e.operands
  | 0x05 => row0 .softReset e.operands
  | 0x10 => row2 .setGeometry e.operands
  | 0x11 => row1 .mapLength e.operands
  | 0x12 => rowRecord 12 .segWrite e.operands
  | 0x13 => rowRecord 8 .ovlWrite e.operands
  | 0x14 => row1 .ovlClear e.operands
  | 0x15 => rowPalette e.operands
  | 0x16 => row2 .setColours e.operands
  | 0x17 => row3 .setOutput e.operands
  | 0x18 => row0 .copyLiveToPending e.operands
  | 0x19 => row3 .readConfig e.operands
  | 0x1A => row2 .commit e.operands
  | 0x1B => row0 .cancelCommit e.operands
  | 0x20 => row2 .memAddress e.operands
  | 0x21 => rowWords e.operands
  | 0x22 => row1 .memRead e.operands
  | 0x23 => row0 .patchBegin e.operands
  | 0x24 => row0 .patchEnd e.operands
  | 0x30 => rowFill e.operands
  | 0x31 => rowCopy e.operands
  | 0x32 => row0 .moveAbort e.operands
  | _ => none

/-- The state in which an execution runs its first command: no result yet and a read total of 0 (R126, R169). -/
def executionStart (s : State) : State :=
  { s with mgt := { s.mgt with readTotal := 0, results := [] } }

/-- The word address n words after `a`, in row order and around the end of the array (R119). -/
def onward (a : Addr) : Nat → Addr
  | 0 => a
  | n + 1 => onward a.next n

end Sys2Proof.Claims

open Sys2Proof.Claims

/-! ## The queue of commands -/

/-- For every command c and state s, a step with c at the front of the queue is exec c on the queue's rest.
The model's own part: log entry 9. -/
def Obligations.StepRunsTheCommandAtTheFront : Prop :=
  ∀ (c : Instr) (s : State), step { s with pending := c :: s.pending } = exec c s

/-- Every row answers a next state in every state, and none touches the queue of waiting commands.
The model's own part: log entry 9. -/
def Obligations.EveryRowAnswersNextAndKeepsTheQueue : Prop :=
  ∀ (c : Instr) (s : State), ∃ t, exec c s = .next t ∧ t.pending = s.pending

/-! ## Power-on and soft reset -/

/-- R32: after power-on and after a soft reset both sets hold the defaults, generation 0, request NONE. -/
def Obligations.BothResetsGiveTheDefaultSets : Prop :=
  ∀ (s : State),
    (∃ t, exec .powerOn s = .next t ∧ holdsDefaults t.config)
      ∧ (∃ t, exec .softReset s = .next t ∧ holdsDefaults t.config)

/-- POWER_ON: the values that R81, R97, R116, R141, R157, R181 and R196 give at the end of power-on reset.
While the link is still ignored: INITIALISATION_COMPLETE makes every word of the array 0, puts the receiver in HUNT and
ends the ignoring, and nothing else changes; the loss timer does not expire before it, so LOSS_EXPIRY changes nothing
and hands nothing to the transmitter (R116, R141, R196; log entry 23).
The model's own part: log entry 23. -/
def Obligations.PowerOnAndInitialisationTakeTheirValues : Prop :=
  ∀ (s : State),
    (∃ t, exec .powerOn s = .next t
      ∧ (t.link.ignoring = true ∧ t.link.parser = .search ∧ t.link.current = none ∧ t.link.locked = false
          ∧ t.link.lastTag = 0 ∧ t.link.lossTimer = some 100
          ∧ t.link.headerErrors = 0 ∧ t.link.payloadErrors = 0 ∧ t.link.strayPackets = 0 ∧ t.link.lineErrors = 0)
      ∧ (t.lines.slots = [] ∧ t.lines.bound = none ∧ t.lines.waiting = none ∧ t.lines.held = none)
      ∧ (t.osq.state = .wait ∧ t.osq.record = none ∧ t.osq.slot = none ∧ t.osq.holdTimer = .stopped
          ∧ t.osq.tagCounter = 0 ∧ t.osq.skipAcc = 0 ∧ t.osq.framesSkipped = 0)
      ∧ (t.pmem.cursor = ⟨0, 0⟩ ∧ t.pmem.holder = ⟨⟨0, 0⟩, 0⟩ ∧ t.pmem.patch = none ∧ t.pmem.deferred = []
          ∧ t.pmem.view = none)
      ∧ (t.mover.state = .idle ∧ t.mover.op.rowsDone = 0 ∧ t.mover.op.kind = .fill)
      ∧ (t.mgt.expected = 0 ∧ t.mgt.queue = [] ∧ t.mgt.history = [] ∧ t.mgt.controlDropped = 0 ∧ t.mgt.duplicates = 0
          ∧ t.mgt.lossTimeout = 100 ∧ t.mgt.holdoverPeriod = 20 ∧ t.mgt.reports = true)
      ∧ (t.rtx.notices = [] ∧ t.rtx.replies = [] ∧ t.rtx.reports = [] ∧ t.rtx.transmitter = none
          ∧ t.rtx.noticesLost = 0 ∧ t.rtx.reportsLost = 0))
      ∧ (s.link.ignoring = true → ∃ t, exec .initialisationComplete s = .next t
          ∧ (∀ row col : Nat, row < 256 → col < 256 → t.pmem.array.read (wordKey row col) = 0)
          ∧ t.link = { s.link with ignoring := false, delineation := .hunt }
          ∧ t = { s with pmem := { s.pmem with array := t.pmem.array }, link := t.link })
      ∧ (s.link.ignoring = true → exec .lossExpiry s = .next s)

/-- SOFT_RESET in the execution of packet p: every block's soft-reset values (R80, R96, R115, R140, R156, R179, R195).
The array keeps its words with every deferred write applied; the frame tag counter, the last input tag, the delineation
state and the mover's kind and rows done are kept, and with them, by the model's choice (log entry 14), the rest of the
mover's record but for the step in progress; p's reply is the only one in the history and in the reply queue.
On the panel port PANNOUNCE falls; a line in emission is not completed: of its W_out codes some n below W_out have gone
out, whatever n is (R28, R80, R178).
The model's own part: log entries 2, 14, 15 and 25. -/
def Obligations.SoftResetTakesTheSoftResetValues : Prop :=
  ∀ (s : State) (p : ControlPacket) (rest : List ControlPacket),
    s.mgt.queue = p :: rest → s.pmem.array.wf = true →
    ∃ t reply, exec .softReset s = .next t
      ∧ t.link = { s.link with parser := .search, current := none, locked := false, lossTimer := some 100,
                               headerErrors := 0, payloadErrors := 0, strayPackets := 0, lineErrors := 0 }
      ∧ t.lines = { slots := [], bound := none, waiting := none, held := none }
      ∧ t.osq = { state := .wait, record := none, emission := none, slot := none, holdTimer := .stopped,
                  tagCounter := s.osq.tagCounter, skipAcc := 0, framesSkipped := 0 }
      ∧ t.panel.announce = false
      ∧ (s.osq.emission = none → t.panel.strobes = s.panel.strobes)
      ∧ (∀ e earlier codes, s.osq.emission = some e → s.panel.strobes = earlier ++ [.line codes] →
          0 < s.config.live.wOut →
          ∃ n, n < s.config.live.wOut ∧ t.panel.strobes = earlier ++ [.cutLine (codes.take n)])
      ∧ (∀ a : Addr, t.pmem.array.read a.key = s.pmem.newest a)
      ∧ t.pmem.deferred = [] ∧ t.pmem.view = none ∧ t.pmem.patch = none ∧ t.pmem.cursor = ⟨0, 0⟩
      ∧ t.pmem.holder = ⟨⟨0, 0⟩, t.pmem.array.read 0⟩
      ∧ t.mover.state = .idle ∧ t.mover.op = { s.mover.op with stepRow := none }
      ∧ t.mgt.expected = p.seq + 1 ∧ t.mgt.queue = [] ∧ t.mgt.history = [reply]
      ∧ t.mgt.lossTimeout = 100 ∧ t.mgt.holdoverPeriod = 20 ∧ t.mgt.reports = true
      ∧ t.mgt.controlDropped = 0 ∧ t.mgt.duplicates = 0
      ∧ reply.seq = p.seq ∧ reply.status = .ok ∧ reply.replayed = false
      ∧ t.rtx.notices = [] ∧ t.rtx.replies = [reply] ∧ t.rtx.reports = []
      ∧ t.rtx.noticesLost = 0 ∧ t.rtx.reportsLost = 0
      ∧ (s.rtx.transmitter = none → t.rtx.transmitter = some ⟨.reply reply, some .reply⟩)
      ∧ (∀ x, s.rtx.transmitter = some x → t.rtx.transmitter = some { x with queue := none })
      ∧ t.pending = s.pending

/-! ## The forward link -/

/-- Words that are no packet, and packets that are discarded whole: while the link is ignored nothing changes anything;
after that, in HUNT, only a start marker does, which makes the receiver ALIGNED, so that a packet that began while the
link was ignored is lost; in ALIGNED a failed header raises header_errors and the receiver is in HUNT, a FILLER raises
nothing, an unknown kind raises stray_packets and a failed payload check raises payload_errors whatever the kind;
nothing else changes (R98, R99, R100, R101, R102, R116).
The model's own part: log entry 5. -/
def Obligations.DiscardedWordsOnlyRaiseTheirCounter : Prop :=
  ∀ (s : State) (k : KindCode) (p : List Word),
    ((s.link.ignoring = true ∨ s.link.delineation = .hunt) →
      exec .headerCheckFailure s = .next s ∧ exec (.frameOpen p) s = .next s
        ∧ exec (.line p) s = .next s ∧ exec (.frameClose p) s = .next s ∧ exec (.control p) s = .next s
        ∧ exec (.filler p) s = .next s ∧ exec (.unknownKindPacket k p) s = .next s
        ∧ exec (.payloadCheckFailedPacket k p) s = .next s)
      ∧ (s.link.ignoring = true → exec .startMarkerInHunt s = .next s)
      ∧ (s.link.ignoring = false → s.link.delineation = .hunt →
          exec .startMarkerInHunt s = .next { s with link := { s.link with delineation := .aligned } })
      ∧ (s.link.ignoring = false → s.link.delineation = .aligned →
          exec .headerCheckFailure s = .next
              { s with link := { s.link with delineation := .hunt, headerErrors := raised s.link.headerErrors } }
            ∧ exec (.filler p) s = .next s
            ∧ exec (.unknownKindPacket k p) s = .next
                { s with link := { s.link with strayPackets := raised s.link.strayPackets } }
            ∧ exec (.payloadCheckFailedPacket k p) s = .next
                { s with link := { s.link with payloadErrors := raised s.link.payloadErrors } })

/-- Refused input-frame packets, ALIGNED, change one counter and nothing else: a FRAME_OPEN of another length than three
words or with a field out of range raises line_errors in any parser state; a LINE in IN_FRAME that fails a check of
R107 raises line_errors; a LINE in SEARCH or GAP raises stray_packets whatever it holds (R104, R107, R108). -/
def Obligations.RefusedFramePacketsOnlyRaiseTheirCounter : Prop :=
  ∀ (s : State) (p : List Word), s.link.ignoring = false → s.link.delineation = .aligned →
    ((∀ tag lines width, p = [tag, lines, width] → ¬ validOpen lines width) →
        exec (.frameOpen p) s = .next { s with link := { s.link with lineErrors := raised s.link.lineErrors } })
      ∧ (∀ c, s.link.parser = .inFrame → s.link.current = some c →
          (p = [] ∨ ∃ (n : Word) (pixels : List Word), p = n :: pixels
            ∧ ((∃ h, c.highest = some h ∧ n.toNat ≤ h) ∨ c.frame.declared ≤ n.toNat
                ∨ pixels.length ≠ c.frame.width)) →
          exec (.line p) s = .next { s with link := { s.link with lineErrors := raised s.link.lineErrors } })
      ∧ ((s.link.parser = .search ∨ s.link.parser = .gap) →
          exec (.line p) s = .next { s with link := { s.link with strayPackets := raised s.link.strayPackets } })

/-- A valid FRAME_OPEN in WAIT or HOLD_GAP with no commit request: the link is locked, the input frame is open, and an
output frame bound to it starts at once from the live set. An unlocked link hands LINK_REGAINED with the frame's tag,
which is counted in notices_lost when the notice queue is full; a locked one hands nothing (R62, R63, R84, R105, R112,
R131, R189, R190).
The model's own part: log entry 15. -/
def Obligations.FrameOpenBetweenFramesStartsABoundFrame : Prop :=
  ∀ (s : State) (tag lines width : Word), s.link.ignoring = false → s.link.delineation = .aligned →
    validOpen lines width →
    (s.osq.state = .wait ∨ s.osq.state = .holdGap) → s.config.commit = .none →
    ∃ t, exec (.frameOpen [tag, lines, width]) s = .next t
      ∧ t.link = { s.link with parser := .inFrame, locked := true, lastTag := tag,
                               current := some { frame := opened tag lines width, highest := none },
                               lossTimer := some s.mgt.lossTimeout }
      ∧ t.osq.state = .frame ∧ t.osq.tagCounter = tag ∧ t.osq.holdTimer = .stopped ∧ t.osq.emission = none
      ∧ t.osq.slot = s.osq.slot ∧ t.osq.skipAcc = s.osq.skipAcc ∧ t.osq.framesSkipped = s.osq.framesSkipped
      ∧ t.osq.record = some { tag := tag, kind := .bound (opened tag lines width), generation := s.config.generation,
                              lines := s.config.live.hOut, drive := s.config.live.panelDrive,
                              outputOverride := s.config.live.outputOverride, announce := none, nextLine := 0,
                              substituted := 0 }
      ∧ t.lines.bound = some { frame := opened tag lines width, highest := none, close := none }
      ∧ t.lines.slots = s.lines.slots
      ∧ t.pmem = { s.pmem with view := some { rowSet := frameRows s.config.live, guard := s.config.live.tearGuard,
                                              torn := false } }
      ∧ t.panel.announce = false
      ∧ t.panel.strobes = s.panel.strobes ++ (if s.config.live.panelDrive then [.frame []] else [])
      ∧ t.config = s.config ∧ t.mover = s.mover ∧ t.mgt = s.mgt
      ∧ (s.link.locked = true → t.rtx = s.rtx)
      ∧ (s.link.locked = false → regained s tag t)

/-- A valid FRAME_OPEN while a frame is in progress takes the pending slot; an input frame already there is skipped, its
lines are freed and both skip counts rise, saturating; the frame in progress is not touched. A bound input frame that is
still open is closed as TRUNCATED. An unlocked link hands LINK_REGAINED (R63, R64, R65, R85, R91, R105, R106, R112). -/
def Obligations.FrameOpenDuringAFrameTakesTheSlot : Prop :=
  ∀ (s : State) (tag lines width : Word), s.link.ignoring = false → s.link.delineation = .aligned →
    validOpen lines width →
    (s.osq.state = .frame ∨ s.osq.state = .holdFrame) →
    ∃ t, exec (.frameOpen [tag, lines, width]) s = .next t
      ∧ t.osq = { s.osq with
                  slot := some (opened tag lines width)
                  skipAcc := if s.osq.slot.isSome then raised s.osq.skipAcc else s.osq.skipAcc
                  framesSkipped := if s.osq.slot.isSome then raised s.osq.framesSkipped else s.osq.framesSkipped }
      ∧ t.lines.waiting = some { frame := opened tag lines width, highest := none, close := none }
      ∧ t.lines.slots = s.lines.slots.filter (fun x => x.entry != .waiting)
      ∧ t.link.parser = .inFrame ∧ t.link.locked = true ∧ t.link.lastTag = tag
      ∧ t.link.current = some { frame := opened tag lines width, highest := none }
      ∧ t.link.lossTimer = some s.mgt.lossTimeout
      ∧ (∀ e, s.link.current.isSome = true → s.lines.waiting = none → s.lines.bound = some e → e.close = none →
          t.lines.bound = some { e with close := some .truncated })
      ∧ ((s.link.current = none ∨ s.lines.waiting.isSome = true) → t.lines.bound = s.lines.bound)
      ∧ t.config = s.config ∧ t.pmem = s.pmem ∧ t.panel = s.panel ∧ t.mover = s.mover ∧ t.mgt = s.mgt
      ∧ (s.link.locked = true → t.rtx = s.rtx)
      ∧ (s.link.locked = false → regained s tag t)

/-- A LINE that passes its checks. For a frame that has an entry, the receiver's and the entry's highest received rise
and the line takes the youngest place: with a free slot nothing is freed, with 32 slots occupied the oldest line is,
and a line of the other entry with the same tag and number goes first. For a frame without an entry it is not stored
and only the receiver's highest received rises (R86, R87, R88, R89, R107).
The model's own part: log entry 11. -/
def Obligations.AnAcceptedLineIsStoredYoungest : Prop :=
  ∀ (s : State) (c : CurrentFrame) (n : Word) (pixels : List Word),
    s.link.ignoring = false → s.link.delineation = .aligned → s.link.parser = .inFrame → s.link.current = some c →
    (∀ h, c.highest = some h → h < n.toNat) → n.toNat < c.frame.declared → pixels.length = c.frame.width →
    (∀ r, s.lines.receiving = some r →
      ∃ t, exec (.line (n :: pixels)) s = .next t
        ∧ t.link = { s.link with current := some { c with highest := some n.toNat } }
        ∧ t.lines.entry r = (s.lines.entry r).map (fun e => { e with highest := some n.toNat })
        ∧ (∀ other, other ≠ r → t.lines.entry other = s.lines.entry other)
        ∧ (∃ kept, t.lines.slots = kept ++ [{ entry := r, tag := c.frame.tag, number := n.toNat, pixels := pixels }]
            ∧ ((∃ x ∈ s.lines.slots, x.entry ≠ r ∧ x.tag = c.frame.tag ∧ x.number = n.toNat) →
                kept = s.lines.slots.filter fun x =>
                  decide (¬(x.entry ≠ r ∧ x.tag = c.frame.tag ∧ x.number = n.toNat)))
            ∧ ((∀ x ∈ s.lines.slots, ¬(x.entry ≠ r ∧ x.tag = c.frame.tag ∧ x.number = n.toNat)) →
                kept = if s.lines.slots.length < 32 then s.lines.slots else s.lines.slots.drop 1))
        ∧ t = { s with link := t.link, lines := t.lines })
      ∧ (s.lines.bound = none → s.lines.waiting = none →
          exec (.line (n :: pixels)) s =
            .next { s with link := { s.link with current := some { c with highest := some n.toNat } } })

/-- FRAME_CLOSE by parser state and payload length: stray, line error, or the close of the open frame with its kind in
the entry of that frame, which R93 then answers from (R85, R109).
The model's own part: log entry 11. -/
def Obligations.FrameCloseClosesTheOpenInputFrame : Prop :=
  ∀ (s : State), s.link.ignoring = false → s.link.delineation = .aligned →
    (∀ p, (s.link.parser = .search ∨ s.link.parser = .gap) →
      exec (.frameClose p) s = .next
        { s with link := { s.link with strayPackets := raised s.link.strayPackets } })
    ∧ (∀ c p, s.link.parser = .inFrame → s.link.current = some c → p.length ≠ 1 →
        exec (.frameClose p) s = .next
          { s with link := { s.link with lineErrors := raised s.link.lineErrors } })
    ∧ (∀ c tag, s.link.parser = .inFrame → s.link.current = some c →
        ∃ t, exec (.frameClose [tag]) s = .next t
          ∧ t.link = { s.link with parser := .gap, current := none }
          ∧ (∀ r e, s.lines.receiving = some r → s.lines.entry r = some e → e.close = none →
              t.lines.entry r
                = some { e with close := some (if tag = c.frame.tag then .normal else .tagMismatch) })
          ∧ t.lines.slots = s.lines.slots
          ∧ (∀ e, s.lines.receiving = some .bound → s.lines.bound = some e → e.close = none → t.lines.held = none)
          ∧ t = { s with link := t.link, lines := t.lines })

/-- Loss expiry of a running timer, the link no longer ignored: SEARCH, unlocked, no input frame open, the timer
stopped; an input frame that was open has its entry closed as TRUNCATED and its lines stay. In every output state a
locked link hands LINK_LOST with the last input tag before anything else, or counts it when the notice queue is full,
and an unlocked one hands none. From WAIT holdover is entered; in every other output state the sequencer, the
configuration and picture memory are untouched (R66, R85, R106, R110, R111, R112, R189).
The model's own part: log entry 11. -/
def Obligations.LossExpiryUnlocksTheLinkAndEntersHoldover : Prop :=
  ∀ (s : State) (period : Nat), s.link.ignoring = false → s.link.lossTimer = some period →
    ∃ t, exec .lossExpiry s = .next t
      ∧ t.link = { s.link with lossTimer := none, parser := .search, locked := false, current := none }
      ∧ t.mgt = s.mgt ∧ t.mover = s.mover ∧ t.lines.slots = s.lines.slots
      ∧ (∀ r e, s.link.current.isSome = true → s.lines.receiving = some r → s.lines.entry r = some e →
          e.close = none →
          t.lines.entry r = some { e with close := some .truncated }
            ∧ ∀ other, other ≠ r → t.lines.entry other = s.lines.entry other)
      ∧ (s.link.current = none → ∀ r, t.lines.entry r = s.lines.entry r)
      ∧ (s.link.locked = true → s.rtx.notices.length < 4 →
          ∃ later, t.rtx.notices = s.rtx.notices ++ .linkLost s.link.lastTag :: later
            ∧ (s.osq.state ≠ .wait ∨ s.config.commit = .none → later = []))
      ∧ (s.link.locked = true → 4 ≤ s.rtx.notices.length →
          t.rtx.notices = s.rtx.notices
            ∧ (s.osq.state ≠ .wait ∨ s.config.commit = .none → t.rtx.noticesLost = raised s.rtx.noticesLost))
      ∧ (s.link.locked = false → s.osq.state ≠ .wait ∨ s.config.commit = .none → t.rtx = s.rtx)
      ∧ (s.osq.state ≠ .wait → t.osq = s.osq ∧ t.config = s.config ∧ t.pmem = s.pmem ∧ t.panel = s.panel)
      ∧ (s.osq.state = .wait → t.osq.state = .holdFrame ∧ t.osq.tagCounter = s.osq.tagCounter + 1
          ∧ t.osq.holdTimer = .running s.mgt.holdoverPeriod ∧ t.osq.slot = s.osq.slot
          ∧ ∃ r, t.osq.record = some r ∧ r.kind = .holdover ∧ r.tag = s.osq.tagCounter + 1 ∧ r.nextLine = 0
              ∧ r.generation = t.config.generation ∧ r.lines = t.config.live.hOut)

/-- Line resolution: the table of R92 for a frame that has a bound entry, row by row. -/
def Obligations.QueriesAreAnsweredByTheTable : Prop :=
  ∀ (l : LineStore) (e : FrameEntry) (q : Int), l.bound = some e →
    ((∃ x ∈ l.slots, x.entry = .bound ∧ (x.number : Int) = q) →
        ∃ x ∈ l.slots, x.entry = .bound ∧ (x.number : Int) = q ∧ l.query q = .present x)
      ∧ ((∀ x ∈ l.slots, ¬(x.entry = .bound ∧ (x.number : Int) = q)) →
          (l.query q = .missing ↔
            (q < 0 ∨ (e.frame.declared : Int) ≤ q ∨ e.close ≠ none ∨ ∃ h, e.highest = some h ∧ q ≤ (h : Int)))
          ∧ (l.query q = .waiting ↔
            ¬(q < 0 ∨ (e.frame.declared : Int) ≤ q ∨ e.close ≠ none ∨ ∃ h, e.highest = some h ∧ q ≤ (h : Int))))

/-- R94: a line that is answered missing is never answered otherwise by an arriving LINE or FRAME_CLOSE. -/
def Obligations.AMissingAnswerIsFinal : Prop :=
  ∀ (s t : State) (p : List Word) (q : Int), receiverMatches s.link s.lines = true → s.lines.bound.isSome = true →
    s.lines.query q = .missing → (exec (.line p) s = .next t ∨ exec (.frameClose p) s = .next t) →
    t.lines.query q = .missing

/-! ## Output frames -/

/-- HOLDOVER_TIMER_EXPIRY of a running timer: in HOLD_GAP the next holdover frame starts at once, with the counter's
tag plus 1 and a timer started again; in HOLD_FRAME only the timer changes, to expired (R67, R68). -/
def Obligations.HoldoverTimerPacesHoldoverFrames : Prop :=
  ∀ (s : State) (period : Nat), s.osq.holdTimer = .running period →
    (s.osq.state = .holdFrame →
        exec .holdoverTimerExpiry s = .next { s with osq := { s.osq with holdTimer := .expired } })
      ∧ (s.osq.state = .holdGap →
          ∃ t r, exec .holdoverTimerExpiry s = .next t ∧ t.osq.state = .holdFrame
            ∧ t.osq.holdTimer = .running s.mgt.holdoverPeriod ∧ t.osq.tagCounter = s.osq.tagCounter + 1
            ∧ t.osq.record = some r ∧ r.kind = .holdover ∧ r.tag = s.osq.tagCounter + 1 ∧ r.nextLine = 0
            ∧ t.osq.slot = s.osq.slot ∧ t.link = s.link ∧ t.lines = s.lines ∧ t.mgt = s.mgt ∧ t.mover = s.mover
            ∧ t.pmem.array = s.pmem.array ∧ t.pmem.deferred = s.pmem.deferred ∧ t.pmem.cursor = s.pmem.cursor)

/-- A commit request at a frame start, of a holdover frame or of a frame bound to an input frame, between frames or at
the end of the frame before. Due with the live geometry, or ANNOUNCING, it transfers: the pending set becomes live, the
generation rises modulo 65536, the request is NONE, COMMIT_APPLIED joins the notices, and the frame is built from the new
set (stated while the transmitter is BUSY). Due with another geometry, by NEXT or by AT, it makes the frame an announce
frame: live set and generation stay, the request is ANNOUNCING, and a driven frame carries the pending geometry on its
FRAME strobe with PANNOUNCE asserted. Not due, it changes nothing. Beside the notice only the frame end's own report
reaches the transmitter (R48, R49, R50, R51, R52, R53, R73, R74, R75).
The model's own part: log entries 15, 17, 18 and 19. -/
def Obligations.ACommitTakesEffectAtAFrameStart : Prop :=
  ∀ (s : State) (c : Instr) (tag : Word), (startsFrame s c tag ∨ startsNextFrame s c tag) →
    (∀ x, s.rtx.transmitter = some x → s.rtx.notices.length < 4 →
      ((s.config.commit = .armed ∧ requestDue s tag
          ∧ s.config.pending.hOut = s.config.live.hOut ∧ s.config.pending.wOut = s.config.live.wOut)
        ∨ s.config.commit = .announcing) →
      ∃ t r, exec c s = .next t
        ∧ t.config = { s.config with live := s.config.pending, generation := s.config.generation + 1,
                                     commit := .none, due := none }
        ∧ t.rtx = { s.rtx with notices := s.rtx.notices ++ [.commitApplied (s.config.generation + 1) tag]
                               reports := t.rtx.reports, reportsLost := t.rtx.reportsLost }
        ∧ (startsFrame s c tag → t.rtx.reports = s.rtx.reports ∧ t.rtx.reportsLost = s.rtx.reportsLost)
        ∧ t.osq.record = some r ∧ r.tag = tag ∧ r.generation = s.config.generation + 1
        ∧ r.lines = s.config.pending.hOut
        ∧ r.drive = s.config.pending.panelDrive ∧ r.outputOverride = s.config.pending.outputOverride
        ∧ r.announce = none)
      ∧ (s.config.commit = .armed → requestDue s tag →
          (s.config.pending.hOut ≠ s.config.live.hOut ∨ s.config.pending.wOut ≠ s.config.live.wOut) →
          ∃ t r, exec c s = .next t ∧ t.config = { s.config with commit := .announcing }
            ∧ t.rtx.notices = s.rtx.notices ∧ t.rtx.noticesLost = s.rtx.noticesLost
            ∧ (startsFrame s c tag → t.rtx = s.rtx) ∧ t.osq.record = some r ∧ r.tag = tag
            ∧ r.announce = some (s.config.pending.hOut, s.config.pending.wOut) ∧ r.generation = s.config.generation
            ∧ r.lines = s.config.live.hOut
            ∧ t.panel.announce = s.config.live.panelDrive
            ∧ t.panel.strobes = s.panel.strobes
                ++ (if s.config.live.panelDrive then
                      [.frame [BitVec.ofNat 16 s.config.pending.hOut, BitVec.ofNat 16 s.config.pending.wOut]]
                    else []))
      ∧ (∀ a : Word, s.config.commit = .armed → s.config.due = some (.at a) →
          32768 ≤ (tag.toNat + 65536 - a.toNat) % 65536 →
          ∃ t r, exec c s = .next t ∧ t.config = s.config
            ∧ t.rtx.notices = s.rtx.notices ∧ t.rtx.noticesLost = s.rtx.noticesLost
            ∧ (startsFrame s c tag → t.rtx = s.rtx) ∧ t.osq.record = some r
            ∧ r.generation = s.config.generation ∧ r.lines = s.config.live.hOut ∧ r.announce = none)

/-- EMISSION_BEGIN of a driven frame whose next line is resolved, with PREADY asserted: the LINE strobe carries the
W_out composed codes, the line is in emission with its substitution indication, next line rises by 1, and nothing else
changes. No line begins while its source is waiting, or in a driven frame while PREADY is deasserted, or while a line
is in emission: then at most the line store's held query changes (R1, R69, R71, R73, R93).
The model's own part: log entries 7, 12 and 15. -/
def Obligations.ALineBeginsOnlyWhenItsConditionsHold : Prop :=
  ∀ (s : State) (r : FrameRecord), s.osq.record = some r →
    (s.osq.emission = none → r.nextLine < r.lines → r.drive = true → s.sourceResolved r r.nextLine = true →
      ∃ c : ComposedLine, c = composeLine s.config.live s.lines s.pmem.array r.input r.nextLine
        ∧ c.codes.length = s.config.live.wOut
        ∧ exec (.emissionBegin true) s = .next
            { s with
              panel := { s.panel with strobes := s.panel.strobes ++ [.line c.codes] }
              osq := { s.osq with
                       record := some { r with nextLine := r.nextLine + 1 }
                       emission := some { line := r.nextLine, substituted := c.substituted } } })
      ∧ (∀ pready : Bool,
          (s.sourceResolved r r.nextLine = false ∨ (r.drive = true ∧ pready = false) ∨ s.osq.emission ≠ none
            ∨ r.lines ≤ r.nextLine) →
          ∃ held, exec (.emissionBegin pready) s = .next { s with lines := { s.lines with held := held } })

/-- A line that is not the frame's last. LINE_COMPLETION takes it out of emission and counts it if it was substituted;
in a dark frame EMISSION_BEGIN itself completes it at once, nothing is driven and PREADY is not examined. No frame ends
(R60, R71, R72).
The model's own part: log entry 18. -/
def Obligations.ALineCompletesAndIsCounted : Prop :=
  ∀ (s : State) (r : FrameRecord), s.osq.record = some r →
    (∀ e : Emission, s.osq.emission = some e → r.nextLine < r.lines →
      ∃ t, exec .lineCompletion s = .next t
        ∧ t.osq = { s.osq with
                    emission := none
                    record := some { r with substituted := r.substituted + (if e.substituted then 1 else 0) } }
        ∧ t.lines.slots = s.lines.slots ∧ t = { s with osq := t.osq, lines := t.lines })
      ∧ (∀ pready : Bool, s.osq.emission = none → r.nextLine + 1 < r.lines → r.drive = false →
          s.sourceResolved r r.nextLine = true →
          ∃ t, exec (.emissionBegin pready) s = .next t
            ∧ t.osq = { s.osq with
                        record := some
                          { r with
                            nextLine := r.nextLine + 1
                            substituted := r.substituted
                              + (if (composeLine s.config.live s.lines s.pmem.array r.input r.nextLine).substituted
                                 then 1 else 0) } }
            ∧ t.lines.slots = s.lines.slots ∧ t = { s with osq := t.osq, lines := t.lines })

/-- The end of an output frame with the pending slot empty: the completion of the last line of a driven frame at
LINE_COMPLETION, or of a dark frame within its EMISSION_BEGIN. Every deferred write is in the array, the report is
handed over or not and a STALLED mover is tested, as `endsWhole` says; the bound frame's lines are freed with its entry.
The link locked: WAIT, the row set gone, PANNOUNCE low, so that a STALLED mover goes on. The link unlocked: after a bound
frame, or a holdover frame whose timer has expired, the next holdover frame starts at once, with the row set and the
guard of the live set; after a holdover frame whose timer runs, HOLD_GAP (R72, R75, R76, R77, R78, R90, R132, R137,
R151, R192).
The model's own part: log entries 18 and 19. -/
def Obligations.AFrameEndDrainsReportsAndWaits : Prop :=
  ∀ (s : State) (c : Instr) (r : FrameRecord) (sub : Bool), endsFrame s c r sub → s.osq.slot = none →
    ∃ t, exec c s = .next t ∧ endsWhole s r sub t
      ∧ t.lines.waiting = s.lines.waiting
      ∧ (r.kind ≠ .holdover →
          t.lines.bound = none ∧ t.lines.slots = s.lines.slots.filter (fun x => x.entry != .bound))
      ∧ (r.kind = .holdover → t.lines.bound = s.lines.bound ∧ t.lines.slots = s.lines.slots)
      ∧ (s.link.locked = true →
          t.osq.state = .wait ∧ t.osq.record = none ∧ t.osq.holdTimer = .stopped
            ∧ t.osq.tagCounter = s.osq.tagCounter ∧ t.pmem.view = none ∧ t.config = s.config
            ∧ t.panel = { s.panel with announce := false }
            ∧ t.mover = (if s.mover.state = .stalled then
                          { state := .running, op := { s.mover.op with stepRow := some s.mover.op.nextOffset } }
                        else s.mover)
            ∧ t.rtx.notices = s.rtx.notices ∧ t.rtx.noticesLost = s.rtx.noticesLost
            ∧ (s.mgt.reports = false → t.rtx = s.rtx))
      ∧ (s.link.locked = false → (r.kind ≠ .holdover ∨ s.osq.holdTimer = .expired) →
          t.osq.state = .holdFrame ∧ t.osq.tagCounter = s.osq.tagCounter + 1
            ∧ t.osq.holdTimer = .running s.mgt.holdoverPeriod
            ∧ t.pmem.view = some { rowSet := frameRows t.config.live, guard := t.config.live.tearGuard, torn := false }
            ∧ ∃ r', t.osq.record = some r' ∧ r'.kind = .holdover ∧ r'.tag = s.osq.tagCounter + 1 ∧ r'.nextLine = 0
                ∧ r'.substituted = 0 ∧ r'.lines = t.config.live.hOut ∧ r'.generation = t.config.generation)
      ∧ (∀ period, s.link.locked = false → r.kind = .holdover → s.osq.holdTimer = .running period →
          t.osq.state = .holdGap ∧ t.osq.record = none
            ∧ t.osq.holdTimer = .running period ∧ t.osq.tagCounter = s.osq.tagCounter ∧ t.pmem.view = none
            ∧ t.config = s.config ∧ t.panel = { s.panel with announce := false }
            ∧ t.rtx.notices = s.rtx.notices ∧ t.rtx.noticesLost = s.rtx.noticesLost
            ∧ (s.mgt.reports = false → t.rtx = s.rtx))

/-- A frame end, of a driven or a dark frame, with an input frame in the pending slot: the deferred writes, the report
and the skip accumulator are handled as at every frame end, and the next frame starts at once, bound to that input frame,
whether the link is locked or not: the slot empties, the state is FRAME, the tag is the input frame's; the old bound
frame's lines are freed with its entry, and the pending entry becomes the bound entry, its lines with it and in their
arrival order. A STALLED mover is tested against the row set and the guard of the frame that has started (R64, R72, R75,
R76, R78, R83, R90, R131, R137, R151, R192).
The model's own part: log entries 18 and 19. -/
def Obligations.AFrameEndBindsTheWaitingInputFrame : Prop :=
  ∀ (s : State) (c : Instr) (r : FrameRecord) (sub : Bool) (f : InputFrame),
    endsFrame s c r sub → s.osq.slot = some f →
    ∃ t r', exec c s = .next t ∧ endsWhole s r sub t
      ∧ t.osq.state = .frame ∧ t.osq.tagCounter = f.tag ∧ t.osq.holdTimer = .stopped
      ∧ t.osq.record = some r' ∧ r'.kind = .bound f ∧ r'.tag = f.tag ∧ r'.nextLine = 0 ∧ r'.substituted = 0
      ∧ r'.lines = t.config.live.hOut ∧ r'.generation = t.config.generation
      ∧ t.pmem.view = some { rowSet := frameRows t.config.live, guard := t.config.live.tearGuard, torn := false }
      ∧ t.lines.bound = s.lines.waiting ∧ t.lines.waiting = none
      ∧ ((r.kind ≠ .holdover ∨ ∀ x ∈ s.lines.slots, x.entry = .waiting) →
          t.lines.slots = (s.lines.slots.filter (fun x => x.entry == .waiting)).map
            (fun x => { x with entry := .bound }))

/-! ## Composition -/

/-- The output override: under BLANK every one of the W_out codes of every line is the blank colour, no line is
substituted and no line asks for a source; INVERT turns each code c of the NORMAL line into 65535 - c and changes
nothing else about the line (R25, R26). -/
def Obligations.OverridesBlankOrComplementTheLine : Prop :=
  ∀ (set : ConfigSet) (lines : LineStore) (array : Memory) (bound : Option InputFrame) (y : Nat),
    (set.outputOverride = .blank →
      composeLine set lines array bound y
          = { codes := List.replicate set.wOut set.blankColour, substituted := false }
        ∧ sourceQuery set bound y = none ∧ frameRows set = [])
      ∧ (set.outputOverride = .invert → (set.segmentAt y).isSome = true →
          ∃ plain inverted : ComposedLine,
            plain = composeLine { set with outputOverride := .normal } lines array bound y
              ∧ inverted = composeLine set lines array bound y
              ∧ inverted.substituted = plain.substituted ∧ inverted.codes.length = plain.codes.length
              ∧ ∀ (x : Nat) (c : Word), plain.codes[x]? = some c →
                  ∃ d : Word, inverted.codes[x]? = some d ∧ d.toNat = 65535 - c.toNat)

/-- Lines without an overlay. LINK: from a stored line, pixel x is the code at the mapped column when that is below the
frame's width, else the fill colour; a missing source, and every source in a holdover frame, gives the loss colour
throughout, and only then is the line substituted. MEMORY: pixel x shows, through the segment's palette, the index at
the mapped column of row window_base + ((src_start + k x step) mod window_rows), and the fill colour from column 1024
on; it is never substituted (R7, R9, R12, R13, R14, R15, R17, R18, R211). -/
def Obligations.BaseLinesShowTheirSource : Prop :=
  ∀ (set : ConfigSet) (lines : LineStore) (array : Memory) (g : Segment) (y : Nat),
    set.outputOverride = .normal → set.segmentAt y = some g → g.overlay = none →
    (∀ f stored, g.kind = .link →
        lines.query ((g.srcStart : Int) + ((y : Int) - (g.first : Int)) * g.step.toInt) = .present stored →
        stored.pixels.length = f.width →
        ∃ c : ComposedLine, c = composeLine set lines array (some f) y ∧ c.substituted = false
          ∧ c.codes.length = set.wOut
          ∧ ∀ x : Nat, x < set.wOut →
              c.codes[x]? = some
                (stored.pixels.getD (g.colStart + if g.mirror then set.wOut - 1 - x else x) g.fill))
      ∧ (∀ f, g.kind = .link →
          lines.query ((g.srcStart : Int) + ((y : Int) - (g.first : Int)) * g.step.toInt) = .missing →
          composeLine set lines array (some f) y
            = { codes := List.replicate set.wOut set.lossColour, substituted := true })
      ∧ (g.kind = .link → composeLine set lines array none y
          = { codes := List.replicate set.wOut set.lossColour, substituted := true })
      ∧ (∀ (bound : Option InputFrame) (row : Nat), g.kind = .memory → g.palette < 8 → 0 < g.windowRows →
          (row : Int)
            = g.windowBase + ((g.srcStart : Int) + ((y : Int) - (g.first : Int)) * g.step.toInt) % g.windowRows →
          ∃ c : ComposedLine, c = composeLine set lines array bound y ∧ c.substituted = false
            ∧ c.codes.length = set.wOut
            ∧ ∀ x col index : Nat, x < set.wOut → col = g.colStart + (if g.mirror then set.wOut - 1 - x else x) →
                index = (array.read (wordKey row (col / 4)) >>> (4 * (3 - col % 4))).toNat % 16 →
                c.codes[x]?
                  = if col < 1024 then (set.palettes[g.palette]?).bind (fun pal => pal[index]?) else some g.fill)

/-- An overlay over a line of any kind, LINK, MEMORY or FILL, also over the loss colour. Beside the set stands a plain
one that differs from it at most in the segment's overlay, which is absent there: on the lines the overlay reaches,
output column dest_x + j shows index j of its row through its own palette, unless the index is its key; every other
column shows what the plain line shows there; mirror has no part in it, and the line is substituted exactly when the
plain one is. A FILL line without an overlay is the fill colour throughout and not substituted (R2, R19, R21-R24). -/
def Obligations.OverlaysAreDrawnOverTheBaseLine : Prop :=
  ∀ (set : ConfigSet) (lines : LineStore) (array : Memory) (bound : Option InputFrame) (g : Segment) (y : Nat),
    set.outputOverride = .normal → set.segmentAt y = some g →
    (∀ (plain : ConfigSet) (o : Overlay) (j : Nat), plain.outputOverride = .normal → plain.wOut = set.wOut →
        plain.palettes = set.palettes → plain.lossColour = set.lossColour →
        plain.segmentAt y = some { g with overlay := none } → g.overlay = some j →
        set.overlays[j]? = some (some o) → o.palette < 8 →
        ∃ c b : ComposedLine, c = composeLine set lines array bound y ∧ b = composeLine plain lines array bound y
          ∧ c.substituted = b.substituted ∧ c.codes.length = set.wOut ∧ b.codes.length = set.wOut
          ∧ ∀ x : Nat, x < set.wOut →
              ((g.first + o.lineOffset ≤ y ∧ y < g.first + o.lineOffset + o.rows ∧ o.destX ≤ x ∧ x < o.destX + o.span
                  ∧ o.key ≠ some (array.pixel (o.rowBase + (y - g.first - o.lineOffset)) (o.srcCol + (x - o.destX)))) →
                c.codes[x]? = (set.palettes[o.palette]?).bind fun pal =>
                  pal[array.pixel (o.rowBase + (y - g.first - o.lineOffset)) (o.srcCol + (x - o.destX))]?)
              ∧ (¬(g.first + o.lineOffset ≤ y ∧ y < g.first + o.lineOffset + o.rows ∧ o.destX ≤ x
                  ∧ x < o.destX + o.span
                  ∧ o.key ≠ some (array.pixel (o.rowBase + (y - g.first - o.lineOffset)) (o.srcCol + (x - o.destX)))) →
                c.codes[x]? = b.codes[x]?))
      ∧ (g.kind = .fill → g.overlay = none →
          composeLine set lines array bound y = { codes := List.replicate set.wOut g.fill, substituted := false })

/-! ## General commands -/

/-- NOP returns OK with no data, IDENTIFY the 15 words of the capability record, STATUS the 25 words of the snapshot;
none changes anything but the results of the execution (R172, R173, R208).
The model's own part: log entry 2. -/
def Obligations.InformationCommandsReturnTheirWords : Prop :=
  ∀ (s : State), exec .nop s = .next (recorded s (ok []))
    ∧ exec .identify s = .next (recorded s
        (ok [0x4E42, 0x0718, 1, 32, 16, 8, 32, 256, 256, 1024, 1024, 64, 4, 8, 8]))
    ∧ exec .status s = .next (recorded s (ok
        [(match s.link.parser with | .search => 0 | .gap => 1 | .inFrame => 2),
         (if s.link.locked then 1 else 0),
         (match s.osq.state with | .wait => 0 | .frame => 1 | .holdGap => 2 | .holdFrame => 3),
         s.osq.tagCounter,
         (match s.config.commit with | .none => 0 | .armed => 1 | .announcing => 2),
         (match s.config.due with | none => 0 | some .next => 1 | some (.at _) => 2),
         (match s.config.due with | some (.at a) => a | _ => 0),
         s.config.generation,
         BitVec.ofNat 16 s.mgt.expected.toNat,
         BitVec.ofNat 16 s.mgt.queue.length,
         BitVec.ofNat 16 s.rtx.replies.length,
         (match s.mover.state with | .idle => 0 | .running => 1 | .stalled => 2),
         BitVec.ofNat 16 s.mover.op.rowsDone,
         (if s.pmem.patch = none then 0 else 1),
         BitVec.ofNat 16 s.pmem.cursor.row.toNat,
         BitVec.ofNat 16 s.pmem.cursor.col.toNat,
         BitVec.ofNat 16 s.pmem.deferred.length,
         s.link.headerErrors, s.link.payloadErrors, s.link.strayPackets, s.link.lineErrors,
         s.mgt.controlDropped, s.mgt.duplicates, s.osq.framesSkipped, s.rtx.noticesLost]))

/-- R174: SET_PARAM writes all three unit parameters, or is refused with RANGE and writes none.
The model's own part: log entry 2. -/
def Obligations.SetParamWritesAllThreeOrNone : Prop :=
  ∀ (s : State) (t h e : Word),
    ((1 ≤ t.toNat ∧ t.toNat ≤ 255 ∧ 10 ≤ h.toNat ∧ h.toNat ≤ 255 ∧ e.toNat ≤ 1) →
        exec (.setParam t h e) s = .next (recorded
          { s with mgt := { s.mgt with lossTimeout := t.toNat * 10, holdoverPeriod := h.toNat,
                                       reports := decide (e.toNat = 1) } } (ok [])))
      ∧ (¬(1 ≤ t.toNat ∧ t.toNat ≤ 255 ∧ 10 ≤ h.toNat ∧ h.toNat ≤ 255 ∧ e.toNat ≤ 1) →
          exec (.setParam t h e) s = .next (recorded s (refused .range)))

/-- R176: CLEAR_COUNTS sets the eight counters of the snapshot to 0 and changes nothing else; the skip accumulator,
reports_lost, rows done, the generation, E and every queue stay.
The model's own part: log entry 2. -/
def Obligations.ClearCountsZeroesTheEightCounters : Prop :=
  ∀ (s : State), exec .clearCounts s = .next (recorded
    { s with
      link := { s.link with headerErrors := 0, payloadErrors := 0, strayPackets := 0, lineErrors := 0 }
      mgt := { s.mgt with controlDropped := 0, duplicates := 0 }
      osq := { s.osq with framesSkipped := 0 }
      rtx := { s.rtx with noticesLost := 0 } } (ok []))

/-! ## Configuration commands -/

/-- R31: while the request is ARMED or ANNOUNCING each of the nine edit commands is refused with BUSY whatever its
operands' values, and changes nothing; one with an operand count that its code does not take gets LENGTH.
The model's own part: log entries 2 and 21. -/
def Obligations.EditsAreBusyWhileACommitWaits : Prop :=
  ∀ (s : State) (a b c : Word) (record : List Word), s.config.commit ≠ .none →
    exec (.setGeometry a b) s = .next (recorded s (refused .busy))
      ∧ exec (.mapLength a) s = .next (recorded s (refused .busy))
      ∧ (record.length = 12 → exec (.segWrite a record) s = .next (recorded s (refused .busy)))
      ∧ (record.length ≠ 12 → exec (.segWrite a record) s = .next (recorded s (refused .length)))
      ∧ (record.length = 8 → exec (.ovlWrite a record) s = .next (recorded s (refused .busy)))
      ∧ (record.length ≠ 8 → exec (.ovlWrite a record) s = .next (recorded s (refused .length)))
      ∧ exec (.ovlClear a) s = .next (recorded s (refused .busy))
      ∧ (1 ≤ record.length → record.length ≤ 16 →
          exec (.palWrite a b record) s = .next (recorded s (refused .busy)))
      ∧ ((record.length = 0 ∨ 16 < record.length) →
          exec (.palWrite a b record) s = .next (recorded s (refused .length)))
      ∧ exec (.setColours a b) s = .next (recorded s (refused .busy))
      ∧ exec (.setOutput a b c) s = .next (recorded s (refused .busy))
      ∧ exec .copyLiveToPending s = .next (recorded s (refused .busy))

/-- SET_GEOMETRY in state NONE: both values are written, or with either out of range neither (R33).
The model's own part: log entry 2. -/
def Obligations.SetGeometryWritesBothOrNeither : Prop :=
  ∀ (s : State) (h w : Word), s.config.commit = .none →
    ((1 ≤ h.toNat ∧ h.toNat ≤ 1024 ∧ 16 ≤ w.toNat ∧ w.toNat ≤ 1024 ∧ w.toNat % 4 = 0) →
        exec (.setGeometry h w) s = .next (recorded
          (withPending s { s.config.pending with hOut := h.toNat, wOut := w.toNat }) (ok [])))
      ∧ (¬(1 ≤ h.toNat ∧ h.toNat ≤ 1024 ∧ 16 ≤ w.toNat ∧ w.toNat ≤ 1024 ∧ w.toNat % 4 = 0) →
          exec (.setGeometry h w) s = .next (recorded s (refused .range)))

/-- R34: MAP_LENGTH in state NONE writes a length 0-32 and keeps every record; above 32 it is refused with RANGE; a
COMMIT of a set of length 0 is INVALID with EMPTY_MAP and index 0.
The model's own part: log entry 2. -/
def Obligations.MapLengthWritesTheLength : Prop :=
  ∀ (s : State) (n : Word), s.config.commit = .none →
    (n.toNat ≤ 32 → exec (.mapLength n) s = .next (recorded
        (withPending s { s.config.pending with mapLength := n.toNat }) (ok [])))
      ∧ (32 < n.toNat → exec (.mapLength n) s = .next (recorded s (refused .range)))
      ∧ (s.config.pending.mapLength = 0 →
          ∀ kind tag : Word, (kind = 1 ∨ kind = 2) →
            exec (.commit kind tag) s = .next (recorded s { status := .invalid, data := [1, 0] }))

/-- SEG_WRITE, OVL_WRITE and OVL_CLEAR in state NONE: the words of every record whose fields are in range replace the
named slot whole, any other twelve (eight) words and a slot above 31 (15) are refused with RANGE and change nothing;
OVL_CLEAR empties its slot (R35, R36, R37, R205).
The model's own part: log entries 2 and 21. -/
def Obligations.RecordsReplaceOneSlotOrAreRefused : Prop :=
  ∀ (s : State), s.config.commit = .none →
    (∀ (i : Fin 32) (g : Segment), g.inRange = true →
      exec (.segWrite (BitVec.ofNat 16 i.val) (segmentWords g)) s = .next (recorded
        (withPending s { s.config.pending with segments := s.config.pending.segments.set i g }) (ok [])))
      ∧ (∀ (slot : Word) (record : List Word), record.length = 12 →
          (31 < slot.toNat ∨ ∀ g : Segment, g.inRange = true → segmentWords g ≠ record) →
          exec (.segWrite slot record) s = .next (recorded s (refused .range)))
      ∧ (∀ (j : Fin 16) (o : Overlay), o.inRange = true →
          exec (.ovlWrite (BitVec.ofNat 16 j.val) (overlayWords o)) s = .next (recorded
            (withPending s { s.config.pending with overlays := s.config.pending.overlays.set j (some o) }) (ok [])))
      ∧ (∀ (slot : Word) (record : List Word), record.length = 8 →
          (15 < slot.toNat ∨ ∀ o : Overlay, o.inRange = true → overlayWords o ≠ record) →
          exec (.ovlWrite slot record) s = .next (recorded s (refused .range)))
      ∧ (∀ j : Fin 16, exec (.ovlClear (BitVec.ofNat 16 j.val)) s = .next (recorded
          (withPending s { s.config.pending with overlays := s.config.pending.overlays.set j none }) (ok [])))
      ∧ (∀ slot : Word, 15 < slot.toNat → exec (.ovlClear slot) s = .next (recorded s (refused .range)))

/-- PAL_WRITE in state NONE: codes 1 to c go to entries first_entry to first_entry + c - 1 of palette p, every other
entry and palette keeps its value; p above 7 or first_entry above 15 is refused with RANGE, and then a run past entry
15 with LENGTH (R38).
The model's own part: log entries 2 and 21. -/
def Obligations.PalWriteWritesConsecutiveEntries : Prop :=
  ∀ (s : State) (p first : Word) (codes : List Word), s.config.commit = .none → 1 ≤ codes.length →
    codes.length ≤ 16 →
    ((p.toNat ≤ 7 ∧ first.toNat + codes.length ≤ 16) →
        ∃ pals : Vector (Vector Word 16) 8,
          exec (.palWrite p first codes) s = .next (recorded
            (withPending s { s.config.pending with palettes := pals }) (ok []))
          ∧ ∀ (q : Fin 8) (i : Fin 16), pals[q][i] =
              if q.val = p.toNat ∧ first.toNat ≤ i.val ∧ i.val < first.toNat + codes.length
              then codes.getD (i.val - first.toNat) 0
              else s.config.pending.palettes[q][i])
      ∧ ((7 < p.toNat ∨ 15 < first.toNat) → exec (.palWrite p first codes) s = .next (recorded s (refused .range)))
      ∧ ((p.toNat ≤ 7 ∧ first.toNat ≤ 15 ∧ 16 < first.toNat + codes.length) →
          exec (.palWrite p first codes) s = .next (recorded s (refused .length)))

/-- R39, R40: in state NONE, SET_COLOURS writes both pending colours at once and is always taken; SET_OUTPUT writes
override, tear guard and panel drive together, and a code that stands for no value is refused with RANGE and none of
the three is written.
The model's own part: log entry 2. -/
def Obligations.ColoursAndOutputAreWrittenTogether : Prop :=
  ∀ (s : State), s.config.commit = .none →
    (∀ loss blank : Word, exec (.setColours loss blank) s = .next (recorded
        (withPending s { s.config.pending with lossColour := loss, blankColour := blank }) (ok [])))
      ∧ (∀ o g d : Word, (o.toNat ≤ 2 ∧ g.toNat ≤ 1 ∧ d.toNat ≤ 1) →
          exec (.setOutput o g d) s = .next (recorded
            (withPending s
              { s.config.pending with
                outputOverride := if o.toNat = 0 then .normal else if o.toNat = 1 then .blank else .invert
                tearGuard := decide (g.toNat = 1)
                panelDrive := decide (d.toNat = 1) }) (ok [])))
      ∧ (∀ o g d : Word, ¬(o.toNat ≤ 2 ∧ g.toNat ≤ 1 ∧ d.toNat ≤ 1) →
          exec (.setOutput o g d) s = .next (recorded s (refused .range)))

/-- R41: COPY_LIVE_TO_PENDING in state NONE replaces the whole pending set by the live set and touches nothing else;
"pending differs" then reads false.
The model's own part: log entry 2. -/
def Obligations.CopyLiveToPendingReplacesTheWholeSet : Prop :=
  ∀ (s : State), s.config.commit = .none →
    exec .copyLiveToPending s = .next (recorded (withPending s s.config.live) (ok []))
      ∧ ∀ t selector index, exec .copyLiveToPending s = .next t → (selector = 0 ∨ selector = 1) →
          exec (.readConfig selector 7 index) t = .next (recorded t (ok [s.config.generation, 0,
            (match s.config.due with | none => 0 | some .next => 1 | some (.at _) => 2),
            (match s.config.due with | some (.at a) => a | _ => 0), 0]))

/-- READ_CONFIG in every commit state: the data of R209 for each item of the set that the selector names, and, whichever
selector is given, generation, commit state, due condition and "pending differs" for GENERATION_AND_COMMIT, true exactly
when an item differs between the two sets; a selector, item or index that stands for no value is refused with RANGE;
nothing changes (R42, R43, R209).
The model's own part: log entry 2. -/
def Obligations.ReadConfigReturnsTheItem : Prop :=
  ∀ (s : State) (isLive : Bool) (set : ConfigSet) (sel index : Word),
    sel = (if isLive then 1 else 0) → set = (if isLive then s.config.live else s.config.pending) →
    exec (.readConfig sel 0 index) s = .next (recorded s (ok [BitVec.ofNat 16 set.hOut, BitVec.ofNat 16 set.wOut]))
      ∧ exec (.readConfig sel 1 index) s = .next (recorded s (ok [BitVec.ofNat 16 set.mapLength]))
      ∧ (∀ i : Fin 32, exec (.readConfig sel 2 (BitVec.ofNat 16 i.val)) s
            = .next (recorded s (ok (segmentWords set.segments[i]))))
      ∧ (∀ j : Fin 16, exec (.readConfig sel 3 (BitVec.ofNat 16 j.val)) s
            = .next (recorded s (ok (match set.overlays[j] with | none => [0] | some o => 1 :: overlayWords o))))
      ∧ (∀ p : Fin 8, exec (.readConfig sel 4 (BitVec.ofNat 16 p.val)) s
            = .next (recorded s (ok set.palettes[p].toList)))
      ∧ exec (.readConfig sel 5 index) s = .next (recorded s (ok [set.lossColour, set.blankColour]))
      ∧ exec (.readConfig sel 6 index) s = .next (recorded s (ok
          [(match set.outputOverride with | .normal => 0 | .blank => 1 | .invert => 2),
           if set.tearGuard then 1 else 0, if set.panelDrive then 1 else 0]))
      ∧ exec (.readConfig sel 7 index) s = .next (recorded s (ok
          [s.config.generation,
           (match s.config.commit with | .none => 0 | .armed => 1 | .announcing => 2),
           (match s.config.due with | none => 0 | some .next => 1 | some (.at _) => 2),
           (match s.config.due with | some (.at a) => a | _ => 0),
           if s.config.pending = s.config.live then 0 else 1]))
      ∧ (∀ bad item i : Word,
          (1 < bad.toNat ∨ 7 < item.toNat ∨ (item = 2 ∧ 31 < i.toNat) ∨ (item = 3 ∧ 15 < i.toNat)
            ∨ (item = 4 ∧ 7 < i.toNat)) →
          exec (.readConfig bad item i) s = .next (recorded s (refused .range)))

/-- COMMIT: BUSY unless NONE; RANGE for a due kind other than NEXT and AT; INVALID with reason code and index, the
request staying NONE; otherwise ARMED with the due condition and the generation the transfer will produce.
CANCEL_COMMIT by the state of the request: no effect in NONE, withdrawn in ARMED, BUSY in ANNOUNCING (R45, R54).
The model's own part: log entry 2. -/
def Obligations.CommitArmsAndCancelWithdraws : Prop :=
  ∀ (s : State) (kind tag : Word),
    (s.config.commit ≠ .none → exec (.commit kind tag) s = .next (recorded s (refused .busy)))
      ∧ (s.config.commit = .none → kind ≠ 1 → kind ≠ 2 →
          exec (.commit kind tag) s = .next (recorded s (refused .range)))
      ∧ (∀ reason index, s.config.commit = .none → (kind = 1 ∨ kind = 2) →
          validate s.config.pending = some (reason, index) →
          exec (.commit kind tag) s = .next (recorded s
            { status := .invalid
              data := [(match reason with
                        | .emptyMap => 1 | .tiling => 2 | .height => 3 | .window => 4 | .overlayRef => 5
                        | .overlayFit => 6), BitVec.ofNat 16 index] }))
      ∧ (s.config.commit = .none → (kind = 1 ∨ kind = 2) → passesR46 s.config.pending →
          exec (.commit kind tag) s = .next (recorded
            { s with config := { s.config with commit := .armed
                                               due := some (if kind = 1 then .next else .at tag) } }
            (ok [s.config.generation + 1])))
      ∧ (s.config.commit = .none → exec .cancelCommit s = .next (recorded s (ok [])))
      ∧ (s.config.commit = .armed → exec .cancelCommit s = .next (recorded
          { s with config := { s.config with commit := .none, due := none } } (ok [])))
      ∧ (s.config.commit = .announcing → exec .cancelCommit s = .next (recorded s (refused .busy)))

/-- The first failure of R46 is the one reported. With a reason of checks 2 to 5, or with HEIGHT from check 6, every
segment below the reported one passes checks 2 to 5, and the reported one passes the checks before the one it fails.
OVERLAY_FIT comes only for a list that passes checks 1 to 6; its slot is named by the list, holds an overlay that does
not fit, and every named slot below it holds one that fits (R46, R47). -/
def Obligations.TheFirstValidationFailureIsReported : Prop :=
  ∀ (p : ConfigSet) (reason : InvalidReason) (i : Nat), validate p = some (reason, i) →
    (reason = .emptyMap ↔ p.mapLength = 0)
      ∧ (reason = .emptyMap → i = 0)
      ∧ (reason ≠ .emptyMap → reason ≠ .overlayFit → ∃ g, p.list[i]? = some g
          ∧ (∀ (k : Nat) (g' : Segment), k < i → p.list[k]? = some g' → passesSegment p k g')
          ∧ (reason = .tiling → failsTiling p i g)
          ∧ (reason = .height → ¬failsTiling p i g
              ∧ (failsHeight p g
                ∨ (passesSegment p i g ∧ i + 1 = p.list.length ∧ g.first + g.count ≠ p.hOut)))
          ∧ (reason = .window → ¬failsTiling p i g ∧ ¬failsHeight p g ∧ failsWindow g)
          ∧ (reason = .overlayRef → ¬failsTiling p i g ∧ ¬failsHeight p g ∧ ¬failsWindow g ∧ failsReference p g))
      ∧ (reason = .overlayFit → tiles 0 p.hOut p.list = true
          ∧ (∀ (k : Nat) (g : Segment), p.list[k]? = some g → passesSegment p k g)
          ∧ failsFit p i ∧ (∃ g ∈ p.list, g.overlay = some i)
          ∧ ∀ j, j < i → (∃ g ∈ p.list, g.overlay = some j) → ¬failsFit p j)

/-! ## Picture memory -/

/-- MEM_ADDRESS: MODE in patch mode; RANGE for a row or col above 255; otherwise the cursor is placed and the holder
takes the newest value of that word, a deferred one before the array's (R120, R123).
The model's own part: log entry 2. -/
def Obligations.MemAddressPlacesTheCursorAndLoads : Prop :=
  ∀ (s : State) (row col : Word),
    (s.pmem.patch ≠ none → exec (.memAddress row col) s = .next (recorded s (refused .mode)))
      ∧ (s.pmem.patch = none → (255 < row.toNat ∨ 255 < col.toNat) →
          exec (.memAddress row col) s = .next (recorded s (refused .range)))
      ∧ (s.pmem.patch = none → ∀ a : Addr, row.toNat = a.row.toNat → col.toNat = a.col.toNat →
          ∃ v, exec (.memAddress row col) s = .next (recorded
              { s with pmem := { s.pmem with cursor := a, holder := { addr := a, value := v } } } (ok []))
            ∧ ((∀ d ∈ s.pmem.deferred, d.addr ≠ a) → v = s.pmem.array.read (a.row.toNat * 256 + a.col.toNat))
            ∧ (∀ older youngest newer, s.pmem.deferred = older ++ youngest :: newer → youngest.addr = a →
                (∀ d ∈ newer, d.addr ≠ a) → v = youngest.value))

/-- MEM_WRITE with no mover operation in flight and no frame in progress: every word is written at once at the cursor
and the addresses after it, around the end of the array, the cursor ends after the last, the result is OK with the
number of words, and every other word of the array is as it was. A word at the holder's address
becomes the holder's value; with none there the holder is as it was (R119, R121, R124, R125, R133).
The model's own part: log entries 2 and 21. -/
def Obligations.MemWriteWritesItsWordsInOrder : Prop :=
  ∀ (s : State) (words : List Word), 1 ≤ words.length → words.length ≤ 64 → s.mover.state = .idle →
    s.pmem.view = none → s.pmem.array.wf = true →
    ∃ t, exec (.memWrite words) s = .next t
      ∧ (∀ k w, words[k]? = some w → t.pmem.array.read (onward s.pmem.cursor k).key = w)
      ∧ (∀ a : Addr, (∀ k, k < words.length → onward s.pmem.cursor k ≠ a) →
          t.pmem.array.read a.key = s.pmem.array.read a.key)
      ∧ t.pmem.cursor = onward s.pmem.cursor words.length
      ∧ t.pmem.holder.addr = s.pmem.holder.addr
      ∧ (∀ k w, words[k]? = some w → onward s.pmem.cursor k = s.pmem.holder.addr → t.pmem.holder.value = w)
      ∧ ((∀ k, k < words.length → onward s.pmem.cursor k ≠ s.pmem.holder.addr) → t.pmem.holder = s.pmem.holder)
      ∧ t.pmem.deferred = s.pmem.deferred ∧ t.pmem.patch = s.pmem.patch
      ∧ t.pmem.view = none
      ∧ t = recorded { s with pmem := t.pmem } (ok [BitVec.ofNat 16 words.length])

/-- One word of a MEM_WRITE during a frame with no mover operation in flight: with the guard on and its row in the frame
row set it is deferred, or refused with FULL and data 0 when 64 entries wait; otherwise it is written at once, and with
the guard off and its row in the set the frame is torn. A word taken at the holder's address becomes the holder's value.
Several words, in any state: the words of one MEM_WRITE are handled as if by two, one after the other, their counts
added; so one that stops at a later word, BUSY at a protected cursor or FULL, leaves the words before it taken, the
cursor at the word not taken, and data the number taken (R121, R124, R125, R133, R134, R136).
The model's own part: log entry 2. -/
def Obligations.TheTearGuardDefersWritesToTheFrameRows : Prop :=
  ∀ (s : State),
    (∀ (w : Word) (v : FrameView) (holder : Holder), s.mover.state = .idle → s.pmem.view = some v →
      holder = (if s.pmem.holder.addr = s.pmem.cursor then { s.pmem.holder with value := w } else s.pmem.holder) →
      (v.guard = true → s.pmem.cursor.row.toNat ∈ v.rowSet → s.pmem.deferred.length < 64 →
        exec (.memWrite [w]) s = .next (recorded
          { s with pmem := { s.pmem with deferred := s.pmem.deferred ++ [{ addr := s.pmem.cursor, value := w }]
                                         cursor := s.pmem.cursor.next, holder := holder } } (ok [1])))
        ∧ (v.guard = true → s.pmem.cursor.row.toNat ∈ v.rowSet → 64 ≤ s.pmem.deferred.length →
            exec (.memWrite [w]) s = .next (recorded s { status := .full, data := [0] }))
        ∧ (v.guard = false → s.pmem.cursor.row.toNat ∈ v.rowSet →
            exec (.memWrite [w]) s = .next (recorded
              { s with pmem := { s.pmem with array := s.pmem.array.write s.pmem.cursor.key w
                                             view := some { v with torn := true }
                                             cursor := s.pmem.cursor.next, holder := holder } } (ok [1])))
        ∧ (s.pmem.cursor.row.toNat ∉ v.rowSet →
            exec (.memWrite [w]) s = .next (recorded
              { s with pmem := { s.pmem with array := s.pmem.array.write s.pmem.cursor.key w
                                             cursor := s.pmem.cursor.next, holder := holder } } (ok [1]))))
      ∧ (∀ (taken later : List Word) (q : PictureMemory), taken ≠ [] → later ≠ [] →
          taken.length + later.length ≤ 64 →
          exec (.memWrite taken) s
            = .next (recorded { s with pmem := q } (ok [BitVec.ofNat 16 taken.length])) →
          (∀ (q' : PictureMemory) (status : Status) (n : Word),
              exec (.memWrite later) { s with pmem := q }
                = .next (recorded { s with pmem := q' } { status := status, data := [n] }) →
              exec (.memWrite (taken ++ later)) s = .next (recorded { s with pmem := q' }
                { status := status, data := [BitVec.ofNat 16 taken.length + n] }))
            ∧ (protectedWord s.mover q.cursor →
                exec (.memWrite (taken ++ later)) s = .next (recorded { s with pmem := q }
                  { status := .busy, data := [BitVec.ofNat 16 taken.length] }))
            ∧ (∀ v, ¬protectedWord s.mover q.cursor → q.view = some v → v.guard = true →
                q.cursor.row.toNat ∈ v.rowSet → 64 ≤ q.deferred.length →
                exec (.memWrite (taken ++ later)) s = .next (recorded { s with pmem := q }
                  { status := .full, data := [BitVec.ofNat 16 taken.length] })))

/-- MEM_READ with no mover operation in flight: n words, the first from the holder and each later one the newest value
of the next address, or in patch mode of the cursor again; the cursor ends n words on, or stays in patch mode; the
array and the deferred queue stay (R120, R126, R127).
The model's own part: log entry 2. -/
def Obligations.MemReadReturnsConsecutiveWords : Prop :=
  ∀ (s : State) (n : Word), 1 ≤ n.toNat → n.toNat ≤ 64 → s.mgt.readTotal + n.toNat ≤ 256 → s.mover.state = .idle →
    ∃ (t : State) (data : List Word), exec (.memRead n) s = .next t ∧ t = { s with pmem := t.pmem, mgt := t.mgt }
      ∧ t.mgt = { s.mgt with results := s.mgt.results ++ [ok data], readTotal := s.mgt.readTotal + n.toNat }
      ∧ data.length = n.toNat ∧ data[0]? = some s.pmem.holder.value
      ∧ (∀ k, k + 1 < n.toNat →
          data[k + 1]? = some (s.pmem.newest
            (if s.pmem.patch = none then onward s.pmem.cursor (k + 1) else s.pmem.cursor)))
      ∧ t.pmem.cursor = (if s.pmem.patch = none then onward s.pmem.cursor n.toNat else s.pmem.cursor)
      ∧ t.pmem.holder = { addr := t.pmem.cursor, value := s.pmem.newest t.pmem.cursor }
      ∧ t.pmem.array = s.pmem.array ∧ t.pmem.deferred = s.pmem.deferred ∧ t.pmem.patch = s.pmem.patch
      ∧ t.pmem.view = s.pmem.view

/-- What stops a memory command before its first word: MEM_READ with an operand outside 1-64 is refused with RANGE, one
that would raise the packet's total above 256 with LENGTH; while an operation is in flight a cursor in its destination
rectangle, or in the source rectangle of a COPY, stops MEM_WRITE and MEM_READ with BUSY, and so does a holder address
there for MEM_READ; picture memory and the mover stay. A word outside the rectangles is taken and read as with no
operation in flight (R122, R125, R126, R127, R146).
The model's own part: log entry 2. -/
def Obligations.MemoryCommandsStopBeforeTheirFirstWord : Prop :=
  ∀ (s : State) (n : Word),
    ((n.toNat = 0 ∨ 64 < n.toNat) → exec (.memRead n) s = .next (recorded s (refused .range)))
      ∧ (1 ≤ n.toNat → n.toNat ≤ 64 → 256 < s.mgt.readTotal + n.toNat →
          exec (.memRead n) s = .next (recorded s (refused .length)))
      ∧ (1 ≤ n.toNat → n.toNat ≤ 64 → s.mgt.readTotal + n.toNat ≤ 256 →
          (protectedWord s.mover s.pmem.cursor ∨ protectedWord s.mover s.pmem.holder.addr) →
          ∃ t, exec (.memRead n) s = .next t ∧ t = { s with mgt := t.mgt }
            ∧ t.mgt.results = s.mgt.results ++ [{ status := .busy, data := [] }])
      ∧ (∀ (w : Word) (words : List Word), words.length ≤ 63 → protectedWord s.mover s.pmem.cursor →
          exec (.memWrite (w :: words)) s = .next (recorded s { status := .busy, data := [0] }))
      ∧ (∀ w : Word, s.pmem.view = none → ¬protectedWord s.mover s.pmem.cursor →
          ∃ t, exec (.memWrite [w]) s = .next t ∧ t = recorded { s with pmem := t.pmem } (ok [1])
            ∧ t.pmem.array = s.pmem.array.write s.pmem.cursor.key w ∧ t.pmem.cursor = s.pmem.cursor.next
            ∧ t.pmem.deferred = s.pmem.deferred)
      ∧ (s.mgt.readTotal < 256 → ¬protectedWord s.mover s.pmem.cursor → ¬protectedWord s.mover s.pmem.holder.addr →
          ∃ t, exec (.memRead 1) s = .next t ∧ t = { s with pmem := t.pmem, mgt := t.mgt }
            ∧ t.mgt.results = s.mgt.results ++ [ok [s.pmem.holder.value]]
            ∧ t.pmem.array = s.pmem.array ∧ t.pmem.deferred = s.pmem.deferred)

/-- PATCH_BEGIN saves the cursor; PATCH_END restores it, leaves patch mode and loads the holder there; each is refused
with MODE in the other mode; PATCH_END undoes every advance that MEM_WRITE made since (R128, R129, R130).
The model's own part: log entry 2. -/
def Obligations.PatchModeRestoresTheCursor : Prop :=
  ∀ (s : State),
    (s.pmem.patch = none →
        exec .patchBegin s = .next (recorded { s with pmem := { s.pmem with patch := some s.pmem.cursor } } (ok [])))
      ∧ (s.pmem.patch ≠ none → exec .patchBegin s = .next (recorded s (refused .mode)))
      ∧ (s.pmem.patch = none → exec .patchEnd s = .next (recorded s (refused .mode)))
      ∧ (∀ a, s.pmem.patch = some a →
          exec .patchEnd s = .next (recorded
            { s with pmem := { s.pmem with cursor := a, patch := none,
                                           holder := { addr := a, value := s.pmem.newest a } } } (ok [])))
      ∧ (∀ words : List Word, s.pmem.patch = none →
          ∃ t, rowsAfter s [.patchBegin, .memWrite words, .patchEnd] = some t ∧ t.pmem.cursor = s.pmem.cursor
            ∧ t.pmem.patch = none)

/-- The host reads back what it wrote, also while the tear guard holds the write back: MEM_ADDRESS, MEM_WRITE of one
word, MEM_ADDRESS and MEM_READ of that word return it (R120, chapter 6, section 6.3).
The model's own part: log entry 2. -/
def Obligations.TheHostReadsBackWhatItWrote : Prop :=
  ∀ (s : State) (a : Addr) (w : Word), s.pmem.patch = none → s.mover.state = .idle → s.pmem.deferred.length < 64 →
    s.mgt.readTotal < 256 → s.pmem.array.wf = true → s.pmem.deferredOk = true →
    ∃ t, rowsAfter s
        [.memAddress (a.row.setWidth 16) (a.col.setWidth 16), .memWrite [w],
         .memAddress (a.row.setWidth 16) (a.col.setWidth 16), .memRead 1] = some t
      ∧ t.mgt.results = s.mgt.results ++ [ok [], ok [1], ok [], ok [w]]

/-! ## The memory mover -/

/-- MOVE_FILL and MOVE_COPY: BUSY with an operation in flight; RANGE where a rectangle does not fit; otherwise accepted
with rows done 0, and the first step, of offset 0 or for a copy to higher rows of the last offset, is decided at once:
it begins, or, in a guarded frame whose row set holds its destination row or for a copy with an entry deferred in its
source row, the mover is STALLED. MOVE_ABORT: OK in every state; in IDLE it has no effect but its result; in flight the
step in progress is abandoned with the array and rows done as they are, MOVE_DONE ABORTED joins the notices, or is counted
in notices_lost when four wait, and the mover is IDLE; an IDLE transmitter then starts its next packet, a BUSY one goes
on (R143, R144, R145, R147, R150, R153, R184, R189, R191).
The model's own part: log entries 2, 14, 15 and 17. -/
def Obligations.MoveCommandsStartAndEndOperations : Prop :=
  ∀ (s : State) (a b c d e f : Word),
    (s.mover.state ≠ .idle →
        exec (.moveFill a b c d e) s = .next (recorded s (refused .busy))
          ∧ exec (.moveCopy a b c d e f) s = .next (recorded s (refused .busy)))
      ∧ (s.mover.state = .idle →
          (255 < a.toNat ∨ 255 < b.toNat ∨ c.toNat = 0 ∨ d.toNat = 0 ∨ 256 < a.toNat + c.toNat
            ∨ 256 < b.toNat + d.toNat) →
          exec (.moveFill a b c d e) s = .next (recorded s (refused .range)))
      ∧ (s.mover.state = .idle →
          ¬(255 < a.toNat ∨ 255 < b.toNat ∨ c.toNat = 0 ∨ d.toNat = 0 ∨ 256 < a.toNat + c.toNat
            ∨ 256 < b.toNat + d.toNat) →
          ∃ m : Mover, exec (.moveFill a b c d e) s = .next (recorded { s with mover := m } (ok []))
            ∧ decides s.pmem
                { kind := .fill, dstRow := a.toNat, dstCol := b.toNat, srcRow := 0, srcCol := 0, rows := c.toNat,
                  words := d.toNat, value := e, direction := .ascending, rowsDone := 0, stepRow := none }
                0 m)
      ∧ (s.mover.state = .idle →
          (255 < a.toNat ∨ 255 < b.toNat ∨ 255 < c.toNat ∨ 255 < d.toNat ∨ e.toNat = 0 ∨ f.toNat = 0
            ∨ 256 < a.toNat + e.toNat ∨ 256 < b.toNat + f.toNat ∨ 256 < c.toNat + e.toNat
            ∨ 256 < d.toNat + f.toNat) →
          exec (.moveCopy a b c d e f) s = .next (recorded s (refused .range)))
      ∧ (s.mover.state = .idle →
          ¬(255 < a.toNat ∨ 255 < b.toNat ∨ 255 < c.toNat ∨ 255 < d.toNat ∨ e.toNat = 0 ∨ f.toNat = 0
            ∨ 256 < a.toNat + e.toNat ∨ 256 < b.toNat + f.toNat ∨ 256 < c.toNat + e.toNat
            ∨ 256 < d.toNat + f.toNat) →
          ∃ m : Mover, exec (.moveCopy a b c d e f) s = .next (recorded { s with mover := m } (ok []))
            ∧ decides s.pmem
                { kind := .copy, dstRow := c.toNat, dstCol := d.toNat, srcRow := a.toNat, srcCol := b.toNat,
                  rows := e.toNat, words := f.toNat, value := 0,
                  direction := if a.toNat < c.toNat then .descending else .ascending, rowsDone := 0,
                  stepRow := none }
                (if a.toNat < c.toNat then e.toNat - 1 else 0) m)
      ∧ (s.mover.state = .idle →
          (s.rtx.transmitter ≠ none ∨ (s.rtx.notices = [] ∧ s.rtx.replies = [] ∧ s.rtx.reports = [])) →
          exec .moveAbort s = .next (recorded s (ok [])))
      ∧ (s.mover.state ≠ .idle →
          ∃ x : ReverseTransmitter, exec .moveAbort s = .next (recorded
              { s with mover := { state := .idle, op := { s.mover.op with stepRow := none } }, rtx := x } (ok []))
            ∧ takesNotice s.rtx (.moveDone .aborted s.mover.op.kind s.mover.op.rowsDone) x)

/-- ROW_STEP_COMPLETION. A step that the stall test lets through writes exactly its destination row span: its words take
the fill value or, for a COPY, the words the source row span held before; the step is counted; after the last the mover
is IDLE, its kind kept, and MOVE_DONE COMPLETE reaches the transmitter, which queues or counts it; otherwise the next
offset is decided at once. A frame in progress is torn by a step that writes a row of its frame row set with the guard
off, and by no other. A step for which the stall condition holds is discarded: nothing is written, rows done is not
raised, and the mover is STALLED (R134, R148, R149, R150, R152, R184, R189).
The model's own part: log entry 15. -/
def Obligations.ARowStepIsAppliedOrDiscardedWhole : Prop :=
  ∀ (s : State) (i : Nat), s.mover.state = .running → s.mover.op.stepRow = some i →
    (s.mover.consistent = true → s.pmem.array.wf = true → s.mover.op.stalls s.pmem i = false →
      ∃ t, exec .rowStepCompletion s = .next t
        ∧ (∀ row col, row < 256 → col < 256 →
            t.pmem.array.read (wordKey row col) =
              if row = s.mover.op.dstRow + i ∧ s.mover.op.dstCol ≤ col ∧ col < s.mover.op.dstCol + s.mover.op.words then
                (match s.mover.op.kind with
                 | .fill => s.mover.op.value
                 | .copy => s.pmem.array.read (wordKey (s.mover.op.srcRow + i)
                              (s.mover.op.srcCol + (col - s.mover.op.dstCol))))
              else s.pmem.array.read (wordKey row col))
        ∧ t.mover.op.rowsDone = s.mover.op.rowsDone + 1
        ∧ t.pmem.deferred = s.pmem.deferred ∧ t.pmem.holder = s.pmem.holder ∧ t.pmem.cursor = s.pmem.cursor
        ∧ (s.mover.op.rowsDone + 1 = s.mover.op.rows → t.mover.state = .idle ∧ t.mover.op.kind = s.mover.op.kind
            ∧ takesNotice s.rtx (.moveDone .complete s.mover.op.kind s.mover.op.rows) t.rtx)
        ∧ (∀ op : MoveOp, op = { s.mover.op with rowsDone := s.mover.op.rowsDone + 1 } →
            s.mover.op.rowsDone + 1 ≠ s.mover.op.rows →
            t.rtx = s.rtx ∧ decides t.pmem op op.nextOffset t.mover)
        ∧ t.pmem.patch = s.pmem.patch
        ∧ (s.pmem.view = none → t.pmem.view = none)
        ∧ (∀ v, s.pmem.view = some v →
            (v.guard = false → s.mover.op.dstRow + i ∈ v.rowSet → t.pmem.view = some { v with torn := true })
              ∧ ((v.guard = true ∨ s.mover.op.dstRow + i ∉ v.rowSet) → t.pmem.view = some v))
        ∧ t = { s with pmem := t.pmem, mover := t.mover, rtx := t.rtx })
      ∧ (∀ v, s.pmem.view = some v → v.guard = true →
          (s.mover.op.dstRow + i ∈ v.rowSet
            ∨ (s.mover.op.kind = .copy ∧ ∃ d ∈ s.pmem.deferred, d.addr.row.toNat = s.mover.op.srcRow + i)) →
          exec .rowStepCompletion s = .next
            { s with mover := { state := .stalled, op := { s.mover.op with stepRow := none } } })

/-- R144: a COPY with no frame in progress and nothing else happening ends after `rows` row steps, and every destination
word then holds what its source word held before, whatever the overlap; every word outside the destination is as it
was. -/
def Obligations.ACopyMovesTheWholeRectangle : Prop :=
  ∀ (s : State) (srcRow srcCol dstRow dstCol rows words : Word),
    s.mover.state = .idle → s.pmem.view = none → s.pmem.array.wf = true →
    rectangleFits srcRow.toNat srcCol.toNat rows.toNat words.toNat = true →
    rectangleFits dstRow.toNat dstCol.toNat rows.toNat words.toNat = true →
    ∃ t, rowsAfter s (.moveCopy srcRow srcCol dstRow dstCol rows words
            :: List.replicate rows.toNat .rowStepCompletion) = some t
      ∧ t.mover.state = .idle ∧ t.mover.op.rowsDone = rows.toNat
      ∧ (∀ i j, i < rows.toNat → j < words.toNat →
          t.pmem.array.read (wordKey (dstRow.toNat + i) (dstCol.toNat + j))
            = s.pmem.array.read (wordKey (srcRow.toNat + i) (srcCol.toNat + j)))
      ∧ (∀ row col, row < 256 → col < 256 →
          ¬(dstRow.toNat ≤ row ∧ row < dstRow.toNat + rows.toNat ∧ dstCol.toNat ≤ col
              ∧ col < dstCol.toNat + words.toNat) →
          t.pmem.array.read (wordKey row col) = s.pmem.array.read (wordKey row col))

/-! ## Control packets and execution -/

/-- The well-formed CONTROL payloads are exactly those of R202's layout: SYNC flag in bit 15 and seq in bits 7-0 of word
0, its other bits ignored, a command count of 1-16, and that many entries, each code, operand count and operands, ending
at the last word, in at most 512 words. A packet that is not well formed is discarded and control_dropped is raised: one
of more than 512 words, of fewer than two, or with a command count outside 1-16 among them. A well-formed packet with s = E, or with the SYNC
flag, joins a queue of 1 to 3 packets as the youngest, E becoming s + 1 and SYNC emptying the history; at 4 packets it
is dropped and counted (R159, R161, R162, R163, R202, R203). -/
def Obligations.ControlPacketsJoinTheQueueOrAreDropped : Prop :=
  ∀ (s : State) (payload : List Word), s.link.ignoring = false → s.link.delineation = .aligned →
    (parseControl payload = none → exec (.control payload) s = .next
        { s with mgt := { s.mgt with controlDropped := raised s.mgt.controlDropped } })
      ∧ ((512 < payload.length ∨ payload.length < 2
            ∨ ∃ (a n : Word) (rest : List Word), payload = a :: n :: rest ∧ (n.toNat = 0 ∨ 16 < n.toNat)) →
          parseControl payload = none)
      ∧ (∀ p, parseControl payload = some p ↔
          ∃ (word0 : Word) (entries : List CommandEntry), payload = controlWords word0 entries
            ∧ payload.length ≤ 512 ∧ 1 ≤ entries.length ∧ entries.length ≤ 16
            ∧ (∀ e ∈ entries, e.operands.length ≤ 255)
            ∧ p = { seq := word0.extractLsb' 0 8, sync := word0.getLsbD 15, entries := entries })
      ∧ (∀ p, parseControl payload = some p → (∀ q ∈ s.mgt.queue, q.seq ≠ p.seq) →
          (p.sync = true ∨ p.seq = s.mgt.expected) →
          (1 ≤ s.mgt.queue.length → s.mgt.queue.length < 4 →
              exec (.control payload) s = .next
                { s with mgt := { s.mgt with queue := s.mgt.queue ++ [p], expected := p.seq + 1,
                                             history := if p.sync then [] else s.mgt.history } })
            ∧ (4 ≤ s.mgt.queue.length → exec (.control payload) s = .next
                { s with mgt := { s.mgt with controlDropped := raised s.mgt.controlDropped } }))

/-- Duplicates and packets out of order run no command: configuration, picture memory, mover, sequencer, line store and
unit parameters stay, E, the command queue and the history too. A queued duplicate changes only `duplicates`. At a
duplicate distance of 1-8, `duplicates` is raised and the answer, a copy of the stored reply with REPLAYED set or, where
the history holds none, a SEQ reply with E, is placed when the reply queue has a place and discarded otherwise. At a
greater distance a SEQ reply is placed and nothing counted, or, without a place, discarded and control_dropped raised
(R164, R165, R166). -/
def Obligations.OldPacketsAreAnsweredWithoutRunning : Prop :=
  ∀ (s : State) (payload : List Word) (p : ControlPacket), s.link.ignoring = false → s.link.delineation = .aligned →
    parseControl payload = some p →
    ((∃ q ∈ s.mgt.queue, q.seq = p.seq) →
        exec (.control payload) s = .next
          { s with mgt := { s.mgt with duplicates := raised s.mgt.duplicates } })
      ∧ ((∀ q ∈ s.mgt.queue, q.seq ≠ p.seq) → p.sync = false → p.seq ≠ s.mgt.expected →
          ∃ t, exec (.control payload) s = .next t
            ∧ t = { s with mgt := t.mgt, rtx := t.rtx }
            ∧ t.rtx = { s.rtx with replies := t.rtx.replies, transmitter := t.rtx.transmitter, lane := t.rtx.lane }
            ∧ (8 ≤ s.rtx.replies.length → t.rtx = s.rtx)
            ∧ ((s.mgt.expected - p.seq).toNat ≤ 8 →
                t.mgt = { s.mgt with duplicates := raised s.mgt.duplicates }
                  ∧ (∀ r, s.rtx.replies.length < 8 → s.mgt.history.find? (fun h => h.seq == p.seq) = some r →
                      t.rtx.replies = s.rtx.replies ++ [{ r with replayed := true }])
                  ∧ (s.rtx.replies.length < 8 → (∀ h ∈ s.mgt.history, h.seq ≠ p.seq) →
                      t.rtx.replies = s.rtx.replies
                        ++ [{ seq := p.seq, replayed := false, status := .seq, results := [],
                              expected := some s.mgt.expected }]))
            ∧ (8 < (s.mgt.expected - p.seq).toNat →
                (s.rtx.replies.length < 8 → t.mgt = s.mgt
                  ∧ t.rtx.replies = s.rtx.replies
                      ++ [{ seq := p.seq, replayed := false, status := .seq, results := [],
                            expected := some s.mgt.expected }])
                  ∧ (8 ≤ s.rtx.replies.length →
                      t.mgt = { s.mgt with controlDropped := raised s.mgt.controlDropped })))

/-- EXECUTION of the packet at the head of the command queue, with a place for its reply, and a CONTROL packet accepted
into an empty command queue with such a place (which executes at once by the model's reading of R168, log entry 1). The
head is the only packet, or its reply takes the last place: then the packets behind it wait on. It leaves the queue, and exactly one reply with its seq and one result for each of its entries is the youngest in the
history and in the reply queue; the read total is discarded. What it executes are the rows of the table: entries whose
code and operand count stand in R204, none a SOFT_RESET or a MOVE_ABORT, run as their rows one after another up to the
first that is not OK, later entries get NOT_RUN, and every block but the management unit and the reply queue is then as
those rows leave it; a packet of one MOVE_ABORT has that row's effect and result, and one of one SOFT_RESET is that row
(R163, R168, R169, R170, R171, R202, R204).
The model's own part: log entries 1 and 2. -/
def Obligations.AnExecutionProducesExactlyOneReply : Prop :=
  ∀ (s : State) (p : ControlPacket), s.rtx.replies.length < 8 →
    (∀ rest : List ControlPacket, s.mgt.queue = p :: rest → (rest = [] ∨ s.rtx.replies.length = 7) →
      ∃ t reply, exec .execution s = .next t ∧ t.mgt.readTotal = 0 ∧ t.mgt.results = []
        ∧ reply.seq = p.seq ∧ reply.replayed = false ∧ reply.expected = none
        ∧ reply.results.length = p.entries.length
        ∧ t.mgt.history.getLast? = some reply ∧ t.rtx.replies.getLast? = some reply
        ∧ ((t.mgt.queue = rest ∧ t.rtx.replies = s.rtx.replies ++ [reply])
            ∨ (t.mgt.queue = [] ∧ t.rtx.replies = [reply]))
        ∧ ((∀ e ∈ p.entries, entryRow e ≠ some .softReset) →
            t.mgt.queue = rest ∧ t.rtx.replies = s.rtx.replies ++ [reply])
        ∧ t.pending = s.pending
        ∧ (∀ (ran later : List CommandEntry) (rows : List Instr) (u : State), p.entries = ran ++ later →
            ran.map entryRow = rows.map some → .softReset ∉ rows → .moveAbort ∉ rows →
            rowsAfter (executionStart s) rows = some u →
            (∀ x ∈ u.mgt.results.dropLast, x.status = .ok) →
            (later = [] ∨ ∃ x, u.mgt.results.getLast? = some x ∧ x.status ≠ .ok) →
            t.link = u.link ∧ t.lines = u.lines ∧ t.config = u.config ∧ t.osq = u.osq ∧ t.panel = u.panel
              ∧ t.pmem = u.pmem ∧ t.mover = u.mover ∧ t.rtx.notices = u.rtx.notices
              ∧ t.rtx.noticesLost = u.rtx.noticesLost
              ∧ t.mgt = { u.mgt with queue := rest, history := t.mgt.history, readTotal := 0, results := [] }
              ∧ reply.results = u.mgt.results ++ List.replicate later.length (refused .notRun))
        ∧ (∀ e u, p.entries = [e] → entryRow e = some .moveAbort →
            exec .moveAbort (executionStart s) = .next u →
            t.link = u.link ∧ t.lines = u.lines ∧ t.config = u.config ∧ t.osq = u.osq ∧ t.panel = u.panel
              ∧ t.pmem = u.pmem ∧ t.mover = u.mover ∧ t.rtx.notices = u.rtx.notices
              ∧ t.rtx.noticesLost = u.rtx.noticesLost ∧ reply.results = u.mgt.results)
        ∧ (∀ e, p.entries = [e] → entryRow e = some .softReset → exec .softReset (executionStart s) = .next t))
      ∧ (∀ payload, s.link.ignoring = false → s.link.delineation = .aligned → parseControl payload = some p →
          s.mgt.queue = [] → (p.sync = true ∨ p.seq = s.mgt.expected) →
          ∃ t reply, exec (.control payload) s = .next t ∧ t.mgt.queue = [] ∧ t.mgt.expected = p.seq + 1
            ∧ reply.seq = p.seq ∧ reply.results.length = p.entries.length
            ∧ t.mgt.history.getLast? = some reply ∧ t.rtx.replies.getLast? = some reply)

/-- The first command whose status is not OK ends the execution: a packet whose first entry has an unknown code, or a
known code with an operand count it does not take, gives UNKNOWN or LENGTH and NOT_RUN for every later entry; nothing
but the management unit and the reply queue changes, and the parameters stay (R170). -/
def Obligations.AFailedCheckEndsTheExecution : Prop :=
  ∀ (s : State) (p : ControlPacket) (e : CommandEntry) (rest : List CommandEntry) (x : Transmission),
    s.mgt.queue = [p] → p.entries = e :: rest → s.rtx.replies.length < 8 → s.rtx.transmitter = some x →
    (commandOfCode e.code = none
      ∨ ∃ c, commandOfCode e.code = some c ∧ countAllowed c e.operands.length = false) →
    ∃ t reply status, exec .execution s = .next t
      ∧ (commandOfCode e.code = none → status = .unknown) ∧ (commandOfCode e.code ≠ none → status = .length)
      ∧ reply.status = status
      ∧ reply.results = refused status :: List.replicate rest.length (refused .notRun)
      ∧ t.rtx = { s.rtx with replies := s.rtx.replies ++ [reply] }
      ∧ t = { s with mgt := t.mgt, rtx := t.rtx }
      ∧ t.mgt.expected = s.mgt.expected ∧ t.mgt.lossTimeout = s.mgt.lossTimeout
      ∧ t.mgt.holdoverPeriod = s.mgt.holdoverPeriod ∧ t.mgt.reports = s.mgt.reports

/-- No reply is longer than 575 payload words: the execution of a packet whose payload parses forms a reply within that
bound (section 10.7; R126, R198). -/
def Obligations.NoReplyExceeds575Words : Prop :=
  ∀ (s : State) (payload : List Word) (p : ControlPacket), parseControl payload = some p → s.mgt.queue = [p] →
    s.rtx.replies.length < 8 →
    ∃ t reply, exec .execution s = .next t ∧ t.mgt.history.getLast? = some reply
      ∧ (replyPayload reply).length ≤ 575

/-! ## The reverse channel -/

/-- TRANSMISSION_COMPLETION. With no packet in the command queue, or of a packet that is no reply: the place of what was
sent is freed, and the arbiter at once starts the head of the first queue that holds an entry, in the order notice,
reply, report; with none the transmitter is IDLE. Of a reply with a full reply queue and a packet waiting: the freed
place lets the packet execute, as EXECUTION with that place free would run it, its reply joins as the youngest, and only
then does the arbiter decide, so that the reply may be the one it starts (R168, R184, R185, R191).
The model's own part: log entries 1 and 15. -/
def Obligations.ACompletionFreesAPlaceAndServesInOrder : Prop :=
  ∀ (s : State) (x : Transmission), s.rtx.transmitter = some x →
    ((s.mgt.queue = [] ∨ x.queue ≠ some .reply) →
      ∃ t, exec .transmissionCompletion s = .next t
        ∧ t = { s with rtx := t.rtx }
        ∧ t.rtx.notices = (if x.queue = some .notice then s.rtx.notices.drop 1 else s.rtx.notices)
        ∧ t.rtx.replies = (if x.queue = some .reply then s.rtx.replies.drop 1 else s.rtx.replies)
        ∧ t.rtx.reports = (if x.queue = some .report then s.rtx.reports.drop 1 else s.rtx.reports)
        ∧ t.rtx.noticesLost = s.rtx.noticesLost ∧ t.rtx.reportsLost = s.rtx.reportsLost
        ∧ servesHead s.rtx t.rtx)
      ∧ (∀ p rest, x.queue = some .reply → s.mgt.queue = p :: rest → s.rtx.replies.length = 8 →
          ∃ t u reply,
            exec .execution { s with rtx := { s.rtx with replies := s.rtx.replies.drop 1 } } = .next u
              ∧ exec .transmissionCompletion s = .next t
              ∧ t = { u with rtx := { u.rtx with transmitter := t.rtx.transmitter, lane := t.rtx.lane } }
              ∧ reply.seq = p.seq ∧ reply.results.length = p.entries.length
              ∧ t.mgt.history.getLast? = some reply ∧ t.rtx.replies.getLast? = some reply
              ∧ ((∀ e ∈ p.entries, entryRow e ≠ some .softReset) →
                  t.mgt.queue = rest ∧ t.rtx.replies = s.rtx.replies.drop 1 ++ [reply])
              ∧ ((t.mgt.queue = rest ∧ t.rtx.replies = s.rtx.replies.drop 1 ++ [reply])
                  ∨ (t.mgt.queue = [] ∧ t.rtx.replies = [reply]))
              ∧ servesHead s.rtx t.rtx)

/-! ## Words on the link -/

/-- Decode and encode agree on packets: the words that frame a forward packet of any kind, its payload at most 1100
words, are received from ALIGNED as exactly that packet's arrival, and the words after them are left. With another last
word the payload check fails and the receiver stays ALIGNED; a first word that is not the start marker is a failed
header decided at that word; a start marker with another check word, or with a length field above 1100, is a failed
header too, and its words 1 and 2 are left to be examined again. Each failure puts the receiver in HUNT (R98, R99, R101, R102, R197, R199, R200).
The model's own part: log entry 6. -/
def Obligations.FramedPacketsAreReceivedAsSent : Prop :=
  ∀ (kind : KindCode) (payload rest : List Word), payload.length ≤ 1100 →
    receivePacket (frameWords kind payload ++ rest) = some (packetEvent kind payload, .aligned, rest)
      ∧ encodePacket (packetEvent kind payload) = frameWords kind payload
      ∧ (packetEvent kind payload).wellFormed = true
      ∧ (∀ check : Word, check ≠ crc payload →
          receivePacket ((frameWords kind payload).dropLast ++ check :: rest)
            = some (.payloadCheckFailedPacket kind payload, .aligned, rest))
      ∧ (∀ w : Word, w ≠ 0xA5C3 → receivePacket (w :: rest) = some (.headerCheckFailure, .hunt, rest))
      ∧ (∀ w1 w2 : Word, (w2 ≠ crc [0xA5C3, w1] ∨ 1100 < w1.toNat % 2048) →
          receivePacket (0xA5C3 :: w1 :: w2 :: rest) = some (.headerCheckFailure, .hunt, w1 :: w2 :: rest))

/-! ## Invariants -/

/-- Reset is a good state: every relation of Safety.lean holds there. -/
def Obligations.ResetIsGood : Prop :=
  State.reset.good = true

/-- A set passes validation exactly when it passes the relations of R46, and then exactly one segment of its list
covers each of its lines (R4, R5, R46). -/
def Obligations.ValidSetsTileTheirLines : Prop :=
  ∀ (p : ConfigSet), (validate p = none ↔ passesR46 p)
    ∧ (validate p = none → (∀ g ∈ p.list, 1 ≤ g.count) → ∀ y, y < p.hOut →
        ∃ i g, p.list[i]? = some g ∧ g.first ≤ y ∧ y < g.first + g.count ∧ p.segmentAt y = some g
          ∧ ∀ (j : Nat) (g' : Segment), p.list[j]? = some g' → g'.first ≤ y → y < g'.first + g'.count → j = i)

/-- Every step keeps each block consistent by itself: the link receiver's table of R103; the output states' table of
R59; both configuration sets in range, the live set valid, the pending set valid while a request waits, and a due
condition exactly then; the mover's record, and with it the array's canonical form (R4, R29, R31, R44, R59, R103,
R142-R147). -/
def Obligations.StepsKeepEachBlockConsistent : Prop :=
  ∀ (s t : State), step s = .next t →
    (s.link.consistent = true → t.link.consistent = true)
      ∧ (s.osq.consistent = true → t.osq.consistent = true)
      ∧ (s.config.inRange = true → s.config.validated = true → s.config.dueConsistent = true →
          t.config.inRange = true ∧ t.config.validated = true ∧ t.config.dueConsistent = true)
      ∧ (s.mover.consistent = true → t.mover.consistent = true ∧ (s.pmem.array.wf = true → t.pmem.array.wf = true))

/-- Every step keeps the queues of the management unit and of the reverse transmitter within their places, the lane
served, and a packet waiting in the command queue only behind a full reply queue (R160, R167, R168, R182, R184).
The model's own part: log entry 1. -/
def Obligations.StepsKeepTheQueuesAndTheLane : Prop :=
  ∀ (s t : State), s.mgt.queuesOk = true → s.rtx.withinPlaces = true → s.rtx.laneServed = true →
    headWaits s.mgt s.rtx = true → step s = .next t →
    t.mgt.queuesOk = true ∧ t.rtx.withinPlaces = true ∧ t.rtx.laneServed = true ∧ headWaits t.mgt t.rtx = true

/-- Every step keeps the whole of State.good: all the relations together (R4, R29, R30, R59, R82, R83, R93, R103, R131,
R133-R135, R142, R160, R168, R182).
The model's own part: log entry 1. -/
def Obligations.StepsKeepEveryRelation : Prop :=
  ∀ (s t : State), s.good = true → step s = .next t → t.good = true

/-- R30: the live set does not change between an output frame's start and its end. A row that changes it is a reset,
after which no output frame is in progress and the sets hold the defaults; or it starts an output frame, by the transfer
of R50: no frame was in progress before it, or the row itself ended that frame, and the frame in progress after it, with
no line begun, is the one it started, built from the new live set and generation. -/
def Obligations.TheLiveSetChangesOnlyBetweenFrames : Prop :=
  ∀ (c : Instr) (s t : State), s.osq.consistent = true → exec c s = .next t → t.config.live ≠ s.config.live →
    (t.osq.record = none ∧ holdsDefaults t.config)
      ∨ ((s.osq.record = none ∨ ∃ r sub, endsFrame s c r sub)
          ∧ t.config.live = s.config.pending ∧ t.config.generation = s.config.generation + 1
          ∧ ∃ r', t.osq.record = some r' ∧ r'.nextLine = 0 ∧ r'.generation = t.config.generation
              ∧ r'.lines = t.config.live.hOut)

/-- While a frame with the guard on is in progress, no row of the table but those that can end the frame, initialise
the array or reset the part changes a word of the frame row set in the array (R133, R150). -/
def Obligations.TheTearGuardKeepsTheFrameRows : Prop :=
  ∀ (c : Instr) (s t : State) (v : FrameView), exec c s = .next t → s.pmem.view = some v → v.guard = true →
    s.pmem.array.wf = true → s.mover.consistent = true → t.pmem.view ≠ none →
    (∀ pready, c ≠ .emissionBegin pready) → c ≠ .lineCompletion → c ≠ .initialisationComplete →
    ∀ row col, row ∈ v.rowSet → row < 256 → col < 256 →
      t.pmem.array.read (wordKey row col) = s.pmem.array.read (wordKey row col)
end

