-- ==== Sys2Proof/Laws/Memory.lean ====
section
/-! SUPPORT. The laws of the picture memory array: every write keeps the canonical form, a read gives the last word
written at its key, and a write leaves every other word alone. -/

namespace Sys2Proof.Machine

theorem Memory.wfFrom_weaken {lo lo' : Nat} {m : Memory} (h : Memory.wfFrom lo m = true) (le : lo' ≤ lo) :
    Memory.wfFrom lo' m = true := by
  cases m with
  | nil => rfl
  | cons x m => simp [Memory.wfFrom] at h ⊢; exact ⟨⟨⟨by omega, h.1.1.2⟩, h.1.2⟩, h.2⟩

theorem Memory.read_below {lo a : Nat} {m : Memory} (h : Memory.wfFrom lo m = true) (lt : a < lo) : m.read a = 0 := by
  cases m with
  | nil => rfl
  | cons x m =>
    simp [Memory.wfFrom] at h
    simp only [Memory.read]
    rw [if_neg (by omega), if_pos (by omega)]

theorem Memory.write_wfFrom {lo a : Nat} {v : Word} {m : Memory} (h : Memory.wfFrom lo m = true) (ge : lo ≤ a)
    (lt : a < 65536) : Memory.wfFrom lo (m.write a v) = true := by
  induction m generalizing lo with
  | nil =>
    simp only [Memory.write]
    split
    · rfl
    · next hv => simpa [Memory.wfFrom, ge, lt] using hv
  | cons x m ih =>
    obtain ⟨k, w⟩ := x
    simp [Memory.wfFrom] at h
    obtain ⟨⟨⟨h1, h2⟩, h3⟩, h4⟩ := h
    simp only [Memory.write]
    split
    · next hk => simpa [Memory.wfFrom, h1, h2, h3] using ih h4 (by omega)
    · split
      · next hk =>
        subst hk
        split
        · exact Memory.wfFrom_weaken h4 (by omega)
        · next hv => simpa [Memory.wfFrom, ge, lt, h4] using hv
      · split
        · simp [Memory.wfFrom, h1, h2, h3, h4]
        · next hv =>
          simp only [Memory.wfFrom, decide_eq_true_eq, Bool.and_eq_true, ne_eq]
          exact ⟨⟨⟨ge, lt⟩, hv⟩, ⟨⟨⟨by omega, h2⟩, h3⟩, h4⟩⟩

/-- A write keeps the canonical form. -/
theorem Memory.write_wf {a : Nat} {v : Word} {m : Memory} (h : m.wf = true) (lt : a < 65536) :
    (m.write a v).wf = true :=
  Memory.write_wfFrom h (Nat.zero_le a) lt

theorem Memory.read_write_from {lo a b : Nat} {v : Word} {m : Memory} (h : Memory.wfFrom lo m = true) :
    (m.write a v).read b = if b = a then v else m.read b := by
  induction m generalizing lo with
  | nil =>
    simp only [Memory.write]
    split
    · next hv => subst hv; simp [Memory.read]
    · simp only [Memory.read, eq_comm (a := a)]
      split_ifs <;> rfl
  | cons x m ih =>
    obtain ⟨k, w⟩ := x
    simp [Memory.wfFrom] at h
    obtain ⟨⟨⟨h1, h2⟩, h3⟩, h4⟩ := h
    simp only [Memory.write]
    split
    · next hk =>
      simp only [Memory.read, ih h4]
      split_ifs <;> first | rfl | omega
    · split
      · next hk =>
        subst hk
        split
        · next hv =>
          subst hv
          simp only [Memory.read]
          rcases Nat.lt_trichotomy b k with hb | hb | hb
          · rw [Memory.read_below h4 (by omega)]; simp [hb]; omega
          · rw [Memory.read_below h4 (by omega)]; simp [hb]
          · rw [if_neg (by omega), if_neg (by omega), if_neg (by omega)]
        · simp only [Memory.read]
          split_ifs <;> first | rfl | omega
      · split
        · next hv =>
          subst hv
          simp only [Memory.read]
          split_ifs <;> first | rfl | omega
        · simp only [Memory.read]
          split_ifs <;> first | rfl | omega

/-- A read gives the word just written at its key, and what it gave before at every other. -/
theorem Memory.read_write {a b : Nat} {v : Word} {m : Memory} (h : m.wf = true) :
    (m.write a v).read b = if b = a then v else m.read b :=
  Memory.read_write_from h

/-- The canonical form: two arrays that read alike are equal. -/
theorem Memory.ext_read_from {lo : Nat} {m m' : Memory} (h : Memory.wfFrom lo m = true)
    (h' : Memory.wfFrom lo m' = true) (eq : ∀ a, m.read a = m'.read a) : m = m' := by
  induction m generalizing lo m' with
  | nil =>
    cases m' with
    | nil => rfl
    | cons x m' =>
      simp [Memory.wfFrom] at h'
      have := eq x.1
      simp [Memory.read] at this
      exact absurd this.symm h'.1.2
  | cons x m ih =>
    obtain ⟨k, v⟩ := x
    simp [Memory.wfFrom] at h
    obtain ⟨⟨⟨h1, h2⟩, h3⟩, h4⟩ := h
    cases m' with
    | nil =>
      have := eq k
      simp [Memory.read] at this
      exact absurd this h3
    | cons y m' =>
      obtain ⟨k', v'⟩ := y
      simp [Memory.wfFrom] at h'
      obtain ⟨⟨⟨h1', h2'⟩, h3'⟩, h4'⟩ := h'
      have hk : k = k' := by
        rcases Nat.lt_trichotomy k k' with hlt | he | hgt
        · have := eq k
          simp only [Memory.read] at this
          rw [if_pos trivial, if_neg (by omega), if_pos hlt] at this
          exact absurd this h3
        · exact he
        · have := eq k'
          simp only [Memory.read] at this
          rw [if_neg (by omega), if_pos hgt, if_pos trivial] at this
          exact absurd this.symm h3'
      subst hk
      have hv : v = v' := by
        have := eq k
        simpa [Memory.read] using this
      subst hv
      congr 1
      refine ih h4 h4' fun a => ?_
      by_cases ha : a < k + 1
      · rw [Memory.read_below h4 ha, Memory.read_below h4' ha]
      · have := eq a
        simp only [Memory.read] at this
        rwa [if_neg (by omega), if_neg (by omega), if_neg (by omega), if_neg (by omega)] at this

theorem Memory.ext_read {m m' : Memory} (h : m.wf = true) (h' : m'.wf = true) (eq : ∀ a, m.read a = m'.read a) :
    m = m' :=
  Memory.ext_read_from h h' eq

/-! Keys of word addresses. -/

theorem Addr.key_lt (a : Addr) : a.key < 65536 := by
  have := a.row.isLt; have := a.col.isLt
  simp only [Addr.key, wordKey]; omega

theorem wordKey_inj {r c r' c' : Nat} (h : c < 256) (h' : c' < 256) :
    wordKey r c = wordKey r' c' ↔ r = r' ∧ c = c' := by
  simp only [wordKey]; omega

theorem Addr.key_inj {a b : Addr} : a.key = b.key ↔ a = b := by
  refine ⟨fun h => ?_, fun h => h ▸ rfl⟩
  have ha := a.col.isLt; have hb := b.col.isLt
  obtain ⟨hr, hc⟩ := (wordKey_inj ha hb).1 h
  obtain ⟨ar, ac⟩ := a
  obtain ⟨br, bc⟩ := b
  simp only [Addr.mk.injEq]
  exact ⟨BitVec.eq_of_toNat_eq hr, BitVec.eq_of_toNat_eq hc⟩

/-- One advance of the cursor is one key on, around the end of the array (R119). -/
theorem Addr.next_key (a : Addr) : a.next.key = (a.key + 1) % 65536 := by
  obtain ⟨r, c⟩ := a
  simp only [Addr.next, Addr.key, wordKey]
  have hr := r.isLt; have hc := c.isLt
  split
  · next h => subst h; simp [BitVec.toNat_add]; omega
  · next h =>
    have : c.toNat ≠ 255 := fun hc' => h (BitVec.eq_of_toNat_eq (by simpa using hc'))
    change r.toNat * 256 + (c + 1).toNat = _
    rw [BitVec.toNat_add, show BitVec.toNat (1 : BitVec 8) = 1 from rfl]
    omega

/-! Row spans. -/

@[simp] theorem Memory.readSpan_length (m : Memory) (key n : Nat) : (m.readSpan key n).length = n := by
  simp [Memory.readSpan]

theorem Memory.readSpan_getElem? (m : Memory) (key : Nat) {n j : Nat} (h : j < n) :
    (m.readSpan key n)[j]? = some (m.read (key + j)) := by
  simp [Memory.readSpan, h]

/-- A span write within the array keeps the canonical form and changes exactly the words of the span. -/
theorem Memory.writeSpan_spec {key : Nat} {ws : List Word} {m : Memory} (h : m.wf = true)
    (fits : key + ws.length ≤ 65536) :
    (m.writeSpan key ws).wf = true
      ∧ ∀ b, (m.writeSpan key ws).read b = if key ≤ b then ws.getD (b - key) (m.read b) else m.read b := by
  induction ws generalizing key m with
  | nil => simp [Memory.writeSpan, h]
  | cons w ws ih =>
    simp only [List.length_cons] at fits
    obtain ⟨h1, h2⟩ := ih (Memory.write_wf h (a := key) (v := w) (by omega)) (key := key + 1) (by omega)
    refine ⟨h1, fun b => ?_⟩
    simp only [Memory.writeSpan, h2, Memory.read_write h]
    rcases Nat.lt_trichotomy b key with hb | hb | hb
    · rw [if_neg (show ¬key + 1 ≤ b by omega), if_neg (show ¬b = key by omega), if_neg (show ¬key ≤ b by omega)]
    · subst hb; simp
    · obtain ⟨j, rfl⟩ : ∃ j, b = key + 1 + j := ⟨b - (key + 1), by omega⟩
      rw [if_pos (show key + 1 ≤ key + 1 + j by omega), if_neg (show ¬key + 1 + j = key by omega),
        if_pos (show key ≤ key + 1 + j by omega), show key + 1 + j - (key + 1) = j by omega,
        show key + 1 + j - key = j + 1 by omega, List.getD_cons_succ]

/-- A row step writes as many words as its operation spans. -/
@[simp] theorem MoveOp.stepWords_length (o : MoveOp) (array : Memory) (i : Nat) :
    (o.stepWords array i).length = o.words := by
  unfold MoveOp.stepWords; split <;> simp

end Sys2Proof.Machine
end

