-- ==== Sys2Proof/Laws/Reverse.lean ====
section
/-! SUPPORT. What the counters and the operations of the reverse transmitter do, each said once. -/

namespace Sys2Proof.Machine

/-- A saturating counter, in the numbers of 00_scope.md, 4.2. -/
theorem satInc_eq (n : Word) : satInc n = if n.toNat < 65535 then n + 1 else n := by
  unfold satInc
  by_cases h : n = 0xFFFF
  · subst h; rfl
  · rw [if_neg h, if_pos]
    have := n.isLt
    have : n.toNat ≠ 65535 := fun h' => h (BitVec.eq_of_toNat_eq h')
    omega

@[simp] theorem within_iff {lo hi n : Nat} : within lo hi n = true ↔ lo ≤ n ∧ n ≤ hi := by
  simp [within]

/-- A notice with a free place joins the queue, and nothing else changes (R189). -/
theorem ReverseTransmitter.takeNotice_of_free {x : ReverseTransmitter} (n : Notice) (h : x.notices.length < 4) :
    x.takeNotice n = { x with notices := x.notices ++ [n] } :=
  if_pos h

/-- A notice without a free place is only counted (R189). -/
theorem ReverseTransmitter.takeNotice_of_full {x : ReverseTransmitter} (n : Notice) (h : ¬x.notices.length < 4) :
    x.takeNotice n = { x with noticesLost := satInc x.noticesLost } :=
  if_neg h

/-- Everything a notice's arrival can do (R189). -/
theorem ReverseTransmitter.takeNotice_cases (x : ReverseTransmitter) (n : Notice) :
    (x.notices.length < 4 ∧ x.takeNotice n = { x with notices := x.notices ++ [n] })
      ∨ (4 ≤ x.notices.length ∧ x.takeNotice n = { x with noticesLost := satInc x.noticesLost }) := by
  rcases Nat.lt_or_ge x.notices.length 4 with h | h
  · exact .inl ⟨h, takeNotice_of_free n h⟩
  · exact .inr ⟨h, takeNotice_of_full n (by omega)⟩

/-- Everything a report's arrival can do (R192). -/
theorem ReverseTransmitter.takeReport_cases (x : ReverseTransmitter) (r : Report) :
    (x.reports.length < 4
        ∧ x.takeReport r = { x with reports := x.reports ++ [{ r with lost := x.reportsLost }], reportsLost := 0 })
      ∨ (4 ≤ x.reports.length ∧ x.takeReport r = { x with reportsLost := satInc x.reportsLost }) := by
  rcases Nat.lt_or_ge x.reports.length 4 with h | h
  · exact .inl ⟨h, if_pos h⟩
  · exact .inr ⟨h, if_neg (by simp only [Config.reportPlaces]; omega)⟩

/-- A BUSY transmitter is left alone by the arbiter (R184). -/
theorem ReverseTransmitter.arbitrate_busy {x : ReverseTransmitter} {t : Transmission} (h : x.transmitter = some t) :
    x.arbitrate = x := by
  simp [arbitrate, h]

/-- Everything the arbiter can do: nothing, or a start of the next entry by an IDLE transmitter (R184). -/
theorem ReverseTransmitter.arbitrate_cases (x : ReverseTransmitter) :
    x.arbitrate = x
      ∨ ∃ t, x.transmitter = none ∧ x.nextEntry = some t
          ∧ x.arbitrate = { x with transmitter := some t, lane := x.lane ++ [t.packet] } := by
  unfold arbitrate
  split
  · exact .inl rfl
  · next h =>
    split
    · exact .inl rfl
    · next t ht => exact .inr ⟨t, h, ht, rfl⟩

/-! The arbiter touches only the transmitter and the lane. -/

@[simp] theorem ReverseTransmitter.arbitrate_notices (x : ReverseTransmitter) :
    x.arbitrate.notices = x.notices := by
  obtain h | ⟨t, -, -, h⟩ := x.arbitrate_cases <;> rw [h]

@[simp] theorem ReverseTransmitter.arbitrate_replies (x : ReverseTransmitter) :
    x.arbitrate.replies = x.replies := by
  obtain h | ⟨t, -, -, h⟩ := x.arbitrate_cases <;> rw [h]

@[simp] theorem ReverseTransmitter.arbitrate_reports (x : ReverseTransmitter) :
    x.arbitrate.reports = x.reports := by
  obtain h | ⟨t, -, -, h⟩ := x.arbitrate_cases <;> rw [h]

@[simp] theorem ReverseTransmitter.arbitrate_noticesLost (x : ReverseTransmitter) :
    x.arbitrate.noticesLost = x.noticesLost := by
  obtain h | ⟨t, -, -, h⟩ := x.arbitrate_cases <;> rw [h]

@[simp] theorem ReverseTransmitter.arbitrate_reportsLost (x : ReverseTransmitter) :
    x.arbitrate.reportsLost = x.reportsLost := by
  obtain h | ⟨t, -, -, h⟩ := x.arbitrate_cases <;> rw [h]

/-- After the arbiter's decision the transmitter: as it was, or the head of the first queue that holds an entry. -/
theorem ReverseTransmitter.arbitrate_transmitter (x : ReverseTransmitter) :
    x.arbitrate.transmitter = x.transmitter.or x.nextEntry := by
  unfold arbitrate
  cases h : x.transmitter with
  | some t => simp [h]
  | none => cases h' : x.nextEntry <;> simp [h]

/-! A notice leaves replies and reports; a report leaves notices and replies. -/

@[simp] theorem ReverseTransmitter.takeNotice_replies (x : ReverseTransmitter) (n : Notice) :
    (x.takeNotice n).replies = x.replies := by
  unfold takeNotice; split <;> rfl

@[simp] theorem ReverseTransmitter.takeNotice_reports (x : ReverseTransmitter) (n : Notice) :
    (x.takeNotice n).reports = x.reports := by
  unfold takeNotice; split <;> rfl

@[simp] theorem ReverseTransmitter.takeNotice_transmitter (x : ReverseTransmitter) (n : Notice) :
    (x.takeNotice n).transmitter = x.transmitter := by
  unfold takeNotice; split <;> rfl

@[simp] theorem ReverseTransmitter.takeReport_notices (x : ReverseTransmitter) (r : Report) :
    (x.takeReport r).notices = x.notices := by
  unfold takeReport; split <;> rfl

@[simp] theorem ReverseTransmitter.takeReport_replies (x : ReverseTransmitter) (r : Report) :
    (x.takeReport r).replies = x.replies := by
  unfold takeReport; split <;> rfl

@[simp] theorem ReverseTransmitter.takeReport_transmitter (x : ReverseTransmitter) (r : Report) :
    (x.takeReport r).transmitter = x.transmitter := by
  unfold takeReport; split <;> rfl

@[simp] theorem ReverseTransmitter.replyFree_iff (x : ReverseTransmitter) :
    x.replyFree = true ↔ x.replies.length < 8 :=
  decide_eq_true_iff

end Sys2Proof.Machine
end

