-- ==== Sys2Proof/Laws/PictureMemory.lean ====
section
/-! SUPPORT. What the operations of picture memory do, each said once. -/

namespace Sys2Proof.Machine

/-! Deferred writes and the newest value. -/

/-- The drain, written over any array in canonical form: it keeps the form, and every word reads as the youngest entry
for it, or as before (R120, R137). -/
theorem drain_foldl {queue : List Deferred} {m : Memory} (h : m.wf = true) :
    Memory.wf (queue.foldl (fun m d => m.write d.addr.key d.value) m) = true
      ∧ ∀ a : Addr, Memory.read (queue.foldl (fun m d => m.write d.addr.key d.value) m) a.key
          = match queue.reverse.find? (fun d => d.addr == a) with
            | some d => d.value
            | none => m.read a.key := by
  induction queue generalizing m with
  | nil => simp [h]
  | cons d queue ih =>
    obtain ⟨h1, h2⟩ := ih (Memory.write_wf h (a := d.addr.key) (v := d.value) d.addr.key_lt)
    refine ⟨h1, fun a => ?_⟩
    rw [List.foldl_cons, h2 a, List.reverse_cons, List.find?_append]
    cases hf : queue.reverse.find? (fun d => d.addr == a) with
    | some e => simp
    | none =>
      rw [Memory.read_write h]
      by_cases hd : d.addr = a
      · simp [hd]
      · have : a.key ≠ d.addr.key := fun hk => hd (Addr.key_inj.1 hk.symm)
        simp [hd, this]

theorem PictureMemory.drain_wf {p : PictureMemory} (h : p.array.wf = true) : p.drain.array.wf = true :=
  (drain_foldl h).1

/-- After the drain every word of the array is the newest value the host wrote (R120, R137). -/
theorem PictureMemory.drain_read {p : PictureMemory} (h : p.array.wf = true) (a : Addr) :
    p.drain.array.read a.key = p.newest a :=
  (drain_foldl h).2 a

@[simp] theorem PictureMemory.drain_deferred (p : PictureMemory) : p.drain.deferred = [] := rfl
@[simp] theorem PictureMemory.drain_cursor (p : PictureMemory) : p.drain.cursor = p.cursor := rfl
@[simp] theorem PictureMemory.drain_holder (p : PictureMemory) : p.drain.holder = p.holder := rfl
@[simp] theorem PictureMemory.drain_patch (p : PictureMemory) : p.drain.patch = p.patch := rfl
@[simp] theorem PictureMemory.drain_view (p : PictureMemory) : p.drain.view = p.view := rfl
@[simp] theorem PictureMemory.endFrame_array (p : PictureMemory) : p.endFrame.array = p.drain.array := rfl
@[simp] theorem PictureMemory.endFrame_deferred (p : PictureMemory) : p.endFrame.deferred = [] := rfl
@[simp] theorem PictureMemory.endFrame_cursor (p : PictureMemory) : p.endFrame.cursor = p.cursor := rfl
@[simp] theorem PictureMemory.endFrame_holder (p : PictureMemory) : p.endFrame.holder = p.holder := rfl
@[simp] theorem PictureMemory.endFrame_patch (p : PictureMemory) : p.endFrame.patch = p.patch := rfl
@[simp] theorem PictureMemory.endFrame_view (p : PictureMemory) : p.endFrame.view = none := rfl

/-- Only the array and the queue decide the newest value. -/
theorem PictureMemory.newest_congr {p p' : PictureMemory} (h : p.array = p'.array) (h' : p.deferred = p'.deferred)
    (a : Addr) : p.newest a = p'.newest a := by
  simp [newest, h, h']

/-! A write to the array at a row: only the torn flag of the view can change (R134). -/

@[simp] theorem PictureMemory.tear_array (p : PictureMemory) (row : Nat) : (p.tear row).array = p.array := rfl
@[simp] theorem PictureMemory.tear_deferred (p : PictureMemory) (row : Nat) : (p.tear row).deferred = p.deferred := rfl
@[simp] theorem PictureMemory.tear_cursor (p : PictureMemory) (row : Nat) : (p.tear row).cursor = p.cursor := rfl
@[simp] theorem PictureMemory.tear_holder (p : PictureMemory) (row : Nat) : (p.tear row).holder = p.holder := rfl
@[simp] theorem PictureMemory.tear_patch (p : PictureMemory) (row : Nat) : (p.tear row).patch = p.patch := rfl

/-- A guarded frame is not torn (R134). -/
theorem PictureMemory.tear_of_guard {p : PictureMemory} {v : FrameView} (row : Nat) (h : p.view = some v)
    (hg : v.guard = true) : p.tear row = p := by
  obtain ⟨array, cursor, holder, patch, view, deferred⟩ := p
  subst h
  simp [tear, hg]

/-- Without a frame in progress nothing is torn. -/
theorem PictureMemory.tear_of_none {p : PictureMemory} (row : Nat) (h : p.view = none) : p.tear row = p := by
  obtain ⟨array, cursor, holder, patch, view, deferred⟩ := p
  subst h
  rfl

/-! One word of a MEM_WRITE. -/

@[simp] theorem PictureMemory.refreshHolder_array (p : PictureMemory) (a : Addr) (w : Word) :
    (p.refreshHolder a w).array = p.array := by
  unfold refreshHolder; split <;> rfl
@[simp] theorem PictureMemory.refreshHolder_deferred (p : PictureMemory) (a : Addr) (w : Word) :
    (p.refreshHolder a w).deferred = p.deferred := by
  unfold refreshHolder; split <;> rfl
@[simp] theorem PictureMemory.refreshHolder_view (p : PictureMemory) (a : Addr) (w : Word) :
    (p.refreshHolder a w).view = p.view := by
  unfold refreshHolder; split <;> rfl
@[simp] theorem PictureMemory.refreshHolder_patch (p : PictureMemory) (a : Addr) (w : Word) :
    (p.refreshHolder a w).patch = p.patch := by
  unfold refreshHolder; split <;> rfl
@[simp] theorem PictureMemory.refreshHolder_addr (p : PictureMemory) (a : Addr) (w : Word) :
    (p.refreshHolder a w).holder.addr = p.holder.addr := by
  unfold refreshHolder; split <;> rfl

/-- Where a taken word goes: into the deferred-write queue, or into the array (R133, R134). -/
theorem PictureMemory.place_cases (p : PictureMemory) (w : Word) :
    (p.defers p.cursor = true ∧ p.place w = { p with deferred := p.deferred ++ [{ addr := p.cursor, value := w }] })
      ∨ (p.defers p.cursor = false
          ∧ p.place w = PictureMemory.tear { p with array := p.array.write p.cursor.key w } p.cursor.row.toNat) := by
  unfold place
  by_cases h : p.defers p.cursor = true
  · exact .inl ⟨h, if_pos h⟩
  · exact .inr ⟨by simpa using h, if_neg h⟩

/-- A word is taken exactly when its address is not protected and a deferred one has a place; then the cursor advances
(R122, R124, R136). -/
theorem PictureMemory.writeWord_ok {p p' : PictureMemory} {m : Mover} {w : Word} (h : p.writeWord m w = .ok p') :
    m.protects p.cursor = false ∧ (p.defers p.cursor = true → p.deferred.length < 64)
      ∧ p' = { PictureMemory.refreshHolder (p.place w) p.cursor w with cursor := p.cursor.next } := by
  unfold writeWord at h
  split at h
  · cases h
  · next hp =>
    split at h
    · cases h
    · next hd =>
      cases h
      refine ⟨by simpa using hp, fun hdef => ?_, rfl⟩
      simpa [hdef, Config.deferredEntries] using hd

/-- A word that is not taken stops the command with BUSY or FULL (R122, R136). -/
theorem PictureMemory.writeWord_error {p : PictureMemory} {m : Mover} {w : Word} {status : Status}
    (h : p.writeWord m w = .error status) :
    (status = .busy ∧ m.protects p.cursor = true)
      ∨ (status = .full ∧ m.protects p.cursor = false ∧ p.defers p.cursor = true ∧ 64 ≤ p.deferred.length) := by
  unfold writeWord at h
  split at h
  · next hp => cases h; exact .inl ⟨rfl, hp⟩
  · next hp =>
    split at h
    · next hd =>
      cases h
      exact .inr ⟨rfl, by simpa using hp, by simpa [Config.deferredEntries] using hd⟩
    · cases h

/-- A MEM_WRITE keeps whatever each of its words keeps. -/
theorem PictureMemory.writeWords_induct {m : Mover} {P : PictureMemory → Prop}
    (word : ∀ p p' w, P p → p.writeWord m w = .ok p' → P p') :
    ∀ (ws : List Word) (taken : Nat) (p : PictureMemory), P p → P (PictureMemory.writeWords m ws taken p).1
  | [], _, _, h => h
  | w :: ws, taken, p, h => by
    unfold writeWords
    split
    · next p' hw => exact writeWords_induct word ws (taken + 1) p' (word p p' w h hw)
    · exact h

/-- The words of one MEM_WRITE are handled as by two, the second going on where the first has taken all its words
(R124, R125). -/
theorem PictureMemory.writeWords_append (m : Mover) : ∀ (ws later : List Word) (taken : Nat) (p : PictureMemory),
    PictureMemory.writeWords m (ws ++ later) taken p =
      if (PictureMemory.writeWords m ws taken p).2.status = .ok then
        PictureMemory.writeWords m later (taken + ws.length) (PictureMemory.writeWords m ws taken p).1
      else PictureMemory.writeWords m ws taken p
  | [], _, _, _ => rfl
  | w :: ws, later, taken, p => by
    simp only [List.cons_append, writeWords]
    obtain ⟨r, hr⟩ : ∃ r, p.writeWord m w = r := ⟨_, rfl⟩
    simp only [hr]
    cases r with
    | ok p' =>
      simp only [writeWords_append m ws later (taken + 1) p', List.length_cons, Nat.add_assoc, Nat.add_comm 1]
    | error status => obtain ⟨rfl, -⟩ | ⟨rfl, -⟩ := writeWord_error hr <;> rfl

/-- Words of a MEM_WRITE keep the canonical form of the array. -/
theorem PictureMemory.writeWords_wf {m : Mover} {ws : List Word} {taken : Nat} {p : PictureMemory}
    (h : p.array.wf = true) : (PictureMemory.writeWords m ws taken p).1.array.wf = true := by
  refine writeWords_induct (P := fun p => p.array.wf = true) (fun p p' w hp hw => ?_) ws taken p h
  obtain ⟨-, -, rfl⟩ := writeWord_ok hw
  simp only [refreshHolder_array]
  obtain ⟨-, hpl⟩ | ⟨-, hpl⟩ := p.place_cases w <;> rw [hpl]
  · exact hp
  · exact Memory.write_wf hp p.cursor.key_lt

/-! MEM_READ. -/

/-- A MEM_READ changes only the cursor and the holder. -/
theorem PictureMemory.readWords_frame (m : Mover) (n : Nat) (got : List Word) (p : PictureMemory) :
    ∃ cursor holder, (PictureMemory.readWords m n got p).1 = { p with cursor := cursor, holder := holder } := by
  induction n generalizing got p with
  | zero => exact ⟨p.cursor, p.holder, rfl⟩
  | succ n ih =>
    unfold readWords
    split
    · exact ⟨p.cursor, p.holder, rfl⟩
    · obtain ⟨c, h, he⟩ := ih (got ++ [p.holder.value]) p.afterRead
      exact ⟨c, h, by rw [he]; rfl⟩

/-- A MEM_READ returns at most the words it was asked for, and exactly those when it is OK (R127). -/
theorem PictureMemory.readWords_length (m : Mover) (n : Nat) (got : List Word) (p : PictureMemory) :
    (PictureMemory.readWords m n got p).2.data.length ≤ got.length + n
      ∧ ((PictureMemory.readWords m n got p).2.status = .ok →
          (PictureMemory.readWords m n got p).2.data.length = got.length + n) := by
  induction n generalizing got p with
  | zero => simp [readWords, okResult]
  | succ n ih =>
    unfold readWords
    split
    · simp
    · have := ih (got ++ [p.holder.value]) p.afterRead
      simp only [List.length_append, List.length_singleton] at this
      exact ⟨by omega, fun h => by have := this.2 h; omega⟩

end Sys2Proof.Machine
end

