-- ==== Sys2Proof/Laws/State.lean ====
section
/-! SUPPORT. What each named update of the state leaves in each field, true by unfolding the update once. -/

namespace Sys2Proof.Machine

/-! `State.arbitrate` -/

@[simp] theorem State.arbitrate_link (s : State) : s.arbitrate.link = s.link := rfl
@[simp] theorem State.arbitrate_lines (s : State) : s.arbitrate.lines = s.lines := rfl
@[simp] theorem State.arbitrate_config (s : State) : s.arbitrate.config = s.config := rfl
@[simp] theorem State.arbitrate_osq (s : State) : s.arbitrate.osq = s.osq := rfl
@[simp] theorem State.arbitrate_panel (s : State) : s.arbitrate.panel = s.panel := rfl
@[simp] theorem State.arbitrate_pmem (s : State) : s.arbitrate.pmem = s.pmem := rfl
@[simp] theorem State.arbitrate_mover (s : State) : s.arbitrate.mover = s.mover := rfl
@[simp] theorem State.arbitrate_mgt (s : State) : s.arbitrate.mgt = s.mgt := rfl
@[simp] theorem State.arbitrate_rtx (s : State) : s.arbitrate.rtx = s.rtx.arbitrate := rfl
@[simp] theorem State.arbitrate_pending (s : State) : s.arbitrate.pending = s.pending := rfl

/-! `State.queueNotice` -/

@[simp] theorem State.queueNotice_link (s : State) (n : Notice) : (s.queueNotice n).link = s.link := rfl
@[simp] theorem State.queueNotice_lines (s : State) (n : Notice) : (s.queueNotice n).lines = s.lines := rfl
@[simp] theorem State.queueNotice_config (s : State) (n : Notice) : (s.queueNotice n).config = s.config := rfl
@[simp] theorem State.queueNotice_osq (s : State) (n : Notice) : (s.queueNotice n).osq = s.osq := rfl
@[simp] theorem State.queueNotice_panel (s : State) (n : Notice) : (s.queueNotice n).panel = s.panel := rfl
@[simp] theorem State.queueNotice_pmem (s : State) (n : Notice) : (s.queueNotice n).pmem = s.pmem := rfl
@[simp] theorem State.queueNotice_mover (s : State) (n : Notice) : (s.queueNotice n).mover = s.mover := rfl
@[simp] theorem State.queueNotice_mgt (s : State) (n : Notice) : (s.queueNotice n).mgt = s.mgt := rfl
@[simp] theorem State.queueNotice_rtx (s : State) (n : Notice) : (s.queueNotice n).rtx = s.rtx.takeNotice n := rfl
@[simp] theorem State.queueNotice_pending (s : State) (n : Notice) : (s.queueNotice n).pending = s.pending := rfl

/-! `State.handNotice` -/

@[simp] theorem State.handNotice_link (s : State) (n : Notice) : (s.handNotice n).link = s.link := rfl
@[simp] theorem State.handNotice_lines (s : State) (n : Notice) : (s.handNotice n).lines = s.lines := rfl
@[simp] theorem State.handNotice_config (s : State) (n : Notice) : (s.handNotice n).config = s.config := rfl
@[simp] theorem State.handNotice_osq (s : State) (n : Notice) : (s.handNotice n).osq = s.osq := rfl
@[simp] theorem State.handNotice_panel (s : State) (n : Notice) : (s.handNotice n).panel = s.panel := rfl
@[simp] theorem State.handNotice_pmem (s : State) (n : Notice) : (s.handNotice n).pmem = s.pmem := rfl
@[simp] theorem State.handNotice_mover (s : State) (n : Notice) : (s.handNotice n).mover = s.mover := rfl
@[simp] theorem State.handNotice_mgt (s : State) (n : Notice) : (s.handNotice n).mgt = s.mgt := rfl
@[simp] theorem State.handNotice_rtx (s : State) (n : Notice) :
    (s.handNotice n).rtx = (s.rtx.takeNotice n).arbitrate := rfl
@[simp] theorem State.handNotice_pending (s : State) (n : Notice) : (s.handNotice n).pending = s.pending := rfl

/-! `State.handReport` -/

@[simp] theorem State.handReport_link (s : State) (r : Report) : (s.handReport r).link = s.link := rfl
@[simp] theorem State.handReport_lines (s : State) (r : Report) : (s.handReport r).lines = s.lines := rfl
@[simp] theorem State.handReport_config (s : State) (r : Report) : (s.handReport r).config = s.config := rfl
@[simp] theorem State.handReport_osq (s : State) (r : Report) : (s.handReport r).osq = s.osq := rfl
@[simp] theorem State.handReport_panel (s : State) (r : Report) : (s.handReport r).panel = s.panel := rfl
@[simp] theorem State.handReport_pmem (s : State) (r : Report) : (s.handReport r).pmem = s.pmem := rfl
@[simp] theorem State.handReport_mover (s : State) (r : Report) : (s.handReport r).mover = s.mover := rfl
@[simp] theorem State.handReport_mgt (s : State) (r : Report) : (s.handReport r).mgt = s.mgt := rfl
@[simp] theorem State.handReport_rtx (s : State) (r : Report) :
    (s.handReport r).rtx = (s.rtx.takeReport r).arbitrate := rfl
@[simp] theorem State.handReport_pending (s : State) (r : Report) : (s.handReport r).pending = s.pending := rfl

/-! `State.discardFrame` -/

@[simp] theorem State.discardFrame_link (s : State) (r : FrameRecord) : (s.discardFrame r).link = s.link := rfl
@[simp] theorem State.discardFrame_lines (s : State) (r : FrameRecord) :
    (s.discardFrame r).lines = if r.input.isSome then s.lines.freeBound else s.lines := rfl
@[simp] theorem State.discardFrame_config (s : State) (r : FrameRecord) : (s.discardFrame r).config = s.config := rfl
@[simp] theorem State.discardFrame_osq (s : State) (r : FrameRecord) :
    (s.discardFrame r).osq = { s.osq with record := none, emission := none } := rfl
@[simp] theorem State.discardFrame_panel (s : State) (r : FrameRecord) :
    (s.discardFrame r).panel = { s.panel with announce := false } := rfl
@[simp] theorem State.discardFrame_pmem (s : State) (r : FrameRecord) : (s.discardFrame r).pmem = s.pmem := rfl
@[simp] theorem State.discardFrame_mover (s : State) (r : FrameRecord) : (s.discardFrame r).mover = s.mover := rfl
@[simp] theorem State.discardFrame_mgt (s : State) (r : FrameRecord) : (s.discardFrame r).mgt = s.mgt := rfl
@[simp] theorem State.discardFrame_rtx (s : State) (r : FrameRecord) : (s.discardFrame r).rtx = s.rtx := rfl
@[simp] theorem State.discardFrame_pending (s : State) (r : FrameRecord) :
    (s.discardFrame r).pending = s.pending := rfl

/-! `State.countStray` -/

@[simp] theorem State.countStray_link (s : State) :
    s.countStray.link = { s.link with strayPackets := satInc s.link.strayPackets } := rfl
@[simp] theorem State.countStray_lines (s : State) : s.countStray.lines = s.lines := rfl
@[simp] theorem State.countStray_config (s : State) : s.countStray.config = s.config := rfl
@[simp] theorem State.countStray_osq (s : State) : s.countStray.osq = s.osq := rfl
@[simp] theorem State.countStray_panel (s : State) : s.countStray.panel = s.panel := rfl
@[simp] theorem State.countStray_pmem (s : State) : s.countStray.pmem = s.pmem := rfl
@[simp] theorem State.countStray_mover (s : State) : s.countStray.mover = s.mover := rfl
@[simp] theorem State.countStray_mgt (s : State) : s.countStray.mgt = s.mgt := rfl
@[simp] theorem State.countStray_rtx (s : State) : s.countStray.rtx = s.rtx := rfl
@[simp] theorem State.countStray_pending (s : State) : s.countStray.pending = s.pending := rfl

/-! `State.countLineError` -/

@[simp] theorem State.countLineError_link (s : State) :
    s.countLineError.link = { s.link with lineErrors := satInc s.link.lineErrors } := rfl
@[simp] theorem State.countLineError_lines (s : State) : s.countLineError.lines = s.lines := rfl
@[simp] theorem State.countLineError_config (s : State) : s.countLineError.config = s.config := rfl
@[simp] theorem State.countLineError_osq (s : State) : s.countLineError.osq = s.osq := rfl
@[simp] theorem State.countLineError_panel (s : State) : s.countLineError.panel = s.panel := rfl
@[simp] theorem State.countLineError_pmem (s : State) : s.countLineError.pmem = s.pmem := rfl
@[simp] theorem State.countLineError_mover (s : State) : s.countLineError.mover = s.mover := rfl
@[simp] theorem State.countLineError_mgt (s : State) : s.countLineError.mgt = s.mgt := rfl
@[simp] theorem State.countLineError_rtx (s : State) : s.countLineError.rtx = s.rtx := rfl
@[simp] theorem State.countLineError_pending (s : State) : s.countLineError.pending = s.pending := rfl

/-! `State.closeCurrent` -/

@[simp] theorem State.closeCurrent_link (s : State) (k : CloseKind) :
    (s.closeCurrent k).link = { s.link with current := none } := rfl
@[simp] theorem State.closeCurrent_lines (s : State) (k : CloseKind) :
    (s.closeCurrent k).lines = s.lines.closeFrame k := rfl
@[simp] theorem State.closeCurrent_config (s : State) (k : CloseKind) : (s.closeCurrent k).config = s.config := rfl
@[simp] theorem State.closeCurrent_osq (s : State) (k : CloseKind) : (s.closeCurrent k).osq = s.osq := rfl
@[simp] theorem State.closeCurrent_panel (s : State) (k : CloseKind) : (s.closeCurrent k).panel = s.panel := rfl
@[simp] theorem State.closeCurrent_pmem (s : State) (k : CloseKind) : (s.closeCurrent k).pmem = s.pmem := rfl
@[simp] theorem State.closeCurrent_mover (s : State) (k : CloseKind) : (s.closeCurrent k).mover = s.mover := rfl
@[simp] theorem State.closeCurrent_mgt (s : State) (k : CloseKind) : (s.closeCurrent k).mgt = s.mgt := rfl
@[simp] theorem State.closeCurrent_rtx (s : State) (k : CloseKind) : (s.closeCurrent k).rtx = s.rtx := rfl
@[simp] theorem State.closeCurrent_pending (s : State) (k : CloseKind) : (s.closeCurrent k).pending = s.pending := rfl

/-! `State.recordResult` -/

@[simp] theorem State.recordResult_link (s : State) (r : Result) : (State.recordResult (s, r)).link = s.link := rfl
@[simp] theorem State.recordResult_lines (s : State) (r : Result) : (State.recordResult (s, r)).lines = s.lines := rfl
@[simp] theorem State.recordResult_config (s : State) (r : Result) :
    (State.recordResult (s, r)).config = s.config := rfl
@[simp] theorem State.recordResult_osq (s : State) (r : Result) : (State.recordResult (s, r)).osq = s.osq := rfl
@[simp] theorem State.recordResult_panel (s : State) (r : Result) : (State.recordResult (s, r)).panel = s.panel := rfl
@[simp] theorem State.recordResult_pmem (s : State) (r : Result) : (State.recordResult (s, r)).pmem = s.pmem := rfl
@[simp] theorem State.recordResult_mover (s : State) (r : Result) : (State.recordResult (s, r)).mover = s.mover := rfl
@[simp] theorem State.recordResult_mgt (s : State) (r : Result) :
    (State.recordResult (s, r)).mgt = { s.mgt with results := s.mgt.results ++ [r] } := rfl
@[simp] theorem State.recordResult_rtx (s : State) (r : Result) : (State.recordResult (s, r)).rtx = s.rtx := rfl
@[simp] theorem State.recordResult_pending (s : State) (r : Result) :
    (State.recordResult (s, r)).pending = s.pending := rfl

/-! `State.clearCounts` -/

@[simp] theorem State.clearCounts_link (s : State) :
    s.clearCounts.link = { s.link with headerErrors := 0, payloadErrors := 0, strayPackets := 0, lineErrors := 0 } := rfl
@[simp] theorem State.clearCounts_lines (s : State) : s.clearCounts.lines = s.lines := rfl
@[simp] theorem State.clearCounts_config (s : State) : s.clearCounts.config = s.config := rfl
@[simp] theorem State.clearCounts_osq (s : State) : s.clearCounts.osq = { s.osq with framesSkipped := 0 } := rfl
@[simp] theorem State.clearCounts_panel (s : State) : s.clearCounts.panel = s.panel := rfl
@[simp] theorem State.clearCounts_pmem (s : State) : s.clearCounts.pmem = s.pmem := rfl
@[simp] theorem State.clearCounts_mover (s : State) : s.clearCounts.mover = s.mover := rfl
@[simp] theorem State.clearCounts_mgt (s : State) :
    s.clearCounts.mgt = { s.mgt with controlDropped := 0, duplicates := 0 } := rfl
@[simp] theorem State.clearCounts_rtx (s : State) : s.clearCounts.rtx = { s.rtx with noticesLost := 0 } := rfl
@[simp] theorem State.clearCounts_pending (s : State) : s.clearCounts.pending = s.pending := rfl

/-! `State.softReset` -/

@[simp] theorem State.softReset_link (s : State) : s.softReset.link = s.link.softReset := rfl
@[simp] theorem State.softReset_lines (s : State) : s.softReset.lines = emptyLines := rfl
@[simp] theorem State.softReset_config (s : State) : s.softReset.config = defaultConfig := rfl
@[simp] theorem State.softReset_osq (s : State) : s.softReset.osq = s.osq.softReset := rfl
@[simp] theorem State.softReset_panel (s : State) : s.softReset.panel = s.panel.softReset s.config.live.wOut s.osq.emission := rfl
@[simp] theorem State.softReset_pmem (s : State) : s.softReset.pmem = s.pmem.softReset := rfl
@[simp] theorem State.softReset_mover (s : State) : s.softReset.mover = s.mover.halt := rfl
@[simp] theorem State.softReset_mgt (s : State) : s.softReset.mgt = s.mgt.softReset := rfl
@[simp] theorem State.softReset_rtx (s : State) : s.softReset.rtx = s.rtx.softReset := rfl
@[simp] theorem State.softReset_pending (s : State) : s.softReset.pending = s.pending := rfl

/-! `State.byConfig` -/

@[simp] theorem State.byConfig_link (s : State) (r : ConfigStore × Result) : (s.byConfig r).1.link = s.link := rfl
@[simp] theorem State.byConfig_lines (s : State) (r : ConfigStore × Result) : (s.byConfig r).1.lines = s.lines := rfl
@[simp] theorem State.byConfig_config (s : State) (r : ConfigStore × Result) : (s.byConfig r).1.config = r.1 := rfl
@[simp] theorem State.byConfig_osq (s : State) (r : ConfigStore × Result) : (s.byConfig r).1.osq = s.osq := rfl
@[simp] theorem State.byConfig_panel (s : State) (r : ConfigStore × Result) : (s.byConfig r).1.panel = s.panel := rfl
@[simp] theorem State.byConfig_pmem (s : State) (r : ConfigStore × Result) : (s.byConfig r).1.pmem = s.pmem := rfl
@[simp] theorem State.byConfig_mover (s : State) (r : ConfigStore × Result) : (s.byConfig r).1.mover = s.mover := rfl
@[simp] theorem State.byConfig_mgt (s : State) (r : ConfigStore × Result) : (s.byConfig r).1.mgt = s.mgt := rfl
@[simp] theorem State.byConfig_rtx (s : State) (r : ConfigStore × Result) : (s.byConfig r).1.rtx = s.rtx := rfl
@[simp] theorem State.byConfig_pending (s : State) (r : ConfigStore × Result) :
    (s.byConfig r).1.pending = s.pending := rfl

/-! `State.byMemory` -/

@[simp] theorem State.byMemory_link (s : State) (r : PictureMemory × Result) : (s.byMemory r).1.link = s.link := rfl
@[simp] theorem State.byMemory_lines (s : State) (r : PictureMemory × Result) :
    (s.byMemory r).1.lines = s.lines := rfl
@[simp] theorem State.byMemory_config (s : State) (r : PictureMemory × Result) :
    (s.byMemory r).1.config = s.config := rfl
@[simp] theorem State.byMemory_osq (s : State) (r : PictureMemory × Result) : (s.byMemory r).1.osq = s.osq := rfl
@[simp] theorem State.byMemory_panel (s : State) (r : PictureMemory × Result) :
    (s.byMemory r).1.panel = s.panel := rfl
@[simp] theorem State.byMemory_pmem (s : State) (r : PictureMemory × Result) : (s.byMemory r).1.pmem = r.1 := rfl
@[simp] theorem State.byMemory_mover (s : State) (r : PictureMemory × Result) :
    (s.byMemory r).1.mover = s.mover := rfl
@[simp] theorem State.byMemory_mgt (s : State) (r : PictureMemory × Result) : (s.byMemory r).1.mgt = s.mgt := rfl
@[simp] theorem State.byMemory_rtx (s : State) (r : PictureMemory × Result) : (s.byMemory r).1.rtx = s.rtx := rfl
@[simp] theorem State.byMemory_pending (s : State) (r : PictureMemory × Result) :
    (s.byMemory r).1.pending = s.pending := rfl

/-! The panel port at a soft reset (R28, R74, R80). -/

@[simp] theorem PanelPort.softReset_none (p : PanelPort) (wOut : Nat) :
    p.softReset wOut none = { p with announce := false } := rfl
@[simp] theorem PanelPort.softReset_announce (p : PanelPort) (wOut : Nat) (e : Option Emission) :
    (p.softReset wOut e).announce = false := by
  cases e <;> rfl

/-- A line in emission is cut: fewer than W_out of its codes have gone out. -/
theorem PanelPort.softReset_cut {p : PanelPort} {wOut : Nat} {earlier : List Strobe} {codes : List Word}
    (e : Emission) (h : p.strobes = earlier ++ [.line codes]) (hw : 0 < wOut) :
    ∃ n, n < wOut ∧ (p.softReset wOut (some e)).strobes = earlier ++ [.cutLine (codes.take n)] := by
  refine ⟨p.codesOut wOut, Nat.mod_lt _ hw, ?_⟩
  simp [PanelPort.softReset, cutLastLine, h]

/-! `State.applyRowStep` -/

@[simp] theorem State.applyRowStep_link (s : State) (i : Nat) : (s.applyRowStep i).link = s.link := rfl
@[simp] theorem State.applyRowStep_lines (s : State) (i : Nat) : (s.applyRowStep i).lines = s.lines := rfl
@[simp] theorem State.applyRowStep_config (s : State) (i : Nat) : (s.applyRowStep i).config = s.config := rfl
@[simp] theorem State.applyRowStep_osq (s : State) (i : Nat) : (s.applyRowStep i).osq = s.osq := rfl
@[simp] theorem State.applyRowStep_panel (s : State) (i : Nat) : (s.applyRowStep i).panel = s.panel := rfl
@[simp] theorem State.applyRowStep_pmem (s : State) (i : Nat) :
    (s.applyRowStep i).pmem = PictureMemory.tear { s.pmem with array := s.mover.op.applyStep s.pmem.array i } (s.mover.op.dstRow + i) := rfl
@[simp] theorem State.applyRowStep_mover (s : State) (i : Nat) :
    (s.applyRowStep i).mover = { s.mover with op := { s.mover.op with rowsDone := s.mover.op.rowsDone + 1, stepRow := none } } := rfl
@[simp] theorem State.applyRowStep_mgt (s : State) (i : Nat) : (s.applyRowStep i).mgt = s.mgt := rfl
@[simp] theorem State.applyRowStep_rtx (s : State) (i : Nat) : (s.applyRowStep i).rtx = s.rtx := rfl
@[simp] theorem State.applyRowStep_pending (s : State) (i : Nat) : (s.applyRowStep i).pending = s.pending := rfl

/-! `State.completeMove` -/

@[simp] theorem State.completeMove_link (s : State) : s.completeMove.link = s.link := rfl
@[simp] theorem State.completeMove_lines (s : State) : s.completeMove.lines = s.lines := rfl
@[simp] theorem State.completeMove_config (s : State) : s.completeMove.config = s.config := rfl
@[simp] theorem State.completeMove_osq (s : State) : s.completeMove.osq = s.osq := rfl
@[simp] theorem State.completeMove_panel (s : State) : s.completeMove.panel = s.panel := rfl
@[simp] theorem State.completeMove_pmem (s : State) : s.completeMove.pmem = s.pmem := rfl
@[simp] theorem State.completeMove_mover (s : State) : s.completeMove.mover = s.mover.halt := rfl
@[simp] theorem State.completeMove_mgt (s : State) : s.completeMove.mgt = s.mgt := rfl
@[simp] theorem State.completeMove_rtx (s : State) :
    s.completeMove.rtx = (s.rtx.takeNotice (.moveDone .complete s.mover.op.kind s.mover.op.rowsDone)).arbitrate := rfl
@[simp] theorem State.completeMove_pending (s : State) : s.completeMove.pending = s.pending := rfl

/-! `State.byConfig` and `State.byMemory` hand the owner's result on. -/

@[simp] theorem State.byConfig_result (s : State) (r : ConfigStore × Result) : (s.byConfig r).2 = r.2 := rfl
@[simp] theorem State.byMemory_result (s : State) (r : PictureMemory × Result) : (s.byMemory r).2 = r.2 := rfl

end Sys2Proof.Machine
end

