-- ==== Sys2Proof/Laws/Commands.lean ====
section
/-! SUPPORT. What a command row does, by its owner's operation; and the executions of control packets. -/

namespace Sys2Proof.Machine

/-! ## The operand count check -/

theorem countAllowed_iff {c : CommandName} {n : Nat} :
    countAllowed c n = true ↔ (operandCounts c).1 ≤ n ∧ n ≤ (operandCounts c).2 :=
  within_iff

theorem runCommand_allowed {s : State} {c : CommandName} {ops : List Word}
    (h : (operandCounts c).1 ≤ ops.length ∧ ops.length ≤ (operandCounts c).2) :
    runCommand s c ops = runOwner s c ops :=
  if_pos (countAllowed_iff.2 h)

theorem runCommand_denied {s : State} {c : CommandName} {ops : List Word}
    (h : ¬((operandCounts c).1 ≤ ops.length ∧ ops.length ≤ (operandCounts c).2)) :
    runCommand s c ops = (s, refusal .length) :=
  if_neg fun h' => h (countAllowed_iff.1 h')

/-! ## Command rows: the owner's operation, and its result recorded -/

theorem exec_nop (s : State) : exec .nop s = .next (State.recordResult (s, okResult [])) := rfl

theorem exec_identify (s : State) :
    exec .identify s = .next (State.recordResult (s, okResult Config.capabilities)) := rfl

theorem exec_status (s : State) : exec .status s = .next (State.recordResult (s, okResult s.snapshot)) := rfl

theorem exec_setParam (s : State) (t h e : Word) :
    exec (.setParam t h e) s =
      .next (State.recordResult ({ s with mgt := (s.mgt.setParam t h e).1 }, (s.mgt.setParam t h e).2)) := rfl

theorem exec_clearCounts (s : State) :
    exec .clearCounts s = .next (State.recordResult (s.clearCounts, okResult [])) := rfl

theorem exec_softReset (s : State) :
    exec .softReset s = .next (State.recordResult (s.softReset, okResult [])).endExecution.arbitrate := rfl

theorem exec_setGeometry (s : State) (h w : Word) :
    exec (.setGeometry h w) s = .next (State.recordResult (s.byConfig (s.config.setGeometry h w))) := rfl

theorem exec_mapLength (s : State) (n : Word) :
    exec (.mapLength n) s = .next (State.recordResult (s.byConfig (s.config.setMapLength n))) := rfl

theorem exec_ovlClear (s : State) (slot : Word) :
    exec (.ovlClear slot) s = .next (State.recordResult (s.byConfig (s.config.clearOverlay slot))) := rfl

theorem exec_setColours (s : State) (loss blank : Word) :
    exec (.setColours loss blank) s = .next (State.recordResult (s.byConfig (s.config.setColours loss blank))) := rfl

theorem exec_setOutput (s : State) (o g d : Word) :
    exec (.setOutput o g d) s = .next (State.recordResult (s.byConfig (s.config.setOutput o g d))) := rfl

theorem exec_copyLiveToPending (s : State) :
    exec .copyLiveToPending s = .next (State.recordResult (s.byConfig s.config.copyLiveToPending)) := rfl

theorem exec_readConfig (s : State) (sel item index : Word) :
    exec (.readConfig sel item index) s = .next (State.recordResult (s, s.config.readItem sel item index)) := rfl

theorem exec_commit (s : State) (kind tag : Word) :
    exec (.commit kind tag) s = .next (State.recordResult (s.byConfig (s.config.requestCommit kind tag))) := rfl

theorem exec_cancelCommit (s : State) :
    exec .cancelCommit s = .next (State.recordResult (s.byConfig s.config.cancelCommit)) := rfl

theorem exec_memAddress (s : State) (row col : Word) :
    exec (.memAddress row col) s = .next (State.recordResult (s.byMemory (s.pmem.memAddress row col))) := rfl

theorem exec_memRead (s : State) (n : Word) : exec (.memRead n) s = .next (State.recordResult (s.memRead n)) := rfl

theorem exec_patchBegin (s : State) :
    exec .patchBegin s = .next (State.recordResult (s.byMemory s.pmem.patchBegin)) := rfl

theorem exec_patchEnd (s : State) :
    exec .patchEnd s = .next (State.recordResult (s.byMemory s.pmem.patchEnd)) := rfl

theorem exec_moveFill (s : State) (row col rows words value : Word) :
    exec (.moveFill row col rows words value) s =
      .next (State.recordResult (s.moveFill row col rows words value)) := rfl

theorem exec_moveCopy (s : State) (srcRow srcCol dstRow dstCol rows words : Word) :
    exec (.moveCopy srcRow srcCol dstRow dstCol rows words) s =
      .next (State.recordResult (s.moveCopy srcRow srcCol dstRow dstCol rows words)) := rfl

theorem exec_moveAbort (s : State) : exec .moveAbort s = .next (State.recordResult s.moveAbort).arbitrate := rfl

/-! Rows whose operand count varies: LENGTH for a count the command does not take (R170). -/

theorem exec_segWrite (s : State) (slot : Word) (record : List Word) :
    exec (.segWrite slot record) s = .next (State.recordResult
      (if record.length = 12 then s.byConfig (s.config.writeSegment slot record) else (s, refusal .length))) := by
  change Host.Outcome.next (State.recordResult (runCommand s .segWrite (slot :: record))) = _
  by_cases h : record.length = 12
  · rw [if_pos h, runCommand_allowed (by simp only [operandCounts, List.length_cons]; omega)]; rfl
  · rw [if_neg h, runCommand_denied (by simp only [operandCounts, List.length_cons]; omega)]

theorem exec_ovlWrite (s : State) (slot : Word) (record : List Word) :
    exec (.ovlWrite slot record) s = .next (State.recordResult
      (if record.length = 8 then s.byConfig (s.config.writeOverlay slot record) else (s, refusal .length))) := by
  change Host.Outcome.next (State.recordResult (runCommand s .ovlWrite (slot :: record))) = _
  by_cases h : record.length = 8
  · rw [if_pos h, runCommand_allowed (by simp only [operandCounts, List.length_cons]; omega)]; rfl
  · rw [if_neg h, runCommand_denied (by simp only [operandCounts, List.length_cons]; omega)]

theorem exec_palWrite (s : State) (p first : Word) (codes : List Word) :
    exec (.palWrite p first codes) s = .next (State.recordResult
      (if 1 ≤ codes.length ∧ codes.length ≤ 16 then s.byConfig (s.config.writePalette p first codes)
       else (s, refusal .length))) := by
  change Host.Outcome.next (State.recordResult (runCommand s .palWrite (p :: first :: codes))) = _
  by_cases h : 1 ≤ codes.length ∧ codes.length ≤ 16
  · rw [if_pos h, runCommand_allowed (by simp only [operandCounts, List.length_cons]; omega)]; rfl
  · rw [if_neg h, runCommand_denied (by simp only [operandCounts, List.length_cons]; omega)]

theorem exec_memWrite (s : State) (words : List Word) :
    exec (.memWrite words) s = .next (State.recordResult
      (if 1 ≤ words.length ∧ words.length ≤ 64 then s.byMemory (s.pmem.memWrite s.mover words)
       else (s, refusal .length))) := by
  change Host.Outcome.next (State.recordResult (runCommand s .memWrite words)) = _
  by_cases h : 1 ≤ words.length ∧ words.length ≤ 64
  · rw [if_pos h, runCommand_allowed (by simp only [operandCounts]; omega)]; rfl
  · rw [if_neg h, runCommand_denied (by simp only [operandCounts]; omega)]

/-! ## Commands and executions -/

/-- A command entry is run by its owner, or refused with UNKNOWN or LENGTH and nothing else (R170). -/
theorem runEntry_cases (s : State) (e : CommandEntry) :
    (∃ c, commandOfCode e.code = some c ∧ countAllowed c e.operands.length = true
        ∧ runEntry s e = runOwner s c e.operands)
      ∨ (∃ c, commandOfCode e.code = some c ∧ countAllowed c e.operands.length = false
        ∧ runEntry s e = (s, refusal .length))
      ∨ (commandOfCode e.code = none ∧ runEntry s e = (s, refusal .unknown)) := by
  unfold runEntry runCommand
  cases h : commandOfCode e.code with
  | none => exact .inr (.inr ⟨rfl, rfl⟩)
  | some c =>
    by_cases hc : countAllowed c e.operands.length = true
    · exact .inl ⟨c, rfl, hc, by simp [hc]⟩
    · exact .inr (.inl ⟨c, rfl, by simpa using hc, by simp [hc]⟩)

/-- What every owner keeps, the commands of a packet keep. -/
theorem runEntries_induct {P : State → Prop} (owner : ∀ s c ops, P s → P (runOwner s c ops).1)
    (record : ∀ s r, P s → P (State.recordResult (s, r))) :
    ∀ (es : List CommandEntry) (s : State), P s → P (runEntries es s)
  | [], _, h => h
  | e :: es, s, h => by
    have h1 : P (State.recordResult (runEntry s e)) := by
      obtain ⟨c, -, -, he⟩ | ⟨c, -, -, he⟩ | ⟨-, he⟩ := runEntry_cases s e <;> rw [he]
      · exact record _ _ (owner _ _ _ h)
      · exact record _ _ h
      · exact record _ _ h
    unfold runEntries
    dsimp only
    split
    · exact h1
    · exact runEntries_induct owner record es _ h1

/-- What owners, records, starts and ends of executions keep, executions keep (R168, R169). -/
theorem executeWhileReady_induct {P : State → Prop} (owner : ∀ s c ops, P s → P (runOwner s c ops).1)
    (record : ∀ s r, P s → P (State.recordResult (s, r)))
    (start : ∀ s, P s → P { s with mgt := { s.mgt with readTotal := 0, results := [] } })
    (done : ∀ s, P s → P s.endExecution) : ∀ (fuel : Nat) (s : State), P s → P (executeWhileReady fuel s)
  | 0, _, h => h
  | fuel + 1, s, h => by
    unfold executeWhileReady
    split
    · exact h
    · split
      · exact executeWhileReady_induct owner record start done fuel _
          (done _ (runEntries_induct owner record _ _ (start _ h)))
      · exact h

/-- The end of an execution touches only the management unit and the reply queue (R171). -/
theorem State.endExecution_eq (s : State) :
    s.endExecution = { s with mgt := s.endExecution.mgt, rtx := s.endExecution.rtx } := by
  unfold State.endExecution; split <;> rfl

/-- The queue of waiting commands is no owner's. -/
theorem runOwner_pending (s : State) (c : CommandName) (ops : List Word) :
    (runOwner s c ops).1.pending = s.pending := by
  cases c <;> simp only [runOwner] <;> (try split) <;> try rfl
  · unfold State.memRead; split_ifs <;> rfl
  · unfold State.moveFill State.acceptMove; split_ifs <;> rfl
  · unfold State.moveCopy State.acceptMove; split_ifs <;> rfl
  · unfold State.moveAbort; split_ifs <;> rfl

/-- No command touches the link's input frame, the line store or the output frame, but for CLEAR_COUNTS' counters and
SOFT_RESET. -/
theorem runOwner_lines (s : State) (c : CommandName) (ops : List Word) (h : c ≠ .softReset) :
    (runOwner s c ops).1.lines = s.lines := by
  cases c <;> simp only [runOwner] <;> (try split) <;> try rfl
  · exact absurd rfl h
  · unfold State.memRead; split_ifs <;> rfl
  · unfold State.moveFill State.acceptMove; split_ifs <;> rfl
  · unfold State.moveCopy State.acceptMove; split_ifs <;> rfl
  · unfold State.moveAbort; split_ifs <;> rfl

end Sys2Proof.Machine
end

