-- ==== Sys2Proof/Laws/Config.lean ====
section
/-! SUPPORT. What the operand forms and the operations of the configuration store do, each said once. -/

namespace Sys2Proof.Machine

/-! Operand forms. -/

theorem numOperand_of_range {lo hi : Nat} {w : Word} (h : lo ≤ w.toNat ∧ w.toNat ≤ hi) :
    numOperand lo hi w = some w.toNat :=
  if_pos (within_iff.2 h)

theorem numOperand_out_of_range {lo hi : Nat} {w : Word} (h : ¬(lo ≤ w.toNat ∧ w.toNat ≤ hi)) :
    numOperand lo hi w = none :=
  if_neg fun h' => h (within_iff.1 h')

theorem boolOperand_of_le {w : Word} (h : w.toNat ≤ 1) : boolOperand w = some (decide (w.toNat = 1)) := by
  have : w.toNat = 0 ∨ w.toNat = 1 := by omega
  rcases this with h | h
  · have : w = 0 := BitVec.eq_of_toNat_eq h
    subst this; rfl
  · have : w = 1 := BitVec.eq_of_toNat_eq h
    subst this; rfl

theorem boolOperand_of_gt {w : Word} (h : 1 < w.toNat) : boolOperand w = none := by
  unfold boolOperand
  rw [if_neg, if_neg] <;> (rintro rfl; revert h; decide)

@[simp] theorem boolOperand_boolWord (b : Bool) : boolOperand (boolWord b) = some b := by
  cases b <;> rfl

@[simp] theorem kindOperand_kindWord (k : SegKind) : kindOperand (kindWord k) = some k := by
  cases k <;> rfl

@[simp] theorem stepOperand_stepWord (st : Step) : stepOperand (stepWord st) = some st := by
  cases st <;> rfl

@[simp] theorem overrideOperand_overrideWord (o : OutputOverride) : overrideOperand (overrideWord o) = some o := by
  cases o <;> rfl

theorem absentOperand_absentWord {v : Option Nat} (h : v.all (within 0 15) = true) :
    absentOperand (absentWord v) = some v := by
  cases v with
  | none => rfl
  | some n =>
    have hn : n ≤ 15 := by simpa using h
    have ht : (BitVec.ofNat 16 n : Word).toNat = n := by simp; omega
    change absentOperand (BitVec.ofNat 16 n) = some (some n)
    unfold absentOperand
    rw [if_neg, ht, if_pos hn]
    intro heq
    have hc : n = 255 := ht ▸ congrArg BitVec.toNat heq
    omega

theorem kindWord_of_kindOperand {w : Word} {k : SegKind} (h : kindOperand w = some k) : kindWord k = w := by
  unfold kindOperand at h
  split_ifs at h with h1 h2 h3 <;> cases h <;> simp_all [kindWord]

theorem stepWord_of_stepOperand {w : Word} {st : Step} (h : stepOperand w = some st) : stepWord st = w := by
  unfold stepOperand at h
  split_ifs at h <;> cases h <;> simp_all [stepWord]

theorem boolWord_of_boolOperand {w : Word} {b : Bool} (h : boolOperand w = some b) : boolWord b = w := by
  unfold boolOperand at h
  split_ifs at h <;> cases h <;> simp_all [boolWord]

theorem absentWord_of_absentOperand {w : Word} {v : Option Nat} (h : absentOperand w = some v) :
    absentWord v = w := by
  unfold absentOperand at h
  split_ifs at h <;> cases h <;> simp_all [absentWord]

/-! Edits. -/

/-- While a commit request waits an edit is refused whatever it would do (R31). -/
theorem ConfigStore.edit_busy {c : ConfigStore} (change : ConfigSet → Except Status ConfigSet)
    (h : c.commit ≠ .none) : c.edit change = (c, refusal .busy) :=
  if_neg h

/-- In state NONE an edit writes its whole change, or is refused and writes nothing (R31). -/
theorem ConfigStore.edit_none {c : ConfigStore} (change : ConfigSet → Except Status ConfigSet)
    (h : c.commit = .none) :
    c.edit change =
      match change c.pending with
      | .ok set => ({ c with pending := set }, okResult [])
      | .error status => (c, refusal status) :=
  if_pos h

/-- An edit changes nothing but the pending set, and that only in state NONE. -/
theorem ConfigStore.edit_cases (c : ConfigStore) (change : ConfigSet → Except Status ConfigSet) :
    (∃ status, c.edit change = (c, refusal status))
      ∨ ∃ set, c.commit = .none ∧ change c.pending = .ok set
          ∧ c.edit change = ({ c with pending := set }, okResult []) := by
  by_cases h : c.commit = .none
  · rw [edit_none change h]
    cases hc : change c.pending with
    | ok set => exact .inr ⟨set, h, rfl, rfl⟩
    | error status => exact .inl ⟨status, rfl⟩
  · exact .inl ⟨.busy, edit_busy change h⟩

/-! The decision at an output frame start. -/

/-- Everything CFG can do at an output frame start (R50). -/
theorem ConfigStore.frameStart_cases (c : ConfigStore) (tag : Word) :
    c.frameStart tag = keepLive c
      ∨ (c.frameStart tag = transferNow c tag
          ∧ (c.commit = .announcing ∨ (c.commit = .armed ∧ dueAt c.due tag = true ∧ c.sameGeometry = true)))
      ∨ (c.frameStart tag = announceNow c ∧ c.commit = .armed ∧ dueAt c.due tag = true
          ∧ c.sameGeometry = false) := by
  unfold frameStart
  cases h : c.commit with
  | none => exact .inl rfl
  | announcing => exact .inr (.inl ⟨rfl, .inl rfl⟩)
  | armed =>
    by_cases hd : dueAt c.due tag = true
    · by_cases hg : c.sameGeometry = true
      · exact .inr (.inl ⟨by simp [hd, hg], .inr ⟨rfl, hd, hg⟩⟩)
      · exact .inr (.inr ⟨by simp [hd, hg], rfl, hd, by simpa using hg⟩)
    · exact .inl (by simp [hd])

/-- With no commit request CFG does nothing at a frame start (R50). -/
theorem ConfigStore.frameStart_none {c : ConfigStore} (tag : Word) (h : c.commit = .none) :
    c.frameStart tag = keepLive c := by
  simp [frameStart, h]

/-! The segment list. -/

@[simp] theorem ConfigSet.list_length {p : ConfigSet} : p.list.length = min p.mapLength 32 := by
  simp [list]

theorem ConfigSet.mem_list {p : ConfigSet} {g : Segment} (h : g ∈ p.list) : g ∈ p.segments.toList :=
  List.mem_of_mem_take h

end Sys2Proof.Machine
end

