-- ==== Sys2Proof/Laws/Lines.lean ====
section
/-! SUPPORT. What the operations of the line store do, each said once. -/

namespace Sys2Proof.Machine

/-- Asking changes at most the held query (R93). -/
theorem LineStore.ask_cases (l : LineStore) (q : Int) :
    (l.query q = .waiting ∧ l.ask q = { l with held := some q }) ∨ (l.query q ≠ .waiting ∧ l.ask q = l) := by
  unfold ask; split
  · next h => exact .inl ⟨h, rfl⟩
  · next h => exact .inr ⟨h, rfl⟩

@[simp] theorem LineStore.ask_slots (l : LineStore) (q : Int) : (l.ask q).slots = l.slots := by
  unfold ask; split <;> rfl
@[simp] theorem LineStore.ask_bound (l : LineStore) (q : Int) : (l.ask q).bound = l.bound := by
  unfold ask; split <;> rfl
@[simp] theorem LineStore.ask_waiting (l : LineStore) (q : Int) : (l.ask q).waiting = l.waiting := by
  unfold ask; split <;> rfl

/-- Answering the held query again keeps it or drops it (R93). -/
theorem LineStore.answerHeld_cases (l : LineStore) :
    l.answerHeld = l ∨ ∃ q, l.held = some q ∧ l.query q ≠ .waiting ∧ l.answerHeld = { l with held := none } := by
  unfold answerHeld
  cases h : l.held with
  | none => exact .inl rfl
  | some q =>
    by_cases hq : l.query q = .waiting
    · exact .inl (if_pos hq)
    · exact .inr ⟨q, rfl, hq, if_neg hq⟩

@[simp] theorem LineStore.answerHeld_slots (l : LineStore) : l.answerHeld.slots = l.slots := by
  obtain h | ⟨q, -, -, h⟩ := l.answerHeld_cases <;> rw [h]
@[simp] theorem LineStore.answerHeld_bound (l : LineStore) : l.answerHeld.bound = l.bound := by
  obtain h | ⟨q, -, -, h⟩ := l.answerHeld_cases <;> rw [h]
@[simp] theorem LineStore.answerHeld_waiting (l : LineStore) : l.answerHeld.waiting = l.waiting := by
  obtain h | ⟨q, -, -, h⟩ := l.answerHeld_cases <;> rw [h]
@[simp] theorem LineStore.answerHeld_entry (l : LineStore) (r : EntryRef) : l.answerHeld.entry r = l.entry r := by
  cases r <;> simp [entry]

@[simp] theorem LineStore.mapEntry_slots (l : LineStore) (r : EntryRef) (f : FrameEntry → FrameEntry) :
    (l.mapEntry r f).slots = l.slots := by
  cases r <;> rfl
@[simp] theorem LineStore.mapEntry_held (l : LineStore) (r : EntryRef) (f : FrameEntry → FrameEntry) :
    (l.mapEntry r f).held = l.held := by
  cases r <;> rfl
@[simp] theorem LineStore.mapEntry_entry (l : LineStore) (r : EntryRef) (f : FrameEntry → FrameEntry) :
    (l.mapEntry r f).entry r = (l.entry r).map f := by
  cases r <;> rfl
theorem LineStore.mapEntry_entry_other (l : LineStore) {r r' : EntryRef} (f : FrameEntry → FrameEntry) (h : r' ≠ r) :
    (l.mapEntry r f).entry r' = l.entry r' := by
  cases r <;> cases r' <;> first | rfl | exact absurd rfl h

/-- A close of the open input frame frees no line (R85). -/
@[simp] theorem LineStore.closeFrame_slots (l : LineStore) (k : CloseKind) : (l.closeFrame k).slots = l.slots := by
  unfold closeFrame; split <;> simp

/-- The close of a frame without an entry has no effect (R85). -/
theorem LineStore.closeFrame_of_none {l : LineStore} (k : CloseKind) (h : l.receiving = none) : l.closeFrame k = l := by
  unfold closeFrame; rw [h]

/-- The receiving entry takes the kind if it is OPEN (R85). -/
theorem LineStore.closeFrame_receiving {l : LineStore} {r : EntryRef} (k : CloseKind) (h : l.receiving = some r) :
    (l.closeFrame k).entry r
      = (l.entry r).map fun e => if e.close.isNone then { e with close := some k } else e := by
  unfold closeFrame; simp [h]

/-- A close leaves the other entry alone (R85). -/
theorem LineStore.closeFrame_other {l : LineStore} {r r' : EntryRef} (k : CloseKind) (h : l.receiving = some r)
    (hr : r' ≠ r) : (l.closeFrame k).entry r' = l.entry r' := by
  unfold closeFrame; simp [h, mapEntry_entry_other _ _ hr]

/-- The receiving entry exists. -/
theorem LineStore.receiving_isSome {l : LineStore} {r : EntryRef} (h : l.receiving = some r) :
    (l.entry r).isSome = true := by
  unfold receiving at h
  split at h
  · next hw => cases h; exact hw
  · split at h
    · next hb => cases h; exact hb
    · cases h

/-- The query by the parts of R92's table, for a store with a bound entry. -/
theorem LineStore.query_of_bound {l : LineStore} {e : FrameEntry} (h : l.bound = some e) (q : Int) :
    l.query q =
      match l.stored q with
      | some line => .present line
      | none =>
        if q < 0 ∨ (e.frame.declared : Int) ≤ q then .missing
        else if e.close.isSome then .missing
        else if e.highest.any fun (h : Nat) => decide (q ≤ (h : Int)) then .missing
        else .waiting := by
  cases l; cases h; rfl

/-- A stored line answers exactly the queries for its own number in the bound entry (row 1 of R92). -/
theorem LineStore.stored_some {l : LineStore} {q : Int} {line : StoredLine} (h : l.stored q = some line) :
    line ∈ l.slots ∧ line.entry = .bound ∧ (line.number : Int) = q := by
  unfold stored at h
  refine ⟨List.mem_of_find?_eq_some h, ?_⟩
  simpa using List.find?_some h

theorem LineStore.stored_none {l : LineStore} {q : Int} (h : l.stored q = none) :
    ∀ x ∈ l.slots, ¬(x.entry = .bound ∧ (x.number : Int) = q) := by
  unfold stored at h
  rw [List.find?_eq_none] at h
  intro x hx hc
  exact h x hx (by simpa using hc)

end Sys2Proof.Machine
end

