-- ==== Sys2Proof/Laws/Frames.lean ====
section
/-! SUPPORT. What a frame start, a question to the line store and a frame end leave in each block, said once. -/

namespace Sys2Proof.Machine

/-! Asking for the next line's source changes at most the held query (R93). -/

theorem State.askNext_eq (s : State) : ∃ held, s.askNext = { s with lines := { s.lines with held := held } } := by
  unfold askNext
  split
  · exact ⟨s.lines.held, rfl⟩
  · split
    · split
      · next q _ =>
        obtain ⟨-, h⟩ | ⟨-, h⟩ := s.lines.ask_cases q
        · exact ⟨some q, by rw [h]⟩
        · exact ⟨s.lines.held, by rw [h]⟩
      · exact ⟨s.lines.held, rfl⟩
    · exact ⟨s.lines.held, rfl⟩

@[simp] theorem State.askNext_link (s : State) : s.askNext.link = s.link := by
  obtain ⟨held, h⟩ := s.askNext_eq; rw [h]
@[simp] theorem State.askNext_config (s : State) : s.askNext.config = s.config := by
  obtain ⟨held, h⟩ := s.askNext_eq; rw [h]
@[simp] theorem State.askNext_osq (s : State) : s.askNext.osq = s.osq := by
  obtain ⟨held, h⟩ := s.askNext_eq; rw [h]
@[simp] theorem State.askNext_panel (s : State) : s.askNext.panel = s.panel := by
  obtain ⟨held, h⟩ := s.askNext_eq; rw [h]
@[simp] theorem State.askNext_pmem (s : State) : s.askNext.pmem = s.pmem := by
  obtain ⟨held, h⟩ := s.askNext_eq; rw [h]
@[simp] theorem State.askNext_mover (s : State) : s.askNext.mover = s.mover := by
  obtain ⟨held, h⟩ := s.askNext_eq; rw [h]
@[simp] theorem State.askNext_mgt (s : State) : s.askNext.mgt = s.mgt := by
  obtain ⟨held, h⟩ := s.askNext_eq; rw [h]
@[simp] theorem State.askNext_rtx (s : State) : s.askNext.rtx = s.rtx := by
  obtain ⟨held, h⟩ := s.askNext_eq; rw [h]
@[simp] theorem State.askNext_pending (s : State) : s.askNext.pending = s.pending := by
  obtain ⟨held, h⟩ := s.askNext_eq; rw [h]
@[simp] theorem State.askNext_slots (s : State) : s.askNext.lines.slots = s.lines.slots := by
  obtain ⟨held, h⟩ := s.askNext_eq; rw [h]
@[simp] theorem State.askNext_bound (s : State) : s.askNext.lines.bound = s.lines.bound := by
  obtain ⟨held, h⟩ := s.askNext_eq; rw [h]
@[simp] theorem State.askNext_waiting (s : State) : s.askNext.lines.waiting = s.lines.waiting := by
  obtain ⟨held, h⟩ := s.askNext_eq; rw [h]

/-! A notice that may be absent changes at most the reverse transmitter. -/

theorem State.handNotice?_eq (s : State) (n : Option Notice) :
    s.handNotice? n =
      { s with rtx := match n with
                      | some n => (s.rtx.takeNotice n).arbitrate
                      | none => s.rtx } := by
  cases n <;> rfl

/-- An output frame start, block by block; the line store's held query is the only field left open (R62, R93). -/
theorem State.startFrame_eq (s : State) (kind : FrameKind) :
    ∃ held, s.startFrame kind =
      { s with
        config := (s.config.frameStart (s.osq.startTag kind)).config
        rtx := match (s.config.frameStart (s.osq.startTag kind)).notice with
               | some n => (s.rtx.takeNotice n).arbitrate
               | none => s.rtx
        pmem := s.pmem.startFrame (s.config.frameStart (s.osq.startTag kind)).config.live
        panel := s.panel.startFrame
          (newRecord kind (s.osq.startTag kind) (s.config.frameStart (s.osq.startTag kind)))
        osq :=
          { s.osq with
            state := startState kind
            record := some (newRecord kind (s.osq.startTag kind) (s.config.frameStart (s.osq.startTag kind)))
            emission := none
            holdTimer := startTimer s.mgt.holdoverPeriod kind
            tagCounter := s.osq.startTag kind }
        lines := { s.lines with held := held } } := by
  unfold startFrame
  simp only [handNotice?_eq]
  obtain ⟨held, h⟩ := State.askNext_eq
    { s with
      config := (s.config.frameStart (s.osq.startTag kind)).config
      rtx := match (s.config.frameStart (s.osq.startTag kind)).notice with
             | some n => (s.rtx.takeNotice n).arbitrate
             | none => s.rtx
      pmem := s.pmem.startFrame (s.config.frameStart (s.osq.startTag kind)).config.live
      panel := s.panel.startFrame
        (newRecord kind (s.osq.startTag kind) (s.config.frameStart (s.osq.startTag kind)))
      osq :=
        { s.osq with
          state := startState kind
          record := some (newRecord kind (s.osq.startTag kind) (s.config.frameStart (s.osq.startTag kind)))
          emission := none
          holdTimer := startTimer s.mgt.holdoverPeriod kind
          tagCounter := s.osq.startTag kind } }
  exact ⟨held, h⟩

@[simp] theorem State.startFrame_link (s : State) (k : FrameKind) : (s.startFrame k).link = s.link := by
  obtain ⟨held, h⟩ := s.startFrame_eq k; rw [h]
@[simp] theorem State.startFrame_mgt (s : State) (k : FrameKind) : (s.startFrame k).mgt = s.mgt := by
  obtain ⟨held, h⟩ := s.startFrame_eq k; rw [h]
@[simp] theorem State.startFrame_mover (s : State) (k : FrameKind) : (s.startFrame k).mover = s.mover := by
  obtain ⟨held, h⟩ := s.startFrame_eq k; rw [h]
@[simp] theorem State.startFrame_pending (s : State) (k : FrameKind) : (s.startFrame k).pending = s.pending := by
  obtain ⟨held, h⟩ := s.startFrame_eq k; rw [h]
@[simp] theorem State.startFrame_array (s : State) (k : FrameKind) :
    (s.startFrame k).pmem.array = s.pmem.array := by
  obtain ⟨held, h⟩ := s.startFrame_eq k; rw [h]; rfl
@[simp] theorem State.startFrame_slots (s : State) (k : FrameKind) :
    (s.startFrame k).lines.slots = s.lines.slots := by
  obtain ⟨held, h⟩ := s.startFrame_eq k; rw [h]
@[simp] theorem State.startFrame_bound (s : State) (k : FrameKind) :
    (s.startFrame k).lines.bound = s.lines.bound := by
  obtain ⟨held, h⟩ := s.startFrame_eq k; rw [h]
@[simp] theorem State.startFrame_waiting (s : State) (k : FrameKind) :
    (s.startFrame k).lines.waiting = s.lines.waiting := by
  obtain ⟨held, h⟩ := s.startFrame_eq k; rw [h]
@[simp] theorem State.startFrame_config (s : State) (k : FrameKind) :
    (s.startFrame k).config = (s.config.frameStart (s.osq.startTag k)).config := by
  obtain ⟨held, h⟩ := s.startFrame_eq k; rw [h]

/-! The report of a frame end (R75, R76). -/

@[simp] theorem State.reportFrame_pmem (s : State) (r : FrameRecord) :
    (s.reportFrame r).pmem = s.pmem.endFrame := by
  unfold reportFrame; dsimp only; split <;> simp
@[simp] theorem State.reportFrame_link (s : State) (r : FrameRecord) : (s.reportFrame r).link = s.link := by
  unfold reportFrame; dsimp only; split <;> simp
@[simp] theorem State.reportFrame_lines (s : State) (r : FrameRecord) : (s.reportFrame r).lines = s.lines := by
  unfold reportFrame; dsimp only; split <;> simp
@[simp] theorem State.reportFrame_config (s : State) (r : FrameRecord) :
    (s.reportFrame r).config = s.config := by
  unfold reportFrame; dsimp only; split <;> simp
@[simp] theorem State.reportFrame_panel (s : State) (r : FrameRecord) : (s.reportFrame r).panel = s.panel := by
  unfold reportFrame; dsimp only; split <;> simp
@[simp] theorem State.reportFrame_mover (s : State) (r : FrameRecord) : (s.reportFrame r).mover = s.mover := by
  unfold reportFrame; dsimp only; split <;> simp
@[simp] theorem State.reportFrame_mgt (s : State) (r : FrameRecord) : (s.reportFrame r).mgt = s.mgt := by
  unfold reportFrame; dsimp only; split <;> simp
@[simp] theorem State.reportFrame_pending (s : State) (r : FrameRecord) :
    (s.reportFrame r).pending = s.pending := by
  unfold reportFrame; dsimp only; split <;> simp

/-- With reports enabled the report reaches the transmitter and the skip accumulator is zeroed; otherwise neither
(R75, R78). -/
theorem State.reportFrame_cases (s : State) (r : FrameRecord) :
    (s.mgt.reports = true
        ∧ (s.reportFrame r).osq = { s.osq with skipAcc := 0 }
        ∧ (s.reportFrame r).rtx
            = (s.rtx.takeReport
                (endReport r s.osq (s.lines.bound.bind FrameEntry.close) s.pmem.deferred.length s.pmem.torn)).arbitrate)
      ∨ (s.mgt.reports = false ∧ (s.reportFrame r).osq = s.osq ∧ (s.reportFrame r).rtx = s.rtx) := by
  unfold reportFrame
  by_cases h : s.mgt.reports = true
  · exact .inl ⟨h, by simp [h], by simp [h]⟩
  · exact .inr ⟨by simpa using h, by simp [h], by simp [h]⟩

/-- What follows a frame end (R75, step 4): WAIT, HOLD_GAP, or the next frame at once, bound or holdover. -/
theorem State.chooseNext_cases (s : State) (r : FrameRecord) :
    (∃ f, s.osq.slot = some f
        ∧ s.chooseNext r = State.startFrame
            { s with lines := s.lines.bindWaiting, osq := { s.osq with slot := none } } (.bound f))
      ∨ (s.osq.slot = none ∧ s.link.locked = true
          ∧ s.chooseNext r = { s with osq := { s.osq with state := .wait, holdTimer := .stopped } })
      ∨ (s.osq.slot = none ∧ s.link.locked = false ∧ r.kind = .holdover
          ∧ (∃ period, s.osq.holdTimer = .running period)
          ∧ s.chooseNext r = { s with osq := { s.osq with state := .holdGap } })
      ∨ (s.osq.slot = none ∧ s.link.locked = false ∧ s.chooseNext r = s.startFrame .holdover) := by
  unfold chooseNext
  cases h : s.osq.slot with
  | some f => exact .inl ⟨f, rfl, rfl⟩
  | none =>
    by_cases hl : s.link.locked = true
    · exact .inr (.inl ⟨rfl, hl, by simp [hl]⟩)
    · have hl : s.link.locked = false := by simpa using hl
      cases hk : r.kind with
      | bound f => exact .inr (.inr (.inr ⟨rfl, hl, by simp [hl]⟩))
      | holdover =>
        cases ht : s.osq.holdTimer with
        | running p => exact .inr (.inr (.inl ⟨rfl, hl, rfl, ⟨p, rfl⟩, by simp [hl]⟩))
        | stopped => exact .inr (.inr (.inr ⟨rfl, hl, by simp [hl]⟩))
        | expired => exact .inr (.inr (.inr ⟨rfl, hl, by simp [hl]⟩))

/-- A frame that has ended, up to the resumption of the mover (R75, R151). -/
theorem State.endFrame_mover (s : State) (r : FrameRecord) :
    ∃ t, t = ((s.reportFrame r).discardFrame r).chooseNext r ∧ t.mover = s.mover
      ∧ s.endFrame r = { t with mover := s.mover.resume t.pmem } := by
  refine ⟨_, rfl, ?_, ?_⟩
  · obtain ⟨f, -, h⟩ | ⟨-, -, h⟩ | ⟨-, -, -, -, h⟩ | ⟨-, -, h⟩ :=
      ((s.reportFrame r).discardFrame r).chooseNext_cases r <;> rw [h] <;> simp
  · unfold endFrame
    obtain ⟨f, -, h⟩ | ⟨-, -, h⟩ | ⟨-, -, -, -, h⟩ | ⟨-, -, h⟩ :=
      ((s.reportFrame r).discardFrame r).chooseNext_cases r <;> rw [h] <;> simp

/-- A frame that has ended, block by block: the state that step 4 of R75 chooses from, and the resumption of the mover
against what it has chosen (R75, R78, R132, R151). -/
theorem State.endFrame_eq (s : State) (r : FrameRecord) :
    ∃ d : State, s.endFrame r = { d.chooseNext r with mover := s.mover.resume (d.chooseNext r).pmem }
      ∧ d.link = s.link ∧ d.config = s.config ∧ d.mgt = s.mgt ∧ d.pmem = s.pmem.endFrame ∧ d.mover = s.mover
      ∧ d.panel = { s.panel with announce := false } ∧ d.pending = s.pending
      ∧ d.lines = (if r.input.isSome then s.lines.freeBound else s.lines)
      ∧ ((s.mgt.reports = true ∧ d.osq = { s.osq with record := none, emission := none, skipAcc := 0 }
            ∧ d.rtx = (s.rtx.takeReport (endReport r s.osq (s.lines.bound.bind FrameEntry.close)
                        s.pmem.deferred.length s.pmem.torn)).arbitrate)
          ∨ (s.mgt.reports = false ∧ d.osq = { s.osq with record := none, emission := none } ∧ d.rtx = s.rtx)) := by
  obtain ⟨t, rfl, -, h⟩ := s.endFrame_mover r
  refine ⟨_, h, ?_⟩
  rcases s.reportFrame_cases r with ⟨h1, h2, h3⟩ | ⟨h1, h2, h3⟩ <;> simp [h1, h2, h3]

/-- The completion of a line with none left to begin ends the frame, the line counted if it was substituted (R60,
R75). -/
theorem State.completeLine_last (s : State) {r : FrameRecord} (substituted : Bool) (h : r.lines ≤ r.nextLine) :
    ∃ r', r' = { r with substituted := r.substituted + if substituted then 1 else 0 }
      ∧ s.completeLine r substituted
          = State.endFrame { s with osq := { s.osq with record := some r', emission := none } } r' := by
  refine ⟨_, rfl, ?_⟩
  unfold completeLine
  cases substituted <;> exact if_neg (by simpa using h)

end Sys2Proof.Machine
end

