-- ==== Sys2Proof/Laws/Link.lean ====
section
/-! SUPPORT. What the events of the forward link do, each said once. -/

namespace Sys2Proof.Machine

/-- Where nothing is received, in HUNT or while the link is ignored, the end of a packet changes nothing (R98, R116). -/
theorem State.onLink_deaf {s : State} (event : State → State) (h : s.link.receives = false) :
    s.onLink event = .next s :=
  if_neg (by simp [h])

theorem State.onLink_receiving {s : State} (event : State → State) (h : s.link.receives = true) :
    s.onLink event = .next (event s) :=
  if_pos h

@[simp] theorem LinkReceiver.receives_iff {l : LinkReceiver} :
    l.receives = true ↔ l.ignoring = false ∧ l.delineation = .aligned := by
  simp [LinkReceiver.receives]

theorem State.onLink_aligned {s : State} (event : State → State) (hi : s.link.ignoring = false)
    (ha : s.link.delineation = .aligned) : s.onLink event = .next (event s) :=
  onLink_receiving event (LinkReceiver.receives_iff.2 ⟨hi, ha⟩)

/-- LOSS_EXPIRY, by whether the timer runs out at all (R110, R111, R116). -/
theorem execLossExpiry_cases (s : State) :
    (s.link.ignoring = false ∧ s.link.lossTimer.isSome = true ∧ execLossExpiry s = .next s.loseLink)
      ∨ ((s.link.ignoring = true ∨ s.link.lossTimer = none) ∧ execLossExpiry s = .next s) := by
  unfold execLossExpiry
  cases hi : s.link.ignoring <;> cases ht : s.link.lossTimer <;> simp

/-- The checks of R104 in numbers. -/
theorem frameOpenFields_three (tag declared width : Word) :
    frameOpenFields [tag, declared, width] =
      if 1 ≤ declared.toNat ∧ declared.toNat ≤ 1024 ∧ 16 ≤ width.toNat ∧ width.toNat ≤ 1024 ∧ width.toNat % 4 = 0 then
        some { tag := tag, declared := declared.toNat, width := width.toNat }
      else none := by
  unfold frameOpenFields
  by_cases h : 1 ≤ declared.toNat ∧ declared.toNat ≤ 1024 ∧ 16 ≤ width.toNat ∧ width.toNat ≤ 1024
      ∧ width.toNat % 4 = 0
  · rw [if_pos h]
    exact if_pos (by simp; omega)
  · rw [if_neg h]
    exact if_neg (by simp; omega)

/-- A truncation closes the open input frame, if there is one (R85, R106). -/
theorem State.truncateOpen_eq (s : State) :
    s.truncateOpen =
      { s with link := { s.link with current := none }
               lines := if s.link.current.isSome then s.lines.closeFrame .truncated else s.lines } := by
  obtain ⟨⟨i, d, p, c, l, t, lt, a, b, e, f⟩, a2, a3, a4, a5, a6, a7, a8, a9, a10⟩ := s
  cases c <;> rfl

/-- No line is freed by a truncation. -/
@[simp] theorem State.truncateOpen_slots (s : State) : s.truncateOpen.lines.slots = s.lines.slots := by
  rw [truncateOpen_eq]; dsimp only; split <;> simp

/-- A lock leaves a locked link alone and locks an unlocked one with its notice (R112). -/
theorem State.lockLink_eq (s : State) (tag : Word) :
    s.lockLink tag =
      { s with link := { s.link with locked := true }
               rtx := if s.link.locked then s.rtx else (s.rtx.takeNotice (.linkRegained tag)).arbitrate } := by
  obtain ⟨⟨i, d, p, c, l, t, lt, a, b, e, f⟩, a2, a3, a4, a5, a6, a7, a8, a9, a10⟩ := s
  cases l <;> rfl

/-- A valid FRAME_OPEN up to its arrival at the sequencer (R105). -/
theorem State.openFrame_eq (s : State) (f : InputFrame) :
    s.openFrame f = State.frameOpenArrival
      { s with
        link := { s.link with
                  parser := .inFrame, locked := true, lastTag := f.tag, lossTimer := some s.mgt.lossTimeout
                  current := some { frame := f, highest := none } }
        lines := if s.link.current.isSome then s.lines.closeFrame .truncated else s.lines
        rtx := if s.link.locked then s.rtx else (s.rtx.takeNotice (.linkRegained f.tag)).arbitrate } f := by
  unfold openFrame
  simp only [State.lockLink_eq, State.truncateOpen_eq]

/-- Loss of the link: a locked link is unlocked with its notice, an unlocked one is left alone (R111, R112). -/
theorem State.unlockLink_eq (s : State) :
    s.unlockLink =
      { s with link := { s.link with locked := false }
               rtx := if s.link.locked then (s.rtx.takeNotice (.linkLost s.link.lastTag)).arbitrate else s.rtx } := by
  obtain ⟨⟨i, d, p, c, l, t, lt, a, b, e, f⟩, a2, a3, a4, a5, a6, a7, a8, a9, a10⟩ := s
  cases l <;> rfl

/-- Loss of the link up to the sequencer's part (R111). -/
theorem State.loseLink_eq (s : State) :
    s.loseLink = State.lossAtSequencer
      { s with
        link := { s.link with parser := .search, locked := false, lossTimer := none, current := none }
        lines := if s.link.current.isSome then s.lines.closeFrame .truncated else s.lines
        rtx := if s.link.locked then (s.rtx.takeNotice (.linkLost s.link.lastTag)).arbitrate else s.rtx } := by
  unfold loseLink
  simp only [State.truncateOpen_eq, State.unlockLink_eq]

/-- The checks of R107: an accepted LINE has a number above the highest received and below the declared lines, and as
many pixels as the frame's width. -/
theorem acceptedLine_some {c : CurrentFrame} {payload : List Word} {n : Nat} {pixels : List Word}
    (h : acceptedLine c payload = some (n, pixels)) :
    ∃ number : Word, payload = number :: pixels ∧ n = number.toNat ∧ (∀ m, c.highest = some m → m < n)
      ∧ n < c.frame.declared ∧ pixels.length = c.frame.width := by
  cases payload with
  | nil => cases h
  | cons number rest =>
    simp only [acceptedLine] at h
    split at h
    · next hc =>
      cases h
      simp only [Bool.and_eq_true, decide_eq_true_eq] at hc
      refine ⟨number, rfl, rfl, fun m hm => ?_, hc.1.2, hc.2⟩
      simpa [hm] using hc.1.1
    · cases h

end Sys2Proof.Machine
end

