-- ==== Sys2Proof/Laws/PerInstr.lean ====
section
/-! SUPPORT. Statements about every row of the table as syntax, one lemma per constructor. -/

namespace Sys2Proof.Laws

/-- A well-formed row is either no packet, and has no words on the link, or a packet of 4 to 1104 words that begins with
the start marker (R99, R197). -/
def LinkWords.Statement (i : Instr) : Prop :=
  i.wellFormed = true →
    encodePacket i = []
      ∨ (4 ≤ (encodePacket i).length ∧ (encodePacket i).length ≤ 1104
          ∧ (encodePacket i).head? = some Config.startMarker)

/-- A framed packet has its payload and four words more (R197). -/
theorem frameWords_length (kind : KindCode) (payload : List Word) :
    (Machine.frameWords kind payload).length = payload.length + 4 := by
  simp [Machine.frameWords]

/-- The packet rows, all alike. -/
theorem LinkWords.packet {i : Instr} (kind : KindCode) {payload : List Word} (fits : payloadFits payload = true)
    (words : encodePacket i = Machine.frameWords kind payload) : LinkWords.Statement i := by
  intro _
  right
  have h : payload.length ≤ 1100 := of_decide_eq_true fits
  rw [words, frameWords_length]
  exact ⟨by omega, by omega, rfl⟩

theorem LinkWords.frameOpen (payload : List Word) : LinkWords.Statement (.frameOpen payload) :=
  fun h => LinkWords.packet 0x01 h rfl h
theorem LinkWords.line (payload : List Word) : LinkWords.Statement (.line payload) :=
  fun h => LinkWords.packet 0x02 h rfl h
theorem LinkWords.frameClose (payload : List Word) : LinkWords.Statement (.frameClose payload) :=
  fun h => LinkWords.packet 0x03 h rfl h
theorem LinkWords.control (payload : List Word) : LinkWords.Statement (.control payload) :=
  fun h => LinkWords.packet 0x04 h rfl h
theorem LinkWords.filler (payload : List Word) : LinkWords.Statement (.filler payload) :=
  fun h => LinkWords.packet 0x1F h rfl h
theorem LinkWords.unknownKindPacket (kind : KindCode) (payload : List Word) :
    LinkWords.Statement (.unknownKindPacket kind payload) :=
  fun h => LinkWords.packet kind (Bool.and_eq_true_iff.1 h).1 rfl h

theorem LinkWords.powerOn : LinkWords.Statement .powerOn := fun _ => .inl rfl
theorem LinkWords.initialisationComplete : LinkWords.Statement .initialisationComplete := fun _ => .inl rfl
theorem LinkWords.headerCheckFailure : LinkWords.Statement .headerCheckFailure := fun _ => .inl rfl
theorem LinkWords.lossExpiry : LinkWords.Statement .lossExpiry := fun _ => .inl rfl
theorem LinkWords.holdoverTimerExpiry : LinkWords.Statement .holdoverTimerExpiry := fun _ => .inl rfl
theorem LinkWords.emissionBegin (pready : Bool) : LinkWords.Statement (.emissionBegin pready) := fun _ => .inl rfl
theorem LinkWords.lineCompletion : LinkWords.Statement .lineCompletion := fun _ => .inl rfl
theorem LinkWords.rowStepCompletion : LinkWords.Statement .rowStepCompletion := fun _ => .inl rfl
theorem LinkWords.transmissionCompletion : LinkWords.Statement .transmissionCompletion := fun _ => .inl rfl
theorem LinkWords.execution : LinkWords.Statement .execution := fun _ => .inl rfl
theorem LinkWords.nop : LinkWords.Statement .nop := fun _ => .inl rfl
theorem LinkWords.identify : LinkWords.Statement .identify := fun _ => .inl rfl
theorem LinkWords.status : LinkWords.Statement .status := fun _ => .inl rfl
theorem LinkWords.setParam (lossTimeout holdoverPeriod reportEnable : Word) :
    LinkWords.Statement (.setParam lossTimeout holdoverPeriod reportEnable) := fun _ => .inl rfl
theorem LinkWords.clearCounts : LinkWords.Statement .clearCounts := fun _ => .inl rfl
theorem LinkWords.softReset : LinkWords.Statement .softReset := fun _ => .inl rfl
theorem LinkWords.setGeometry (hOut wOut : Word) : LinkWords.Statement (.setGeometry hOut wOut) := fun _ => .inl rfl
theorem LinkWords.mapLength (n : Word) : LinkWords.Statement (.mapLength n) := fun _ => .inl rfl
theorem LinkWords.segWrite (slot : Word) (record : List Word) : LinkWords.Statement (.segWrite slot record) :=
  fun _ => .inl rfl
theorem LinkWords.ovlWrite (slot : Word) (record : List Word) : LinkWords.Statement (.ovlWrite slot record) :=
  fun _ => .inl rfl
theorem LinkWords.ovlClear (slot : Word) : LinkWords.Statement (.ovlClear slot) := fun _ => .inl rfl
theorem LinkWords.palWrite (palette firstEntry : Word) (codes : List Word) :
    LinkWords.Statement (.palWrite palette firstEntry codes) := fun _ => .inl rfl
theorem LinkWords.setColours (loss blank : Word) : LinkWords.Statement (.setColours loss blank) := fun _ => .inl rfl
theorem LinkWords.setOutput (mode guard drive : Word) : LinkWords.Statement (.setOutput mode guard drive) :=
  fun _ => .inl rfl
theorem LinkWords.copyLiveToPending : LinkWords.Statement .copyLiveToPending := fun _ => .inl rfl
theorem LinkWords.readConfig (selector item index : Word) : LinkWords.Statement (.readConfig selector item index) :=
  fun _ => .inl rfl
theorem LinkWords.commit (dueKind dueTag : Word) : LinkWords.Statement (.commit dueKind dueTag) := fun _ => .inl rfl
theorem LinkWords.cancelCommit : LinkWords.Statement .cancelCommit := fun _ => .inl rfl
theorem LinkWords.memAddress (row col : Word) : LinkWords.Statement (.memAddress row col) := fun _ => .inl rfl
theorem LinkWords.memWrite (words : List Word) : LinkWords.Statement (.memWrite words) := fun _ => .inl rfl
theorem LinkWords.memRead (n : Word) : LinkWords.Statement (.memRead n) := fun _ => .inl rfl
theorem LinkWords.patchBegin : LinkWords.Statement .patchBegin := fun _ => .inl rfl
theorem LinkWords.patchEnd : LinkWords.Statement .patchEnd := fun _ => .inl rfl
theorem LinkWords.moveFill (row col rows words value : Word) :
    LinkWords.Statement (.moveFill row col rows words value) := fun _ => .inl rfl
theorem LinkWords.moveCopy (srcRow srcCol dstRow dstCol rows words : Word) :
    LinkWords.Statement (.moveCopy srcRow srcCol dstRow dstCol rows words) := fun _ => .inl rfl
theorem LinkWords.moveAbort : LinkWords.Statement .moveAbort := fun _ => .inl rfl
theorem LinkWords.payloadCheckFailedPacket (kind : KindCode) (payload : List Word) :
    LinkWords.Statement (.payloadCheckFailedPacket kind payload) := fun _ => .inl rfl
theorem LinkWords.startMarkerInHunt : LinkWords.Statement .startMarkerInHunt := fun _ => .inl rfl

end Sys2Proof.Laws
end

