-- ==== Sys2Proof/Tests/Slice0.lean ====
section
/-! SUPPORT. The model's own tests, their expected results taken from spec/, and the witnesses of the statements'
hypotheses. Each test is about one row on a small state. -/

namespace Sys2Proof.Tests

open Sys2Proof.Machine
open Sys2Proof.Claims

/-! ## Small states -/

/-- The state after one row. -/
def after (c : Instr) (s : State) : State :=
  match exec c s with
  | .next t => t
  | _ => s

/-- The results that a command row adds. -/
def resultOf (c : Instr) (s : State) : List Result :=
  (after c s).mgt.results.drop s.mgt.results.length

/-- Reset, with the array initialised and the receiver ALIGNED. -/
def listening : State :=
  { State.reset with link := { powerOnLink with ignoring := false, delineation := .aligned } }

/-- Input frame 500 of the bring-up sequence (11.1): 240 lines of 16 pixels. -/
def input500 : InputFrame := { tag := 500, declared := 240, width := 16 }

/-- An output frame bound to input frame 500, `next` lines of `lines` begun. -/
def boundRecord (lines next : Nat) : FrameRecord :=
  { tag := 500, kind := .bound input500, generation := 0, lines := lines, drive := false, outputOverride := .normal,
    announce := none, nextLine := next, substituted := 0 }

/-- Frame 500 in progress and its input frame open, with the lines 0 to `highest` received. -/
def framed (highest : Option Nat) : State :=
  { listening with
    link := { listening.link with parser := .inFrame, locked := true, lastTag := 500,
                                  current := some { frame := input500, highest := highest } }
    lines := { slots := [], bound := some { frame := input500, highest := highest, close := none }, waiting := none,
               held := none }
    osq := { powerOnSequencer with state := .frame, record := some (boundRecord 480 0), tagCounter := 500 }
    pmem := { powerOnPictureMemory with view := some { rowSet := [], guard := false, torn := false } } }

/-- The last line of frame 500 in emission. -/
def lastLine : State :=
  { framed none with
    osq := { (framed none).osq with record := some (boundRecord 480 480)
                                    emission := some { line := 479, substituted := true } } }

/-- Between two holdover frames, the timer running. -/
def holdGap : State :=
  { listening with osq := { powerOnSequencer with state := .holdGap, holdTimer := .running 20, tagCounter := 7 } }

/-- The frame of 11.6: rows 16 to 19 and 100 in its row set, the guard as given. -/
def guarded (guard : Bool) (cursor : Addr) (deferred : List Deferred) : State :=
  { framed none with
    pmem := { powerOnPictureMemory with
              cursor := cursor
              view := some { rowSet := [16, 17, 18, 19, 100], guard := guard, torn := false }
              deferred := deferred } }

/-- A mover with a fill of `rows` rows at (16, 0), `rowsDone` of them done, the next step in progress. -/
def filling (rows rowsDone : Nat) : Mover :=
  { state := .running
    op := { kind := .fill, dstRow := 16, dstCol := 0, srcRow := 0, srcCol := 0, rows := rows, words := 80, value := 0,
            direction := .ascending, rowsDone := rowsDone, stepRow := some rowsDone } }

/-- A reply without results, and a report, to fill queues with. -/
def blankReply (seq : Seq) : Reply :=
  { seq := seq, replayed := false, status := .ok, results := [], expected := none }

def someReport (tag : Word) : Report :=
  { tag := tag, generation := 0, flags := ⟨false, false, false, false, false, false, false⟩, substituted := 0,
    skipped := 0, drained := 0, lost := 0 }

/-- A BUSY transmitter that sends the head of the reply queue. -/
def busyReverse : ReverseTransmitter :=
  { powerOnReverse with
    replies := [blankReply 40, blankReply 41]
    reports := [someReport 18, someReport 19]
    transmitter := some { packet := .reply (blankReply 40), queue := some .reply } }

/-- A reverse transmitter whose notice queue is full. -/
def fullNotices : ReverseTransmitter :=
  { powerOnReverse with notices := List.replicate 4 (.linkLost 1) }

/-- The link locked, no output frame in progress. -/
def lockedWait : State :=
  { listening with link := { listening.link with locked := true, parser := .gap, lastTag := 500 } }

/-- A holdover frame, all its lines begun. -/
def holdoverRecord : FrameRecord :=
  { boundRecord 480 480 with tag := 7, kind := .holdover }

/-- The last line of a holdover frame in emission, the link not locked. -/
def lastHoldover (timer : HoldTimer) : State :=
  { listening with
    osq := { powerOnSequencer with state := .holdFrame, record := some holdoverRecord, tagCounter := 7, holdTimer := timer
                                   emission := some { line := 479, substituted := true } }
    pmem := { powerOnPictureMemory with view := some { rowSet := [], guard := false, torn := false } } }

/-- A control packet of one NOP. -/
def nopPacket (seq : Seq) : ControlPacket :=
  { seq := seq, sync := false, entries := [{ code := 0, operands := [] }] }

/-- One packet in the command queue. -/
def queued (p : ControlPacket) : State :=
  { listening with mgt := { powerOnManagement with queue := [p] } }

/-! ## Well-formedness: one ill-formed term for each check -/

/-- A payload of 1101 words, one more than R99 lets through. -/
theorem tooLong : payloadFits (List.replicate 1101 0) = false := by
  unfold payloadFits; rw [List.length_replicate]; decide

theorem test_wellFormed_refuses_frameOpen : (Instr.frameOpen (List.replicate 1101 0)).wellFormed = false := tooLong
theorem test_wellFormed_refuses_line : (Instr.line (List.replicate 1101 0)).wellFormed = false := tooLong
theorem test_wellFormed_refuses_frameClose : (Instr.frameClose (List.replicate 1101 0)).wellFormed = false := tooLong
theorem test_wellFormed_refuses_control : (Instr.control (List.replicate 1101 0)).wellFormed = false := tooLong
theorem test_wellFormed_refuses_filler : (Instr.filler (List.replicate 1101 0)).wellFormed = false := tooLong
theorem test_wellFormed_refuses_payloadFailed :
    (Instr.payloadCheckFailedPacket 2 (List.replicate 1101 0)).wellFormed = false := tooLong
theorem test_wellFormed_refuses_unknownKind_long :
    (Instr.unknownKindPacket 9 (List.replicate 1101 0)).wellFormed = false := by
  rw [Instr.wellFormed, tooLong]; rfl
theorem test_wellFormed_refuses_unknownKind_known : (Instr.unknownKindPacket 0x1F []).wellFormed = false := by decide
theorem test_wellFormed_refuses_segWrite : (Instr.segWrite 0 (List.replicate 11 0)).wellFormed = false := by decide
theorem test_wellFormed_refuses_ovlWrite : (Instr.ovlWrite 0 (List.replicate 9 0)).wellFormed = false := by decide
theorem test_wellFormed_refuses_palWrite : (Instr.palWrite 0 0 []).wellFormed = false := by decide
theorem test_wellFormed_refuses_memWrite : (Instr.memWrite (List.replicate 65 0)).wellFormed = false := by decide

/-! ## Words on the link (chapter 10) -/

set_option maxRecDepth 20000 in
/-- 10.1: the payload CRC of the one word 0x0000 is 0x1D0F. -/
theorem test_crc_of_zero : crc [0] = 0x1D0F := by decide
/-- R197, R200: word 1 of a FRAME_OPEN header is kind 0x01 in bits 15-11 and length 3. -/
theorem test_frame_open_header_word : headerWord 0x01 3 = 0b0000100000000011 := by decide
set_option maxRecDepth 20000 in
/-- R98, R102: a FRAME_CLOSE written out, its header check by hand-fed CRC, arrives as its row. -/
theorem test_frame_close_is_received :
    receivePacket (0xA5C3 :: 0x1801 :: crc [0xA5C3, 0x1801] :: [0x0000, 0x1D0F])
      = some (.frameClose [0], .aligned, []) := by decide
set_option maxRecDepth 20000 in
/-- R101: the same packet with a wrong payload CRC fails its payload check. -/
theorem test_bad_payload_crc :
    receivePacket (0xA5C3 :: 0x1801 :: crc [0xA5C3, 0x1801] :: [0x0000, 0x1D0E])
      = some (.payloadCheckFailedPacket 0x03 [0], .aligned, []) := by decide
set_option maxRecDepth 20000 in
/-- R99, R100: a word that is no start marker, and then a start marker in HUNT. -/
theorem test_hunt_ends_at_a_marker :
    linkEvents 9 .aligned (0x1234 :: 0xA5C3 :: 0x1801 :: crc [0xA5C3, 0x1801] :: [0x0000, 0x1D0F])
      = ([.headerCheckFailure, .startMarkerInHunt, .frameClose [0]], .aligned, []) := by decide
/-- The table gives no row bits. -/
theorem test_no_table_word : decodeTableWord 16 0 = none := by decide

/-! ## Power and link events -/

theorem test_powerOn_starts_the_loss_timer : (after .powerOn lastLine).link.lossTimer = some 100 := by decide
theorem test_initialisation_opens_the_link :
    (after .initialisationComplete State.reset).link.ignoring = false
      ∧ (after .initialisationComplete State.reset).link.delineation = .hunt := by decide
/-- R98, R116: from reset the first packet, begun during initialisation, is lost; in HUNT no packet is received. -/
theorem test_packet_begun_during_initialisation_is_lost :
    (after (.frameOpen [500, 240, 16]) (after .initialisationComplete (after .startMarkerInHunt State.reset))).osq.state
      = .wait := by decide
/-- R116: words taken while the link is ignored are discarded. -/
theorem test_words_are_dropped_during_initialisation :
    receiveWords true .hunt [0xA5C3, 0x1801] = ([], .hunt, []) := by decide
theorem test_header_errors_saturate :
    (after .headerCheckFailure
      { listening with link := { listening.link with headerErrors := 0xFFFF } }).link.headerErrors = 0xFFFF := by
  decide
theorem test_start_marker_aligns :
    (after .startMarkerInHunt
      { listening with link := { listening.link with delineation := .hunt } }).link.delineation = .aligned := by decide
/-- 11.1, step 2: FRAME_OPEN 500 locks the link, with LINK_REGAINED (500), and starts output frame 500. -/
theorem test_frameOpen_starts_frame_500 :
    (after (.frameOpen [500, 240, 16]) listening).osq.state = .frame
      ∧ (after (.frameOpen [500, 240, 16]) listening).rtx.notices = [.linkRegained 500] := by decide
/-- R104: a width that is no multiple of 4. -/
theorem test_frameOpen_refuses_width_18 :
    (after (.frameOpen [500, 240, 18]) listening).link.lineErrors = 1 := by decide
/-- R107: a line number equal to the highest received is refused, the next one is stored. -/
theorem test_line_numbers_rise :
    (after (.line (3 :: List.replicate 16 7)) (framed (some 3))).link.lineErrors = 1
      ∧ ((after (.line (4 :: List.replicate 16 7)) (framed (some 3))).lines.slots.map fun l => l.number) = [4] := by
  decide
/-- R109: another tag than the open frame's. -/
theorem test_frameClose_tag_mismatch :
    (after (.frameClose [501]) (framed none)).lines.bound.bind (fun e => e.close) = some .tagMismatch := by decide
theorem test_filler_changes_nothing : after (.filler [1, 2]) listening = listening := by decide
theorem test_unknown_kind_is_stray : (after (.unknownKindPacket 9 []) listening).link.strayPackets = 1 := by decide
theorem test_payload_failure_is_counted :
    (after (.payloadCheckFailedPacket 4 [0, 1, 0]) listening).link.payloadErrors = 1 := by decide
/-- R66: from WAIT a loss expiry enters holdover; the first holdover frame has tag 1. -/
theorem test_lossExpiry_enters_holdover :
    (after .lossExpiry listening).osq.state = .holdFrame ∧ (after .lossExpiry listening).osq.tagCounter = 1 := by
  decide
/-- R196: nothing reaches the transmitter before initialisation ends. -/
theorem test_lossExpiry_waits_for_initialisation : after .lossExpiry State.reset = State.reset := by decide
theorem test_holdover_expiry_starts_the_next_frame :
    (after .holdoverTimerExpiry holdGap).osq.tagCounter = 8 := by decide

/-! ## Control packets (11.5) -/

/-- Step 3 of 11.5: E is 41, packet 42 arrives; SEQ reply with seq 42, expected 41. -/
theorem test_out_of_order_packet :
    (after (.control [42, 1, 0]) { listening with mgt := { powerOnManagement with expected := 41 } }).rtx.replies
      = [{ seq := 42, replayed := false, status := .seq, results := [], expected := some 41 }] := by decide
/-- Step 4 of 11.5: packet 40 again; the stored reply with REPLAYED set, duplicates 1. -/
theorem test_answered_duplicate :
    (after (.control [40, 1, 0])
        { listening with mgt := { powerOnManagement with expected := 41, history := [blankReply 40] } }).rtx.replies
      = [{ blankReply 40 with replayed := true }] := by decide
theorem test_execution_of_a_nop :
    (after .execution (queued (nopPacket 5))).mgt.history
      = [{ seq := 5, replayed := false, status := .ok, results := [⟨.ok, []⟩], expected := none }] := by decide
/-- R206: word 0 of a replayed reply is REPLAYED in bit 15 and the seq in bits 7-0. -/
theorem test_replayed_reply_words :
    replyPayload { blankReply 40 with replayed := true } = [0x8028, 0, 0] := by decide
/-- Step 5 of 9.8: at the completion of reply 40 a waiting notice is served first. -/
theorem test_notice_is_served_first :
    ((after .transmissionCompletion
        { listening with rtx := { busyReverse with notices := [.commitApplied 5 21] } }).rtx.transmitter.map
          fun t => t.packet) = some (.notice (.commitApplied 5 21)) := by decide
/-- Step 4 of 9.8: a fifth report is discarded. -/
theorem test_report_queue_holds_four :
    (busyReverse.takeReport (someReport 20)).reports.length = 3
      ∧ ({ busyReverse with reports := [18, 19, 20, 21].map someReport }.takeReport (someReport 22)).reportsLost = 1 := by
  decide

/-! ## Output frames -/

/-- R60, R75, 9.7: the last line of frame 500 completes; its report counts the line and carries DARK. -/
theorem test_report_of_frame_500 :
    ((after .lineCompletion lastLine).rtx.reports.map fun r => (r.tag, r.flags.word, r.substituted))
      = [(500, 0b10, 1)] := by decide
/-- R69, R72: line 0 of a dark frame waits for its source; no line begins. -/
theorem test_waiting_source_holds_the_line :
    (after (.emissionBegin true) (framed none)).osq = (framed none).osq
      ∧ (after (.emissionBegin true) (framed none)).lines.held = some 0 := by decide
/-- The due test's table (2.7). -/
theorem test_due_table :
    dueAt (some (.at 500)) 499 = false ∧ dueAt (some (.at 500)) 500 = true ∧ dueAt (some (.at 65530)) 3 = true
      ∧ dueAt (some (.at 100)) 40000 = false ∧ dueAt (some (.at 100)) 33000 = false
      ∧ dueAt (some (.at 100)) 32867 = true := by decide

/-! ## The worked composition (1.11) -/

def exampleLink : Segment :=
  { first := 0, count := 2, kind := .link, srcStart := 3, step := .minus1, windowBase := 0, windowRows := 1,
    colStart := 2, mirror := false, palette := 0, fill := 0x001F, overlay := none }
def exampleMemory : Segment :=
  { first := 2, count := 3, kind := .memory, srcStart := 1, step := .plus1, windowBase := 100, windowRows := 2,
    colStart := 0, mirror := true, palette := 2, fill := 0, overlay := some 5 }
def exampleFill : Segment :=
  { defaultSpareSegment with first := 5, count := 1, fill := 0xFFFF }
def exampleOverlay : Overlay :=
  { rowBase := 200, rows := 1, lineOffset := 1, srcCol := 8, span := 8, destX := 16, palette := 3, key := some 0 }
def exampleSet : ConfigSet :=
  { defaultSet with
    hOut := 6, wOut := 20, mapLength := 3, lossColour := 0x7800
    segments := ((defaultSet.segments.set 0 exampleLink).set 1 exampleMemory).set 2 exampleFill
    overlays := defaultSet.overlays.set 5 (some exampleOverlay) }
/-- The words of rows 100, 101 and 200 that the lines read. -/
def exampleArray : Memory :=
  ((List.range 5).map fun w => (wordKey 100 w, (0x1111 : Word)))
    ++ [(wordKey 101 0, 0x2222), (wordKey 101 1, 0x2222), (wordKey 101 2, 0x2233), (wordKey 101 3, 0x3333),
        (wordKey 101 4, 0x3333), (wordKey 200 2, 0x5050)]
def exampleInput : InputFrame := { tag := 40, declared := 4, width := 16 }
def exampleLines : LineStore :=
  { slots := [{ entry := .bound, tag := 40, number := 3, pixels := (List.range 16).map fun c => BitVec.ofNat 16 (c + 300) }]
    bound := some { frame := exampleInput, highest := some 3, close := none }
    waiting := none
    held := none }
/-- The composed line y of the example. -/
def exampleLine (y : Nat) : ComposedLine :=
  composeLine exampleSet exampleLines exampleArray (some exampleInput) y

theorem test_example_line_0 :
    exampleLine 0 = { codes := ((List.range 14).map fun c => BitVec.ofNat 16 (c + 302)) ++ List.replicate 6 0x001F
                      substituted := false } := by decide
theorem test_example_line_1 : exampleLine 1 = { codes := List.replicate 20 0x7800, substituted := true } := by decide
theorem test_example_line_2 :
    exampleLine 2
      = { codes := List.replicate 10 0x3333 ++ List.replicate 10 0x2222, substituted := false } := by decide
theorem test_example_line_3 :
    exampleLine 3 = { codes := List.replicate 16 0x1111 ++ [0x5555, 0x1111, 0x5555, 0x1111], substituted := false } := by
  decide
theorem test_example_line_5 : exampleLine 5 = { codes := List.replicate 20 0xFFFF, substituted := false } := by decide
theorem test_example_set_is_valid : validate exampleSet = none := by decide

/-! ## The validation example (2.6) -/

def draftMemory (base : Nat) : Segment :=
  { exampleMemory with first := 240, count := 40, windowBase := base, windowRows := 30, srcStart := 0
                       overlay := some 3 }
/-- The pending set of the example, with the window base, the contents of overlay slot 3 and the list length. -/
def draft (base : Nat) (overlay : Option Overlay) (n : Nat) : ConfigSet :=
  { defaultSet with
    hOut := 300, wOut := 320, mapLength := n
    segments := (((defaultSet.segments.set 0 { defaultSpareSegment with count := 40 }).set 1
      { defaultFirstSegment with first := 40, count := 200 }).set 2 (draftMemory base)).set 3
      { defaultSpareSegment with first := 280, count := 20 }
    overlays := defaultSet.overlays.set 3 overlay }
def draftOverlay (base : Nat) : Overlay := { exampleOverlay with rowBase := base, rows := 10, srcCol := 0, span := 64 }
/-- The example's part: generation 7, the pending set as given, no commit request. -/
def drafting (p : ConfigSet) : State :=
  { listening with config := { defaultConfig with pending := p, generation := 7 } }

theorem test_validation_window : resultOf (.commit 1 0) (drafting (draft 230 none 3)) = [⟨.invalid, [4, 2]⟩] := by
  decide
theorem test_validation_overlay_ref :
    resultOf (.commit 1 0) (drafting (draft 200 none 3)) = [⟨.invalid, [5, 2]⟩] := by decide
theorem test_validation_height :
    resultOf (.commit 1 0) (drafting (draft 200 (some (draftOverlay 250)) 3)) = [⟨.invalid, [3, 2]⟩] := by decide
theorem test_validation_overlay_fit :
    resultOf (.commit 1 0) (drafting (draft 200 (some (draftOverlay 250)) 4)) = [⟨.invalid, [6, 3]⟩] := by decide
theorem test_commit_arms : resultOf (.commit 1 0) (drafting (draft 200 (some (draftOverlay 240)) 4)) = [⟨.ok, [8]⟩] := by
  decide

/-! ## Commands -/

/-- A driven frame of two lines, the next one `next`. -/
def driven (next : Nat) : State :=
  { framed none with
    config := { defaultConfig with live := { exampleSet with outputOverride := .blank } }
    osq := { (framed none).osq with record := some { boundRecord 2 next with drive := true } } }

/-- Line 0 of two in emission; and a dark frame under BLANK, its first line next. -/
def midFrame : State :=
  { driven 1 with panel := { powerOnPanel with strobes := [.line [7, 8, 9]] }
                  osq := { (driven 1).osq with emission := some { line := 0, substituted := true } } }
def darkFrame : State :=
  { driven 0 with osq := { (driven 0).osq with record := some (boundRecord 2 0) } }

/-- The last line of a dark frame next: bound, under BLANK; and of a holdover frame, its source the link. -/
def lastDark : State :=
  { darkFrame with osq := { darkFrame.osq with record := some { boundRecord 2 1 with outputOverride := .blank } } }
def lastDarkHoldover : State :=
  { lastHoldover .expired with
    osq := { (lastHoldover .expired).osq with record := some { holdoverRecord with nextLine := 479 }, emission := none } }

/-- A STALLED fill at row 19, and an input frame that waits. -/
def stalledFill : Mover :=
  { state := .stalled, op := { (filling 20 3).op with stepRow := none } }
def withWaiting (s : State) : State :=
  { s with osq := { s.osq with slot := some exampleInput }, mover := stalledFill
           lines := { s.lines with waiting := some { frame := exampleInput, highest := none, close := none } } }

/-- A live set whose guarded frame row set is the rows 16 to 19. -/
def guardedSet : ConfigSet :=
  { exampleSet with
    tearGuard := true
    segments := exampleSet.segments.set 1 { exampleMemory with windowBase := 16, windowRows := 4, overlay := none } }

/-- Eight replies, the oldest in transmission, and a control packet of one NOP that waits. -/
def waitingPacket : State :=
  { queued (nopPacket 5) with
    rtx := { busyReverse with replies := blankReply 40 :: (List.range 7).map fun i => blankReply (BitVec.ofNat 8 i) } }

/-- A commit request that waits. -/
def armed (state : CommitState) : State :=
  { listening with config := { defaultConfig with commit := state, due := some .next } }

/-- R72, R75, R77: a dark frame ends within EMISSION_BEGIN; the link locked, WAIT; its report carries DARK and BLANKED. -/
theorem test_dark_frame_ends :
    (after (.emissionBegin false) lastDark).osq.state = .wait
      ∧ ((after (.emissionBegin false) lastDark).rtx.reports.map fun r => r.flags.word) = [0b1000010]
      ∧ (after (.emissionBegin false) lastDark).panel.strobes = [] := by decide
/-- R151: a STALLED mover is tested against the guarded frame that follows at once, and stays STALLED. -/
theorem test_stalled_mover_meets_the_next_frame :
    (after .lineCompletion
      { withWaiting lastLine with config := { defaultConfig with live := guardedSet } }).mover = stalledFill := by decide
/-- R168, R185: the place that a sent reply frees lets the waiting packet execute, and its reply is the youngest. -/
theorem test_completion_executes_the_waiting_packet :
    (after .transmissionCompletion waitingPacket).mgt.queue = []
      ∧ ((after .transmissionCompletion waitingPacket).rtx.replies.map fun r => r.seq) = [0, 1, 2, 3, 4, 5, 6, 5] := by
  decide
theorem test_nop : resultOf .nop listening = [⟨.ok, []⟩] := by decide
theorem test_identify_starts_with_the_vendor_code :
    (resultOf .identify listening).map (fun r => r.data.take 2) = [[0x4E42, 0x0718]] := by decide
/-- R208: words 2 and 3 of the snapshot are the output state and the frame tag counter. -/
theorem test_status_in_frame_500 :
    (resultOf .status (framed none)).map (fun r => (r.data.drop 2).take 2) = [[1, 500]] := by decide
/-- 11.1: SET_PARAM(5, 20, on) is a loss timeout of 50 ms. -/
theorem test_setParam : (after (.setParam 5 20 1) listening).mgt.lossTimeout = 50 := by decide
theorem test_setParam_refuses_period_9 : resultOf (.setParam 5 9 1) listening = [⟨.range, []⟩] := by decide
theorem test_clearCounts :
    (after .clearCounts { listening with link := { listening.link with strayPackets := 9 } }).link.strayPackets = 0 := by
  decide
theorem test_softReset_keeps_the_tag_counter :
    (after .softReset (framed none)).osq.tagCounter = 500 ∧ (after .softReset (framed none)).osq.state = .wait := by
  decide
/-- R28, R80: the line in emission at a soft reset is not completed. -/
theorem test_softReset_cuts_the_line :
    (after .softReset midFrame).panel.strobes.map (fun x => match x with | .cutLine _ => true | _ => false) = [true] := by
  decide
theorem test_setGeometry : (after (.setGeometry 240 320) listening).config.pending.hOut = 240 := by decide
theorem test_setGeometry_refuses_width_12 : resultOf (.setGeometry 240 12) listening = [⟨.range, []⟩] := by decide
theorem test_mapLength_takes_32_and_refuses_33 :
    (after (.mapLength 32) listening).config.pending.mapLength = 32
      ∧ resultOf (.mapLength 33) listening = [⟨.range, []⟩] := by decide
/-- 11.1: the status strip's record. -/
theorem test_segWrite_of_the_strip :
    (after (.segWrite 1 [224, 16, 1, 0, 1, 16, 20, 0, 0, 1, 0, 0x00FF]) listening).config.pending.segments[1]
      = { first := 224, count := 16, kind := .memory, srcStart := 0, step := .plus1, windowBase := 16, windowRows := 20,
          colStart := 0, mirror := false, palette := 1, fill := 0, overlay := none } := by decide
/-- R35: src_start of a MEMORY segment is at most 255. -/
theorem test_segWrite_refuses_memory_src_start_256 :
    resultOf (.segWrite 1 [224, 16, 1, 256, 1, 16, 20, 0, 0, 1, 0, 0x00FF]) listening = [⟨.range, []⟩] := by decide
theorem test_ovlWrite :
    (after (.ovlWrite 5 [200, 1, 1, 8, 8, 16, 3, 0]) listening).config.pending.overlays[5] = some exampleOverlay := by
  decide
theorem test_ovlClear :
    (after (.ovlClear 5) (drafting exampleSet)).config.pending.overlays[5] = none := by decide
theorem test_palWrite :
    (after (.palWrite 1 14 [7, 8]) listening).config.pending.palettes[1][15] = 8 := by decide
theorem test_palWrite_past_entry_15 : resultOf (.palWrite 1 15 [7, 8]) listening = [⟨.length, []⟩] := by decide
theorem test_setColours : (after (.setColours 0x7800 3) listening).config.pending.lossColour = 0x7800 := by decide
theorem test_setOutput : (after (.setOutput 2 1 1) listening).config.pending.outputOverride = .invert := by decide
theorem test_setOutput_refuses_override_3 : resultOf (.setOutput 3 1 1) listening = [⟨.range, []⟩] := by decide
theorem test_copyLiveToPending : (after .copyLiveToPending (drafting exampleSet)).config.pending.hOut = 480 := by decide
/-- 11.4: READ_CONFIG(live, GENERATION_AND_COMMIT) with AT 812 pending. -/
theorem test_readConfig_generation_and_commit :
    resultOf (.readConfig 1 7 0)
        { listening with config := { pending := exampleSet, live := defaultSet, generation := 5, commit := .announcing
                                     due := some (.at 812) } }
      = [⟨.ok, [5, 2, 2, 812, 1]⟩] := by decide
theorem test_cancelCommit_withdraws : (after .cancelCommit (armed .armed)).config.commit = .none := by decide
theorem test_cancelCommit_is_busy_when_announcing :
    resultOf .cancelCommit (armed .announcing) = [⟨.busy, []⟩] := by decide
/-- Step 3 of 11.6: the holder takes the queue's entry. -/
theorem test_memAddress_loads_the_deferred_word :
    (after (.memAddress 17 11) (guarded true ⟨17, 13⟩ [⟨⟨17, 11⟩, 0x2222⟩])).pmem.holder.value = 0x2222 := by decide
/-- Steps 1 and 6 of 11.6: three words deferred; with 62 entries waiting, the third of three words meets FULL. -/
theorem test_memWrite_defers :
    (after (.memWrite [0x1111, 0x2222, 0x3333]) (guarded true ⟨17, 10⟩ [])).pmem.deferred
        = [⟨⟨17, 10⟩, 0x1111⟩, ⟨⟨17, 11⟩, 0x2222⟩, ⟨⟨17, 12⟩, 0x3333⟩]
      ∧ resultOf (.memWrite [1, 2, 3]) (guarded true ⟨100, 0⟩ (List.replicate 62 ⟨⟨17, 10⟩, 0⟩)) = [⟨.full, [2]⟩] := by
  decide
/-- Step 3 of 11.6: MEM_READ(1) returns the holder and reloads it at (17, 12). -/
theorem test_memRead :
    (after (.memRead 1) (guarded true ⟨17, 11⟩ [⟨⟨17, 12⟩, 0x3333⟩])).pmem.holder = ⟨⟨17, 12⟩, 0x3333⟩ := by decide
/-- R119, R121: the cursor passes (255, 255) to (0, 0), where the holder takes the written word. -/
theorem test_memWrite_wraps :
    (after (.memWrite [1, 2, 3]) { listening with pmem := { powerOnPictureMemory with cursor := ⟨255, 254⟩ } }).pmem.cursor
        = ⟨0, 1⟩
      ∧ (after (.memWrite [1, 2, 3])
          { listening with pmem := { powerOnPictureMemory with cursor := ⟨255, 254⟩ } }).pmem.holder = ⟨⟨0, 0⟩, 3⟩ := by
  decide
theorem test_patchBegin_saves_the_cursor :
    (after .patchBegin (guarded true ⟨17, 11⟩ [])).pmem.patch = some ⟨17, 11⟩ := by decide
theorem test_patchEnd_outside_patch_mode : resultOf .patchEnd listening = [⟨.mode, []⟩] := by decide
/-- 11.1, packet 2: the fill of the strip's rows. -/
theorem test_moveFill_starts : (after (.moveFill 16 0 20 80 0) listening).mover = filling 20 0 := by decide
/-- 11.7: the copy into a guarded row stalls at once. -/
theorem test_moveCopy_stalls :
    (after (.moveCopy 200 0 18 0 2 48) (guarded true ⟨0, 0⟩ [])).mover.state = .stalled := by decide
/-- R147: a copy to a higher row starts with its last offset. -/
theorem test_moveCopy_descends : (after (.moveCopy 10 0 12 0 5 4) listening).mover.op.stepRow = some 4 := by decide
/-- 11.1, step 6: the last row step gives MOVE_DONE (COMPLETE, FILL, 20). -/
theorem test_last_row_step :
    (after .rowStepCompletion { listening with mover := filling 20 19 }).rtx.notices
      = [.moveDone .complete .fill 20] := by decide
/-- R153, R189: with four notices waiting the MOVE_DONE of the abort is counted in notices_lost. -/
theorem test_moveAbort_with_full_notices :
    (after .moveAbort { listening with mover := filling 20 3, rtx := fullNotices }).rtx.noticesLost = 1
      ∧ (after .moveAbort { listening with mover := filling 20 3, rtx := fullNotices }).mover.state = .idle := by decide
theorem test_moveAbort :
    (after .moveAbort { listening with mover := filling 20 3 }).rtx.notices = [.moveDone .aborted .fill 3] := by decide
/-- 11.3: at src_start 5, output line 239 of the strip reads row 16. -/
theorem test_strip_scrolls :
    Segment.memoryRow { exampleMemory with first := 224, count := 16, srcStart := 5, windowBase := 16, windowRows := 20 } 239
      = 16 := by decide
/-- R26, R131: a BLANK set reads no memory row; the example set reads rows 100, 101 and 200. -/
theorem test_frame_row_set :
    frameRows exampleSet = [100, 101, 200] ∧ frameRows { exampleSet with outputOverride := .blank } = [] := by decide

/-! ## Witnesses: states and operands that meet the statements' hypotheses, clause by clause -/

theorem witness_PowerOnAndInitialisation : State.reset.link.ignoring = true := by decide

theorem witness_SoftReset :
    (queued (nopPacket 5)).mgt.queue = [nopPacket 5] ∧ (queued (nopPacket 5)).pmem.array.wf = true
      ∧ (queued (nopPacket 5)).rtx.transmitter = none ∧ (queued (nopPacket 5)).osq.emission = none
      ∧ ({ queued (nopPacket 5) with rtx := busyReverse } : State).rtx.transmitter
          = some { packet := .reply (blankReply 40), queue := some .reply }
      ∧ ({ midFrame with mgt := (queued (nopPacket 5)).mgt } : State).osq.emission
          = some { line := 0, substituted := true }
      ∧ midFrame.panel.strobes = [] ++ [.line [7, 8, 9]] ∧ 0 < midFrame.config.live.wOut := by decide

theorem witness_DiscardedWords :
    State.reset.link.ignoring = true ∧ listening.link.ignoring = false ∧ listening.link.delineation = .aligned
      ∧ ({ listening with link := { listening.link with delineation := .hunt } } : State).link.ignoring = false
      ∧ ({ listening with link := { listening.link with delineation := .hunt } } : State).link.delineation = .hunt := by
  decide

/-- A field just out of range: 1025 lines, width 12 and 1028, and a payload of two words. -/
theorem witness_RefusedFramePackets_open :
    ¬ validOpen 1025 16 ∧ ¬ validOpen 1 12 ∧ ¬ validOpen 1 1028 ∧ ¬ validOpen 0 16
      ∧ ∀ tag lines width : Word, [1, 2] ≠ [tag, lines, width] := by
  refine ⟨by simp [validOpen], by simp [validOpen], by simp [validOpen], by simp [validOpen], fun _ _ _ h => ?_⟩
  cases h

/-- Line 3 again, line 240 of 240, and one pixel too many. -/
theorem witness_RefusedFramePackets_line :
    (framed (some 3)).link.ignoring = false ∧ (framed (some 3)).link.delineation = .aligned
      ∧ (framed (some 3)).link.parser = .inFrame
      ∧ (framed (some 3)).link.current = some { frame := input500, highest := some 3 }
      ∧ (3 : Word).toNat ≤ 3 ∧ input500.declared ≤ (240 : Word).toNat ∧ (List.replicate 17 (0 : Word)).length ≠ 16
      ∧ listening.link.parser = .search
      ∧ ({ listening with link := { listening.link with parser := .gap, locked := true } } : State).link.parser
          = .gap := by decide

/-- The ends of the ranges of R104; WAIT and HOLD_GAP; locked or not, with notice places and without. -/
theorem witness_FrameOpenBetweenFrames :
    validOpen 1 16 ∧ validOpen 1024 1024 ∧ listening.link.ignoring = false ∧ listening.link.delineation = .aligned
      ∧ listening.osq.state = .wait ∧ listening.config.commit = .none ∧ holdGap.osq.state = .holdGap
      ∧ holdGap.config.commit = .none ∧ listening.link.locked = false ∧ listening.rtx.notices.length < 4
      ∧ 4 ≤ ({ listening with rtx := fullNotices } : State).rtx.notices.length
      ∧ ({ framed none with osq := powerOnSequencer } : State).link.locked = true := by
  refine ⟨by simp [validOpen], by simp [validOpen], ?_⟩; decide

/-- An open bound frame; one in the slot; the link locked, and in HOLD_FRAME unlocked. -/
theorem witness_FrameOpenDuringAFrame :
    validOpen 1 16 ∧ (framed none).link.ignoring = false ∧ (framed none).link.delineation = .aligned
      ∧ (framed none).osq.state = .frame ∧ (framed none).link.current.isSome = true ∧ (framed none).lines.waiting = none
      ∧ (framed none).lines.bound = some { frame := input500, highest := none, close := none }
      ∧ (framed none).link.locked = true
      ∧ (after .lossExpiry listening).osq.state = .holdFrame ∧ (after .lossExpiry listening).link.locked = false
      ∧ (after .lossExpiry listening).link.delineation = .aligned ∧ (after .lossExpiry listening).link.current = none
      ∧ ({ framed none with osq := { (framed none).osq with slot := some input500, skipAcc := 0xFFFF } } : State).osq.slot
          = some input500 := by
  refine ⟨by simp [validOpen], ?_⟩; decide

/-- A frame whose store is full, and one with the same line stored for the other entry. -/
def fullStore (entry : EntryRef) (number : Nat) : State :=
  { framed (some 3) with
    lines := { (framed (some 3)).lines with
               slots := List.replicate 32 { entry := entry, tag := 500, number := number, pixels := [] } } }

theorem witness_AnAcceptedLine :
    (framed (some 3)).link.ignoring = false ∧ (framed (some 3)).link.delineation = .aligned
      ∧ (framed (some 3)).link.parser = .inFrame
      ∧ (framed (some 3)).link.current = some { frame := input500, highest := some 3 } ∧ 3 < (4 : Word).toNat
      ∧ (239 : Word).toNat < input500.declared ∧ (List.replicate 16 (0 : Word)).length = input500.width
      ∧ (framed (some 3)).lines.receiving = some .bound ∧ (fullStore .bound 0).lines.receiving = some .bound
      ∧ (fullStore .bound 0).lines.slots.length = 32
      ∧ (∃ x ∈ (fullStore .waiting 4).lines.slots, x.entry ≠ .bound ∧ x.tag = 500 ∧ x.number = 4)
      ∧ ({ framed (some 3) with lines := emptyLines } : State).lines.bound = none
      ∧ ({ framed (some 3) with lines := emptyLines } : State).lines.waiting = none := by
  decide

theorem witness_FrameClose :
    listening.link.parser = .search ∧ (framed none).link.ignoring = false ∧ (framed none).link.delineation = .aligned
      ∧ (framed none).link.parser = .inFrame ∧ (framed none).link.current = some { frame := input500, highest := none }
      ∧ ([] : List Word).length ≠ 1 ∧ (framed none).lines.receiving = some .bound
      ∧ (framed none).lines.bound = some { frame := input500, highest := none, close := none } := by decide

/-- From WAIT locked and unlocked, with a request and without; in a frame, its input frame open; a full notice queue. -/
theorem witness_LossExpiry :
    listening.link.ignoring = false ∧ listening.link.lossTimer = some 100 ∧ listening.osq.state = .wait
      ∧ listening.link.locked = false ∧ listening.link.current = none
      ∧ lockedWait.link.ignoring = false ∧ lockedWait.link.lossTimer = some 100 ∧ lockedWait.osq.state = .wait
      ∧ lockedWait.link.locked = true ∧ lockedWait.rtx.notices.length < 4 ∧ lockedWait.config.commit = .none
      ∧ ({ lockedWait with config := (armed .armed).config } : State).config.commit ≠ .none
      ∧ 4 ≤ ({ lockedWait with rtx := fullNotices } : State).rtx.notices.length
      ∧ (framed none).link.lossTimer = some 100 ∧ (framed none).osq.state ≠ .wait ∧ (framed none).link.locked = true
      ∧ (framed none).link.current.isSome = true ∧ (framed none).lines.receiving = some .bound
      ∧ (framed none).lines.entry .bound = some { frame := input500, highest := none, close := none }
      ∧ holdGap.link.locked = false ∧ holdGap.osq.state ≠ .wait := by decide

/-- A stored line 3; line -1, line 4 of 4 and line 2, all missing; and, while the frame is open, line 240 - 1 awaited. -/
theorem witness_Queries :
    exampleLines.bound = some { frame := exampleInput, highest := some 3, close := none }
      ∧ (∃ x ∈ exampleLines.slots, x.entry = .bound ∧ (x.number : Int) = 3)
      ∧ (∀ x ∈ exampleLines.slots, ¬(x.entry = .bound ∧ (x.number : Int) = 2))
      ∧ exampleLines.query (-1) = .missing ∧ exampleLines.query 4 = .missing ∧ exampleLines.query 2 = .missing
      ∧ (framed (some 3)).lines.query 4 = .waiting ∧ (framed (some 3)).lines.query 239 = .waiting
      ∧ (framed (some 3)).lines.query 240 = .missing := by decide

theorem witness_AMissingAnswer :
    receiverMatches (framed (some 3)).link (framed (some 3)).lines = true
      ∧ (framed (some 3)).lines.bound.isSome = true ∧ (framed (some 3)).lines.query 2 = .missing := by decide

theorem witness_HoldoverTimer :
    holdGap.osq.holdTimer = .running 20 ∧ holdGap.osq.state = .holdGap
      ∧ (after .lossExpiry listening).osq.holdTimer = .running 20
      ∧ (after .lossExpiry listening).osq.state = .holdFrame := by decide

/-- A request between two holdover frames, tag 7 behind: due for the live geometry, for another, AT 8, AT 9. -/
def committing (p : ConfigSet) (commit : CommitState) (due : Due) : State :=
  { holdGap with config := { defaultConfig with pending := p, commit := commit, due := some due }, rtx := busyReverse }

theorem witness_ACommitTakesEffect :
    (committing defaultSet .armed .next).rtx.transmitter.isSome = true
      ∧ (committing defaultSet .armed .next).rtx.notices.length < 4
      ∧ (committing defaultSet .armed .next).config.pending.hOut = 480
      ∧ (committing defaultSet .armed .next).config.live.hOut = 480
      ∧ (((8 : Word)).toNat + 65536 - (8 : Word).toNat) % 65536 < 32768
      ∧ (committing exampleSet .announcing .next).config.commit = .announcing
      ∧ (committing exampleSet .armed (.at 8)).config.due = some (.at 8)
      ∧ (committing exampleSet .armed (.at 8)).config.pending.hOut
          ≠ (committing exampleSet .armed (.at 8)).config.live.hOut
      ∧ 32768 ≤ ((8 : Word).toNat + 65536 - (9 : Word).toNat) % 65536
      ∧ (committing defaultSet .armed (.at 9)).config.due = some (.at 9) := by decide

/-- Both frame starts, each with a request: a holdover frame with tag 8, and a frame bound to input frame 500. -/
theorem witness_ACommit_startsFrame :
    startsFrame (committing exampleSet .armed (.at 8)) .holdoverTimerExpiry 8
      ∧ startsFrame { lockedWait with config := (committing exampleSet .armed (.at 500)).config }
          (.frameOpen [500, 240, 16]) 500
      ∧ requestDue (committing exampleSet .armed (.at 8)) 8 ∧ requestDue (armed .armed) 500 :=
  ⟨.inl ⟨rfl, ⟨20, rfl⟩, rfl, rfl⟩,
   .inr ⟨240, 16, rfl, by simp [validOpen], rfl, rfl, rfl, .inl rfl⟩,
   .inr ⟨8, rfl, by decide⟩, .inl rfl⟩

/-- At a frame end: bound to the waiting input frame with tag 40, of a driven and of a dark frame; and the next holdover
frame, after a holdover frame whose timer has expired. -/
theorem witness_ACommit_startsNextFrame :
    startsNextFrame { withWaiting lastLine with config := (committing exampleSet .armed (.at 40)).config } .lineCompletion 40
      ∧ startsNextFrame (withWaiting lastDark) (.emissionBegin true) 40
      ∧ startsNextFrame { lastHoldover .expired with config := (committing exampleSet .armed (.at 8)).config }
          .lineCompletion 8 :=
  ⟨⟨_, _, ⟨rfl, .inl ⟨rfl, by decide, _, rfl, rfl⟩⟩, .inl ⟨_, rfl, rfl⟩⟩,
   ⟨_, _, ⟨rfl, .inr ⟨_, rfl, rfl, rfl, rfl, by decide, rfl⟩⟩, .inl ⟨_, rfl, rfl⟩⟩,
   ⟨_, _, ⟨rfl, .inl ⟨rfl, by decide, _, rfl, rfl⟩⟩, .inr ⟨rfl, rfl, rfl, .inr rfl⟩⟩⟩

theorem witness_ALineBegins :
    (driven 1).osq.record = some { boundRecord 2 1 with drive := true } ∧ (driven 1).osq.emission = none ∧ 1 < 2
      ∧ (driven 1).sourceResolved { boundRecord 2 1 with drive := true } 1 = true
      ∧ (framed none).sourceResolved (boundRecord 480 0) 0 = false ∧ lastLine.osq.emission ≠ none
      ∧ (driven 2).osq.record = some { boundRecord 2 2 with drive := true } := by decide

theorem witness_ALineCompletes :
    midFrame.osq.record = some { boundRecord 2 1 with drive := true }
      ∧ midFrame.osq.emission = some { line := 0, substituted := true } ∧ 1 < 2
      ∧ darkFrame.osq.record = some (boundRecord 2 0) ∧ darkFrame.osq.emission = none ∧ (boundRecord 2 0).drive = false
      ∧ 0 + 1 < 2 ∧ darkFrame.sourceResolved (boundRecord 2 0) 0 = true := by decide

/-- A bound frame's end and a holdover frame's, its timer running and expired, by the completion of a line; and the end
of a dark frame within EMISSION_BEGIN, its last line plain or, in a holdover frame, substituted. -/
theorem witness_AFrameEndDrains :
    endsFrame lastLine .lineCompletion (boundRecord 480 480) true
      ∧ endsFrame (lastHoldover (.running 20)) .lineCompletion holdoverRecord true
      ∧ endsFrame (lastHoldover .expired) .lineCompletion holdoverRecord true
      ∧ endsFrame lastDark (.emissionBegin false) { boundRecord 2 1 with outputOverride := .blank } false
      ∧ endsFrame lastDarkHoldover (.emissionBegin false) { holdoverRecord with nextLine := 479 } true :=
  ⟨⟨rfl, .inl ⟨rfl, by decide, _, rfl, rfl⟩⟩, ⟨rfl, .inl ⟨rfl, by decide, _, rfl, rfl⟩⟩,
   ⟨rfl, .inl ⟨rfl, by decide, _, rfl, rfl⟩⟩, ⟨rfl, .inr ⟨_, rfl, rfl, rfl, rfl, by decide, by decide⟩⟩,
   ⟨rfl, .inr ⟨_, rfl, rfl, rfl, rfl, by decide, by decide⟩⟩⟩

theorem witness_AFrameEndDrains_cases :
    (boundRecord 480 480).kind = .bound input500 ∧ lastLine.link.locked = true ∧ lastLine.mgt.reports = true
      ∧ lastLine.rtx.reports.length < 4 ∧ lastLine.pmem.array.wf = true
      ∧ lastLine.lines.bound = some { frame := input500, highest := none, close := none }
      ∧ ({ lastLine with rtx := { busyReverse with reports := [18, 19, 20].map someReport } } : State).rtx.reports.length
          = 3
      ∧ 4 ≤ ({ lastLine with rtx := { busyReverse with reports := [18, 19, 20, 21].map someReport } } :
          State).rtx.reports.length
      ∧ ({ lastLine with mgt := { powerOnManagement with reports := false } } : State).mgt.reports = false
      ∧ ({ lastLine with link := listening.link } : State).link.locked = false
      ∧ holdoverRecord.kind = .holdover ∧ (lastHoldover .expired).link.locked = false
      ∧ (lastHoldover .expired).osq.holdTimer = .expired ∧ (lastHoldover (.running 20)).osq.holdTimer = .running 20
      ∧ (lastHoldover .expired).mgt.reports = true ∧ (lastHoldover .expired).rtx.reports.length < 4
      ∧ (lastHoldover .expired).pmem.array.wf = true := by decide

/-- The other premises of a frame end: three reports and four; reports disabled; locked and not; a STALLED mover. -/
theorem witness_AFrameEndDrains_slot :
    lastLine.osq.slot = none ∧ (lastHoldover (.running 20)).osq.slot = none ∧ (lastHoldover .expired).osq.slot = none
      ∧ lastDark.osq.slot = none ∧ lastDarkHoldover.osq.slot = none ∧ lastDark.link.locked = true
      ∧ lastDarkHoldover.link.locked = false ∧ lastDark.pmem.array.wf = true ∧ lastDark.mover.state ≠ .stalled
      ∧ ({ lastLine with mover := stalledFill } : State).mover.state = .stalled := by decide

/-- After a bound frame; and after a holdover frame whose stored lines are all the waiting frame's. -/
theorem witness_AFrameEndBinds :
    (withWaiting lastLine).osq.slot = some exampleInput ∧ (withWaiting lastDark).osq.slot = some exampleInput
      ∧ (withWaiting (lastHoldover .expired)).osq.slot = some exampleInput
      ∧ (boundRecord 480 480).kind ≠ .holdover ∧ (withWaiting lastLine).mover.state = .stalled
      ∧ ({ withWaiting lastLine with rtx := { busyReverse with reports := [18, 19, 20, 21].map someReport } } :
          State).rtx.reports.length = 4
      ∧ ∀ x ∈ (fullStore .waiting 4).lines.slots, x.entry = .waiting := by decide

theorem witness_AFrameEndBinds_ends :
    endsFrame (withWaiting lastLine) .lineCompletion (boundRecord 480 480) true
      ∧ endsFrame (withWaiting lastDark) (.emissionBegin true) { boundRecord 2 1 with outputOverride := .blank } false
      ∧ endsFrame (withWaiting (lastHoldover .expired)) .lineCompletion holdoverRecord true :=
  ⟨⟨rfl, .inl ⟨rfl, by decide, _, rfl, rfl⟩⟩, ⟨rfl, .inr ⟨_, rfl, rfl, rfl, rfl, by decide, by decide⟩⟩,
   ⟨rfl, .inl ⟨rfl, by decide, _, rfl, rfl⟩⟩⟩

/-- What a STALLED fill of row 19 meets after a frame end: the guarded row 19, the guard off, another row, no frame. -/
theorem witness_AFrameEnd_stall :
    stallCondition (guarded true ⟨0, 0⟩ []).pmem stalledFill.op 3
      ∧ ¬stallCondition (guarded false ⟨0, 0⟩ []).pmem stalledFill.op 3
      ∧ ¬stallCondition (guarded true ⟨0, 0⟩ []).pmem stalledFill.op 4 ∧ ¬stallCondition listening.pmem stalledFill.op 3 := by
  refine ⟨⟨_, rfl, rfl, .inl (by decide)⟩, ?_, ?_, ?_⟩
  · rintro ⟨v, h, hg, -⟩; cases h; cases hg
  · rintro ⟨v, h, -, hr | ⟨hk, -⟩⟩
    · cases h; revert hr; decide
    · cases hk
  · rintro ⟨v, h, -⟩; cases h

theorem witness_Overrides :
    ({ exampleSet with outputOverride := .blank } : ConfigSet).outputOverride = .blank
      ∧ ({ exampleSet with outputOverride := .invert } : ConfigSet).outputOverride = .invert
      ∧ (ConfigSet.segmentAt { exampleSet with outputOverride := .invert } 5).isSome = true := by decide

/-- Line 0 (stored), line 1 (missing), and a MEMORY segment without an overlay at its last line. -/
theorem witness_BaseLines :
    exampleSet.outputOverride = .normal ∧ exampleSet.segmentAt 1 = some exampleLink ∧ exampleLink.overlay = none
      ∧ exampleLink.kind = .link
      ∧ exampleLines.query ((3 : Int) + ((1 : Int) - (0 : Int)) * exampleLink.step.toInt) = .missing
      ∧ (exampleLines.slots.map fun l => l.pixels.length) = [16] ∧ exampleSet.segmentAt 0 = some exampleLink
      ∧ (exampleLines.query ((3 : Int) + ((0 : Int) - (0 : Int)) * exampleLink.step.toInt) ≠ .missing)
      ∧ ConfigSet.segmentAt { exampleSet with segments := exampleSet.segments.set 1 { exampleMemory with overlay := none } } 4
          = some { exampleMemory with overlay := none }
      ∧ (101 : Int) = 100 + ((1 : Int) + ((4 : Int) - (2 : Int)) * exampleMemory.step.toInt) % 2 := by decide

/-- A FILL segment whose overlay reaches its last line. -/
def overlaidSet : ConfigSet :=
  { exampleSet with segments := exampleSet.segments.set 2 { exampleFill with overlay := some 5 }
                    overlays := exampleSet.overlays.set 5 (some { exampleOverlay with lineOffset := 0 }) }

theorem witness_Overlays :
    overlaidSet.outputOverride = .normal ∧ overlaidSet.segmentAt 5 = some { exampleFill with overlay := some 5 }
      ∧ overlaidSet.overlays[5]? = some (some { exampleOverlay with lineOffset := 0 })
      ∧ exampleOverlay.palette < 8 ∧ exampleSet.outputOverride = .normal ∧ exampleSet.wOut = overlaidSet.wOut
      ∧ exampleSet.palettes = overlaidSet.palettes ∧ exampleSet.lossColour = overlaidSet.lossColour
      ∧ exampleSet.segmentAt 5 = some { exampleFill with overlay := none }
      ∧ exampleFill.kind = .fill ∧ exampleFill.overlay = none := by decide

/-- The same over a MEMORY line and over a LINK line that shows the loss colour. -/
theorem witness_Overlays_other_kinds :
    exampleSet.segmentAt 3 = some exampleMemory ∧ exampleMemory.overlay = some 5 ∧ exampleMemory.kind = .memory
      ∧ ConfigSet.segmentAt { exampleSet with segments := exampleSet.segments.set 1 { exampleMemory with overlay := none } } 3
          = some { exampleMemory with overlay := none }
      ∧ ConfigSet.segmentAt { exampleSet with segments := exampleSet.segments.set 0 { exampleLink with overlay := some 5 } } 1
          = some { exampleLink with overlay := some 5 }
      ∧ exampleSet.segmentAt 1 = some { exampleLink with overlay := none }
      ∧ exampleLines.query (exampleLink.position 1) = .missing := by decide

/-- The ends of the ranges of R174, and the values next to them. -/
theorem witness_SetParam :
    (1 ≤ (1 : Word).toNat ∧ (1 : Word).toNat ≤ 255 ∧ 10 ≤ (10 : Word).toNat ∧ (10 : Word).toNat ≤ 255 ∧ (0 : Word).toNat ≤ 1)
      ∧ (1 ≤ (255 : Word).toNat ∧ (255 : Word).toNat ≤ 255 ∧ 10 ≤ (255 : Word).toNat ∧ (1 : Word).toNat ≤ 1)
      ∧ ¬(1 ≤ (256 : Word).toNat ∧ (256 : Word).toNat ≤ 255) ∧ ¬(10 ≤ (9 : Word).toNat) ∧ ¬((2 : Word).toNat ≤ 1) := by
  decide

theorem witness_EditsAreBusy :
    (armed .armed).config.commit ≠ .none ∧ (armed .announcing).config.commit ≠ .none
      ∧ (List.replicate 12 (0 : Word)).length = 12 ∧ (List.replicate 8 (0 : Word)).length = 8
      ∧ (List.replicate 13 (0 : Word)).length ≠ 12 ∧ (List.replicate 7 (0 : Word)).length ≠ 8
      ∧ (List.replicate 16 (0 : Word)).length ≤ 16 ∧ 16 < (List.replicate 17 (0 : Word)).length := by decide

theorem witness_SetGeometry :
    listening.config.commit = .none
      ∧ (1 ≤ (1024 : Word).toNat ∧ (1024 : Word).toNat ≤ 1024 ∧ 16 ≤ (16 : Word).toNat ∧ (16 : Word).toNat % 4 = 0)
      ∧ ¬((1025 : Word).toNat ≤ 1024) ∧ ¬((18 : Word).toNat % 4 = 0) ∧ ¬(1 ≤ (0 : Word).toNat) := by decide

theorem witness_MapLength :
    listening.config.commit = .none ∧ (32 : Word).toNat ≤ 32 ∧ 32 < (33 : Word).toNat
      ∧ (drafting { exampleSet with mapLength := 0 }).config.commit = .none
      ∧ (drafting { exampleSet with mapLength := 0 }).config.pending.mapLength = 0 := by decide

/-- Records in range, slots out of range, and records that are the words of no record in range. -/
theorem witness_Records :
    listening.config.commit = .none ∧ exampleLink.inRange = true ∧ exampleMemory.inRange = true
      ∧ exampleOverlay.inRange = true ∧ 31 < (32 : Word).toNat ∧ 15 < (16 : Word).toNat
      ∧ segmentOperand [0, 1, 3, 0, 0, 0, 1, 0, 0, 0, 0, 0x00FF] = none
      ∧ overlayOperand [0, 1, 0, 0, 6, 0, 0, 0] = none := by decide

/-- A kind code of 3 is the third word of no record. -/
theorem witness_Records_refused (g : Segment) : segmentWords g ≠ [0, 1, 3, 0, 0, 0, 1, 0, 0, 0, 0, 0x00FF] := by
  intro h
  have hk : kindWord g.kind = 3 := Option.some.inj (congrArg (fun l => l[2]?) h)
  revert hk
  cases g.kind <;> decide

/-- A span of 6 is no multiple of 4. -/
theorem witness_Records_overlay_refused (o : Overlay) (h : o.inRange = true) :
    overlayWords o ≠ [0, 1, 0, 0, 6, 0, 0, 0] := by
  intro hw
  have hs : (BitVec.ofNat 16 o.span : Word) = 6 := Option.some.inj (congrArg (fun l => l[4]?) hw)
  have hn : o.span % 65536 = 6 := by simpa using congrArg BitVec.toNat hs
  simp [Overlay.inRange, within] at h
  omega

theorem witness_PalWrite :
    listening.config.commit = .none ∧ ((7 : Word).toNat ≤ 7 ∧ (0 : Word).toNat + (List.replicate 16 (9 : Word)).length ≤ 16)
      ∧ 7 < (8 : Word).toNat ∧ 15 < (16 : Word).toNat
      ∧ (15 : Word).toNat ≤ 15 ∧ 16 < (15 : Word).toNat + (List.replicate 2 (9 : Word)).length := by decide

theorem witness_ColoursAndOutput :
    listening.config.commit = .none ∧ ((2 : Word).toNat ≤ 2 ∧ (1 : Word).toNat ≤ 1 ∧ (0 : Word).toNat ≤ 1)
      ∧ ¬((3 : Word).toNat ≤ 2) ∧ ¬((2 : Word).toNat ≤ 1) := by decide

theorem witness_CopyLiveToPending : (drafting exampleSet).config.commit = .none := by decide

theorem witness_ReadConfig :
    (1 : Word) = (if true then 1 else 0) ∧ (0 : Word) = (if false then 1 else 0) ∧ 1 < (2 : Word).toNat
      ∧ 7 < (8 : Word).toNat ∧ 31 < (32 : Word).toNat ∧ 15 < (16 : Word).toNat := by decide

theorem witness_Commit :
    (armed .armed).config.commit ≠ .none ∧ (drafting exampleSet).config.commit = .none ∧ (0 : Word) ≠ 1 ∧ (3 : Word) ≠ 2
      ∧ validate (drafting (draft 230 none 3)).config.pending = some (.window, 2)
      ∧ (armed .armed).config.commit = .armed ∧ (armed .announcing).config.commit = .announcing := by decide

theorem witness_Commit_passes : passesR46 (drafting defaultSet).config.pending := by
  have h : (drafting defaultSet).config.pending.list = [defaultFirstSegment] := by decide
  unfold passesR46
  rw [h]
  simp [defaultFirstSegment]
  decide

theorem witness_TheFirstValidationFailure :
    validate (draft 230 none 3) = some (.window, 2) ∧ validate (draft 200 none 3) = some (.overlayRef, 2)
      ∧ validate (draft 200 (some (draftOverlay 250)) 3) = some (.height, 2)
      ∧ validate (draft 200 (some (draftOverlay 250)) 4) = some (.overlayFit, 3)
      ∧ validate { exampleSet with mapLength := 0 } = some (.emptyMap, 0)
      ∧ validate { exampleSet with segments := exampleSet.segments.set 1 { exampleMemory with first := 3 } }
          = some (.tiling, 1) := by decide

theorem witness_MemAddress :
    (guarded true ⟨0, 0⟩ []).pmem.patch = none
      ∧ ({ listening with pmem := { powerOnPictureMemory with patch := some ⟨0, 0⟩ } } : State).pmem.patch ≠ none
      ∧ 255 < (256 : Word).toNat ∧ (255 : Word).toNat = (⟨255, 255⟩ : Addr).row.toNat
      ∧ (guarded true ⟨0, 0⟩ [⟨⟨17, 1⟩, 3⟩]).pmem.deferred = [] ++ ⟨⟨17, 1⟩, 3⟩ :: [] := by decide

theorem witness_MemWrite :
    1 ≤ (List.replicate 64 (5 : Word)).length ∧ (List.replicate 64 (5 : Word)).length ≤ 64
      ∧ listening.mover.state = .idle ∧ listening.pmem.view = none ∧ listening.pmem.array.wf = true
      ∧ onward listening.pmem.cursor 0 = listening.pmem.holder.addr
      ∧ onward ⟨255, 255⟩ 1 = listening.pmem.holder.addr
      ∧ ∀ k, k < 2 → onward ⟨255, 254⟩ k ≠ listening.pmem.holder.addr := by decide

/-- The last place of the queue, the full queue, the guard off, and a row outside the set. -/
theorem witness_TheTearGuard :
    (guarded true ⟨17, 0⟩ []).mover.state = .idle
      ∧ (guarded true ⟨17, 0⟩ (List.replicate 63 ⟨⟨17, 1⟩, 0⟩)).pmem.deferred.length < 64
      ∧ 64 ≤ (guarded true ⟨17, 0⟩ (List.replicate 64 ⟨⟨17, 1⟩, 0⟩)).pmem.deferred.length
      ∧ (guarded true ⟨17, 0⟩ []).pmem.view = some { rowSet := [16, 17, 18, 19, 100], guard := true, torn := false }
      ∧ (guarded false ⟨17, 0⟩ []).pmem.view = some { rowSet := [16, 17, 18, 19, 100], guard := false, torn := false }
      ∧ (17 : Nat) ∈ [16, 17, 18, 19, 100] ∧ (20 : Nat) ∉ [16, 17, 18, 19, 100] := by decide

/-- Two words that take the last two places and a third that meets FULL; and a word before the rectangle of a fill whose
next one is protected. -/
def nearlyFull : State := guarded true ⟨100, 0⟩ (List.replicate 62 ⟨⟨17, 10⟩, 0⟩)
def besideFill : State :=
  { listening with mover := filling 20 0, pmem := { powerOnPictureMemory with cursor := ⟨15, 255⟩ } }

theorem witness_TheTearGuard_partway :
    exec (.memWrite [1, 2]) nearlyFull
        = .next (recorded { nearlyFull with pmem := (after (.memWrite [1, 2]) nearlyFull).pmem } (ok [2]))
      ∧ exec (.memWrite [3]) { nearlyFull with pmem := (after (.memWrite [1, 2]) nearlyFull).pmem }
          = .next (recorded { nearlyFull with pmem := (after (.memWrite [1, 2]) nearlyFull).pmem }
              { status := .full, data := [0] })
      ∧ exec (.memWrite [1]) besideFill
          = .next (recorded { besideFill with pmem := (after (.memWrite [1]) besideFill).pmem } (ok [1])) :=
  ⟨rfl, rfl, rfl⟩

theorem witness_TheTearGuard_stops :
    (after (.memWrite [1, 2]) nearlyFull).pmem.view
        = some { rowSet := [16, 17, 18, 19, 100], guard := true, torn := false }
      ∧ (after (.memWrite [1, 2]) nearlyFull).pmem.cursor.row.toNat ∈ [16, 17, 18, 19, 100]
      ∧ 64 ≤ (after (.memWrite [1, 2]) nearlyFull).pmem.deferred.length
      ∧ ¬protectedWord nearlyFull.mover (after (.memWrite [1, 2]) nearlyFull).pmem.cursor
      ∧ protectedWord besideFill.mover (after (.memWrite [1]) besideFill).pmem.cursor := by
  unfold protectedWord insideRectangle; decide

theorem witness_MemRead :
    1 ≤ (64 : Word).toNat ∧ (64 : Word).toNat ≤ 64 ∧ listening.mover.state = .idle
      ∧ ({ listening with mgt := { powerOnManagement with readTotal := 192 } } : State).mgt.readTotal + (64 : Word).toNat
          ≤ 256 := by decide

theorem witness_MemoryCommandsStop :
    (0 : Word).toNat = 0 ∧ 64 < (65 : Word).toNat
      ∧ 256 < ({ listening with mgt := { powerOnManagement with readTotal := 193 } } : State).mgt.readTotal
          + (64 : Word).toNat
      ∧ ({ listening with mgt := { powerOnManagement with readTotal := 255 } } : State).mgt.readTotal < 256
      ∧ listening.pmem.view = none ∧ (List.replicate 63 (0 : Word)).length ≤ 63 := by decide

/-- The first and the last word of the rectangle, the word past its last row, and the one past its last column. -/
theorem witness_MemoryCommandsStop_rectangle :
    protectedWord (filling 20 0) ⟨16, 0⟩ ∧ protectedWord (filling 20 0) ⟨35, 79⟩ ∧ ¬protectedWord (filling 20 0) ⟨36, 0⟩
      ∧ ¬protectedWord (filling 20 0) ⟨16, 80⟩ := by
  unfold protectedWord insideRectangle; decide

theorem witness_PatchMode :
    listening.pmem.patch = none
      ∧ ({ listening with pmem := { powerOnPictureMemory with patch := some ⟨3, 4⟩ } } : State).pmem.patch
          = some ⟨3, 4⟩ := by decide

theorem witness_TheHostReadsBack :
    (guarded true ⟨0, 0⟩ (List.replicate 63 ⟨⟨17, 1⟩, 0⟩)).pmem.patch = none
      ∧ (guarded true ⟨0, 0⟩ []).mover.state = .idle
      ∧ (guarded true ⟨0, 0⟩ (List.replicate 63 ⟨⟨17, 1⟩, 0⟩)).pmem.deferred.length < 64
      ∧ ({ listening with mgt := { powerOnManagement with readTotal := 255 } } : State).mgt.readTotal < 256
      ∧ (guarded true ⟨0, 0⟩ []).pmem.array.wf = true
      ∧ (guarded true ⟨0, 0⟩ (List.replicate 63 ⟨⟨17, 1⟩, 0⟩)).pmem.deferredOk = true := by decide

/-- Rectangles that end at the last row and column, and one row too many. -/
theorem witness_MoveCommands :
    ({ listening with mover := filling 20 0 } : State).mover.state ≠ .idle ∧ listening.mover.state = .idle
      ∧ listening.pmem.view = none
      ∧ ¬(255 < (255 : Word).toNat ∨ (1 : Word).toNat = 0 ∨ 256 < (255 : Word).toNat + (1 : Word).toNat)
      ∧ 256 < (255 : Word).toNat + (2 : Word).toNat
      ∧ ({ listening with rtx := busyReverse } : State).rtx.transmitter.isSome = true
      ∧ ({ listening with rtx := busyReverse } : State).rtx.notices.length < 4
      ∧ listening.rtx.transmitter = none ∧ listening.rtx.notices = [] ∧ listening.rtx.replies = []
      ∧ listening.rtx.reports = [] ∧ 4 ≤ ({ listening with rtx := fullNotices } : State).rtx.notices.length
      ∧ (guarded true ⟨0, 0⟩ []).mover.state = .idle := by decide

/-- A copy whose last source row, the first it steps, has a deferred word; the same copy while that row has none. -/
def descendingCopy : MoveOp :=
  { kind := .copy, dstRow := 30, dstCol := 0, srcRow := 16, srcCol := 0, rows := 3, words := 4, value := 0,
    direction := .descending, rowsDone := 0, stepRow := none }

theorem witness_MoveCommands_stall :
    stallCondition (guarded true ⟨0, 0⟩ [⟨⟨18, 1⟩, 0⟩]).pmem descendingCopy 2
      ∧ ¬stallCondition (guarded true ⟨0, 0⟩ [⟨⟨17, 1⟩, 0⟩]).pmem descendingCopy 2 := by
  refine ⟨⟨_, rfl, rfl, .inr ⟨rfl, _, .head _, rfl⟩⟩, ?_⟩
  rintro ⟨v, h, -, hr | ⟨-, hd⟩⟩
  · cases h; revert hr; decide
  · revert hd; decide

/-- The last step of a fill, a step with more to follow, a row of the set with the guard off and with it on, a row
outside the set, and a copy whose source row waits. -/
theorem witness_ARowStep :
    (filling 20 19).state = .running ∧ (filling 20 19).op.stepRow = some 19 ∧ (filling 20 19).consistent = true
      ∧ listening.pmem.array.wf = true ∧ (filling 20 19).op.stalls listening.pmem 19 = false
      ∧ (filling 20 3).op.stalls (guarded false ⟨0, 0⟩ []).pmem 3 = false
      ∧ (guarded false ⟨0, 0⟩ []).pmem.view = some { rowSet := [16, 17, 18, 19, 100], guard := false, torn := false }
      ∧ (filling 20 19).op.stalls (guarded true ⟨0, 0⟩ []).pmem 19 = false
      ∧ (filling 20 19).op.dstRow + 19 ∉ [16, 17, 18, 19, 100]
      ∧ (filling 20 19).op.rowsDone + 1 = (filling 20 19).op.rows ∧ (filling 20 3).op.rowsDone + 1 ≠ (filling 20 3).op.rows
      ∧ (filling 20 3).op.dstRow + 3 ∈ [16, 17, 18, 19, 100]
      ∧ ∃ d ∈ (guarded true ⟨0, 0⟩ [⟨⟨17, 1⟩, 0⟩]).pmem.deferred, d.addr.row.toNat = 17 := by decide

theorem witness_ACopy :
    listening.mover.state = .idle ∧ listening.pmem.view = none ∧ listening.pmem.array.wf = true
      ∧ rectangleFits (10 : Word).toNat (0 : Word).toNat (246 : Word).toNat (256 : Word).toNat = true
      ∧ rectangleFits (0 : Word).toNat (0 : Word).toNat (246 : Word).toNat (256 : Word).toNat = true := by decide

/-- One packet waiting behind three places, four packets waiting, and payloads that are no control packet. -/
theorem witness_ControlPacketsJoin :
    (queued (nopPacket 5)).link.ignoring = false ∧ (queued (nopPacket 5)).link.delineation = .aligned
      ∧ parseControl [0, 1, 0] = some (nopPacket 0) ∧ (∀ q ∈ (queued (nopPacket 5)).mgt.queue, q.seq ≠ 0)
      ∧ (nopPacket 0).seq = (queued (nopPacket 5)).mgt.expected ∧ 1 ≤ (queued (nopPacket 5)).mgt.queue.length
      ∧ (queued (nopPacket 5)).mgt.queue.length < 4
      ∧ 4 ≤ ({ listening with mgt := { powerOnManagement with queue := [5, 6, 7, 8].map nopPacket } } :
          State).mgt.queue.length
      ∧ parseControl [0, 0] = none ∧ parseControl [0, 17, 0] = none ∧ parseControl [0] = none
      ∧ parseControl [0, 1, 1] = none
      ∧ parseControl [0x8000, 1, 0] = some { nopPacket 0 with sync := true } := by decide

/-- 10.4, R202: a CONTROL payload written out from the layout, a COMMIT(NEXT) after a NOP with SYNC set. -/
theorem witness_ControlPacketsJoin_layout :
    [0x8005, 2, 0x0000, 0x1A02, 1, 0]
        = controlWords 0x8005 [{ code := 0, operands := [] }, { code := 0x1A, operands := [1, 0] }]
      ∧ parseControl [0x8005, 2, 0x0000, 0x1A02, 1, 0]
          = some { seq := 5, sync := true
                   entries := [{ code := 0, operands := [] }, { code := 0x1A, operands := [1, 0] }] } := by decide

/-- E is 41: packets 41 - 8 (answered or not), 42 (out of order); a full reply queue; packet 5 queued. -/
theorem witness_OldPackets :
    listening.link.ignoring = false ∧ listening.link.delineation = .aligned
      ∧ parseControl [33, 1, 0] = some (nopPacket 33) ∧ parseControl [42, 1, 0] = some (nopPacket 42)
      ∧ (nopPacket 33).sync = false ∧ (∀ q ∈ listening.mgt.queue, q.seq ≠ 33) ∧ (33 : Seq) ≠ 41
      ∧ ((41 : Seq) - 33).toNat ≤ 8 ∧ 8 < ((41 : Seq) - 42).toNat ∧ 8 < ((41 : Seq) - 32).toNat
      ∧ ([blankReply 33].find? fun h => h.seq == 33) = some (blankReply 33)
      ∧ (∀ h ∈ [blankReply 34], h.seq ≠ 33) ∧ listening.rtx.replies.length < 8
      ∧ 8 ≤ ({ busyReverse with replies := List.replicate 8 (blankReply 40) } : ReverseTransmitter).replies.length
      ∧ parseControl [5, 1, 0] = some (nopPacket 5) ∧ ∃ q ∈ (queued (nopPacket 5)).mgt.queue, q.seq = 5 := by decide

theorem witness_AnExecution :
    (queued (nopPacket 5)).mgt.queue = [nopPacket 5] ∧ (queued (nopPacket 5)).rtx.replies.length < 8
      ∧ ({ powerOnReverse with replies := List.replicate 7 (blankReply 40) } : ReverseTransmitter).replies.length = 7
      ∧ ({ listening with mgt := { powerOnManagement with queue := [5, 6].map nopPacket } } : State).mgt.queue
          = nopPacket 5 :: [nopPacket 6]
      ∧ (∀ e ∈ (nopPacket 5).entries, entryRow e ≠ some .softReset)
      ∧ listening.link.ignoring = false ∧ listening.link.delineation = .aligned
      ∧ parseControl [0, 1, 0] = some (nopPacket 0) ∧ listening.mgt.queue = []
      ∧ (nopPacket 0).seq = listening.mgt.expected := by decide

/-- A packet of NOP, PATCH_END outside patch mode and a NOP that is not run; and the two packets of one command that
act beyond their own block. -/
def entries3 : List CommandEntry := [⟨0x00, []⟩, ⟨0x24, []⟩, ⟨0x00, []⟩]

theorem witness_AnExecution_rows :
    entries3 = [⟨0x00, []⟩, ⟨0x24, []⟩] ++ [⟨0x00, []⟩]
      ∧ [(⟨0x00, []⟩ : CommandEntry), ⟨0x24, []⟩].map entryRow = [.nop, .patchEnd].map some
      ∧ Instr.softReset ∉ [Instr.nop, .patchEnd] ∧ Instr.moveAbort ∉ [Instr.nop, .patchEnd]
      ∧ ((rowsAfter (executionStart (queued { nopPacket 5 with entries := entries3 })) [.nop, .patchEnd]).map
          fun u => u.mgt.results) = some [⟨.ok, []⟩, ⟨.mode, []⟩]
      ∧ entryRow ⟨0x32, []⟩ = some .moveAbort ∧ entryRow ⟨0x05, []⟩ = some .softReset
      ∧ entryRow ⟨0x12, List.replicate 13 1⟩ = some (.segWrite 1 (List.replicate 12 1))
      ∧ entryRow ⟨0x12, List.replicate 12 1⟩ = none := by decide

/-- An unknown code, and a NOP with an operand, before another NOP. -/
def badEntry (code : BitVec 8) : CommandEntry := { code := code, operands := [1] }

theorem witness_AFailedCheck :
    (queued { nopPacket 5 with entries := [badEntry 0x40, badEntry 0] }).mgt.queue
        = [{ nopPacket 5 with entries := [badEntry 0x40, badEntry 0] }]
      ∧ commandOfCode (badEntry 0x40).code = none ∧ commandOfCode (badEntry 0).code = some .nop
      ∧ countAllowed .nop (badEntry 0).operands.length = false ∧ busyReverse.replies.length < 8
      ∧ busyReverse.transmitter.isSome = true := by decide

theorem witness_NoReplyExceeds575 :
    parseControl [5, 1, 0] = some (nopPacket 5) ∧ (queued (nopPacket 5)).mgt.queue = [nopPacket 5]
      ∧ (queued (nopPacket 5)).rtx.replies.length < 8 := by decide

/-- A reply sent with a reply and reports behind it; a packet without a queue, nothing behind it; and, of a full reply
queue, the oldest sent while one packet waits, and while two do. -/
theorem witness_ACompletion :
    busyReverse.transmitter = some { packet := .reply (blankReply 40), queue := some .reply }
      ∧ ({ listening with rtx := busyReverse } : State).mgt.queue = []
      ∧ ({ powerOnReverse with transmitter := some { packet := .reply (blankReply 40), queue := none } } :
          ReverseTransmitter).transmitter = some { packet := .reply (blankReply 40), queue := none }
      ∧ waitingPacket.rtx.transmitter = some { packet := .reply (blankReply 40), queue := some .reply }
      ∧ waitingPacket.mgt.queue = nopPacket 5 :: [] ∧ waitingPacket.rtx.replies.length = 8
      ∧ ({ waitingPacket with mgt := { powerOnManagement with queue := [5, 6].map nopPacket } } : State).mgt.queue
          = nopPacket 5 :: [nopPacket 6] := by decide

theorem witness_FramedPackets :
    ([] : List Word).length ≤ 1100 ∧ (0x1D0E : Word) ≠ 0x1D0F ∧ (0xA5C2 : Word) ≠ 0xA5C3 := by decide

set_option maxRecDepth 20000 in
/-- The headers that fail beyond word 0: a wrong check word, and a length of 1101 whose check word is right. -/
theorem witness_FramedPackets_headers :
    crc [0xA5C3, 0x1801] ≠ crc [0xA5C3, 0x1802] ∧ 1100 < (headerWord 0x01 1101).toNat % 2048
      ∧ ¬(1100 < (headerWord 0x01 1100).toNat % 2048) := by decide

theorem witness_FramedPackets_longest : (List.replicate 1100 (0 : Word)).length ≤ 1100 := by
  rw [List.length_replicate]

theorem witness_ValidSets :
    validate exampleSet = none ∧ (∀ g ∈ exampleSet.list, 1 ≤ g.count) ∧ 5 < exampleSet.hOut := by decide

/-- A step that answers a next state, from good states of each kind. -/
theorem witness_StepsKeepEachBlock :
    step { listening with pending := [.nop] } = .next (after .nop listening)
      ∧ listening.link.consistent = true ∧ listening.osq.consistent = true ∧ listening.config.inRange = true
      ∧ listening.config.validated = true ∧ listening.config.dueConsistent = true ∧ listening.mover.consistent = true
      ∧ ({ listening with mover := filling 20 3 } : State).mover.consistent = true
      ∧ listening.pmem.array.wf = true := by
  refine ⟨rfl, ?_⟩; decide

theorem witness_StepsKeepTheQueues :
    listening.mgt.queuesOk = true ∧ listening.rtx.withinPlaces = true ∧ listening.rtx.laneServed = true
      ∧ headWaits listening.mgt listening.rtx = true ∧ busyReverse.withinPlaces = true
      ∧ busyReverse.laneServed = true := by decide

/-- A good state in which a command waits. -/
theorem witness_StepsKeepEveryRelation :
    ({ State.reset with pending := [.initialisationComplete] } : State).good = true := by decide

/-- A transfer changes the live set at a holdover frame start, and at the end of a bound frame. -/
theorem witness_TheLiveSetChanges :
    (committing exampleSet .announcing .next).osq.consistent = true
      ∧ (after .holdoverTimerExpiry (committing exampleSet .announcing .next)).config.live
          ≠ (committing exampleSet .announcing .next).config.live
      ∧ (withWaiting lastLine).osq.consistent = true
      ∧ (after .lineCompletion
          { withWaiting lastLine with config := (committing exampleSet .announcing .next).config }).config.live
          ≠ (committing exampleSet .announcing .next).config.live := by decide

theorem witness_TheTearGuardKeeps :
    (guarded true ⟨17, 0⟩ []).pmem.view = some { rowSet := [16, 17, 18, 19, 100], guard := true, torn := false }
      ∧ (guarded true ⟨17, 0⟩ []).pmem.array.wf = true ∧ (guarded true ⟨17, 0⟩ []).mover.consistent = true
      ∧ (after (.memWrite [1]) (guarded true ⟨17, 0⟩ [])).pmem.view ≠ none := by decide

end Sys2Proof.Tests
end

