-- ==== Sys2Proof/Proofs/BlockOperations.lean ====
section
/-! PROOFS. What each owner's operations keep of its own block's relations. -/

namespace Sys2Proof.Machine

/-! ## Picture memory -/

/-- Picture memory keeps its relations from `p` to `p'`: the array's canonical form, the view's agreement with the
sequencer and the live set, the deferred-write queue's places and rows, and the guard (R131-R135). -/
structure PictureMemory.Keeps (p p' : PictureMemory) : Prop where
  array : p.array.wf = true → p'.array.wf = true
  view : ∀ q c, viewMatches q c p' = viewMatches q c p
  deferred : p.deferredOk = true → p'.deferredOk = true
  guard : p.guardHolds = true → p'.guardHolds = true

/-- The cursor, the holder and patch mode take part in no relation. -/
theorem PictureMemory.keeps_of_eq {p p' : PictureMemory} (array : p'.array = p.array) (view : p'.view = p.view)
    (deferred : p'.deferred = p.deferred) : p.Keeps p' where
  array := by rw [array]; exact id
  view q c := by simp only [viewMatches, view]
  deferred := by simp only [deferredOk, view, deferred]; exact id
  guard := by simp only [guardHolds, view]; exact id

theorem PictureMemory.Keeps.trans {p p' p'' : PictureMemory} (h : p.Keeps p') (h' : p'.Keeps p'') : p.Keeps p'' where
  array := h'.array ∘ h.array
  view q c := (h'.view q c).trans (h.view q c)
  deferred := h'.deferred ∘ h.deferred
  guard := h'.guard ∘ h.guard

/-! A tear changes the torn flag of an unguarded view alone (R134). -/

theorem PictureMemory.tear_view_eq (p : PictureMemory) (row : Nat) :
    (p.tear row).view = p.view
      ∨ ∃ v, p.view = some v ∧ v.guard = false ∧ (p.tear row).view = some { v with torn := true } := by
  cases h : p.view with
  | none => exact .inl (by simp [tear, h])
  | some v =>
    by_cases hc : (!v.guard && v.rowSet.contains row) = true
    · refine .inr ⟨v, rfl, ?_, by simp only [tear, h, Option.map_some, if_pos hc]⟩
      simpa using (Bool.and_eq_true_iff.1 hc).1
    · exact .inl (by simp only [tear, h, Option.map_some, if_neg hc])

theorem PictureMemory.tear_keeps (p : PictureMemory) (row : Nat) : p.Keeps (p.tear row) := by
  obtain h | ⟨v, hv, hg, h⟩ := p.tear_view_eq row
  · exact keeps_of_eq rfl h rfl
  · exact
      { array := id
        view := fun q c => by cases hq : q.record <;> simp only [viewMatches, hq, h, hv]
        deferred := by simp only [deferredOk, h, hv, tear_deferred, Option.any_some]; exact id
        guard := by simp [guardHolds, h, hg] }

/-- A row step's and a word's write: a new array in canonical form, then the tear (R134, R148). -/
theorem PictureMemory.tear_write_keeps (p : PictureMemory) {array : Memory} (row : Nat)
    (h : p.array.wf = true → array.wf = true) : p.Keeps (PictureMemory.tear { p with array := array } row) :=
  have written : p.Keeps { p with array := array } :=
    { array := h, view := fun _ _ => rfl, deferred := id, guard := id }
  written.trans (tear_keeps _ row)

/-- A deferral into a queue with a place, at a row that the tear guard protects (R133, R135). -/
theorem PictureMemory.defer_keeps {p : PictureMemory} {a : Addr} (w : Word) (h : p.defers a = true)
    (room : p.deferred.length < 64) : p.Keeps { p with deferred := p.deferred ++ [{ addr := a, value := w }] } where
  array := id
  view _ _ := rfl
  deferred hd := by
    simp only [deferredOk, Config.deferredEntries, Bool.and_eq_true, List.all_append] at hd ⊢
    refine ⟨by simpa using room, hd.2, ?_⟩
    simpa [defers] using h
  guard := id

theorem PictureMemory.writeWord_keeps {p p' : PictureMemory} {m : Mover} {w : Word} (h : p.writeWord m w = .ok p') :
    p.Keeps p' := by
  obtain ⟨-, room, rfl⟩ := writeWord_ok h
  have placed : p.Keeps (p.place w) := by
    obtain ⟨hd, hp⟩ | ⟨-, hp⟩ := p.place_cases w <;> rw [hp]
    · exact defer_keeps w hd (room hd)
    · exact tear_write_keeps p _ fun h => Memory.write_wf h p.cursor.key_lt
  exact placed.trans (keeps_of_eq (by simp) (by simp) (by simp))

theorem PictureMemory.memWrite_keeps (p : PictureMemory) (m : Mover) (words : List Word) :
    p.Keeps (p.memWrite m words).1 :=
  writeWords_induct (P := p.Keeps) (fun _ _ _ h hw => h.trans (writeWord_keeps hw)) words 0 p (keeps_of_eq rfl rfl rfl)

theorem PictureMemory.readWords_keeps (p : PictureMemory) (m : Mover) (n : Nat) (got : List Word) :
    p.Keeps (PictureMemory.readWords m n got p).1 := by
  obtain ⟨cursor, holder, h⟩ := readWords_frame m n got p
  rw [h]
  exact keeps_of_eq rfl rfl rfl

theorem PictureMemory.memAddress_keeps (p : PictureMemory) (row col : Word) : p.Keeps (p.memAddress row col).1 := by
  unfold memAddress
  split_ifs <;> exact keeps_of_eq rfl rfl rfl

theorem PictureMemory.patchBegin_keeps (p : PictureMemory) : p.Keeps p.patchBegin.1 := by
  unfold patchBegin
  split_ifs <;> exact keeps_of_eq rfl rfl rfl

theorem PictureMemory.patchEnd_keeps (p : PictureMemory) : p.Keeps p.patchEnd.1 := by
  unfold patchEnd
  split <;> exact keeps_of_eq rfl rfl rfl

/-! ## The memory mover -/

/-- The operation is one that fits and has rows left: what R142 asks of an operation in flight. -/
def MoveOp.InFlight (o : MoveOp) : Prop :=
  o.rowsDone < o.rows ∧ rectangleFits o.dstRow o.dstCol o.rows o.words = true
    ∧ (o.kind = .fill ∨ rectangleFits o.srcRow o.srcCol o.rows o.words = true)

theorem Mover.consistent_running {m : Mover} (h : m.state = .running) :
    m.consistent = true ↔ m.op.stepRow = some m.op.nextOffset ∧ m.op.InFlight := by
  simp [consistent, h, MoveOp.InFlight, and_assoc]

theorem Mover.consistent_stalled {m : Mover} (h : m.state = .stalled) :
    m.consistent = true ↔ m.op.stepRow = none ∧ m.op.InFlight := by
  simp [consistent, h, MoveOp.InFlight, and_assoc]

theorem Mover.stall_consistent {o : MoveOp} (h : o.InFlight) :
    Mover.consistent { state := .stalled, op := { o with stepRow := none } } = true :=
  (consistent_stalled rfl).2 ⟨rfl, h⟩

/-- The decision about the next step leaves a consistent mover: the step begins at the next offset, or stalls
(R145, R150). -/
theorem Mover.decideStep_consistent {m : Mover} (p : PictureMemory) (h : m.op.InFlight) :
    (m.decideStep p).consistent = true := by
  unfold decideStep
  split
  · exact stall_consistent h
  · exact (consistent_running rfl).2 ⟨rfl, h⟩

theorem Mover.resume_consistent {m : Mover} (p : PictureMemory) (h : m.consistent = true) :
    (m.resume p).consistent = true := by
  unfold resume
  split
  · next hs => exact decideStep_consistent p ((consistent_stalled hs).1 h).2
  · exact h

theorem rectangleFits_iff {row col rows words : Nat} :
    rectangleFits row col rows words = true
      ↔ row ≤ 255 ∧ col ≤ 255 ∧ 1 ≤ rows ∧ 1 ≤ words ∧ row + rows ≤ 256 ∧ col + words ≤ 256 :=
  decide_eq_true_iff

/-- An accepted operation has its rectangles in the array and a first row to step (R143-R145). -/
theorem startMove_consistent {kind : MoveKind} {srcRow srcCol dstRow dstCol rows words : Nat} {value : Word}
    (p : PictureMemory) (dst : rectangleFits dstRow dstCol rows words = true)
    (src : kind = .fill ∨ rectangleFits srcRow srcCol rows words = true) :
    (startMove kind srcRow srcCol dstRow dstCol rows words value p).consistent = true := by
  obtain ⟨-, -, hrows, -⟩ := rectangleFits_iff.1 dst
  exact Mover.decideStep_consistent p ⟨hrows, dst, src⟩

theorem MoveOp.nextOffset_lt {o : MoveOp} (h : o.InFlight) : o.nextOffset < o.rows := by
  have := h.1
  unfold nextOffset
  split <;> omega

/-- A row step writes inside the array, so it keeps the canonical form (R143, R144, R148). -/
theorem MoveOp.applyStep_wf {o : MoveOp} {array : Memory} {i : Nat} (h : o.InFlight) (hi : i < o.rows)
    (wf : array.wf = true) : (o.applyStep array i).wf = true := by
  obtain ⟨-, dst, -⟩ := h
  obtain ⟨-, -, -, -, hrow, hcol⟩ := rectangleFits_iff.1 dst
  refine (Memory.writeSpan_spec wf ?_).1
  simp only [stepWords_length, wordKey]
  omega

/-! ## The configuration store -/

/-- The relations of the configuration store: items in range, the live set valid, the pending set valid while a request
waits, and a due condition exactly then (R29, R4, R31, R44). -/
def ConfigStore.Sound (c : ConfigStore) : Prop :=
  c.inRange = true ∧ c.validated = true ∧ c.dueConsistent = true

/-- The same, item by item. -/
theorem ConfigStore.sound_iff {c : ConfigStore} :
    c.Sound ↔ c.pending.inRange = true ∧ c.live.inRange = true ∧ validate c.live = none
      ∧ (c.commit ≠ .none → validate c.pending = none) ∧ (c.due.isSome = true ↔ c.commit ≠ .none) := by
  unfold Sound inRange validated dueConsistent
  cases c.commit <;> cases c.due <;> simp [and_assoc]

/-- A command's effect on the configuration store: the live set and the generation stay, and the store stays sound. -/
structure ConfigStore.Edited (c c' : ConfigStore) : Prop where
  live : c'.live = c.live
  generation : c'.generation = c.generation
  sound : c.Sound → c'.Sound

theorem ConfigStore.Edited.refl (c : ConfigStore) : c.Edited c := ⟨rfl, rfl, id⟩

/-- An edit is sound when its change keeps the pending set's items in range (R29, R31). -/
theorem ConfigStore.edit_edited {c : ConfigStore} {change : ConfigSet → Except Status ConfigSet}
    (h : ∀ set, c.Sound → change c.pending = .ok set → set.inRange = true) : c.Edited (c.edit change).1 := by
  obtain ⟨status, he⟩ | ⟨set, hn, hc, he⟩ := c.edit_cases change <;> rw [he]
  · exact .refl c
  · refine ⟨rfl, rfl, fun hs => sound_iff.2 ?_⟩
    obtain ⟨-, hl, hv, -, hd⟩ := sound_iff.1 hs
    exact ⟨h set hs hc, hl, hv, fun hn' => absurd hn hn', hd⟩

/-- The ranges of a set's items (R29). -/
theorem ConfigSet.inRange_iff {p : ConfigSet} :
    p.inRange = true ↔ (1 ≤ p.hOut ∧ p.hOut ≤ 1024) ∧ (16 ≤ p.wOut ∧ p.wOut ≤ 1024 ∧ p.wOut % 4 = 0)
      ∧ p.mapLength ≤ 32 ∧ (∀ i (h : i < 32), p.segments[i].inRange = true)
      ∧ ∀ j (h : j < 16), p.overlays[j].all Overlay.inRange = true := by
  simp [inRange, and_assoc]

theorem numOperand_some {lo hi : Nat} {w : Word} {n : Nat} (h : numOperand lo hi w = some n) :
    n = w.toNat ∧ lo ≤ n ∧ n ≤ hi := by
  unfold numOperand at h
  split at h
  · next hw => cases h; exact ⟨rfl, within_iff.1 hw⟩
  · cases h

theorem segmentOperand_inRange {ws : List Word} {g : Segment} (h : segmentOperand ws = some g) : g.inRange = true := by
  unfold segmentOperand at h
  split at h
  · split at h
    · dsimp only at h
      split at h
      · next hr => cases h; exact hr
      · cases h
    · cases h
  · cases h

theorem overlayOperand_inRange {ws : List Word} {o : Overlay} (h : overlayOperand ws = some o) : o.inRange = true := by
  unfold overlayOperand at h
  split at h
  · split at h
    · dsimp only at h
      split at h
      · next hr => cases h; exact hr
      · cases h
    · cases h
  · cases h

/-- An edit that writes a segment slot (R35). -/
theorem ConfigSet.setSegment_inRange {p : ConfigSet} {g : Segment} (i : Nat) (hp : p.inRange = true)
    (hg : g.inRange = true) : ({ p with segments := p.segments.setIfInBounds i g } : ConfigSet).inRange = true := by
  obtain ⟨hh, hw, hl, hs, ho⟩ := inRange_iff.1 hp
  refine inRange_iff.2 ⟨hh, hw, hl, fun k hk => ?_, ho⟩
  rw [Vector.getElem_setIfInBounds hk]
  split
  · exact hg
  · exact hs k hk

/-- An edit that writes or clears an overlay slot (R36, R37). -/
theorem ConfigSet.setOverlay_inRange {p : ConfigSet} {o : Option Overlay} (j : Nat) (hp : p.inRange = true)
    (hr : o.all Overlay.inRange = true) :
    ({ p with overlays := p.overlays.setIfInBounds j o } : ConfigSet).inRange = true := by
  obtain ⟨hh, hw, hl, hs, ho⟩ := inRange_iff.1 hp
  refine inRange_iff.2 ⟨hh, hw, hl, hs, fun k hk => ?_⟩
  rw [Vector.getElem_setIfInBounds hk]
  split
  · exact hr
  · exact ho k hk

/-! Every edit command keeps the items in range (R33-R41). -/

theorem ConfigStore.setGeometry_edited (c : ConfigStore) (h w : Word) : c.Edited (c.setGeometry h w).1 := by
  refine edit_edited fun set hs hc => ?_
  split at hc
  · next hn wn hh hw =>
    split at hc
    · next h4 =>
      cases hc
      obtain ⟨-, -, hl, hseg, ho⟩ := ConfigSet.inRange_iff.1 (sound_iff.1 hs).1
      obtain ⟨-, hh⟩ := numOperand_some hh
      obtain ⟨-, hw1, hw2⟩ := numOperand_some hw
      exact ConfigSet.inRange_iff.2 ⟨hh, ⟨hw1, hw2, h4⟩, hl, hseg, ho⟩
    · cases hc
  · cases hc

theorem ConfigStore.setMapLength_edited (c : ConfigStore) (n : Word) : c.Edited (c.setMapLength n).1 := by
  refine edit_edited fun set hs hc => ?_
  split at hc
  · next k hk =>
    cases hc
    obtain ⟨hh, hw, -, hseg, ho⟩ := ConfigSet.inRange_iff.1 (sound_iff.1 hs).1
    exact ConfigSet.inRange_iff.2 ⟨hh, hw, (numOperand_some hk).2.2, hseg, ho⟩
  · cases hc

theorem ConfigStore.writeSegment_edited (c : ConfigStore) (slot : Word) (record : List Word) :
    c.Edited (c.writeSegment slot record).1 := by
  refine edit_edited fun set hs hc => ?_
  split at hc
  · next hg => cases hc; exact ConfigSet.setSegment_inRange _ (sound_iff.1 hs).1 (segmentOperand_inRange hg)
  · cases hc

theorem ConfigStore.writeOverlay_edited (c : ConfigStore) (slot : Word) (record : List Word) :
    c.Edited (c.writeOverlay slot record).1 := by
  refine edit_edited fun set hs hc => ?_
  split at hc
  · next ho => cases hc; exact ConfigSet.setOverlay_inRange _ (sound_iff.1 hs).1 (overlayOperand_inRange ho)
  · cases hc

theorem ConfigStore.clearOverlay_edited (c : ConfigStore) (slot : Word) : c.Edited (c.clearOverlay slot).1 := by
  refine edit_edited fun set hs hc => ?_
  split at hc
  · cases hc; exact ConfigSet.setOverlay_inRange _ (sound_iff.1 hs).1 rfl
  · cases hc

theorem ConfigStore.writePalette_edited (c : ConfigStore) (palette first : Word) (codes : List Word) :
    c.Edited (c.writePalette palette first codes).1 := by
  refine edit_edited fun set hs hc => ?_
  split at hc
  · split at hc
    · cases hc
    · cases hc; exact (sound_iff.1 hs).1
  · cases hc

theorem ConfigStore.setColours_edited (c : ConfigStore) (loss blank : Word) :
    c.Edited (c.setColours loss blank).1 :=
  edit_edited fun set hs hc => by cases hc; exact (sound_iff.1 hs).1

theorem ConfigStore.setOutput_edited (c : ConfigStore) (mode guard drive : Word) :
    c.Edited (c.setOutput mode guard drive).1 := by
  refine edit_edited fun set hs hc => ?_
  split at hc
  · cases hc; exact (sound_iff.1 hs).1
  · cases hc

theorem ConfigStore.copyLiveToPending_edited (c : ConfigStore) : c.Edited c.copyLiveToPending.1 :=
  edit_edited fun set hs hc => by cases hc; exact (sound_iff.1 hs).2.1

/-- A commit request waits only for a pending set that has passed validation (R45). -/
theorem ConfigStore.requestCommit_edited (c : ConfigStore) (kind tag : Word) :
    c.Edited (c.requestCommit kind tag).1 := by
  unfold requestCommit
  split
  · split
    · exact .refl c
    · split
      · exact .refl c
      · next hv =>
        refine ⟨rfl, rfl, fun hs => sound_iff.2 ?_⟩
        obtain ⟨hp, hl, hlv, -, -⟩ := sound_iff.1 hs
        exact ⟨hp, hl, hlv, fun _ => hv, by simp⟩
  · exact .refl c

theorem ConfigStore.cancelCommit_edited (c : ConfigStore) : c.Edited c.cancelCommit.1 := by
  unfold cancelCommit
  split
  · exact .refl c
  · refine ⟨rfl, rfl, fun hs => sound_iff.2 ?_⟩
    obtain ⟨hp, hl, hlv, -, -⟩ := sound_iff.1 hs
    exact ⟨hp, hl, hlv, fun h => absurd rfl h, by simp⟩
  · exact .refl c

/-- A transfer makes the validated pending set the live one and ends the request (R50, R51). -/
theorem ConfigStore.transfer_sound {c : ConfigStore} (h : c.Sound) (hc : c.commit ≠ .none) : c.transfer.Sound := by
  obtain ⟨hp, -, -, hv, -⟩ := sound_iff.1 h
  exact sound_iff.2 ⟨hp, hp, hv hc, fun _ => hv hc, by simp [transfer]⟩

theorem ConfigStore.frameStart_sound {c : ConfigStore} (tag : Word) (h : c.Sound) :
    (c.frameStart tag).config.Sound := by
  obtain he | ⟨he, hc⟩ | ⟨he, hc, -, -⟩ := c.frameStart_cases tag <;> rw [he]
  · exact h
  · refine transfer_sound h ?_
    obtain hc | ⟨hc, -, -⟩ := hc <;> rw [hc] <;> decide
  · obtain ⟨hp, hl, hlv, hpv, hd⟩ := sound_iff.1 h
    have waits : c.commit ≠ .none := by rw [hc]; decide
    exact sound_iff.2 ⟨hp, hl, hlv, fun _ => hpv waits, by simpa [announceNow] using hd.2 waits⟩

theorem defaultConfig_sound : defaultConfig.Sound := by
  unfold ConfigStore.Sound
  decide

end Sys2Proof.Machine
end

