-- ==== Sys2Proof/Proofs/Effects.lean ====
section
/-! PROOFS. What a command, an execution and a row of the table can do to the state, each said once. -/

namespace Sys2Proof.Machine

/-! ## The owners of the commands -/

/-- Everything the owner of a command can do (R169, R204): answer, set parameters, clear counts, edit the configuration
store, change picture memory, start an operation; SOFT_RESET resets the part, and MOVE_ABORT aborts an operation. -/
inductive OwnerEffect (s : State) : CommandName → State → Prop
  | answered {c : CommandName} : OwnerEffect s c s
  | parameters {c : CommandName} (lossTimeout holdoverPeriod : Nat) (reports : Bool) :
      OwnerEffect s c { s with mgt := { s.mgt with lossTimeout := lossTimeout, holdoverPeriod := holdoverPeriod,
                                                   reports := reports } }
  | counts {c : CommandName} : OwnerEffect s c s.clearCounts
  | edited {c : CommandName} {store : ConfigStore} (h : s.config.Edited store) :
      OwnerEffect s c { s with config := store }
  | memory {c : CommandName} {p : PictureMemory} (readTotal : Nat) (h : s.pmem.Keeps p) :
      OwnerEffect s c { s with pmem := p, mgt := { s.mgt with readTotal := readTotal } }
  | started {c : CommandName} {m : Mover} (h : m.consistent = true) : OwnerEffect s c { s with mover := m }
  | reset : OwnerEffect s .softReset s.softReset
  | aborted (n : Notice) : OwnerEffect s .moveAbort (State.queueNotice { s with mover := s.mover.halt } n)

theorem OwnerEffect.memoryOnly {s : State} {c : CommandName} {p : PictureMemory} (h : s.pmem.Keeps p) :
    OwnerEffect s c { s with pmem := p } :=
  .memory s.mgt.readTotal h

theorem Management.setParam_effect (s : State) (t h e : Word) :
    OwnerEffect s .setParam { s with mgt := (s.mgt.setParam t h e).1 } := by
  unfold setParam
  split
  · exact .parameters _ _ _
  · exact .answered

theorem State.memRead_effect (s : State) (n : Word) : OwnerEffect s .memRead (s.memRead n).1 := by
  unfold memRead
  split_ifs
  · exact .answered
  · exact .memory _ (PictureMemory.readWords_keeps _ _ _ _)
  · exact .answered

theorem State.acceptMove_effect {s : State} {c : CommandName} {fits : Bool} {m : Mover}
    (h : fits = true → m.consistent = true) : OwnerEffect s c (s.acceptMove fits m).1 := by
  unfold acceptMove
  split_ifs with hb hf
  · exact .answered
  · exact .started (h hf)
  · exact .answered

theorem State.moveAbort_effect (s : State) : OwnerEffect s .moveAbort s.moveAbort.1 := by
  unfold moveAbort
  split_ifs
  · exact .aborted _
  · exact .answered

theorem runOwner_effect (s : State) (c : CommandName) (ops : List Word) :
    OwnerEffect s c (runOwner s c ops).1 := by
  cases c <;> simp only [runOwner]
  case nop | identify | status => exact .answered
  case clearCounts => exact .counts
  case softReset => exact .reset
  case setParam => split; exacts [Management.setParam_effect _ _ _ _, .answered]
  case setGeometry => split; exacts [.edited (ConfigStore.setGeometry_edited _ _ _), .answered]
  case mapLength => split; exacts [.edited (ConfigStore.setMapLength_edited _ _), .answered]
  case segWrite => split; exacts [.edited (ConfigStore.writeSegment_edited _ _ _), .answered]
  case ovlWrite => split; exacts [.edited (ConfigStore.writeOverlay_edited _ _ _), .answered]
  case ovlClear => split; exacts [.edited (ConfigStore.clearOverlay_edited _ _), .answered]
  case palWrite => split; exacts [.edited (ConfigStore.writePalette_edited _ _ _ _), .answered]
  case setColours => split; exacts [.edited (ConfigStore.setColours_edited _ _ _), .answered]
  case setOutput => split; exacts [.edited (ConfigStore.setOutput_edited _ _ _ _), .answered]
  case copyLiveToPending => exact .edited (ConfigStore.copyLiveToPending_edited _)
  case readConfig => split <;> exact .answered
  case commit => split; exacts [.edited (ConfigStore.requestCommit_edited _ _ _), .answered]
  case cancelCommit => exact .edited (ConfigStore.cancelCommit_edited _)
  case memAddress => split; exacts [.memoryOnly (PictureMemory.memAddress_keeps _ _ _), .answered]
  case memWrite => exact .memoryOnly (PictureMemory.memWrite_keeps _ _ _)
  case memRead => split; exacts [State.memRead_effect _ _, .answered]
  case patchBegin => exact .memoryOnly (PictureMemory.patchBegin_keeps _)
  case patchEnd => exact .memoryOnly (PictureMemory.patchEnd_keeps _)
  case moveFill =>
    split
    · exact State.acceptMove_effect fun dst => startMove_consistent _ dst (.inl rfl)
    · exact .answered
  case moveCopy =>
    split
    · refine State.acceptMove_effect fun fits => ?_
      obtain ⟨src, dst⟩ := Bool.and_eq_true_iff.1 fits
      exact startMove_consistent _ dst (.inr src)
    · exact .answered
  case moveAbort => exact State.moveAbort_effect _

/-! ## Executions, for what does not look at the management unit and the reverse transmitter -/

/-- One state follows from another by owners' effects and by changes of the management unit's and the reverse
transmitter's own queues. -/
inductive Managed : State → State → Prop
  | owner {s t : State} {c : CommandName} (h : OwnerEffect s c t) : Managed s t
  | queues (s : State) (g : Management) (x : ReverseTransmitter) : Managed s { s with mgt := g, rtx := x }
  | trans {s t u : State} (h : Managed s t) (h' : Managed t u) : Managed s u

/-- What every owner keeps, and what does not look at the two blocks' queues, is kept. -/
theorem Managed.keeps {P : State → Prop} (owner : ∀ s c t, P s → OwnerEffect s c t → P t)
    (queues : ∀ s g x, P s → P { s with mgt := g, rtx := x }) {s t : State} (h : Managed s t) : P s → P t := by
  induction h with
  | owner h => exact fun hs => owner _ _ _ hs h
  | queues s g x => exact queues s g x
  | trans _ _ ih ih' => exact ih' ∘ ih

theorem Managed.refl (s : State) : Managed s s := .queues s s.mgt s.rtx

theorem Managed.record {s t : State} (h : Managed s t) (r : Result) : Managed s (State.recordResult (t, r)) :=
  h.trans (.queues t _ t.rtx)

theorem State.arbitrate_managed {s t : State} (h : Managed s t) : Managed s t.arbitrate :=
  h.trans (.queues t t.mgt _)

theorem State.endExecution_managed {s t : State} (h : Managed s t) : Managed s t.endExecution := by
  rw [t.endExecution_eq]
  exact h.trans (.queues t _ _)

theorem commandRow_managed (s : State) (c : CommandName) (ops : List Word) : Managed s (commandRow c ops s) := by
  unfold commandRow runCommand
  split
  · exact (Managed.owner (runOwner_effect s c ops)).record _
  · exact (Managed.refl s).record _

theorem State.executeReady_managed (s : State) : Managed s s.executeReady :=
  executeWhileReady_induct (P := Managed s) (fun t c ops h => h.trans (.owner (runOwner_effect t c ops)))
    (fun _ r h => h.record r) (fun t h => h.trans (.queues t _ t.rtx)) (fun _ h => State.endExecution_managed h)
    _ s (.refl s)

theorem State.answer_managed (s : State) (r : Reply) : Managed s (s.answer r) := by
  unfold answer
  split
  · exact .queues s s.mgt _
  · exact .refl s

theorem State.accept_managed (s : State) (p : ControlPacket) (expected : Seq) (history : List Reply) :
    Managed s (s.accept p expected history) := by
  have queued := Managed.queues s
    { s.mgt with queue := s.mgt.queue ++ [p], expected := expected, history := history } s.rtx
  unfold accept
  dsimp only
  split
  · exact State.arbitrate_managed (queued.trans (State.executeReady_managed _))
  · exact queued

theorem State.acceptControl_managed (s : State) (p : ControlPacket) : Managed s (s.acceptControl p) := by
  have counted (g : Management) : Managed s { s with mgt := g } := .queues s g s.rtx
  unfold acceptControl
  split
  · exact counted _
  · split
    · exact State.accept_managed _ _ _ _
    · exact counted _
  · split
    · exact State.accept_managed _ _ _ _
    · exact counted _
  · exact (counted _).trans (State.answer_managed _ _)
  · exact (counted _).trans (State.answer_managed _ _)
  · split
    · exact State.answer_managed _ _
    · exact counted _

/-- What the rows of the management unit's commands, packets and replies come down to: a command row, which for
SOFT_RESET and MOVE_ABORT ends with more; a control packet by its class or dropped; the completion of a transmission;
and an execution (R161, R169, R178, R185). -/
inductive ManagementRow (s : State) : State → Prop
  | command {c : CommandName} (ops : List Word) (reset : c ≠ .softReset) (abort : c ≠ .moveAbort) :
      ManagementRow s (commandRow c ops s)
  | reset : ManagementRow s (commandRow .softReset [] s).endExecution.arbitrate
  | abort : ManagementRow s (commandRow .moveAbort [] s).arbitrate
  | packet (p : ControlPacket) : ManagementRow s (s.acceptControl p)
  | dropped : ManagementRow s { s with mgt := s.mgt.dropControl }
  | sent {t : State} {x : Transmission}
      (h : t = State.afterSent { s with rtx := s.rtx.dropSent x.queue } x.queue) :
      ManagementRow s { t with rtx := t.rtx.release }
  | executed : ManagementRow s s.executeReady.arbitrate

theorem ManagementRow.managed {s t : State} (h : ManagementRow s t) : Managed s t := by
  cases h
  case command ops _ _ => exact commandRow_managed s _ ops
  case reset => exact State.arbitrate_managed (State.endExecution_managed (commandRow_managed s _ _))
  case abort => exact State.arbitrate_managed (commandRow_managed s _ _)
  case packet p => exact State.acceptControl_managed s p
  case dropped => exact .queues s _ s.rtx
  case sent t x h =>
    have dropped : Managed s { s with rtx := s.rtx.dropSent x.queue } := .queues s s.mgt _
    refine Managed.trans ?_ (.queues t t.mgt _)
    rw [h]
    unfold State.afterSent
    split
    · exact dropped.trans (State.executeReady_managed _)
    · exact dropped
  case executed => exact State.arbitrate_managed (State.executeReady_managed s)

/-! ## The rows of the table -/

/-- The record goes on as the same frame: only its next line and its count of substituted lines may differ (R60). -/
structure FrameRecord.SameFrame (r r' : FrameRecord) : Prop where
  kind : r'.kind = r.kind
  generation : r'.generation = r.generation
  lines : r'.lines = r.lines
  drive : r'.drive = r.drive
  outputOverride : r'.outputOverride = r.outputOverride

/-- Everything a row of the table can do. -/
inductive RowEffect (s : State) : State → Prop
  | poweredOn (panel : PanelPort) : RowEffect s { State.reset with pending := s.pending, panel := panel }
  | initialised : RowEffect s
      { s with pmem := { s.pmem with array := [] }, link := { s.link with ignoring := false, delineation := .hunt } }
  | counted {l : LinkReceiver} (parser : l.parser = s.link.parser) (locked : l.locked = s.link.locked)
      (current : l.current = s.link.current) : RowEffect s { s with link := l }
  | opened (f : InputFrame) : RowEffect s (s.openFrame f)
  | stored {c : CurrentFrame} {payload : List Word} {n : Nat} {pixels : List Word}
      (parser : s.link.parser = .inFrame) (current : s.link.current = some c)
      (accepted : acceptedLine c payload = some (n, pixels)) :
      RowEffect s { s with link := { s.link with current := some { c with highest := some n } }
                           lines := s.lines.storeLine c.frame.tag n pixels }
  | closed {c : CurrentFrame} (kind : CloseKind) (parser : s.link.parser = .inFrame)
      (current : s.link.current = some c) :
      RowEffect s { s with link := { s.link with parser := .gap, current := none }, lines := s.lines.closeFrame kind }
  | lost : RowEffect s s.loseLink
  | timerExpired {period : Nat} (timer : s.osq.holdTimer = .running period) (state : s.osq.state ≠ .holdGap) :
      RowEffect s { s with osq := { s.osq with holdTimer := .expired } }
  | gapEnded (state : s.osq.state = .holdGap) :
      RowEffect s (State.startFrame { s with osq := { s.osq with holdTimer := .expired } } .holdover)
  | lineBegun {r r' : FrameRecord} (e : Emission) (panel : PanelPort) (record : s.osq.record = some r)
      (same : r.SameFrame r') :
      RowEffect s { s with panel := panel, osq := { s.osq with record := some r', emission := some e } }
  | lineCompleted {r r' : FrameRecord} (substituted : Bool) (record : s.osq.record = some r) (same : r.SameFrame r') :
      RowEffect s (s.completeLine r' substituted)
  | asked : RowEffect s s.askNext
  | stalled (state : s.mover.state = .running) :
      RowEffect s { s with mover := { state := .stalled, op := { s.mover.op with stepRow := none } } }
  | stepped {i : Nat} (state : s.mover.state = .running) (step : s.mover.op.stepRow = some i) :
      RowEffect s (s.applyRowStep i).afterRowStep
  | managed {t : State} (h : ManagementRow s t) : RowEffect s t
  | unchanged : RowEffect s s

/-- The end of a packet has its own effect where it is received, and none elsewhere (R98, R116). -/
theorem State.onLink_effect {s t : State} {event : State → State} (h : s.onLink event = .next t)
    (effect : RowEffect s (event s)) : RowEffect s t := by
  unfold onLink at h
  split at h <;> cases h
  · exact effect
  · exact .unchanged

theorem execHeaderCheckFailure_effect {s t : State} (h : execHeaderCheckFailure s = .next t) : RowEffect s t :=
  State.onLink_effect h (.counted rfl rfl rfl)

theorem execPayloadCheckFailedPacket_effect {s t : State} {kind : KindCode} {payload : List Word}
    (h : execPayloadCheckFailedPacket kind payload s = .next t) : RowEffect s t :=
  State.onLink_effect h (.counted rfl rfl rfl)

theorem State.lineInFrame_effect {s : State} {c : CurrentFrame} (payload : List Word)
    (parser : s.link.parser = .inFrame) (current : s.link.current = some c) :
    RowEffect s (s.lineInFrame c payload) := by
  unfold lineInFrame
  split
  · next h => exact .stored parser current h
  · exact .counted rfl rfl rfl

theorem State.closeInFrame_effect {s : State} {c : CurrentFrame} (payload : List Word)
    (parser : s.link.parser = .inFrame) (current : s.link.current = some c) :
    RowEffect s (s.closeInFrame c payload) := by
  unfold closeInFrame
  split
  · exact .closed _ parser current
  · exact .counted rfl rfl rfl

theorem execLine_effect {s t : State} {payload : List Word} (h : execLine payload s = .next t) : RowEffect s t := by
  refine State.onLink_effect h ?_
  split
  · next hp hc => exact State.lineInFrame_effect payload hp hc
  · exact .counted rfl rfl rfl

theorem execFrameClose_effect {s t : State} {payload : List Word} (h : execFrameClose payload s = .next t) :
    RowEffect s t := by
  refine State.onLink_effect h ?_
  split
  · next hp hc => exact State.closeInFrame_effect payload hp hc
  · exact .counted rfl rfl rfl

theorem execFrameOpen_effect {s t : State} {payload : List Word} (h : execFrameOpen payload s = .next t) :
    RowEffect s t := by
  refine State.onLink_effect h ?_
  split
  · exact .opened _
  · exact .counted rfl rfl rfl

theorem execControl_effect {s t : State} {payload : List Word} (h : execControl payload s = .next t) :
    RowEffect s t := by
  refine State.onLink_effect h ?_
  split
  · exact .managed (.packet _)
  · exact .managed .dropped

theorem execInitialisationComplete_effect {s t : State} (h : execInitialisationComplete s = .next t) :
    RowEffect s t := by
  unfold execInitialisationComplete at h
  split at h <;> cases h
  · exact .initialised
  · exact .unchanged

theorem execStartMarkerInHunt_effect {s t : State} (h : execStartMarkerInHunt s = .next t) : RowEffect s t := by
  unfold execStartMarkerInHunt at h
  split at h <;> cases h
  · exact .unchanged
  · exact .counted rfl rfl rfl

theorem execLossExpiry_effect {s t : State} (h : execLossExpiry s = .next t) : RowEffect s t := by
  obtain ⟨-, -, he⟩ | ⟨-, he⟩ := execLossExpiry_cases s <;> rw [he] at h <;> cases h
  · exact .lost
  · exact .unchanged

theorem execHoldoverTimerExpiry_effect {s t : State} (h : execHoldoverTimerExpiry s = .next t) : RowEffect s t := by
  unfold execHoldoverTimerExpiry at h
  split at h
  · next ht =>
    dsimp only at h
    split at h <;> cases h
    · next hg => exact .gapEnded hg
    · next hg => exact .timerExpired ht hg
  · cases h; exact .unchanged

theorem execEmissionBegin_effect {s t : State} {pready : Bool} (h : execEmissionBegin pready s = .next t) :
    RowEffect s t := by
  unfold execEmissionBegin at h
  split at h
  · cases h; exact .unchanged
  · next r hr =>
    have same : r.SameFrame { r with nextLine := r.nextLine + 1 } := ⟨rfl, rfl, rfl, rfl, rfl⟩
    dsimp only at h
    split_ifs at h <;> cases h
    · exact .lineBegun _ _ hr same
    · exact .lineCompleted _ hr same
    · exact .asked
    · exact .unchanged

theorem execLineCompletion_effect {s t : State} (h : execLineCompletion s = .next t) : RowEffect s t := by
  unfold execLineCompletion at h
  split at h <;> cases h
  · next hr _ => exact .lineCompleted _ hr ⟨rfl, rfl, rfl, rfl, rfl⟩
  · exact .unchanged

theorem execRowStepCompletion_effect {s t : State} (h : execRowStepCompletion s = .next t) : RowEffect s t := by
  unfold execRowStepCompletion at h
  split at h
  · next hs hi =>
    split at h <;> cases h
    · exact .stalled hs
    · exact .stepped hs hi
  · cases h; exact .unchanged

theorem execTransmissionCompletion_effect {s t : State} (h : execTransmissionCompletion s = .next t) :
    RowEffect s t := by
  unfold execTransmissionCompletion at h
  split at h
  · cases h; exact .unchanged
  · cases h; exact .managed (.sent rfl)

theorem execExecution_effect {s t : State} (h : execExecution s = .next t) : RowEffect s t := by
  unfold execExecution at h
  split at h <;> cases h
  · exact .managed .executed
  · exact .unchanged

theorem exec_effect {c : Instr} {s t : State} (h : exec c s = .next t) : RowEffect s t := by
  cases c
  case powerOn => cases h; exact .poweredOn _
  case initialisationComplete => exact execInitialisationComplete_effect h
  case headerCheckFailure => exact execHeaderCheckFailure_effect h
  case frameOpen => exact execFrameOpen_effect h
  case line => exact execLine_effect h
  case frameClose => exact execFrameClose_effect h
  case control => exact execControl_effect h
  case filler => exact State.onLink_effect h (.unchanged)
  case unknownKindPacket => exact State.onLink_effect h (.counted rfl rfl rfl)
  case payloadCheckFailedPacket kind payload =>
    exact execPayloadCheckFailedPacket_effect (kind := kind) (payload := payload) h
  case startMarkerInHunt => exact execStartMarkerInHunt_effect h
  case lossExpiry => exact execLossExpiry_effect h
  case holdoverTimerExpiry => exact execHoldoverTimerExpiry_effect h
  case emissionBegin => exact execEmissionBegin_effect h
  case lineCompletion => exact execLineCompletion_effect h
  case rowStepCompletion => exact execRowStepCompletion_effect h
  case transmissionCompletion => exact execTransmissionCompletion_effect h
  case execution => exact execExecution_effect h
  case softReset => cases h; exact .managed .reset
  case moveAbort => cases h; exact .managed .abort
  all_goals cases h; exact .managed (.command _ (by decide) (by decide))

end Sys2Proof.Machine
end

