-- ==== Sys2Proof/Proofs/BlockInvariants.lean ====
section
/-! PROOFS. O56: every row keeps each block consistent by itself. -/

namespace Sys2Proof.Machine

theorem FrameRecord.SameFrame.input {r r' : FrameRecord} (h : r.SameFrame r') : r'.input = r.input := by
  simp only [FrameRecord.input, h.kind]

theorem FrameRecord.SameFrame.trans {r r' r'' : FrameRecord} (h : r.SameFrame r') (h' : r'.SameFrame r'') :
    r.SameFrame r'' :=
  ⟨h'.kind.trans h.kind, h'.generation.trans h.generation, h'.lines.trans h.lines, h'.drive.trans h.drive,
    h'.outputOverride.trans h.outputOverride⟩

/-! ## The events of an output frame, by what they come down to -/

/-- A line's completion: the next line's source is asked for, or the frame ends (R71, R75). -/
theorem State.completeLine_cases (s : State) (r : FrameRecord) (substituted : Bool) :
    ∃ r', r.SameFrame r'
      ∧ (s.completeLine r substituted
            = State.askNext { s with osq := { s.osq with record := some r', emission := none } }
          ∨ s.completeLine r substituted
            = State.endFrame { s with osq := { s.osq with record := some r', emission := none } } r') := by
  refine ⟨if substituted then { r with substituted := r.substituted + 1 } else r, ?_, ?_⟩
  · cases substituted <;> exact ⟨rfl, rfl, rfl, rfl, rfl⟩
  · exact ite_eq_or_eq _ _ _

/-- An arriving input frame starts an output frame between frames, and waits in the slot during one (R63-R65). -/
theorem State.frameOpenArrival_cases (s : State) (f : InputFrame) :
    ((s.osq.state = .wait ∨ s.osq.state = .holdGap)
        ∧ s.frameOpenArrival f = State.startFrame { s with lines := s.lines.openBound f } (.bound f))
      ∨ ((s.osq.state = .frame ∨ s.osq.state = .holdFrame)
        ∧ ∃ skipAcc framesSkipped, s.frameOpenArrival f =
            { s with lines := s.lines.openWaiting f
                     osq := { s.osq with slot := some f, skipAcc := skipAcc, framesSkipped := framesSkipped } }) := by
  unfold frameOpenArrival
  cases s.osq.state
  · exact .inl ⟨.inl rfl, rfl⟩
  · exact .inr ⟨.inl rfl, _, _, rfl⟩
  · exact .inl ⟨.inr rfl, rfl⟩
  · exact .inr ⟨.inr rfl, _, _, rfl⟩

/-- A loss expiry enters holdover from WAIT, and changes nothing at the sequencer otherwise (R66). -/
theorem State.lossAtSequencer_cases (s : State) :
    (s.osq.state = .wait ∧ s.lossAtSequencer = s.startFrame .holdover)
      ∨ (s.osq.state ≠ .wait ∧ s.lossAtSequencer = s) := by
  unfold lossAtSequencer
  split
  · next h => exact .inl ⟨h, rfl⟩
  · next h => exact .inr ⟨h, rfl⟩

/-- After an applied row step the operation completes, or decides about the next one (R149, R152). -/
theorem State.afterRowStep_cases (s : State) :
    (s.mover.op.rowsDone = s.mover.op.rows ∧ s.afterRowStep = s.completeMove)
      ∨ (s.mover.op.rowsDone ≠ s.mover.op.rows ∧ s.afterRowStep = { s with mover := s.mover.decideStep s.pmem }) := by
  unfold afterRowStep
  split
  · next h => exact .inl ⟨h, rfl⟩
  · next h => exact .inr ⟨h, rfl⟩

/-! What these events leave in the blocks they do not touch. -/

@[simp] theorem State.chooseNext_link (s : State) (r : FrameRecord) : (s.chooseNext r).link = s.link := by
  obtain ⟨f, -, h⟩ | ⟨-, -, h⟩ | ⟨-, -, -, -, h⟩ | ⟨-, -, h⟩ := s.chooseNext_cases r <;> simp [h]

@[simp] theorem State.chooseNext_array (s : State) (r : FrameRecord) :
    (s.chooseNext r).pmem.array = s.pmem.array := by
  obtain ⟨f, -, h⟩ | ⟨-, -, h⟩ | ⟨-, -, -, -, h⟩ | ⟨-, -, h⟩ := s.chooseNext_cases r <;> simp [h]

@[simp] theorem State.endFrame_link (s : State) (r : FrameRecord) : (s.endFrame r).link = s.link := by
  obtain ⟨d, h, hl, -⟩ := s.endFrame_eq r
  simp [h, hl]

@[simp] theorem State.completeLine_link (s : State) (r : FrameRecord) (substituted : Bool) :
    (s.completeLine r substituted).link = s.link := by
  obtain ⟨r', -, h | h⟩ := s.completeLine_cases r substituted <;> simp [h]

@[simp] theorem State.chooseNext_mgt (s : State) (r : FrameRecord) : (s.chooseNext r).mgt = s.mgt := by
  obtain ⟨f, -, h⟩ | ⟨-, -, h⟩ | ⟨-, -, -, -, h⟩ | ⟨-, -, h⟩ := s.chooseNext_cases r <;> simp [h]

@[simp] theorem State.endFrame_mgt (s : State) (r : FrameRecord) : (s.endFrame r).mgt = s.mgt := by
  obtain ⟨d, h, -, -, hm, -⟩ := s.endFrame_eq r
  simp [h, hm]

@[simp] theorem State.completeLine_mgt (s : State) (r : FrameRecord) (substituted : Bool) :
    (s.completeLine r substituted).mgt = s.mgt := by
  obtain ⟨r', -, h | h⟩ := s.completeLine_cases r substituted <;> simp [h]

@[simp] theorem State.frameOpenArrival_mgt (s : State) (f : InputFrame) : (s.frameOpenArrival f).mgt = s.mgt := by
  obtain ⟨-, h⟩ | ⟨-, a, b, h⟩ := s.frameOpenArrival_cases f <;> simp [h]

@[simp] theorem State.openFrame_mgt (s : State) (f : InputFrame) : (s.openFrame f).mgt = s.mgt := by
  rw [openFrame_eq, frameOpenArrival_mgt]

@[simp] theorem State.lossAtSequencer_mgt (s : State) : s.lossAtSequencer.mgt = s.mgt := by
  obtain ⟨-, h⟩ | ⟨-, h⟩ := s.lossAtSequencer_cases <;> simp [h]

@[simp] theorem State.loseLink_mgt (s : State) : s.loseLink.mgt = s.mgt := by
  rw [loseLink_eq, lossAtSequencer_mgt]

@[simp] theorem State.frameOpenArrival_link (s : State) (f : InputFrame) : (s.frameOpenArrival f).link = s.link := by
  obtain ⟨-, h⟩ | ⟨-, a, b, h⟩ := s.frameOpenArrival_cases f <;> simp [h]

@[simp] theorem State.frameOpenArrival_mover (s : State) (f : InputFrame) :
    (s.frameOpenArrival f).mover = s.mover := by
  obtain ⟨-, h⟩ | ⟨-, a, b, h⟩ := s.frameOpenArrival_cases f <;> simp [h]

@[simp] theorem State.frameOpenArrival_array (s : State) (f : InputFrame) :
    (s.frameOpenArrival f).pmem.array = s.pmem.array := by
  obtain ⟨-, h⟩ | ⟨-, a, b, h⟩ := s.frameOpenArrival_cases f <;> simp [h]

@[simp] theorem State.lossAtSequencer_link (s : State) : s.lossAtSequencer.link = s.link := by
  obtain ⟨-, h⟩ | ⟨-, h⟩ := s.lossAtSequencer_cases <;> simp [h]

@[simp] theorem State.lossAtSequencer_mover (s : State) : s.lossAtSequencer.mover = s.mover := by
  obtain ⟨-, h⟩ | ⟨-, h⟩ := s.lossAtSequencer_cases <;> simp [h]

@[simp] theorem State.lossAtSequencer_array (s : State) : s.lossAtSequencer.pmem.array = s.pmem.array := by
  obtain ⟨-, h⟩ | ⟨-, h⟩ := s.lossAtSequencer_cases <;> simp [h]

@[simp] theorem State.afterRowStep_link (s : State) : s.afterRowStep.link = s.link := by
  obtain ⟨-, h⟩ | ⟨-, h⟩ := s.afterRowStep_cases <;> simp [h]

@[simp] theorem State.afterRowStep_lines (s : State) : s.afterRowStep.lines = s.lines := by
  obtain ⟨-, h⟩ | ⟨-, h⟩ := s.afterRowStep_cases <;> simp [h]

@[simp] theorem State.afterRowStep_osq (s : State) : s.afterRowStep.osq = s.osq := by
  obtain ⟨-, h⟩ | ⟨-, h⟩ := s.afterRowStep_cases <;> simp [h]

@[simp] theorem State.afterRowStep_config (s : State) : s.afterRowStep.config = s.config := by
  obtain ⟨-, h⟩ | ⟨-, h⟩ := s.afterRowStep_cases <;> simp [h]

@[simp] theorem State.afterRowStep_pmem (s : State) : s.afterRowStep.pmem = s.pmem := by
  obtain ⟨-, h⟩ | ⟨-, h⟩ := s.afterRowStep_cases <;> simp [h]

@[simp] theorem State.afterRowStep_mgt (s : State) : s.afterRowStep.mgt = s.mgt := by
  obtain ⟨-, h⟩ | ⟨-, h⟩ := s.afterRowStep_cases <;> simp [h]

/-! ## The link receiver (R103) -/

/-- The parser state, the lock and the open input frame decide the table of R103. -/
theorem LinkReceiver.consistent_congr {l l' : LinkReceiver} (parser : l'.parser = l.parser)
    (locked : l'.locked = l.locked) (current : l'.current = l.current) : l'.consistent = l.consistent := by
  simp only [consistent, parser, locked, current]

theorem OwnerEffect.link_consistent {s t : State} {c : CommandName} (h : OwnerEffect s c t)
    (hs : s.link.consistent = true) : t.link.consistent = true := by
  cases h
  case counts => rw [← hs]; exact LinkReceiver.consistent_congr rfl rfl rfl
  case reset => rfl
  all_goals exact hs

/-- IN_FRAME, the link is locked (R103). -/
theorem LinkReceiver.locked_of_inFrame {l : LinkReceiver} (h : l.consistent = true) (parser : l.parser = .inFrame) :
    l.locked = true := by
  simpa [consistent, parser, show (Parser.inFrame == Parser.search) = false from rfl] using (Bool.and_eq_true_iff.1 h).1

theorem RowEffect.link_consistent {s t : State} (h : RowEffect s t) (hs : s.link.consistent = true) :
    t.link.consistent = true := by
  cases h
  case poweredOn => rfl
  case initialised => rw [← hs]; exact LinkReceiver.consistent_congr rfl rfl rfl
  case counted l hp hl hc => rw [← hs]; exact LinkReceiver.consistent_congr hp hl hc
  case opened f => rw [State.openFrame_eq, State.frameOpenArrival_link]; rfl
  case stored hp hc _ => simp [LinkReceiver.consistent, hp, LinkReceiver.locked_of_inFrame hs hp]
  case closed hp hc => simp [LinkReceiver.consistent, LinkReceiver.locked_of_inFrame hs hp]
  case lost => rw [State.loseLink_eq, State.lossAtSequencer_link]; rfl
  case managed h =>
    exact h.managed.keeps (P := fun s => s.link.consistent = true) (fun _ _ _ hs h => h.link_consistent hs)
      (fun _ _ _ => id) hs
  all_goals simpa using hs

/-! ## The output sequencer (R59) -/

/-- Every output frame start gives the output states' table its row for the frame's kind (R59, R62). -/
theorem State.startFrame_osq_consistent (s : State) (kind : FrameKind) : (s.startFrame kind).osq.consistent = true := by
  obtain ⟨held, h⟩ := s.startFrame_eq kind
  rw [h]
  cases kind <;> rfl

/-- The table of R59, row by row, and the line in emission within a frame. -/
theorem Sequencer.consistent_iff {q : Sequencer} :
    q.consistent = true ↔
      ((q.state = .wait ∧ q.record = none ∧ q.holdTimer = .stopped ∧ q.slot = none)
        ∨ (q.state = .frame ∧ (∃ r f, q.record = some r ∧ r.input = some f) ∧ q.holdTimer = .stopped)
        ∨ (q.state = .holdGap ∧ q.record = none ∧ (∃ period, q.holdTimer = .running period) ∧ q.slot = none)
        ∨ (q.state = .holdFrame ∧ (∃ r, q.record = some r ∧ r.input = none) ∧ q.holdTimer ≠ .stopped))
      ∧ (q.emission = none ∨ q.record ≠ none) := by
  obtain ⟨state, record, emission, slot, timer, -, -, -⟩ := q
  simp only [consistent, Bool.and_eq_true]
  refine and_congr ?_ (by cases record <;> simp)
  cases state <;> cases record <;> cases timer <;> simp [Option.isSome_iff_exists]

/-- While a frame goes on, its record's counts and the line in emission do not matter (R59). -/
theorem Sequencer.consistent_sameFrame {q : Sequencer} {r r' : FrameRecord} (e : Option Emission)
    (record : q.record = some r) (same : r.SameFrame r') (h : q.consistent = true) :
    Sequencer.consistent { q with record := some r', emission := e } = true := by
  obtain ⟨table, -⟩ := consistent_iff.1 h
  refine consistent_iff.2 ⟨?_, .inr (by simp)⟩
  simpa [record, same.input] using table

/-- After a frame end every choice of step 4 of R75 is a row of the table (R59). -/
theorem State.endFrame_osq_consistent (s : State) (r : FrameRecord) : (s.endFrame r).osq.consistent = true := by
  obtain ⟨d, h, -, -, -, -, -, -, -, -, hosq⟩ := s.endFrame_eq r
  have ended : d.osq.record = none ∧ d.osq.emission = none := by
    obtain ⟨-, hq, -⟩ | ⟨-, hq, -⟩ := hosq <;> rw [hq] <;> exact ⟨rfl, rfl⟩
  obtain ⟨hr, he⟩ := ended
  rw [h]
  obtain ⟨f, -, hc⟩ | ⟨hs, -, hc⟩ | ⟨hs, -, -, ⟨period, ht⟩, hc⟩ | ⟨-, -, hc⟩ := d.chooseNext_cases r
  · rw [hc]; exact startFrame_osq_consistent _ _
  · simp [hc, Sequencer.consistent, hr, he, hs]
  · simp [hc, Sequencer.consistent, hr, he, hs, ht]
  · rw [hc]; exact startFrame_osq_consistent _ _

theorem OwnerEffect.osq_consistent {s t : State} {c : CommandName} (h : OwnerEffect s c t)
    (hs : s.osq.consistent = true) : t.osq.consistent = true := by
  cases h
  case reset => rfl
  all_goals exact hs

/-- A running timer stands in HOLD_GAP or in HOLD_FRAME, where it may expire (R59). -/
theorem Sequencer.consistent_expired {q : Sequencer} {period : Nat} (timer : q.holdTimer = .running period)
    (state : q.state ≠ .holdGap) (h : q.consistent = true) :
    Sequencer.consistent { q with holdTimer := .expired } = true := by
  obtain ⟨⟨-, -, ht, -⟩ | ⟨-, -, ht⟩ | ⟨hs, -⟩ | ⟨hs, hr, -⟩, he⟩ := consistent_iff.1 h
  · simp [timer] at ht
  · simp [timer] at ht
  · exact absurd hs state
  · exact consistent_iff.2 ⟨.inr (.inr (.inr ⟨hs, hr, by simp⟩)), he⟩

/-- A frame is in progress in FRAME and HOLD_FRAME, where a waiting input frame may take the slot (R59, R64). -/
theorem Sequencer.consistent_slot {q : Sequencer} {f : InputFrame} {skipAcc framesSkipped : Word}
    (state : q.state = .frame ∨ q.state = .holdFrame) (h : q.consistent = true) :
    Sequencer.consistent { q with slot := some f, skipAcc := skipAcc, framesSkipped := framesSkipped } = true := by
  obtain ⟨table, he⟩ := consistent_iff.1 h
  refine consistent_iff.2 ⟨?_, he⟩
  obtain hs | hs := state <;> simpa [hs] using table

theorem RowEffect.osq_consistent {s t : State} (h : RowEffect s t) (hs : s.osq.consistent = true) :
    t.osq.consistent = true := by
  cases h
  case poweredOn => rfl
  case opened f =>
    rw [State.openFrame_eq]
    obtain ⟨-, h⟩ | ⟨hst, a, b, h⟩ := State.frameOpenArrival_cases _ f <;> rw [h]
    · exact State.startFrame_osq_consistent _ _
    · exact Sequencer.consistent_slot hst hs
  case lost =>
    rw [State.loseLink_eq]
    obtain ⟨-, h⟩ | ⟨-, h⟩ := State.lossAtSequencer_cases _ <;> rw [h]
    · exact State.startFrame_osq_consistent _ _
    · exact hs
  case timerExpired ht hst => exact Sequencer.consistent_expired ht hst hs
  case gapEnded => exact State.startFrame_osq_consistent _ _
  case lineBegun hr same => exact Sequencer.consistent_sameFrame _ hr same hs
  case lineCompleted r r' sub hr same =>
    obtain ⟨r'', same', h | h⟩ := s.completeLine_cases r' sub <;> rw [h]
    · simpa using Sequencer.consistent_sameFrame none hr (same.trans same') hs
    · exact State.endFrame_osq_consistent _ _
  case managed h =>
    exact h.managed.keeps (P := fun s => s.osq.consistent = true) (fun _ _ _ hs h => h.osq_consistent hs)
      (fun _ _ _ => id) hs
  all_goals simpa using hs

/-! ## The configuration store (R29, R4, R31, R44) -/

theorem OwnerEffect.config_sound {s t : State} {c : CommandName} (h : OwnerEffect s c t) (hs : s.config.Sound) :
    t.config.Sound := by
  cases h
  case reset => exact defaultConfig_sound
  case edited h => exact h.sound hs
  all_goals exact hs

theorem State.startFrame_sound {s : State} (kind : FrameKind) (h : s.config.Sound) :
    (s.startFrame kind).config.Sound := by
  rw [startFrame_config]
  exact ConfigStore.frameStart_sound _ h

theorem State.endFrame_sound {s : State} (r : FrameRecord) (h : s.config.Sound) : (s.endFrame r).config.Sound := by
  obtain ⟨d, he, -, hd, -⟩ := s.endFrame_eq r
  rw [← hd] at h
  rw [he]
  obtain ⟨f, -, hc⟩ | ⟨-, -, hc⟩ | ⟨-, -, -, -, hc⟩ | ⟨-, -, hc⟩ := d.chooseNext_cases r <;> rw [hc]
  · exact startFrame_sound _ h
  · exact h
  · exact h
  · exact startFrame_sound _ h

theorem RowEffect.config_sound {s t : State} (h : RowEffect s t) (hs : s.config.Sound) : t.config.Sound := by
  cases h
  case poweredOn => exact defaultConfig_sound
  case opened f =>
    rw [State.openFrame_eq]
    obtain ⟨-, h⟩ | ⟨-, a, b, h⟩ := State.frameOpenArrival_cases _ f <;> rw [h]
    · exact State.startFrame_sound _ hs
    · exact hs
  case lost =>
    rw [State.loseLink_eq]
    obtain ⟨-, h⟩ | ⟨-, h⟩ := State.lossAtSequencer_cases _ <;> rw [h]
    · exact State.startFrame_sound _ hs
    · exact hs
  case gapEnded => exact State.startFrame_sound _ hs
  case lineCompleted r r' sub hr same =>
    obtain ⟨r'', -, h | h⟩ := s.completeLine_cases r' sub <;> rw [h]
    · simpa using hs
    · exact State.endFrame_sound _ hs
  case managed h =>
    exact h.managed.keeps (P := fun s => s.config.Sound) (fun _ _ _ hs h => h.config_sound hs) (fun _ _ _ => id) hs
  all_goals simpa using hs

/-! ## The mover, and with it the canonical form of the array (R142-R148) -/

/-- The mover is consistent and, if `w` holds, the array is in canonical form. -/
def State.MoverAndArray (w : Prop) (s : State) : Prop :=
  s.mover.consistent = true ∧ (w → s.pmem.array.wf = true)

theorem OwnerEffect.moverAndArray {w : Prop} {s t : State} {c : CommandName} (h : OwnerEffect s c t)
    (hs : s.MoverAndArray w) : t.MoverAndArray w := by
  cases h
  case reset => exact ⟨rfl, PictureMemory.drain_wf ∘ hs.2⟩
  case memory h => exact ⟨hs.1, h.array ∘ hs.2⟩
  case started h => exact ⟨h, hs.2⟩
  case aborted => exact ⟨rfl, hs.2⟩
  all_goals exact hs

theorem State.endFrame_moverAndArray {w : Prop} {s : State} (r : FrameRecord) (hs : s.MoverAndArray w) :
    (s.endFrame r).MoverAndArray w := by
  obtain ⟨d, he, -, -, -, hp, -⟩ := s.endFrame_eq r
  rw [he]
  refine ⟨Mover.resume_consistent _ hs.1, fun hw => ?_⟩
  simpa [hp] using PictureMemory.drain_wf (hs.2 hw)

/-- A row step applied to a consistent operation writes its span inside the array, and the operation goes on or
completes (R148, R149). -/
theorem State.applyRowStep_moverAndArray {w : Prop} {s : State} {i : Nat} (state : s.mover.state = .running)
    (step : s.mover.op.stepRow = some i) (hs : s.MoverAndArray w) :
    (s.applyRowStep i).afterRowStep.MoverAndArray w := by
  obtain ⟨hm, ha⟩ := hs
  obtain ⟨hstep, fits⟩ := (Mover.consistent_running state).1 hm
  have hi : i < s.mover.op.rows := by
    rw [step] at hstep
    cases hstep
    exact MoveOp.nextOffset_lt fits
  constructor
  · obtain ⟨-, h⟩ | ⟨hne, h⟩ := (s.applyRowStep i).afterRowStep_cases <;> rw [h]
    · rfl
    · obtain ⟨hlt, dst, src⟩ := fits
      refine Mover.decideStep_consistent _ ⟨?_, dst, src⟩
      exact lt_of_le_of_ne hlt hne
  · intro hw
    simpa using MoveOp.applyStep_wf fits hi (ha hw)

theorem RowEffect.moverAndArray {w : Prop} {s t : State} (h : RowEffect s t) (hs : s.MoverAndArray w) :
    t.MoverAndArray w := by
  cases h
  case poweredOn => exact ⟨rfl, fun _ => rfl⟩
  case initialised => exact ⟨hs.1, fun _ => rfl⟩
  case opened f => rw [State.openFrame_eq]; simpa [State.MoverAndArray] using hs
  case lost => rw [State.loseLink_eq]; simpa [State.MoverAndArray] using hs
  case lineCompleted r r' sub hr same =>
    obtain ⟨r'', -, h | h⟩ := s.completeLine_cases r' sub <;> rw [h]
    · simpa [State.MoverAndArray] using hs
    · exact State.endFrame_moverAndArray _ hs
  case stalled state => exact ⟨Mover.stall_consistent ((Mover.consistent_running state).1 hs.1).2, hs.2⟩
  case stepped state step => exact State.applyRowStep_moverAndArray state step hs
  case managed h => exact h.managed.keeps (fun _ _ _ hs h => h.moverAndArray hs) (fun _ _ _ => id) hs
  all_goals simpa [State.MoverAndArray] using hs

/-! ## The statement -/

/-- A step runs the front of the queue on the rest, or idles: either way a row's effect, the queue apart. -/
theorem step_effect {s t : State} (h : step s = .next t) : ∃ rest, RowEffect { s with pending := rest } t := by
  unfold step at h
  split at h
  · cases h; exact ⟨s.pending, .unchanged⟩
  · exact ⟨_, exec_effect h⟩

/-- Settles O56: each block's relations are kept by every effect a row can have on that block. -/
theorem stepsKeepEachBlockConsistent : Obligations.StepsKeepEachBlockConsistent := by
  intro s t h
  obtain ⟨rest, effect⟩ := step_effect h
  refine ⟨effect.link_consistent, effect.osq_consistent, fun hr hv hd => effect.config_sound ⟨hr, hv, hd⟩, fun hm => ?_⟩
  exact effect.moverAndArray ⟨hm, id⟩

end Sys2Proof.Machine
end

