-- ==== Sys2Proof/Proofs/LineStore.lean ====
section
/-! PROOFS. The line store's relations, and what each of its operations keeps of them (R82-R93). -/

namespace Sys2Proof.Machine

/-! ## The relations as propositions -/

/-- A stored line that the entry has received: it carries the frame's tag and as many pixels as its width, and its
number is at most the highest received (R82). -/
def FrameEntry.Received (e : FrameEntry) (x : StoredLine) : Prop :=
  x.tag = e.frame.tag ∧ x.pixels.length = e.frame.width ∧ ∃ h, e.highest = some h ∧ x.number ≤ h

/-- What R82 says of the slots. -/
structure LineStore.SlotsSound (l : LineStore) : Prop where
  room : l.slots.length ≤ 32
  belong : ∀ x ∈ l.slots, ∃ e, l.entry x.entry = some e ∧ e.Received x
  distinct : l.slots.Pairwise fun a b => ¬(a.tag = b.tag ∧ a.number = b.number)

/-- The relations of the line store by itself (R82, R93). -/
structure LineStore.Sound (l : LineStore) : Prop extends l.SlotsSound where
  held : ∀ q, l.held = some q → l.query q = .waiting

theorem LineStore.sound_iff {l : LineStore} :
    l.Sound ↔ l.slots.length ≤ Config.lineSlots ∧ l.linesBelong = true ∧ l.linesDistinct = true
      ∧ l.heldWaits = true := by
  have belong : l.linesBelong = true ↔ ∀ x ∈ l.slots, ∃ e, l.entry x.entry = some e ∧ e.Received x := by
    simp [linesBelong, FrameEntry.Received, Option.any_eq_true, and_assoc]
  have held : l.heldWaits = true ↔ ∀ q, l.held = some q → l.query q = .waiting := by
    simp [heldWaits, Option.all_eq_true]
  have distinct : l.linesDistinct = true ↔ l.slots.Pairwise fun a b => ¬(a.tag = b.tag ∧ a.number = b.number) :=
    decide_eq_true_iff
  rw [belong, held, distinct]
  exact ⟨fun h => ⟨h.room, h.belong, h.distinct, h.held⟩, fun ⟨h1, h2, h3, h4⟩ => ⟨⟨h1, h2, h3⟩, h4⟩⟩

theorem emptyLines_sound : emptyLines.Sound :=
  LineStore.sound_iff.2 (by decide)

/-! ## Queries -/

/-- The bound entry and the slots decide every answer (R92). -/
theorem LineStore.query_congr {l l' : LineStore} (bound : l'.bound = l.bound) (slots : l'.slots = l.slots) (q : Int) :
    l'.query q = l.query q := by
  simp only [query, stored, bound, slots]

/-- Lines of the pending entry answer no query (R92). -/
theorem LineStore.query_openWaiting (l : LineStore) (f : InputFrame) (q : Int) :
    (l.openWaiting f).query q = l.query q := by
  have stored : (l.openWaiting f).stored q = l.stored q := by
    simp only [LineStore.stored, openWaiting, List.find?_filter]
    congr 1
    funext x
    cases x.entry <;> simp
  simp only [query, stored]
  rfl

/-- Without a bound entry no query waits (R13, R92). -/
theorem LineStore.held_of_unbound {l : LineStore} (h : l.Sound) (bound : l.bound = none) : l.held = none := by
  cases hh : l.held with
  | none => rfl
  | some q => simpa [query, bound] using h.held q hh

/-- With the last query unanswered but waiting kept, or dropped, a store with sound slots is sound (R93). -/
theorem LineStore.answerHeld_sound {l : LineStore} (h : l.SlotsSound) : l.answerHeld.Sound := by
  have slots : l.answerHeld.SlotsSound := ⟨by simpa using h.room, by simpa using h.belong, by simpa using h.distinct⟩
  refine ⟨slots, fun q hq => ?_⟩
  rw [query_congr l.answerHeld_bound l.answerHeld_slots]
  unfold answerHeld at hq
  split at hq
  · next hn => rw [hn] at hq; cases hq
  · next q' hs =>
    split at hq
    · next hw => rw [hs] at hq; cases hq; exact hw
    · cases hq

theorem LineStore.ask_sound {l : LineStore} (q : Int) (h : l.Sound) : (l.ask q).Sound := by
  obtain ⟨hq, he⟩ | ⟨-, he⟩ := l.ask_cases q <;> rw [he]
  · refine ⟨⟨h.room, h.belong, h.distinct⟩, fun q' hq' => ?_⟩
    cases hq'
    exact hq
  · exact h

/-! ## Operations on the entries -/

/-- A change of an entry that keeps its received lines keeps the slots' relations. -/
theorem LineStore.mapEntry_slotsSound {l : LineStore} {r : EntryRef} {f : FrameEntry → FrameEntry} (h : l.SlotsSound)
    (keeps : ∀ e x, l.entry r = some e → e.Received x → (f e).Received x) : (l.mapEntry r f).SlotsSound := by
  refine ⟨by simpa using h.room, fun x hx => ?_, by simpa using h.distinct⟩
  rw [mapEntry_slots] at hx
  obtain ⟨e, he, hr⟩ := h.belong x hx
  by_cases hxr : x.entry = r
  · subst hxr
    exact ⟨f e, by rw [mapEntry_entry, he]; rfl, keeps e x he hr⟩
  · exact ⟨e, by rw [mapEntry_entry_other _ _ hxr, he], hr⟩

theorem LineStore.closeFrame_sound {l : LineStore} (kind : CloseKind) (h : l.Sound) : (l.closeFrame kind).Sound := by
  unfold closeFrame
  split
  · exact h
  · refine answerHeld_sound (mapEntry_slotsSound h.toSlotsSound fun e x _ hx => ?_)
    split <;> exact hx

/-- A close changes no entry's frame and no entry's highest received line (R85). -/
theorem LineStore.closeFrame_entry (l : LineStore) (kind : CloseKind) (r : EntryRef) :
    ((l.closeFrame kind).entry r).map (fun e => e.frame) = (l.entry r).map fun e => e.frame := by
  cases h : l.receiving with
  | none => rw [closeFrame_of_none kind h]
  | some r' =>
    by_cases hr : r = r'
    · subst hr
      rw [closeFrame_receiving kind h, Option.map_map]
      congr 1
      funext e
      dsimp only [Function.comp]
      split <;> rfl
    · rw [closeFrame_other kind h hr]

/-- Every entry of the store is CLOSED (R83). -/
def LineStore.AllClosed (l : LineStore) : Prop :=
  ∀ r e, l.entry r = some e → e.close ≠ none

/-! Which entry is the receiving one (R84, R90). -/

theorem LineStore.receiving_none {l : LineStore} : l.receiving = none ↔ l.bound = none ∧ l.waiting = none := by
  unfold receiving
  cases l.bound <;> cases l.waiting <;> simp

theorem LineStore.receiving_waiting {l : LineStore} : l.receiving = some .waiting ↔ l.waiting ≠ none := by
  unfold receiving
  cases l.bound <;> cases l.waiting <;> simp

theorem LineStore.receiving_bound {l : LineStore} :
    l.receiving = some .bound ↔ l.bound ≠ none ∧ l.waiting = none := by
  unfold receiving
  cases l.bound <;> cases l.waiting <;> simp

/-- The entries that exist decide which one receives. -/
theorem LineStore.receiving_congr {l l' : LineStore}
    (bound : l'.bound.map (fun e => e.frame) = l.bound.map fun e => e.frame)
    (waiting : l'.waiting.map (fun e => e.frame) = l.waiting.map fun e => e.frame) : l'.receiving = l.receiving := by
  have hb : l'.bound.isSome = l.bound.isSome := by simpa using congrArg Option.isSome bound
  have hw : l'.waiting.isSome = l.waiting.isSome := by simpa using congrArg Option.isSome waiting
  simp only [receiving, hb, hw]

/-! ## Storing a line -/

theorem makeRoom_sublist (slots : List StoredLine) (r : EntryRef) (tag : Word) (number : Nat) :
    (makeRoom slots r tag number).Sublist slots := by
  unfold makeRoom
  split_ifs
  · exact List.filter_sublist
  · exact List.Sublist.refl slots
  · exact List.tail_sublist slots

/-- Room for one line is made: of 32 lines at least one is freed (R86-R88). -/
theorem makeRoom_length {slots : List StoredLine} (r : EntryRef) (tag : Word) (number : Nat)
    (h : slots.length ≤ 32) : (makeRoom slots r tag number).length < 32 := by
  unfold makeRoom
  split_ifs with clash room
  · obtain ⟨x, hx, hc⟩ := List.any_eq_true.1 clash
    exact lt_of_lt_of_le (List.length_filter_lt_length_iff_exists.2 ⟨x, hx, by simpa using hc⟩) h
  · exact room
  · rw [List.length_tail]; omega

/-- No line of the other entry with the new line's tag and number is left (R88). -/
theorem makeRoom_clash {slots : List StoredLine} {r : EntryRef} {tag : Word} {number : Nat} {x : StoredLine}
    (h : x ∈ makeRoom slots r tag number) (other : x.entry ≠ r) : ¬(x.tag = tag ∧ x.number = number) := by
  unfold makeRoom at h
  rintro ⟨ht, hn⟩
  split_ifs at h with clash room
  · simpa [other, ht, hn] using (List.mem_filter.1 h).2
  · exact clash (List.any_eq_true.2 ⟨x, h, by simp [other, ht, hn]⟩)
  · exact clash (List.any_eq_true.2 ⟨x, List.mem_of_mem_tail h, by simp [other, ht, hn]⟩)

/-- An accepted line of the receiving entry's frame, above its highest received line, is stored (R82, R86, R107). -/
theorem LineStore.storeLine_sound {l : LineStore} {tag : Word} {number : Nat} {pixels : List Word} (h : l.Sound)
    (accepted : ∀ r, l.receiving = some r → ∃ e, l.entry r = some e ∧ e.frame.tag = tag
      ∧ pixels.length = e.frame.width ∧ ∀ m, e.highest = some m → m < number) :
    (l.storeLine tag number pixels).Sound := by
  unfold storeLine
  split
  · exact h
  · next r hr =>
    obtain ⟨e, he, rfl, hw, hm⟩ := accepted r hr
    have raised : (l.mapEntry r fun e => { e with highest := some number }).SlotsSound := by
      refine mapEntry_slotsSound h.toSlotsSound fun e' x he' hx => ?_
      obtain ⟨ht, hp, m, hm', hle⟩ := hx
      rw [he] at he'
      cases he'
      exact ⟨ht, hp, number, rfl, le_trans hle (hm m hm').le⟩
    refine answerHeld_sound ⟨?_, fun x hx => ?_, ?_⟩
    · simpa using makeRoom_length r e.frame.tag number raised.room
    · rcases List.mem_append.1 hx with hx | hx
      · exact raised.belong x ((makeRoom_sublist _ _ _ _).subset hx)
      · rw [List.mem_singleton.1 hx]
        have entry : (l.mapEntry r fun e => { e with highest := some number }).entry r
            = some { e with highest := some number } := by rw [mapEntry_entry, he]; rfl
        exact ⟨_, entry, rfl, hw, number, rfl, le_rfl⟩
    · have old := raised.distinct.sublist (makeRoom_sublist _ r e.frame.tag number)
      refine List.pairwise_append.2 ⟨old, List.pairwise_singleton _ _, fun x hx y hy => ?_⟩
      rw [List.mem_singleton.1 hy]
      by_cases hxr : x.entry = r
      · rintro ⟨-, rfl⟩
        have old : x ∈ l.slots := by simpa using (makeRoom_sublist _ _ _ _).subset hx
        obtain ⟨e', he', -, -, m, hm', hle⟩ := h.belong x old
        rw [hxr, he] at he'
        cases he'
        exact absurd (hm m hm') (by omega)
      · exact makeRoom_clash hx hxr

/-- The receiving entry takes the stored line's number as its highest, and no other entry changes (R86). -/
theorem LineStore.storeLine_entry {l : LineStore} {r : EntryRef} (tag : Word) (number : Nat) (pixels : List Word)
    (h : l.receiving = some r) (r' : EntryRef) :
    (l.storeLine tag number pixels).entry r' = (l.mapEntry r fun e => { e with highest := some number }).entry r' := by
  simp only [storeLine, h, answerHeld_entry]
  cases r' <;> rfl

/-- Storing a line changes no entry's frame (R86). -/
theorem LineStore.storeLine_frame (l : LineStore) (tag : Word) (number : Nat) (pixels : List Word) (r : EntryRef) :
    ((l.storeLine tag number pixels).entry r).map (fun e => e.frame) = (l.entry r).map fun e => e.frame := by
  cases h : l.receiving with
  | none => simp [storeLine, h]
  | some r' =>
    rw [storeLine_entry tag number pixels h]
    by_cases hr : r = r'
    · subst hr; rw [mapEntry_entry, Option.map_map]; rfl
    · rw [mapEntry_entry_other _ _ hr]

/-! ## New entries, and the end of the bound one -/

/-- Without entries there are no stored lines (R82). -/
theorem LineStore.slots_of_no_entries {l : LineStore} (h : l.Sound) (bound : l.bound = none)
    (waiting : l.waiting = none) : l.slots = [] := by
  refine List.eq_nil_iff_forall_not_mem.2 fun x hx => ?_
  obtain ⟨e, he, -⟩ := h.belong x hx
  cases hx : x.entry <;> simp [LineStore.entry, hx, bound, waiting] at he

theorem LineStore.openBound_sound {l : LineStore} (f : InputFrame) (h : l.Sound) (bound : l.bound = none)
    (waiting : l.waiting = none) : (l.openBound f).Sound := by
  have slots := slots_of_no_entries h bound waiting
  have held := held_of_unbound h bound
  refine ⟨⟨?_, ?_, ?_⟩, ?_⟩ <;> simp [openBound, slots, held]

theorem LineStore.openWaiting_sound {l : LineStore} (f : InputFrame) (h : l.Sound) : (l.openWaiting f).Sound := by
  refine ⟨⟨?_, fun x hx => ?_, h.distinct.sublist List.filter_sublist⟩, fun q hq => ?_⟩
  · exact le_trans (List.length_filter_le _ _) h.room
  · obtain ⟨hx, hb⟩ := List.mem_filter.1 hx
    obtain ⟨e, he, hr⟩ := h.belong x hx
    refine ⟨e, ?_, hr⟩
    cases hxe : x.entry <;> simp_all [openWaiting, LineStore.entry]
  · rw [query_openWaiting]
    exact h.held q hq

theorem LineStore.freeBound_sound {l : LineStore} (h : l.Sound) : l.freeBound.Sound := by
  refine ⟨⟨?_, fun x hx => ?_, h.distinct.sublist List.filter_sublist⟩, fun q hq => nomatch hq⟩
  · exact le_trans (List.length_filter_le _ _) h.room
  · obtain ⟨hx, hb⟩ := List.mem_filter.1 hx
    obtain ⟨e, he, hr⟩ := h.belong x hx
    refine ⟨e, ?_, hr⟩
    cases hxe : x.entry <;> simp_all [freeBound, LineStore.entry]

/-- The pending entry becomes the bound one where there is none, and its lines go with it (R83, R90). -/
theorem LineStore.bindWaiting_sound {l : LineStore} (h : l.Sound) (bound : l.bound = none) : l.bindWaiting.Sound := by
  refine ⟨⟨?_, fun y hy => ?_, ?_⟩, fun q hq => ?_⟩
  · simpa [bindWaiting] using h.room
  · obtain ⟨x, hx, rfl⟩ := List.mem_map.1 hy
    obtain ⟨e, he, hr⟩ := h.belong x hx
    cases hxe : x.entry with
    | bound => simp [LineStore.entry, hxe, bound] at he
    | waiting => exact ⟨e, by simpa [hxe, LineStore.entry, bindWaiting] using he, hr⟩
  · refine List.pairwise_map.2 (h.distinct.imp fun {a b} hab => ?_)
    split <;> split <;> exact hab
  · have held : l.held = none := held_of_unbound h bound
    change l.held = some q at hq
    rw [held] at hq
    cases hq

end Sys2Proof.Machine
end

