-- ==== Sys2Proof/Proofs/LineStoreInvariants.lean ====
section
/-! PROOFS. Every row keeps the line store's relations, by itself and with the link receiver and the sequencer. -/

namespace Sys2Proof.Machine

/-! ## The receiver's open input frame and the entries (R83, R85, R103) -/

theorem receiverMatches_iff {l : LinkReceiver} {t : LineStore} :
    receiverMatches l t = true ↔ (l.current = none → t.AllClosed)
      ∧ ∀ c r, l.current = some c → t.receiving = some r →
          (∃ e, t.entry r = some e ∧ e.frame = c.frame ∧ e.highest = c.highest ∧ e.close = none)
            ∧ (r = .waiting → ∀ e, t.bound = some e → e.close ≠ none) := by
  have closed (e : Option FrameEntry) :
      (e.all fun e => e.close.isSome) = true ↔ ∀ x, e = some x → x.close ≠ none := by
    simp [Option.all_eq_true, Option.isSome_iff_ne_none]
  have both : t.AllClosed ↔ (∀ e, t.bound = some e → e.close ≠ none) ∧ ∀ e, t.waiting = some e → e.close ≠ none :=
    ⟨fun h => ⟨h .bound, h .waiting⟩, fun ⟨hb, hw⟩ r => by cases r; exacts [hb, hw]⟩
  unfold receiverMatches
  cases hc : l.current with
  | none => simp only [Bool.and_eq_true, closed, both]; simp
  | some c =>
    cases hr : t.receiving with
    | none => simp
    | some r => cases r <;> simp [closed, Option.any_eq_true, and_assoc]

/-- The close of the open input frame leaves every entry CLOSED (R85). -/
theorem LineStore.closeFrame_allClosed {l : LinkReceiver} {t : LineStore} {c : CurrentFrame} (kind : CloseKind)
    (h : receiverMatches l t = true) (current : l.current = some c) : (t.closeFrame kind).AllClosed := by
  intro r e he
  cases hr : t.receiving with
  | none =>
    obtain ⟨hb, hw⟩ := receiving_none.1 hr
    rw [closeFrame_of_none kind hr] at he
    cases r <;> simp [LineStore.entry, hb, hw] at he
  | some r' =>
    by_cases hrr : r = r'
    · subst hrr
      rw [closeFrame_receiving kind hr] at he
      obtain ⟨e', -, rfl⟩ := Option.map_eq_some_iff.1 he
      split
      · simp
      · next hn => simpa using hn
    · rw [closeFrame_other kind hr hrr] at he
      obtain ⟨-, other⟩ := (receiverMatches_iff.1 h).2 c r' current hr
      match r, r', hrr with
      | .bound, .waiting, _ => exact other rfl e he
      | .waiting, .bound, _ => simp [LineStore.entry, (receiving_bound.1 hr).2] at he

/-! ## The relations of the line store with its neighbours -/

/-- The line store's relations: by itself, with the frame in progress and the pending slot, and with the receiver's open
input frame. -/
structure LinesSound (l : LinkReceiver) (q : Sequencer) (t : LineStore) : Prop where
  store : t.Sound
  bound : t.bound.map (fun e => e.frame) = q.record.bind FrameRecord.input
  waiting : t.waiting.map (fun e => e.frame) = q.slot
  receiver : receiverMatches l t = true

/-- Of the receiver only the open input frame counts, of the sequencer the record's input frame and the slot. -/
theorem LinesSound.congr {l l' : LinkReceiver} {q q' : Sequencer} {t : LineStore} (h : LinesSound l q t)
    (current : l'.current = l.current)
    (input : q'.record.bind FrameRecord.input = q.record.bind FrameRecord.input) (slot : q'.slot = q.slot) :
    LinesSound l' q' t where
  store := h.store
  bound := h.bound.trans input.symm
  waiting := h.waiting.trans slot.symm
  receiver := by have := h.receiver; simp only [receiverMatches, current] at this ⊢; exact this

/-- A question changes no entry (R93). -/
theorem LinesSound.ask {l : LinkReceiver} {q : Sequencer} {t : LineStore} (i : Int) (h : LinesSound l q t) :
    LinesSound l q (t.ask i) := by
  obtain ⟨-, he⟩ | ⟨-, he⟩ := t.ask_cases i
  · exact { store := LineStore.ask_sound i h.store
            bound := by rw [he]; exact h.bound
            waiting := by rw [he]; exact h.waiting
            receiver := by rw [he]; exact h.receiver }
  · rw [he]; exact h

theorem State.askNext_lines_cases (s : State) : s.askNext.lines = s.lines ∨ ∃ q, s.askNext.lines = s.lines.ask q := by
  unfold askNext
  split
  · exact .inl rfl
  · split
    · split
      · exact .inr ⟨_, rfl⟩
      · exact .inl rfl
    · exact .inl rfl

theorem State.askNext_linesSound {s : State} (h : LinesSound s.link s.osq s.lines) :
    LinesSound s.askNext.link s.askNext.osq s.askNext.lines := by
  rw [askNext_link, askNext_osq]
  obtain he | ⟨q, he⟩ := s.askNext_lines_cases <;> rw [he]
  · exact h
  · exact h.ask q

/-! ## A frame start -/

/-- The input frame that a frame of this kind is bound to. -/
def FrameKind.input : FrameKind → Option InputFrame
  | .bound f => some f
  | .holdover => none

/-- A frame starts whose bound entry is there, or which is bound to none (R60, R83). -/
theorem State.startFrame_linesSound {s : State} {kind : FrameKind} (store : s.lines.Sound)
    (bound : s.lines.bound.map (fun e => e.frame) = kind.input)
    (waiting : s.lines.waiting.map (fun e => e.frame) = s.osq.slot)
    (receiver : receiverMatches s.link s.lines = true) :
    LinesSound (s.startFrame kind).link (s.startFrame kind).osq (s.startFrame kind).lines := by
  unfold startFrame
  refine State.askNext_linesSound ?_
  rw [State.handNotice?_eq]
  refine ⟨store, ?_, waiting, receiver⟩
  rw [bound]
  cases kind <;> rfl

/-- Between frames there is no bound entry (R59, R83). -/
theorem LinesSound.bound_none {l : LinkReceiver} {q : Sequencer} {t : LineStore} (h : LinesSound l q t)
    (record : q.record = none) : t.bound = none := by
  have := h.bound
  rw [record] at this
  simpa using this

theorem LinesSound.waiting_none {l : LinkReceiver} {q : Sequencer} {t : LineStore} (h : LinesSound l q t)
    (slot : q.slot = none) : t.waiting = none := by
  have := h.waiting
  rw [slot] at this
  simpa using this

/-- A holdover frame starts between frames (R66, R67, R75). -/
theorem State.startHoldover_linesSound {s : State} (h : LinesSound s.link s.osq s.lines)
    (record : s.osq.record = none) :
    LinesSound (s.startFrame .holdover).link (s.startFrame .holdover).osq (s.startFrame .holdover).lines :=
  startFrame_linesSound h.store (by rw [h.bound_none record]; rfl) h.waiting h.receiver

/-! ## A frame end -/

/-- Without the bound entry the pending one goes on as the receiver's open input frame, if it is that (R83, R90). -/
theorem receiverMatches_freeBound {l : LinkReceiver} {t : LineStore} (h : receiverMatches l t = true) :
    receiverMatches l t.freeBound = true := by
  obtain ⟨closed, matched⟩ := receiverMatches_iff.1 h
  refine receiverMatches_iff.2 ⟨fun hn => ?_, fun c r hc hr => ?_⟩
  · rintro (_ | _) e he
    · cases he
    · exact closed hn .waiting e he
  · cases r with
    | bound => exact absurd rfl (LineStore.receiving_bound.1 hr).1
    | waiting =>
      have pending : t.waiting ≠ none := (LineStore.receiving_waiting (l := t.freeBound)).1 hr
      have receiving := LineStore.receiving_waiting.2 pending
      exact ⟨(matched c .waiting hc receiving).1, fun _ _ hb => nomatch hb⟩

/-- With its bound entry freed, the store is that of a part between frames (R90). -/
theorem LinesSound.freed {l : LinkReceiver} {q q' : Sequencer} {t : LineStore} {r : FrameRecord} (h : LinesSound l q t)
    (record : q.record = some r) (record' : q'.record = none) (slot : q'.slot = q.slot) :
    LinesSound l q' (if r.input.isSome then t.freeBound else t) := by
  have waiting := h.waiting.trans slot.symm
  cases hi : r.input with
  | none =>
    have bound := h.bound
    rw [record, Option.bind_some, hi] at bound
    exact ⟨h.store, by rw [record']; exact bound, waiting, h.receiver⟩
  | some f =>
    exact ⟨LineStore.freeBound_sound h.store, by rw [record']; rfl, waiting, receiverMatches_freeBound h.receiver⟩

/-- The pending entry becomes the bound one: it goes on as the receiver's open input frame, if it is that (R83, R90). -/
theorem receiverMatches_bindWaiting {l : LinkReceiver} {t : LineStore} (h : receiverMatches l t = true) :
    receiverMatches l t.bindWaiting = true := by
  obtain ⟨closed, matched⟩ := receiverMatches_iff.1 h
  refine receiverMatches_iff.2 ⟨fun hn => ?_, fun c r hc hr => ?_⟩
  · rintro (_ | _) e he
    · exact closed hn .waiting e he
    · cases he
  · cases r with
    | bound =>
      have receiving := LineStore.receiving_waiting.2 (LineStore.receiving_bound.1 hr).1
      exact ⟨(matched c .waiting hc receiving).1, fun hw => nomatch hw⟩
    | waiting => exact absurd rfl (LineStore.receiving_waiting.1 hr)

theorem State.chooseNext_linesSound {s : State} (r : FrameRecord) (h : LinesSound s.link s.osq s.lines)
    (record : s.osq.record = none) :
    LinesSound (s.chooseNext r).link (s.chooseNext r).osq (s.chooseNext r).lines := by
  have bound := h.bound_none record
  obtain ⟨f, hf, hc⟩ | ⟨-, -, hc⟩ | ⟨-, -, -, -, hc⟩ | ⟨-, -, hc⟩ := s.chooseNext_cases r <;> rw [hc]
  · exact startFrame_linesSound (LineStore.bindWaiting_sound h.store bound) (h.waiting.trans hf) rfl
      (receiverMatches_bindWaiting h.receiver)
  · exact h.congr rfl rfl rfl
  · exact h.congr rfl rfl rfl
  · exact startHoldover_linesSound h record

theorem State.endFrame_linesSound {s : State} {r : FrameRecord} (h : LinesSound s.link s.osq s.lines)
    (record : s.osq.record = some r) :
    LinesSound (s.endFrame r).link (s.endFrame r).osq (s.endFrame r).lines := by
  obtain ⟨d, he, hl, -, -, -, -, -, -, hlines, hosq⟩ := s.endFrame_eq r
  rw [he]
  have ended : d.osq.record = none ∧ d.osq.slot = s.osq.slot := by
    obtain ⟨-, hq, -⟩ | ⟨-, hq, -⟩ := hosq <;> rw [hq] <;> exact ⟨rfl, rfl⟩
  obtain ⟨hr, hs⟩ := ended
  refine State.chooseNext_linesSound r ?_ hr
  rw [hl, hlines]
  exact h.freed record hr hs

/-! ## The rows of the forward link -/

/-- The truncation of the input frame that is open, if one is, leaves every entry CLOSED (R85, R106). -/
theorem LinesSound.truncated {l : LinkReceiver} {q : Sequencer} {t t' : LineStore} (h : LinesSound l q t)
    (ht : t' = if l.current.isSome then t.closeFrame .truncated else t) :
    t'.Sound ∧ t'.AllClosed ∧ t'.bound.map (fun e => e.frame) = t.bound.map (fun e => e.frame)
      ∧ t'.waiting.map (fun e => e.frame) = t.waiting.map fun e => e.frame := by
  subst ht
  cases hc : l.current with
  | none => exact ⟨h.store, (receiverMatches_iff.1 h.receiver).1 hc, rfl, rfl⟩
  | some c =>
    exact ⟨LineStore.closeFrame_sound _ h.store, LineStore.closeFrame_allClosed _ h.receiver hc,
      t.closeFrame_entry _ .bound, t.closeFrame_entry _ .waiting⟩

/-- With no input frame open, CLOSED entries are all the receiver asks for (R83). -/
theorem receiverMatches_of_allClosed {l : LinkReceiver} {t : LineStore} (current : l.current = none)
    (closed : t.AllClosed) : receiverMatches l t = true :=
  receiverMatches_iff.2 ⟨fun _ => closed, fun c r hc => by rw [current] at hc; cases hc⟩

/-- A new input frame is the receiver's open one, in the bound entry or in the pending one (R84, R105). -/
theorem receiverMatches_openBound {l : LinkReceiver} {t : LineStore} {f : InputFrame}
    (current : l.current = some { frame := f, highest := none }) (waiting : t.waiting = none) :
    receiverMatches l (t.openBound f) = true := by
  have receiving : (t.openBound f).receiving = some .bound := by
    simp [LineStore.receiving, LineStore.openBound, waiting]
  refine receiverMatches_iff.2 ⟨(by simp [current]), fun c r hc hr => ?_⟩
  rw [current] at hc
  rw [receiving] at hr
  cases hc
  cases hr
  exact ⟨⟨newEntry f, rfl, rfl, rfl, rfl⟩, fun hw => nomatch hw⟩

theorem receiverMatches_openWaiting {l : LinkReceiver} {t : LineStore} {f : InputFrame}
    (current : l.current = some { frame := f, highest := none }) (closed : t.AllClosed) :
    receiverMatches l (t.openWaiting f) = true := by
  refine receiverMatches_iff.2 ⟨(by simp [current]), fun c r hc hr => ?_⟩
  rw [current] at hc
  cases hc
  cases hr
  exact ⟨⟨newEntry f, rfl, rfl, rfl, rfl⟩, fun _ e he => closed .bound e he⟩

/-- WAIT and HOLD_GAP stand between frames, with the pending slot empty (R59). -/
theorem Sequencer.between_frames {q : Sequencer} (h : q.consistent = true)
    (state : q.state = .wait ∨ q.state = .holdGap) : q.record = none ∧ q.slot = none := by
  obtain ⟨⟨-, hr, -, hs⟩ | ⟨hst, -⟩ | ⟨-, hr, -, hs⟩ | ⟨hst, -⟩, -⟩ := consistent_iff.1 h
  · exact ⟨hr, hs⟩
  · simp [hst] at state
  · exact ⟨hr, hs⟩
  · simp [hst] at state

theorem State.openFrame_linesSound {s : State} (f : InputFrame) (hq : s.osq.consistent = true)
    (h : LinesSound s.link s.osq s.lines) :
    LinesSound (s.openFrame f).link (s.openFrame f).osq (s.openFrame f).lines := by
  obtain ⟨store, closed, bound, waiting⟩ := h.truncated rfl
  rw [openFrame_eq]
  obtain ⟨state, he⟩ | ⟨-, skipAcc, framesSkipped, he⟩ := frameOpenArrival_cases _ f <;> rw [he]
  · obtain ⟨hr, hs⟩ := Sequencer.between_frames hq state
    rw [h.bound_none hr] at bound
    rw [h.waiting_none hs] at waiting
    have hb := Option.map_eq_none_iff.1 bound
    have hw := Option.map_eq_none_iff.1 waiting
    refine startFrame_linesSound (LineStore.openBound_sound f store hb hw) rfl ?_ (receiverMatches_openBound rfl hw)
    exact (congrArg _ hw).trans hs.symm
  · exact ⟨LineStore.openWaiting_sound f store, bound.trans h.bound, rfl, receiverMatches_openWaiting rfl closed⟩

theorem State.loseLink_linesSound {s : State} (hq : s.osq.consistent = true)
    (h : LinesSound s.link s.osq s.lines) :
    LinesSound s.loseLink.link s.loseLink.osq s.loseLink.lines := by
  obtain ⟨store, closed, bound, waiting⟩ := h.truncated rfl
  have unlocked : LinesSound
      { s.link with parser := .search, locked := false, lossTimer := none, current := none } s.osq
      (if s.link.current.isSome then s.lines.closeFrame .truncated else s.lines) :=
    ⟨store, bound.trans h.bound, waiting.trans h.waiting, receiverMatches_of_allClosed rfl closed⟩
  rw [loseLink_eq]
  obtain ⟨state, he⟩ | ⟨-, he⟩ := lossAtSequencer_cases _ <;> rw [he]
  · exact startHoldover_linesSound unlocked (Sequencer.between_frames hq (.inl state)).1
  · exact unlocked

/-- An accepted LINE joins the receiving entry, and both have received it last (R86, R107). -/
theorem LinesSound.stored {l : LinkReceiver} {q : Sequencer} {t : LineStore} {c : CurrentFrame} {payload : List Word}
    {n : Nat} {pixels : List Word} (h : LinesSound l q t) (current : l.current = some c)
    (accepted : acceptedLine c payload = some (n, pixels)) :
    LinesSound { l with current := some { c with highest := some n } } q (t.storeLine c.frame.tag n pixels) := by
  obtain ⟨-, -, -, above, -, width⟩ := acceptedLine_some accepted
  obtain ⟨-, matched⟩ := receiverMatches_iff.1 h.receiver
  have frame := t.storeLine_frame c.frame.tag n pixels
  refine ⟨LineStore.storeLine_sound h.store fun r hr => ?_, (frame .bound).trans h.bound,
    (frame .waiting).trans h.waiting, receiverMatches_iff.2 ⟨(fun hn => nomatch hn), fun c' r hc' hr => ?_⟩⟩
  · obtain ⟨⟨e, he, hf, hh, -⟩, -⟩ := matched c r current hr
    exact ⟨e, he, by rw [hf], by rw [hf, width], fun m hm => above m (hh.symm.trans hm)⟩
  · cases hc'
    rw [LineStore.receiving_congr (frame .bound) (frame .waiting)] at hr
    have entry := LineStore.storeLine_entry c.frame.tag n pixels hr
    obtain ⟨⟨e, he, hf, -, ho⟩, other⟩ := matched c r current hr
    refine ⟨⟨{ e with highest := some n }, by rw [entry, LineStore.mapEntry_entry, he]; rfl, hf, rfl, ho⟩, ?_⟩
    rintro rfl e' he'
    exact other rfl e' ((entry .bound).symm.trans he')

/-- An accepted FRAME_CLOSE closes the receiving entry, and no input frame is open (R85, R109). -/
theorem LinesSound.closed {l : LinkReceiver} {q : Sequencer} {t : LineStore} {c : CurrentFrame} (kind : CloseKind)
    (h : LinesSound l q t) (current : l.current = some c) :
    LinesSound { l with parser := .gap, current := none } q (t.closeFrame kind) where
  store := LineStore.closeFrame_sound kind h.store
  bound := (t.closeFrame_entry kind .bound).trans h.bound
  waiting := (t.closeFrame_entry kind .waiting).trans h.waiting
  receiver := receiverMatches_of_allClosed rfl (LineStore.closeFrame_allClosed kind h.receiver current)

/-! ## Every row -/

/-- With no entry, no line and no open input frame nothing is left to match: the values of both resets. -/
theorem linesSound_reset {l : LinkReceiver} {q : Sequencer} (current : l.current = none) (record : q.record = none)
    (slot : q.slot = none) : LinesSound l q emptyLines where
  store := emptyLines_sound
  bound := by rw [record]; rfl
  waiting := by rw [slot]; rfl
  receiver := receiverMatches_of_allClosed current fun r e he => by cases r <;> cases he

theorem OwnerEffect.linesSound {s t : State} {c : CommandName} (h : OwnerEffect s c t)
    (hs : LinesSound s.link s.osq s.lines) : LinesSound t.link t.osq t.lines := by
  cases h
  case counts => exact hs.congr rfl rfl rfl
  case reset => exact linesSound_reset rfl rfl rfl
  all_goals exact hs

theorem State.completeLine_linesSound {s : State} {r r' : FrameRecord} (substituted : Bool)
    (record : s.osq.record = some r) (same : r.SameFrame r') (h : LinesSound s.link s.osq s.lines) :
    LinesSound (s.completeLine r' substituted).link (s.completeLine r' substituted).osq
      (s.completeLine r' substituted).lines := by
  obtain ⟨r'', same', he⟩ := s.completeLine_cases r' substituted
  have went : LinesSound s.link { s.osq with record := some r'', emission := none } s.lines :=
    h.congr rfl (by rw [record]; exact (same.trans same').input) rfl
  obtain he | he := he <;> rw [he]
  · exact State.askNext_linesSound went
  · exact State.endFrame_linesSound went rfl

theorem RowEffect.linesSound {s t : State} (h : RowEffect s t) (hq : s.osq.consistent = true)
    (hs : LinesSound s.link s.osq s.lines) : LinesSound t.link t.osq t.lines := by
  cases h
  case poweredOn => exact linesSound_reset rfl rfl rfl
  case initialised => exact hs.congr rfl rfl rfl
  case counted current => exact hs.congr current rfl rfl
  case opened f => exact State.openFrame_linesSound f hq hs
  case stored current accepted => exact hs.stored current accepted
  case closed kind _ current => exact hs.closed kind current
  case lost => exact State.loseLink_linesSound hq hs
  case timerExpired => exact hs.congr rfl rfl rfl
  case gapEnded state =>
    exact State.startHoldover_linesSound (hs.congr rfl rfl rfl) (Sequencer.between_frames hq (.inr state)).1
  case lineBegun record same => exact hs.congr rfl (by rw [record]; exact same.input) rfl
  case lineCompleted sub record same => exact State.completeLine_linesSound sub record same hs
  case asked => exact State.askNext_linesSound hs
  case stepped => simpa using hs
  case managed h =>
    exact h.managed.keeps (P := fun s => LinesSound s.link s.osq s.lines) (fun _ _ _ hs h => h.linesSound hs)
      (fun _ _ _ => id) hs
  all_goals exact hs

end Sys2Proof.Machine
end

