-- ==== Sys2Proof/Proofs/FrameInvariants.lean ====
section
/-! PROOFS. Every row keeps the relations of the frame in progress with the live set and picture memory. -/

namespace Sys2Proof.Machine

/-- The relations of the frame in progress: built from the live set as it stands, seen by picture memory with the live
set's rows and guard, its deferred writes in place, and not torn under the guard (R30, R131-R135). -/
structure FrameSound (q : Sequencer) (c : ConfigStore) (p : PictureMemory) : Prop where
  live : frameMatchesLive q c = true
  view : viewMatches q c p = true
  deferred : p.deferredOk = true
  guard : p.guardHolds = true

/-- Of the sequencer the record counts, of the configuration store the live set and its generation. -/
theorem FrameSound.congr {q q' : Sequencer} {c c' : ConfigStore} {p : PictureMemory} (h : FrameSound q c p)
    (record : q'.record = q.record) (live : c'.live = c.live) (generation : c'.generation = c.generation) :
    FrameSound q' c' p where
  live := by have := h.live; simp only [frameMatchesLive, record, live, generation] at this ⊢; exact this
  view := by have := h.view; simp only [viewMatches, record, live] at this ⊢; exact this
  deferred := h.deferred
  guard := h.guard

/-- What keeps picture memory's relations keeps the frame's. -/
theorem FrameSound.keeps {q : Sequencer} {c : ConfigStore} {p p' : PictureMemory} (h : FrameSound q c p)
    (keeps : p.Keeps p') : FrameSound q c p' where
  live := h.live
  view := (keeps.view q c).trans h.view
  deferred := keeps.deferred h.deferred
  guard := keeps.guard h.guard

/-- The frame goes on under a record of the same frame (R60). -/
theorem FrameSound.sameFrame {q : Sequencer} {c : ConfigStore} {p : PictureMemory} {r r' : FrameRecord}
    (e : Option Emission) (h : FrameSound q c p) (record : q.record = some r) (same : r.SameFrame r') :
    FrameSound { q with record := some r', emission := e } c p where
  live := by
    have := h.live
    simp only [frameMatchesLive, record, Option.all_some] at this ⊢
    rw [same.generation, same.lines, same.drive, same.outputOverride]
    exact this
  view := by cases hv : p.view <;> simpa [viewMatches, record, hv] using h.view
  deferred := h.deferred
  guard := h.guard

/-- The array itself takes no part. -/
theorem FrameSound.withArray {q : Sequencer} {c : ConfigStore} {p : PictureMemory} (array : Memory)
    (h : FrameSound q c p) : FrameSound q c { p with array := array } where
  live := h.live
  view := h.view
  deferred := h.deferred
  guard := h.guard

/-- No frame is in progress, none is seen, and no write waits. -/
theorem FrameSound.between {q : Sequencer} {p : PictureMemory} (c : ConfigStore) (record : q.record = none)
    (view : p.view = none) (deferred : p.deferred = []) : FrameSound q c p where
  live := by simp [frameMatchesLive, record]
  view := by simp [viewMatches, record, view]
  deferred := by simp [PictureMemory.deferredOk, deferred]
  guard := by simp [PictureMemory.guardHolds, view]

/-- Between frames no write waits (R133, R135). -/
theorem FrameSound.deferred_nil {q : Sequencer} {c : ConfigStore} {p : PictureMemory} (h : FrameSound q c p)
    (record : q.record = none) : p.deferred = [] := by
  have view : p.view = none := by
    have := h.view
    cases hv : p.view with
    | none => rfl
    | some v => simp [viewMatches, record, hv] at this
  have placed := h.deferred
  simp only [PictureMemory.deferredOk, view, Option.any_none, Bool.and_eq_true, List.all_eq_true] at placed
  exact List.eq_nil_iff_forall_not_mem.2 fun d hd => by simpa using placed.2 d hd

/-- A frame starts with no write deferred: its record and its view are taken from the live set after CFG's decision
(R60, R62, R131). -/
theorem State.startFrame_frameSound {s : State} (kind : FrameKind) (deferred : s.pmem.deferred = []) :
    FrameSound (s.startFrame kind).osq (s.startFrame kind).config (s.startFrame kind).pmem := by
  obtain ⟨held, h⟩ := s.startFrame_eq kind
  rw [h]
  exact
    { live := by simp [frameMatchesLive, newRecord]
      view := by simp [viewMatches, PictureMemory.startFrame]
      deferred := by simp [PictureMemory.deferredOk, PictureMemory.startFrame, deferred]
      guard := by simp [PictureMemory.guardHolds, PictureMemory.startFrame] }

theorem State.endFrame_frameSound (s : State) (r : FrameRecord) :
    FrameSound (s.endFrame r).osq (s.endFrame r).config (s.endFrame r).pmem := by
  obtain ⟨d, h, -, -, -, hp, -, -, -, -, hosq⟩ := s.endFrame_eq r
  have record : d.osq.record = none := by
    obtain ⟨-, hq, -⟩ | ⟨-, hq, -⟩ := hosq <;> rw [hq]
  have view : d.pmem.view = none := by rw [hp]; rfl
  have deferred : d.pmem.deferred = [] := by rw [hp]; rfl
  rw [h]
  obtain ⟨f, -, hc⟩ | ⟨-, -, hc⟩ | ⟨-, -, -, -, hc⟩ | ⟨-, -, hc⟩ := d.chooseNext_cases r <;> rw [hc]
  · exact startFrame_frameSound _ deferred
  · exact .between _ record view deferred
  · exact .between _ record view deferred
  · exact startFrame_frameSound _ deferred

/-! ## Every row -/

theorem OwnerEffect.frameSound {s t : State} {c : CommandName} (h : OwnerEffect s c t)
    (hs : FrameSound s.osq s.config s.pmem) : FrameSound t.osq t.config t.pmem := by
  cases h
  case counts => exact hs.congr rfl rfl rfl
  case edited h => exact hs.congr rfl h.live h.generation
  case memory h => exact hs.keeps h
  case reset => exact .between _ rfl rfl rfl
  all_goals exact hs

theorem State.openFrame_frameSound {s : State} (f : InputFrame) (hq : s.osq.consistent = true)
    (h : FrameSound s.osq s.config s.pmem) :
    FrameSound (s.openFrame f).osq (s.openFrame f).config (s.openFrame f).pmem := by
  rw [openFrame_eq]
  obtain ⟨state, he⟩ | ⟨-, skipAcc, framesSkipped, he⟩ := frameOpenArrival_cases _ f <;> rw [he]
  · exact startFrame_frameSound _ (h.deferred_nil (Sequencer.between_frames hq state).1)
  · exact h.congr rfl rfl rfl

theorem State.loseLink_frameSound {s : State} (hq : s.osq.consistent = true) (h : FrameSound s.osq s.config s.pmem) :
    FrameSound s.loseLink.osq s.loseLink.config s.loseLink.pmem := by
  rw [loseLink_eq]
  obtain ⟨state, he⟩ | ⟨-, he⟩ := lossAtSequencer_cases _ <;> rw [he]
  · exact startFrame_frameSound _ (h.deferred_nil (Sequencer.between_frames hq (.inl state)).1)
  · exact h

theorem State.completeLine_frameSound {s : State} {r r' : FrameRecord} (substituted : Bool)
    (record : s.osq.record = some r) (same : r.SameFrame r') (h : FrameSound s.osq s.config s.pmem) :
    FrameSound (s.completeLine r' substituted).osq (s.completeLine r' substituted).config
      (s.completeLine r' substituted).pmem := by
  obtain ⟨r'', same', he | he⟩ := s.completeLine_cases r' substituted <;> rw [he]
  · simpa using h.sameFrame none record (same.trans same')
  · exact endFrame_frameSound _ r''

theorem RowEffect.frameSound {s t : State} (h : RowEffect s t) (hq : s.osq.consistent = true)
    (hs : FrameSound s.osq s.config s.pmem) : FrameSound t.osq t.config t.pmem := by
  cases h
  case poweredOn => exact .between _ rfl rfl rfl
  case initialised => exact hs.withArray []
  case opened f => exact State.openFrame_frameSound f hq hs
  case lost => exact State.loseLink_frameSound hq hs
  case timerExpired => exact hs.congr rfl rfl rfl
  case gapEnded state =>
    exact State.startFrame_frameSound _ (hs.deferred_nil (Sequencer.between_frames hq (.inr state)).1)
  case lineBegun record same => exact hs.sameFrame _ record same
  case lineCompleted sub record same => exact State.completeLine_frameSound sub record same hs
  case asked => simpa using hs
  case stepped => simpa using (hs.withArray _).keeps (PictureMemory.tear_keeps _ _)
  case managed h =>
    exact h.managed.keeps (P := fun s => FrameSound s.osq s.config s.pmem) (fun _ _ _ hs h => h.frameSound hs)
      (fun _ _ _ => id) hs
  all_goals exact hs

end Sys2Proof.Machine
end

