-- ==== Sys2Proof/Proofs/QueueInvariants.lean ====
section
/-! PROOFS. Every row keeps the queues of the management unit and of the reverse transmitter, and the lane served. -/

namespace Sys2Proof.Machine

/-! ## The reverse transmitter (R182, R184) -/

/-- The packet at the head of a queue. -/
def ReverseTransmitter.headOf (x : ReverseTransmitter) : ReverseQueue → Option ReversePacket
  | .notice => x.notices.head?.map .notice
  | .reply => x.replies.head?.map .reply
  | .report => x.reports.head?.map .report

/-- A BUSY transmitter sends the head of the queue its packet belongs to (R182). -/
def ReverseTransmitter.SendsHead (x : ReverseTransmitter) : Prop :=
  ∀ t, x.transmitter = some t → ∀ q, t.queue = some q → x.headOf q = some t.packet

theorem ReverseTransmitter.laneServed_iff {x : ReverseTransmitter} :
    x.laneServed = true ↔ x.SendsHead ∧ (x.transmitter = none → x.nextEntry = none) := by
  unfold laneServed SendsHead nextEntry
  cases ht : x.transmitter with
  | none => cases x.notices <;> cases x.replies <;> cases x.reports <;> simp
  | some t =>
    cases hq : t.queue with
    | none => simp [hq]
    | some q => cases q <;> simp [hq, headOf]

theorem ReverseTransmitter.withinPlaces_iff {x : ReverseTransmitter} :
    x.withinPlaces = true ↔ x.notices.length ≤ 4 ∧ x.replies.length ≤ 8 ∧ x.reports.length ≤ 4 := by
  simp only [withinPlaces, Bool.and_eq_true, decide_eq_true_eq, and_assoc]
  rfl

/-- The queues decide what a transmitter would send next and what heads them. -/
theorem ReverseTransmitter.headOf_nextEntry {x : ReverseTransmitter} {t : Transmission} (h : x.nextEntry = some t) :
    ∃ q, t.queue = some q ∧ x.headOf q = some t.packet := by
  unfold nextEntry at h
  cases hn : x.notices with
  | cons n ns =>
    simp only [hn] at h
    cases h
    exact ⟨.notice, rfl, by simp [headOf, hn]⟩
  | nil =>
    cases hr : x.replies with
    | cons r rs =>
      simp only [hn, hr] at h
      cases h
      exact ⟨.reply, rfl, by simp [headOf, hr]⟩
    | nil =>
      cases hp : x.reports with
      | cons p ps =>
        simp only [hn, hr, hp] at h
        cases h
        exact ⟨.report, rfl, by simp [headOf, hp]⟩
      | nil => simp [hn, hr, hp] at h

@[simp] theorem ReverseTransmitter.arbitrate_withinPlaces (x : ReverseTransmitter) :
    x.arbitrate.withinPlaces = x.withinPlaces := by
  simp [withinPlaces]

/-- After the arbiter's decision the lane is served (R184). -/
theorem ReverseTransmitter.arbitrate_laneServed {x : ReverseTransmitter} (h : x.SendsHead) :
    x.arbitrate.laneServed = true := by
  refine laneServed_iff.2 ?_
  obtain he | ⟨t, -, hn, he⟩ := x.arbitrate_cases
  · rw [he]
    refine ⟨h, fun hx => ?_⟩
    have := x.arbitrate_transmitter
    rwa [he, hx, Option.none_or, eq_comm] at this
  · rw [he]
    obtain ⟨q, hq, hh⟩ := headOf_nextEntry hn
    refine ⟨fun t' ht' q' hq' => ?_, fun hx => nomatch hx⟩
    cases ht'
    rw [hq] at hq'
    cases hq'
    exact hh

/-- An IDLE transmitter sends nothing, so the arbiter's decision serves the lane whatever stood in the queues (R185). -/
theorem ReverseTransmitter.release_laneServed (x : ReverseTransmitter) : x.release.laneServed = true :=
  arbitrate_laneServed fun _ ht => nomatch ht

/-- Queues that grow at their ends keep their heads. -/
theorem ReverseTransmitter.SendsHead.append {x x' : ReverseTransmitter} (h : x.SendsHead)
    (transmitter : x'.transmitter = x.transmitter) {ns : List Notice} {rs : List Reply} {ps : List Report}
    (notices : x'.notices = x.notices ++ ns) (replies : x'.replies = x.replies ++ rs)
    (reports : x'.reports = x.reports ++ ps) : x'.SendsHead := by
  intro t ht q hq
  rw [transmitter] at ht
  have head := h t ht q hq
  cases q with
  | notice =>
    obtain ⟨n, hn, hp⟩ := Option.map_eq_some_iff.1 head
    simp [headOf, notices, hn, hp]
  | reply =>
    obtain ⟨r, hr, hp⟩ := Option.map_eq_some_iff.1 head
    simp [headOf, replies, hr, hp]
  | report =>
    obtain ⟨p, hr, hp⟩ := Option.map_eq_some_iff.1 head
    simp [headOf, reports, hr, hp]

/-! A notice or a report that arrives, and a reply that has a place, keep to the places and behind the heads (R187,
R189, R192). -/

theorem ReverseTransmitter.takeNotice_withinPlaces {x : ReverseTransmitter} (n : Notice) (h : x.withinPlaces = true) :
    (x.takeNotice n).withinPlaces = true := by
  obtain ⟨-, hr, hp⟩ := withinPlaces_iff.1 h
  obtain ⟨room, he⟩ | ⟨-, he⟩ := x.takeNotice_cases n <;> rw [he]
  · exact withinPlaces_iff.2 ⟨by simpa using room, hr, hp⟩
  · exact h

theorem ReverseTransmitter.SendsHead.takeNotice {x : ReverseTransmitter} (n : Notice) (h : x.SendsHead) :
    (x.takeNotice n).SendsHead := by
  obtain ⟨-, he⟩ | ⟨-, he⟩ := x.takeNotice_cases n <;> rw [he]
  · exact h.append (ns := [n]) (rs := []) (ps := []) rfl rfl (by simp) (by simp)
  · exact h

theorem ReverseTransmitter.takeReport_withinPlaces {x : ReverseTransmitter} (r : Report) (h : x.withinPlaces = true) :
    (x.takeReport r).withinPlaces = true := by
  obtain ⟨hn, hr, -⟩ := withinPlaces_iff.1 h
  obtain ⟨room, he⟩ | ⟨-, he⟩ := x.takeReport_cases r <;> rw [he]
  · exact withinPlaces_iff.2 ⟨hn, hr, by simpa using room⟩
  · exact h

theorem ReverseTransmitter.SendsHead.takeReport {x : ReverseTransmitter} (r : Report) (h : x.SendsHead) :
    (x.takeReport r).SendsHead := by
  obtain ⟨-, he⟩ | ⟨-, he⟩ := x.takeReport_cases r <;> rw [he]
  · exact h.append (ns := []) (rs := []) rfl (by simp) (by simp) rfl
  · exact h

theorem ReverseTransmitter.takeReply_withinPlaces {x : ReverseTransmitter} (r : Reply) (room : x.replies.length < 8)
    (h : x.withinPlaces = true) : (x.takeReply r).withinPlaces = true := by
  obtain ⟨hn, -, hp⟩ := withinPlaces_iff.1 h
  exact withinPlaces_iff.2 ⟨hn, by simpa [takeReply] using room, hp⟩

theorem ReverseTransmitter.SendsHead.takeReply {x : ReverseTransmitter} (r : Reply) (h : x.SendsHead) :
    (x.takeReply r).SendsHead :=
  h.append (ns := []) (rs := [r]) (ps := []) rfl (by simp [ReverseTransmitter.takeReply]) rfl
    (by simp [ReverseTransmitter.takeReply])

/-- The transmitter as it stands between rows: within its places, the lane served. -/
structure ReverseTransmitter.Served (x : ReverseTransmitter) : Prop where
  places : x.withinPlaces = true
  lane : x.laneServed = true

theorem ReverseTransmitter.Served.sendsHead {x : ReverseTransmitter} (h : x.Served) : x.SendsHead :=
  (laneServed_iff.1 h.lane).1

theorem ReverseTransmitter.arbitrate_served {x : ReverseTransmitter} (places : x.withinPlaces = true)
    (head : x.SendsHead) : x.arbitrate.Served :=
  ⟨(arbitrate_withinPlaces x).trans places, arbitrate_laneServed head⟩

/-! ## What the rows outside the management unit do to the transmitter -/

/-- From `x` to `x'` notices and reports have arrived: the replies stay, and the lane stays served. -/
structure ReverseTransmitter.Arrivals (x x' : ReverseTransmitter) : Prop where
  replies : x'.replies = x.replies
  served : x.Served → x'.Served

theorem ReverseTransmitter.Arrivals.refl (x : ReverseTransmitter) : x.Arrivals x := ⟨rfl, id⟩

theorem ReverseTransmitter.Arrivals.trans {x x' x'' : ReverseTransmitter} (h : x.Arrivals x') (h' : x'.Arrivals x'') :
    x.Arrivals x'' :=
  ⟨h'.replies.trans h.replies, h'.served ∘ h.served⟩

theorem ReverseTransmitter.arrivals_notice (x : ReverseTransmitter) (n : Notice) :
    x.Arrivals (x.takeNotice n).arbitrate :=
  ⟨by simp, fun h => arbitrate_served (takeNotice_withinPlaces n h.places) (h.sendsHead.takeNotice n)⟩

theorem ReverseTransmitter.arrivals_report (x : ReverseTransmitter) (r : Report) :
    x.Arrivals (x.takeReport r).arbitrate :=
  ⟨by simp, fun h => arbitrate_served (takeReport_withinPlaces r h.places) (h.sendsHead.takeReport r)⟩

theorem State.startFrame_arrivals {s : State} {x : ReverseTransmitter} (hx : s.rtx = x) (kind : FrameKind) :
    x.Arrivals (s.startFrame kind).rtx := by
  subst hx
  obtain ⟨held, h⟩ := s.startFrame_eq kind
  rw [h]
  dsimp only
  split
  · exact ReverseTransmitter.arrivals_notice _ _
  · exact .refl _

theorem State.chooseNext_arrivals (s : State) (r : FrameRecord) : s.rtx.Arrivals (s.chooseNext r).rtx := by
  obtain ⟨f, -, hc⟩ | ⟨-, -, hc⟩ | ⟨-, -, -, -, hc⟩ | ⟨-, -, hc⟩ := s.chooseNext_cases r <;> rw [hc]
  · exact startFrame_arrivals (by rfl) _
  · exact .refl _
  · exact .refl _
  · exact startFrame_arrivals (by rfl) _

theorem State.endFrame_arrivals {s : State} {x : ReverseTransmitter} (hx : s.rtx = x) (r : FrameRecord) :
    x.Arrivals (s.endFrame r).rtx := by
  subst hx
  obtain ⟨d, h, -, -, -, -, -, -, -, -, hrtx⟩ := s.endFrame_eq r
  have reported : s.rtx.Arrivals d.rtx := by
    obtain ⟨-, -, hx⟩ | ⟨-, -, hx⟩ := hrtx <;> rw [hx]
    · exact ReverseTransmitter.arrivals_report _ _
    · exact .refl _
  rw [h]
  exact reported.trans (d.chooseNext_arrivals r)

theorem State.completeLine_arrivals (s : State) (r : FrameRecord) (substituted : Bool) :
    s.rtx.Arrivals (s.completeLine r substituted).rtx := by
  obtain ⟨r', -, h | h⟩ := s.completeLine_cases r substituted <;> rw [h]
  · simpa using ReverseTransmitter.Arrivals.refl s.rtx
  · exact endFrame_arrivals (by rfl) r'

theorem State.openFrame_arrivals (s : State) (f : InputFrame) : s.rtx.Arrivals (s.openFrame f).rtx := by
  have locked : s.rtx.Arrivals
      (if s.link.locked then s.rtx else (s.rtx.takeNotice (.linkRegained f.tag)).arbitrate) := by
    split
    · exact .refl _
    · exact ReverseTransmitter.arrivals_notice _ _
  rw [openFrame_eq]
  refine locked.trans ?_
  obtain ⟨-, h⟩ | ⟨-, a, b, h⟩ := frameOpenArrival_cases _ f <;> rw [h]
  · exact startFrame_arrivals (by rfl) _
  · exact .refl _

theorem State.loseLink_arrivals (s : State) : s.rtx.Arrivals s.loseLink.rtx := by
  have unlocked : s.rtx.Arrivals
      (if s.link.locked then (s.rtx.takeNotice (.linkLost s.link.lastTag)).arbitrate else s.rtx) := by
    split
    · exact ReverseTransmitter.arrivals_notice _ _
    · exact .refl _
  rw [loseLink_eq]
  refine unlocked.trans ?_
  obtain ⟨-, h⟩ | ⟨-, h⟩ := lossAtSequencer_cases _ <;> rw [h]
  · exact startFrame_arrivals (by rfl) _
  · exact .refl _

theorem State.afterRowStep_arrivals (s : State) : s.rtx.Arrivals s.afterRowStep.rtx := by
  obtain ⟨-, h⟩ | ⟨-, h⟩ := s.afterRowStep_cases <;> rw [h]
  · exact ReverseTransmitter.arrivals_notice _ _
  · exact .refl _

/-! ## The management unit (R160, R167) -/

theorem Management.queuesOk_iff {g : Management} :
    g.queuesOk = true ↔ (g.queue.length ≤ 4 ∧ g.queue.Pairwise fun a b => a.seq ≠ b.seq)
      ∧ g.history.length ≤ 8 ∧ (g.history.Pairwise fun a b => a.seq ≠ b.seq)
      ∧ ∀ r ∈ g.history, r.replayed = false := by
  simp only [queuesOk, Bool.and_eq_true, decide_eq_true_eq, List.all_eq_true, Bool.not_eq_true', and_assoc]
  rfl

theorem Management.queuesOk_congr {g g' : Management} (queue : g'.queue = g.queue) (history : g'.history = g.history) :
    g'.queuesOk = g.queuesOk := by
  simp only [queuesOk, queue, history]

/-- A packet with a seq of its own joins a queue with a place (R161-R163). -/
theorem Management.queuesOk_append {g g' : Management} {p : ControlPacket} (h : g.queuesOk = true)
    (fresh : ∀ q ∈ g.queue, q.seq ≠ p.seq) (room : g.queue.length < 4) (queue : g'.queue = g.queue ++ [p])
    (history : g'.history = g.history ∨ g'.history = []) : g'.queuesOk = true := by
  obtain ⟨⟨-, hp⟩, hh⟩ := queuesOk_iff.1 h
  refine queuesOk_iff.2 ⟨⟨by simpa [queue] using room, ?_⟩, ?_⟩
  · rw [queue]
    refine List.pairwise_append.2 ⟨hp, List.pairwise_singleton _ _, fun q hq q' hq' => ?_⟩
    rw [List.mem_singleton.1 hq']
    exact fresh q hq
  · obtain hist | hist := history <;> rw [hist]
    · exact hh
    · simp

/-- A fresh reply enters the history (R167). -/
theorem enterHistory_spec {history : List Reply} {r : Reply} (length : history.length ≤ 8)
    (distinct : history.Pairwise fun a b => a.seq ≠ b.seq) (fresh : ∀ h ∈ history, h.replayed = false)
    (hr : r.replayed = false) :
    (enterHistory history r).length ≤ 8 ∧ ((enterHistory history r).Pairwise fun a b => a.seq ≠ b.seq)
      ∧ ∀ h ∈ enterHistory history r, h.replayed = false := by
  obtain ⟨kept, hk, hsub, hlen⟩ : ∃ kept, enterHistory history r = kept ++ [r]
      ∧ kept.Sublist (history.filter fun h => h.seq != r.seq) ∧ kept.length < 8 := by
    have := le_trans (List.length_filter_le (fun h : Reply => h.seq != r.seq) history) length
    unfold enterHistory
    dsimp only
    split
    · next h => exact ⟨_, rfl, List.Sublist.refl _, h⟩
    · exact ⟨_, rfl, List.tail_sublist _, by rw [List.length_tail]; omega⟩
  have old : kept.Sublist history := hsub.trans List.filter_sublist
  rw [hk]
  refine ⟨by simpa using hlen, ?_, fun h hh => ?_⟩
  · refine List.pairwise_append.2 ⟨distinct.sublist old, List.pairwise_singleton _ _, fun a ha b hb => ?_⟩
    rw [List.mem_singleton.1 hb]
    simpa using (List.mem_filter.1 (hsub.subset ha)).2
  · rcases List.mem_append.1 hh with hh | hh
    · exact fresh h (old.subset hh)
    · rw [List.mem_singleton.1 hh]; exact hr

theorem headWaits_iff {g : Management} {x : ReverseTransmitter} :
    headWaits g x = true ↔ g.queue = [] ∨ 8 ≤ x.replies.length := by
  simp only [headWaits, Bool.or_eq_true, List.isEmpty_iff, Bool.not_eq_true', ← Bool.not_eq_true,
    ReverseTransmitter.replyFree_iff, not_lt]

/-- The relations of the queues between rows (R160, R167, R168, R182, R184). -/
structure QueuesSound (g : Management) (x : ReverseTransmitter) : Prop where
  unit : g.queuesOk = true
  transmitter : x.Served
  waits : headWaits g x = true

/-- Arrivals, with the unit's queue and history as they were. -/
theorem QueuesSound.arrivals {g g' : Management} {x x' : ReverseTransmitter} (h : QueuesSound g x)
    (queue : g'.queue = g.queue) (history : g'.history = g.history) (arrivals : x.Arrivals x') : QueuesSound g' x' where
  unit := (Management.queuesOk_congr queue history).trans h.unit
  transmitter := arrivals.served h.transmitter
  waits := headWaits_iff.2 (by rw [queue, arrivals.replies]; exact headWaits_iff.1 h.waits)

theorem QueuesSound.sameUnit {g g' : Management} {x x' : ReverseTransmitter} (h : QueuesSound g x) (unit : g' = g)
    (arrivals : x.Arrivals x') : QueuesSound g' x' :=
  h.arrivals (by rw [unit]) (by rw [unit]) arrivals

/-- Both blocks at power-on (R181, R196). -/
theorem powerOn_queuesSound : QueuesSound powerOnManagement powerOnReverse :=
  ⟨by decide, ⟨by decide, by decide⟩, by decide⟩

/-! ## Executions (R168-R171) -/

/-- The two blocks inside an execution, or between the executions of one row. While the head of a completed transmission
has left its queue (`sent`), the packet in transmission is no queue's head (R185). -/
structure Executing (sent : Prop) (s : State) : Prop where
  unit : s.mgt.queuesOk = true
  places : s.rtx.withinPlaces = true
  head : ¬sent → s.rtx.SendsHead

/-- A command owns no place in the queues: it keeps the waiting packets or, SOFT_RESET, only the first of them; and its
replies, or none. -/
theorem OwnerEffect.executing {sent : Prop} {s t : State} {c : CommandName} (h : OwnerEffect s c t)
    (hs : Executing sent s) :
    Executing sent t ∧ t.mgt.queue.length ≤ s.mgt.queue.length ∧ t.rtx.replies.length ≤ s.rtx.replies.length := by
  cases h
  case reset =>
    refine ⟨⟨?_, by rfl, fun _ t ht q hq => ?_⟩, by simp [Management.softReset], by simp [ReverseTransmitter.softReset]⟩
    · obtain ⟨⟨hl, hp⟩, -⟩ := Management.queuesOk_iff.1 hs.unit
      have first : (s.mgt.queue.take 1).Sublist s.mgt.queue := List.take_sublist _ _
      exact Management.queuesOk_iff.2 ⟨⟨le_trans first.length_le hl, hp.sublist first⟩, by simp [Management.softReset]⟩
    · obtain ⟨t', -, rfl⟩ := Option.map_eq_some_iff.1 ht
      cases hq
  case aborted n =>
    exact ⟨⟨hs.unit, ReverseTransmitter.takeNotice_withinPlaces n hs.places, fun h => (hs.head h).takeNotice n⟩, le_rfl,
      by simp⟩
  all_goals exact ⟨⟨hs.unit, hs.places, hs.head⟩, le_rfl, le_rfl⟩

/-- No command but SOFT_RESET changes the command queue or the reply queue. -/
theorem OwnerEffect.queue_replies {s t : State} {c : CommandName} (h : OwnerEffect s c t) (reset : c ≠ .softReset) :
    t.mgt.queue = s.mgt.queue ∧ t.rtx.replies = s.rtx.replies := by
  cases h
  case reset => exact absurd rfl reset
  case aborted => simp
  all_goals exact ⟨rfl, rfl⟩

/-- The commands of a packet run with a place for its reply, and with at most `n` packets in the queue. -/
theorem runEntries_executing {sent : Prop} {n : Nat} (es : List CommandEntry) {s : State} (hs : Executing sent s)
    (room : s.rtx.replies.length < 8) (queue : s.mgt.queue.length ≤ n) :
    Executing sent (runEntries es s) ∧ (runEntries es s).rtx.replies.length < 8
      ∧ (runEntries es s).mgt.queue.length ≤ n := by
  refine runEntries_induct
    (P := fun s => Executing sent s ∧ s.rtx.replies.length < 8 ∧ s.mgt.queue.length ≤ n)
    (fun s c ops h => ?_) (fun s r h => ?_) es s ⟨hs, room, queue⟩
  · obtain ⟨hs, room, queue⟩ := h
    obtain ⟨ht, hq, hr⟩ := (runOwner_effect s c ops).executing hs
    exact ⟨ht, lt_of_le_of_lt hr room, le_trans hq queue⟩
  · obtain ⟨⟨unit, places, head⟩, rest⟩ := h
    exact ⟨⟨unit, places, head⟩, rest⟩

/-- At the end of an execution its reply enters the history and takes a place, and the packet leaves the queue
(R171). -/
theorem State.endExecution_executing {sent : Prop} {s : State} (hs : Executing sent s)
    (room : s.rtx.replies.length < 8) :
    Executing sent s.endExecution ∧ s.endExecution.mgt.queue = s.mgt.queue.tail := by
  obtain ⟨unit, places, head⟩ := hs
  unfold endExecution
  split
  · next h => exact ⟨⟨unit, places, head⟩, by simp [h]⟩
  · next p rest h =>
    refine ⟨⟨?_, ReverseTransmitter.takeReply_withinPlaces _ room places, fun hn => (head hn).takeReply _⟩, by simp [h]⟩
    obtain ⟨⟨hl, hp⟩, hh, hd, hf⟩ := Management.queuesOk_iff.1 unit
    rw [h] at hl hp
    exact Management.queuesOk_iff.2
      ⟨⟨le_trans (Nat.le_succ _) hl, hp.of_cons⟩, enterHistory_spec hh hd hf rfl⟩

/-- Executions go on until the command queue is empty or the reply queue full (R168). -/
theorem executeWhileReady_executing {sent : Prop} (fuel : Nat) {s : State} (hs : Executing sent s)
    (queue : s.mgt.queue.length ≤ fuel) :
    Executing sent (executeWhileReady fuel s)
      ∧ headWaits (executeWhileReady fuel s).mgt (executeWhileReady fuel s).rtx = true := by
  induction fuel generalizing s with
  | zero => exact ⟨hs, headWaits_iff.2 (.inl (List.length_eq_zero_iff.1 (Nat.le_zero.1 queue)))⟩
  | succ fuel ih =>
    unfold executeWhileReady
    split
    · next h => exact ⟨hs, headWaits_iff.2 (.inl h)⟩
    · next p rest h =>
      split
      · next free =>
        have room := (ReverseTransmitter.replyFree_iff _).1 free
        have start : Executing sent { s with mgt := { s.mgt with readTotal := 0, results := [] } } :=
          ⟨hs.unit, hs.places, hs.head⟩
        obtain ⟨ran, room, queue⟩ := runEntries_executing p.entries start room queue
        obtain ⟨ended, tail⟩ := State.endExecution_executing ran room
        refine ih ended ?_
        rw [State.executePacket, tail, List.length_tail]
        omega
      · next full =>
        exact ⟨hs, headWaits_iff.2 (.inr (by simpa using full))⟩

theorem State.executeReady_executing {sent : Prop} {s : State} (hs : Executing sent s) :
    Executing sent s.executeReady ∧ headWaits s.executeReady.mgt s.executeReady.rtx = true :=
  executeWhileReady_executing _ hs le_rfl

/-- The arbiter's decision after the executions of a row (R191). -/
theorem QueuesSound.arbitrate {s : State} (hs : Executing False s) (waits : headWaits s.mgt s.rtx = true) :
    QueuesSound s.arbitrate.mgt s.arbitrate.rtx where
  unit := hs.unit
  transmitter := ReverseTransmitter.arbitrate_served hs.places (hs.head id)
  waits := headWaits_iff.2 (by simpa using headWaits_iff.1 waits)

theorem QueuesSound.executing {s : State} (h : QueuesSound s.mgt s.rtx) : Executing False s :=
  ⟨h.unit, h.transmitter.places, fun _ => h.transmitter.sendsHead⟩

/-! ## The rows of the management unit -/

/-- A command other than SOFT_RESET and MOVE_ABORT touches neither the queues nor the transmitter. -/
theorem OwnerEffect.queuesSound {s t : State} {c : CommandName} (h : OwnerEffect s c t) (reset : c ≠ .softReset)
    (abort : c ≠ .moveAbort) (hs : QueuesSound s.mgt s.rtx) : QueuesSound t.mgt t.rtx := by
  cases h
  case counts =>
    exact { unit := hs.unit, transmitter := ⟨hs.transmitter.places, hs.transmitter.lane⟩, waits := hs.waits }
  case reset => exact absurd rfl reset
  case aborted => exact absurd rfl abort
  all_goals exact hs.arrivals rfl rfl (.refl _)

theorem commandRow_queuesSound {s : State} {c : CommandName} (ops : List Word) (reset : c ≠ .softReset)
    (abort : c ≠ .moveAbort) (hs : QueuesSound s.mgt s.rtx) :
    QueuesSound (commandRow c ops s).mgt (commandRow c ops s).rtx := by
  unfold commandRow runCommand
  split
  · exact ((runOwner_effect s c ops).queuesSound reset abort hs).arrivals rfl rfl (.refl _)
  · exact hs.arrivals rfl rfl (.refl _)

/-- SOFT_RESET leaves the reply of its own packet alone in the reply queue, and no packet waits (R179, R195). -/
theorem softResetRow_queuesSound {s : State} (hs : QueuesSound s.mgt s.rtx) :
    QueuesSound (commandRow .softReset [] s).endExecution.arbitrate.mgt
      (commandRow .softReset [] s).endExecution.arbitrate.rtx := by
  obtain ⟨⟨unit, places, head⟩, -, -⟩ := (OwnerEffect.reset (s := s)).executing hs.executing
  have ran : Executing False (commandRow .softReset [] s) := ⟨unit, places, head⟩
  obtain ⟨ended, tail⟩ := State.endExecution_executing ran (Nat.zero_lt_succ 7)
  refine QueuesSound.arbitrate ended (headWaits_iff.2 (.inl ?_))
  rw [tail]
  change (s.mgt.queue.take 1).tail = []
  cases s.mgt.queue <;> rfl

theorem moveAbortRow_queuesSound {s : State} (hs : QueuesSound s.mgt s.rtx) :
    QueuesSound (commandRow .moveAbort [] s).arbitrate.mgt (commandRow .moveAbort [] s).arbitrate.rtx := by
  have effect := runOwner_effect s .moveAbort []
  obtain ⟨⟨unit, places, head⟩, -, -⟩ := effect.executing hs.executing
  have ran : Executing False (commandRow .moveAbort [] s) := ⟨unit, places, head⟩
  obtain ⟨queue, replies⟩ := effect.queue_replies (by decide)
  refine QueuesSound.arbitrate ran (headWaits_iff.2 ?_)
  have waits := headWaits_iff.1 hs.waits
  rw [← queue, ← replies] at waits
  exact waits

/-- A reply outside an execution takes a free place, so no packet was waiting (R165, R166). -/
theorem State.answer_queuesSound {s : State} (r : Reply) (hs : QueuesSound s.mgt s.rtx) :
    QueuesSound (s.answer r).mgt (s.answer r).rtx := by
  unfold answer
  split
  · next free =>
    have room := (ReverseTransmitter.replyFree_iff _).1 free
    refine
      { unit := hs.unit
        transmitter := ReverseTransmitter.arbitrate_served
          (ReverseTransmitter.takeReply_withinPlaces r room hs.transmitter.places)
          (hs.transmitter.sendsHead.takeReply r)
        waits := headWaits_iff.2 (.inl ?_) }
    obtain empty | full := headWaits_iff.1 hs.waits
    · exact empty
    · omega
  · exact hs

/-- A packet with a seq of its own joins a queue with a place: it executes at once, or waits behind others (R162, R163,
R168). -/
theorem State.accept_queuesSound {s : State} {p : ControlPacket} {expected : Seq} {history : List Reply}
    (hs : QueuesSound s.mgt s.rtx) (fresh : ∀ q ∈ s.mgt.queue, q.seq ≠ p.seq) (room : s.mgt.queue.length < 4)
    (hist : history = s.mgt.history ∨ history = []) :
    QueuesSound (s.accept p expected history).mgt (s.accept p expected history).rtx := by
  have unit : Management.queuesOk
      { s.mgt with queue := s.mgt.queue ++ [p], expected := expected, history := history } = true :=
    Management.queuesOk_append hs.unit fresh room rfl hist
  unfold accept
  dsimp only
  split
  · have joined : Executing False
        { s with mgt := { s.mgt with queue := s.mgt.queue ++ [p], expected := expected, history := history } } :=
      ⟨unit, hs.transmitter.places, fun _ => hs.transmitter.sendsHead⟩
    obtain ⟨ran, waits⟩ := State.executeReady_executing joined
    exact QueuesSound.arbitrate ran waits
  · next nonempty =>
    refine ⟨unit, hs.transmitter, headWaits_iff.2 (.inr ?_)⟩
    obtain empty | full := headWaits_iff.1 hs.waits
    · exact absurd (by simp [empty]) nonempty
    · exact full

/-- Only a packet whose seq no queued packet has is accepted (R161). -/
theorem Management.fresh_of_classify {g : Management} {p : ControlPacket} (h : g.classify p ≠ .queuedDuplicate) :
    ∀ q ∈ g.queue, q.seq ≠ p.seq := by
  intro q hq he
  refine h (if_pos (List.any_eq_true.2 ⟨q, hq, by simpa using he⟩))

theorem State.acceptControl_queuesSound {s : State} (p : ControlPacket) (hs : QueuesSound s.mgt s.rtx) :
    QueuesSound (s.acceptControl p).mgt (s.acceptControl p).rtx := by
  have counted (g : Management) (hq : g.queue = s.mgt.queue) (hh : g.history = s.mgt.history) :
      QueuesSound g s.rtx := hs.arrivals hq hh (.refl _)
  unfold acceptControl
  split
  · exact counted _ rfl rfl
  · next hc =>
    split
    · next room => exact accept_queuesSound hs (Management.fresh_of_classify (by simp [hc])) room (.inr rfl)
    · exact counted _ rfl rfl
  · next hc =>
    split
    · next room => exact accept_queuesSound hs (Management.fresh_of_classify (by simp [hc])) room (.inl rfl)
    · exact counted _ rfl rfl
  · exact answer_queuesSound _ (counted _ rfl rfl)
  · exact answer_queuesSound _ (counted _ rfl rfl)
  · split
    · exact answer_queuesSound _ hs
    · exact counted _ rfl rfl

/-- A completed transmission frees its place; a place for replies is used at once, and the arbiter decides (R185). -/
theorem sentRow_queuesSound {s t : State} {x : Transmission} (hs : QueuesSound s.mgt s.rtx)
    (ht : t = State.afterSent { s with rtx := s.rtx.dropSent x.queue } x.queue) :
    QueuesSound t.mgt t.rtx.release := by
  have dropped : Executing True { s with rtx := s.rtx.dropSent x.queue } := by
    refine ⟨hs.unit, ?_, fun h => absurd trivial h⟩
    obtain ⟨hn, hr, hp⟩ := ReverseTransmitter.withinPlaces_iff.1 hs.transmitter.places
    refine ReverseTransmitter.withinPlaces_iff.2 ?_
    cases x.queue with
    | none => exact ⟨hn, hr, hp⟩
    | some q => cases q <;> simp [ReverseTransmitter.dropSent] <;> omega
  have sent : Executing True t ∧ headWaits t.mgt t.rtx = true := by
    rw [ht]
    unfold State.afterSent
    split
    · exact State.executeReady_executing dropped
    · next other =>
      refine ⟨dropped, headWaits_iff.2 ?_⟩
      have same : (s.rtx.dropSent x.queue).replies = s.rtx.replies := by
        cases hq : x.queue with
        | none => rfl
        | some q => cases q <;> first | rfl | exact absurd hq other
      rw [same]
      exact headWaits_iff.1 hs.waits
  obtain ⟨⟨unit, places, -⟩, waits⟩ := sent
  have lane := t.rtx.release_laneServed
  exact ⟨unit, ⟨(ReverseTransmitter.arbitrate_withinPlaces _).trans places, lane⟩,
    headWaits_iff.2 (by simpa [ReverseTransmitter.release] using headWaits_iff.1 waits)⟩

theorem ManagementRow.queuesSound {s t : State} (h : ManagementRow s t) (hs : QueuesSound s.mgt s.rtx) :
    QueuesSound t.mgt t.rtx := by
  cases h
  case command ops reset abort => exact commandRow_queuesSound ops reset abort hs
  case reset => exact softResetRow_queuesSound hs
  case abort => exact moveAbortRow_queuesSound hs
  case packet p => exact State.acceptControl_queuesSound p hs
  case dropped => exact hs.arrivals rfl rfl (.refl _)
  case sent h => exact sentRow_queuesSound hs h
  case executed =>
    obtain ⟨ran, waits⟩ := State.executeReady_executing hs.executing
    exact QueuesSound.arbitrate ran waits

/-! ## Every row -/

theorem RowEffect.queuesSound {s t : State} (h : RowEffect s t) (hs : QueuesSound s.mgt s.rtx) :
    QueuesSound t.mgt t.rtx := by
  cases h
  case poweredOn => exact powerOn_queuesSound
  case opened f => exact hs.sameUnit (s.openFrame_mgt f) (s.openFrame_arrivals f)
  case lost => exact hs.sameUnit s.loseLink_mgt s.loseLink_arrivals
  case gapEnded => exact hs.sameUnit (State.startFrame_mgt _ _) (State.startFrame_arrivals (by rfl) _)
  case lineCompleted r r' sub _ _ => exact hs.sameUnit (s.completeLine_mgt r' sub) (s.completeLine_arrivals r' sub)
  case asked => simpa using hs
  case stepped i _ _ => exact hs.sameUnit (by simp) (s.applyRowStep i).afterRowStep_arrivals
  case managed h => exact h.queuesSound hs
  all_goals exact hs

end Sys2Proof.Machine
end

