-- ==== Sys2Proof/Proofs/GoodStates.lean ====
section
/-! PROOFS. O58: every step keeps all the relations of a good state together. -/

namespace Sys2Proof.Machine

/-- The relations of a good state, by the blocks they relate. -/
structure State.Sound (s : State) : Prop where
  link : s.link.consistent = true
  sequencer : s.osq.consistent = true
  lines : LinesSound s.link s.osq s.lines
  config : s.config.Sound
  frame : FrameSound s.osq s.config s.pmem
  mover : s.MoverAndArray True
  queues : QueuesSound s.mgt s.rtx

/-- The relations of the line store with its neighbours, as Safety.lean lists them. -/
theorem linesSound_iff {l : LinkReceiver} {q : Sequencer} {t : LineStore} :
    LinesSound l q t ↔ entriesMatch q t = true ∧ t.slots.length ≤ Config.lineSlots ∧ t.linesBelong = true
      ∧ t.linesDistinct = true ∧ t.heldWaits = true ∧ receiverMatches l t = true := by
  have entries : entriesMatch q t = true ↔ t.bound.map (fun e => e.frame) = q.record.bind FrameRecord.input
      ∧ t.waiting.map (fun e => e.frame) = q.slot := by
    simp [entriesMatch]
  rw [entries]
  constructor
  · rintro ⟨store, bound, waiting, receiver⟩
    obtain ⟨room, belong, distinct, held⟩ := LineStore.sound_iff.1 store
    exact ⟨⟨bound, waiting⟩, room, belong, distinct, held, receiver⟩
  · rintro ⟨⟨bound, waiting⟩, room, belong, distinct, held, receiver⟩
    exact ⟨LineStore.sound_iff.2 ⟨room, belong, distinct, held⟩, bound, waiting, receiver⟩

theorem State.good_iff {s : State} : s.good = true ↔ s.Sound := by
  simp only [good, Bool.and_eq_true, decide_eq_true_eq, and_assoc]
  constructor
  · rintro ⟨link, osq, entries, room, belong, distinct, held, receiver, inRange, validated, due, live, view, deferred,
      guard, wf, mover, queues, places, lane, waits⟩
    exact
      { link := link
        sequencer := osq
        lines := linesSound_iff.2 ⟨entries, room, belong, distinct, held, receiver⟩
        config := ⟨inRange, validated, due⟩
        frame := ⟨live, view, deferred, guard⟩
        mover := ⟨mover, fun _ => wf⟩
        queues := ⟨queues, ⟨places, lane⟩, waits⟩ }
  · rintro ⟨link, osq, lines, ⟨inRange, validated, due⟩, ⟨live, view, deferred, guard⟩, ⟨mover, wf⟩,
      ⟨queues, ⟨places, lane⟩, waits⟩⟩
    obtain ⟨entries, room, belong, distinct, held, receiver⟩ := linesSound_iff.1 lines
    exact ⟨link, osq, entries, room, belong, distinct, held, receiver, inRange, validated, due, live, view, deferred,
      guard, wf trivial, mover, queues, places, lane, waits⟩

theorem RowEffect.sound {s t : State} (h : RowEffect s t) (hs : s.Sound) : t.Sound where
  link := h.link_consistent hs.link
  sequencer := h.osq_consistent hs.sequencer
  lines := h.linesSound hs.sequencer hs.lines
  config := h.config_sound hs.config
  frame := h.frameSound hs.sequencer hs.frame
  mover := h.moverAndArray hs.mover
  queues := h.queuesSound hs.queues

/-- No relation speaks of the queue of waiting commands. -/
theorem State.Sound.withPending {s : State} (h : s.Sound) (rest : List Instr) :
    State.Sound { s with pending := rest } :=
  ⟨h.link, h.sequencer, h.lines, h.config, h.frame, h.mover, h.queues⟩

/-- Settles O58: the relations of a good state, sorted by blocks, are each kept by every effect a row can have. -/
theorem stepsKeepEveryRelation : Obligations.StepsKeepEveryRelation := by
  intro s t good h
  obtain ⟨rest, effect⟩ := step_effect h
  exact State.good_iff.2 (effect.sound ((State.good_iff.1 good).withPending rest))

end Sys2Proof.Machine
end

