-- ==== Sys2Proof/Proofs/Validation.lean ====
section
/-! PROOFS. O55: validation accepts exactly the sets of R46, and their segments tile the lines. -/

namespace Sys2Proof.Machine

/-! ## Tilings (R4) -/

theorem tiles_cons {start stop : Nat} {g : Segment} {rest : List Segment} :
    tiles start stop (g :: rest) = true ↔ g.first = start ∧ tiles (g.first + g.count) stop rest = true := by
  simp [tiles]

theorem tiles_le {start stop : Nat} {gs : List Segment} (h : tiles start stop gs = true) : start ≤ stop := by
  induction gs generalizing start with
  | nil => exact (of_decide_eq_true h).le
  | cons g rest ih =>
    obtain ⟨rfl, hr⟩ := tiles_cons.1 h
    have := ih hr
    omega

/-- The segments of a tiling begin at its start or after it. -/
theorem tiles_le_first {start stop : Nat} {gs : List Segment} {g : Segment} (h : tiles start stop gs = true)
    (hg : g ∈ gs) : start ≤ g.first := by
  induction gs generalizing start with
  | nil => cases hg
  | cons g' rest ih =>
    obtain ⟨rfl, hr⟩ := tiles_cons.1 h
    rcases List.mem_cons.1 hg with rfl | hg
    · exact le_rfl
    · have := ih hr hg
      omega

/-- The segment covers line y (R5). -/
def Segment.Covers (g : Segment) (y : Nat) : Prop :=
  g.first ≤ y ∧ y < g.first + g.count

/-- Each line of a tiling is covered by one segment, which a search finds, and by no other (R4, R5). -/
theorem tiles_cover {start stop y : Nat} {gs : List Segment} (h : tiles start stop gs = true) (low : start ≤ y)
    (high : y < stop) :
    ∃ i g, gs[i]? = some g ∧ g.Covers y ∧ gs.find? (fun g => decide (g.first ≤ y ∧ y < g.first + g.count)) = some g
      ∧ ∀ (j : Nat) (g' : Segment), gs[j]? = some g' → g'.Covers y → j = i := by
  induction gs generalizing start with
  | nil =>
    have : start = stop := of_decide_eq_true h
    omega
  | cons g rest ih =>
    obtain ⟨rfl, hr⟩ := tiles_cons.1 h
    by_cases hy : y < g.first + g.count
    · refine ⟨0, g, rfl, ⟨low, hy⟩, List.find?_cons_of_pos (by simp [low, hy]), fun j g' hj hc => ?_⟩
      cases j with
      | zero => rfl
      | succ j =>
        have := tiles_le_first hr (List.mem_of_getElem? (by simpa using hj))
        have := hc.1
        omega
    · obtain ⟨i, g', hi, hc, hf, unique⟩ := ih hr (by omega)
      refine ⟨i + 1, g', by simpa using hi, hc, ?_, fun j g'' hj hc' => ?_⟩
      · rw [List.find?_cons_of_neg (by simp [hy]), hf]
      · cases j with
        | zero =>
          cases hj
          exact absurd hc'.2 hy
        | succ j => rw [unique j g'' (by simpa using hj) hc']

/-! ## The pass over the segments (R46, checks 2 to 6) -/

/-- Check 4: a MEMORY segment's window and start lie in the array. -/
def Segment.WindowFits (g : Segment) : Prop :=
  g.kind = .memory → g.windowBase + g.windowRows ≤ 256 ∧ g.srcStart < g.windowRows

/-- Check 5: the overlay slot that the segment names is filled. -/
def Segment.OverlayFilled (p : ConfigSet) (g : Segment) : Prop :=
  ∀ j, g.overlay = some j → p.overlays[j]? ≠ some none

theorem segmentFault_none {p : ConfigSet} {expected : Nat} {g : Segment} :
    segmentFault p expected g = none
      ↔ g.first = expected ∧ g.first + g.count ≤ p.hOut ∧ g.WindowFits ∧ g.OverlayFilled p := by
  have window : g.WindowFits
      ↔ ¬(g.kind = .memory ∧ (g.windowBase + g.windowRows > 256 ∨ g.srcStart ≥ g.windowRows)) := by
    simp [Segment.WindowFits]
  have filled : g.OverlayFilled p ↔ ¬(g.overlay.any fun j => decide (p.overlays[j]? = some none)) = true := by
    unfold Segment.OverlayFilled
    cases g.overlay <;> simp
  rw [window, filled, ← not_lt]
  unfold segmentFault
  split_ifs <;> simp_all

theorem passSegments_none {p : ConfigSet} {i expected : Nat} {gs : List Segment} :
    passSegments p i expected gs = none
      ↔ tiles expected p.hOut gs = true ∧ ∀ g ∈ gs, g.WindowFits ∧ g.OverlayFilled p := by
  induction gs generalizing i expected with
  | nil => simp [passSegments, tiles]
  | cons g rest ih =>
    rw [tiles_cons, List.forall_mem_cons]
    unfold passSegments
    constructor
    · intro h
      split at h
      · cases h
      · next hf =>
        obtain ⟨first, -, checks⟩ := segmentFault_none.1 hf
        obtain ⟨tiled, rest⟩ := ih.1 h
        exact ⟨⟨first, tiled⟩, checks, rest⟩
    · rintro ⟨⟨first, tiled⟩, checks, rest⟩
      rw [segmentFault_none.2 ⟨first, tiles_le tiled, checks⟩]
      exact ih.2 ⟨tiled, rest⟩

/-! ## The overlays (R46, check 7) -/

/-- Check 7: a filled overlay slot's rectangle lies in the array. -/
def overlayFits (p : ConfigSet) (j : Nat) : Prop :=
  ∀ o, p.overlays[j]? = some (some o) → o.rowBase + o.rows ≤ 256 ∧ o.srcCol + o.span ≤ 1024

theorem overlayMisfit_false {p : ConfigSet} {j : Nat} : overlayMisfit p j = false ↔ overlayFits p j := by
  unfold overlayMisfit overlayFits
  split
  · next o ho => simp [ho]
  · next hn => exact ⟨fun _ o ho => absurd ho (hn o), fun _ => rfl⟩

theorem ConfigSet.names_iff {p : ConfigSet} {j : Nat} : p.names j = true ↔ ∃ g ∈ p.list, g.overlay = some j := by
  simp [names]

/-- Only the 16 slots that exist can misfit. -/
theorem overlayFits_of_ge {p : ConfigSet} {j : Nat} (h : 16 ≤ j) : overlayFits p j := by
  intro o ho
  rw [Vector.getElem?_eq_none h] at ho
  cases ho

theorem overlaySearch_none {p : ConfigSet} :
    ((List.range 16).find? fun j => p.names j && overlayMisfit p j) = none
      ↔ ∀ g ∈ p.list, ∀ j, g.overlay = some j → overlayFits p j := by
  rw [List.find?_eq_none]
  constructor
  · intro h g hg j hj
    by_cases hlt : j < 16
    · have named := ConfigSet.names_iff.2 ⟨g, hg, hj⟩
      exact overlayMisfit_false.1 (by simpa [named] using h j (List.mem_range.2 hlt))
    · exact overlayFits_of_ge (by omega)
  · rintro h j - hc
    obtain ⟨named, misfit⟩ := Bool.and_eq_true_iff.1 hc
    obtain ⟨g, hg, hj⟩ := ConfigSet.names_iff.1 named
    rw [overlayMisfit_false.2 (h g hg j hj)] at misfit
    cases misfit

/-! ## The statement -/

theorem validate_none {p : ConfigSet} :
    validate p = none ↔ p.mapLength ≠ 0 ∧ tiles 0 p.hOut p.list = true
      ∧ (∀ g ∈ p.list, g.WindowFits ∧ g.OverlayFilled p)
      ∧ ∀ g ∈ p.list, ∀ j, g.overlay = some j → overlayFits p j := by
  rw [← overlaySearch_none, ← and_assoc (b := tiles 0 p.hOut p.list = true)]
  unfold validate
  by_cases hm : p.mapLength = 0
  · simp [hm]
  · rw [if_neg hm]
    cases hp : passSegments p 0 0 p.list with
    | some failure =>
      have : ¬(tiles 0 p.hOut p.list = true ∧ ∀ g ∈ p.list, g.WindowFits ∧ g.OverlayFilled p) := fun h => by
        rw [passSegments_none.2 h] at hp
        cases hp
      simp only [reduceCtorEq, false_iff]
      exact fun ⟨⟨_, tiled⟩, checks, _⟩ => this ⟨tiled, checks⟩
    | none =>
      obtain ⟨tiled, checks⟩ := passSegments_none.1 hp
      simp only [Option.map_eq_none_iff]
      exact ⟨fun h => ⟨⟨hm, tiled⟩, checks, h⟩, fun h => h.2.2⟩

theorem validate_none_iff_passesR46 {p : ConfigSet} : validate p = none ↔ Claims.passesR46 p := by
  rw [validate_none]
  constructor
  · rintro ⟨length, tiled, checks, fits⟩
    exact ⟨length, tiled, fun g hg => (checks g hg).1, fun g hg => (checks g hg).2, fun g hg j o hj => fits g hg j hj o⟩
  · rintro ⟨length, tiled, window, filled, fits⟩
    exact ⟨length, tiled, fun g hg => ⟨window g hg, filled g hg⟩, fun g hg j hj o => fits g hg j o hj⟩

/-- Settles O55: a pass without a failure is a tiling, and a tiling covers each of its lines once. -/
theorem validSetsTileTheirLines : Obligations.ValidSetsTileTheirLines := by
  refine fun p => ⟨validate_none_iff_passesR46, fun valid _ y hy => ?_⟩
  obtain ⟨-, tiled, -⟩ := validate_none.1 valid
  obtain ⟨i, g, hi, covers, found, unique⟩ := tiles_cover tiled (Nat.zero_le y) hy
  exact ⟨i, g, hi, covers.1, covers.2, found, fun j g' hj low high => unique j g' hj ⟨low, high⟩⟩

end Sys2Proof.Machine
end

