-- ==== Sys2Proof/Proofs/Composer.lean ====
section
/-! PROOFS. O21, O22, O23: what the composer shows (chapter 1). -/

namespace Sys2Proof.Machine

/-! ## Where a line's source lies (R5, R7, R14, R17) -/

theorem ConfigSet.segmentAt_some {set : ConfigSet} {g : Segment} {y : Nat} (h : set.segmentAt y = some g) :
    g.first ≤ y ∧ y < g.first + g.count := by
  simpa using List.find?_some h

/-- From a line of the segment on, the source position in whole numbers (R7, R14). -/
theorem Segment.position_eq {g : Segment} {y : Nat} (h : g.first ≤ y) :
    g.position y = (g.srcStart : Int) + ((y : Int) - (g.first : Int)) * g.step.toInt := by
  rw [position, Nat.cast_sub h]

theorem Segment.column_eq (g : Segment) (wOut x : Nat) :
    g.column wOut x = g.colStart + if g.mirror then wOut - 1 - x else x := by
  unfold column
  split <;> rfl

/-- The row of a MEMORY line, for a window that has rows (R14). -/
theorem Segment.memoryRow_eq {g : Segment} {y row : Nat} (rows : 0 < g.windowRows)
    (h : (row : Int) = g.windowBase + g.position y % g.windowRows) : g.memoryRow y = row := by
  have := Int.emod_nonneg (g.position y) (b := g.windowRows) (by omega)
  unfold memoryRow
  omega

/-! ## Palettes and pixels (R20, R211) -/

theorem wordPixel_lt (w : Word) (p : Nat) : wordPixel w p < 16 :=
  Nat.mod_lt _ (by decide)

theorem wordPixel_eq_shift (w : Word) (p : Nat) : wordPixel w p = (w >>> (4 * (3 - p % 4))).toNat % 16 := by
  rw [wordPixel, BitVec.toNat_ushiftRight, Nat.shiftRight_eq_div_pow, Nat.pow_mul]

/-- The palette of a number below 8 gives an index below 16 its code (R20). -/
theorem ConfigSet.paletteCode_some (set : ConfigSet) {palette index : Nat} (hp : palette < 8) (hi : index < 16) :
    some (set.paletteCode palette index) = (set.palettes[palette]?).bind fun pal => pal[index]? := by
  simp [paletteCode, hp, hi]

/-! ## The lengths of lines -/

@[simp] theorem baseLine_length (set : ConfigSet) (lines : LineStore) (array : Memory) (bound : Option InputFrame)
    (g : Segment) (y : Nat) : (baseLine set lines array bound g y).codes.length = set.wOut := by
  unfold baseLine
  split
  · simp
  · simp [memoryBase]
  · split
    · simp [lossLine]
    · split
      · simp [linkBase]
      · simp [lossLine]

@[simp] theorem overlaid_length (set : ConfigSet) (array : Memory) (g : Segment) (y : Nat) (base : List Word) :
    (overlaid set array g y base).length = base.length := by
  unfold overlaid
  split
  · simp [drawOverlay]
  · rfl

@[simp] theorem overridden_length (mode : OutputOverride) (codes : List Word) :
    (overridden mode codes).length = codes.length := by
  cases mode <;> simp [overridden]

/-- Every composed line has W_out codes (R1). -/
theorem composeLine_length (set : ConfigSet) (lines : LineStore) (array : Memory) (bound : Option InputFrame)
    (y : Nat) : (composeLine set lines array bound y).codes.length = set.wOut := by
  unfold composeLine
  split
  · simp
  · split
    · simp [lossLine]
    · simp

/-! ## The line of a segment -/

/-- Under NORMAL the line of a segment is its base line with the overlay over it (R2). -/
theorem composeLine_normal {set : ConfigSet} {g : Segment} {y : Nat} (lines : LineStore) (array : Memory)
    (bound : Option InputFrame) (normal : set.outputOverride = .normal) (covered : set.segmentAt y = some g) :
    composeLine set lines array bound y
      = { codes := overlaid set array g y (baseLine set lines array bound g y).codes
          substituted := (baseLine set lines array bound g y).substituted } := by
  simp [composeLine, normal, covered, overridden]

/-- A segment without an overlay shows its base line (R2). -/
theorem overlaid_of_none (set : ConfigSet) (array : Memory) {g : Segment} (y : Nat) (base : List Word)
    (h : g.overlay = none) : overlaid set array g y base = base := by
  simp [overlaid, ConfigSet.overlayAt, h]

theorem composeLine_plain {set : ConfigSet} {g : Segment} {y : Nat} (lines : LineStore) (array : Memory)
    (bound : Option InputFrame) (normal : set.outputOverride = .normal) (covered : set.segmentAt y = some g)
    (plain : g.overlay = none) : composeLine set lines array bound y = baseLine set lines array bound g y := by
  rw [composeLine_normal lines array bound normal covered, overlaid_of_none set array y _ plain]

/-! The base line by its kind (R7-R15, R19). -/

theorem baseLine_fill (set : ConfigSet) (lines : LineStore) (array : Memory) (bound : Option InputFrame) {g : Segment}
    (y : Nat) (kind : g.kind = .fill) :
    baseLine set lines array bound g y = { codes := List.replicate set.wOut g.fill, substituted := false } := by
  simp [baseLine, kind]

theorem baseLine_memory (set : ConfigSet) (lines : LineStore) (array : Memory) (bound : Option InputFrame) {g : Segment}
    (y : Nat) (kind : g.kind = .memory) :
    baseLine set lines array bound g y
      = { codes := memoryBase set g array (g.memoryRow y), substituted := false } := by
  simp [baseLine, kind]

theorem baseLine_holdover (set : ConfigSet) (lines : LineStore) (array : Memory) {g : Segment} (y : Nat)
    (kind : g.kind = .link) :
    baseLine set lines array none g y = { codes := List.replicate set.wOut set.lossColour, substituted := true } := by
  simp [baseLine, kind, lossLine]

theorem baseLine_missing (set : ConfigSet) {lines : LineStore} (array : Memory) (f : InputFrame) {g : Segment} {y : Nat}
    (kind : g.kind = .link) (missing : lines.query (g.position y) = .missing) :
    baseLine set lines array (some f) g y
      = { codes := List.replicate set.wOut set.lossColour, substituted := true } := by
  simp [baseLine, kind, missing, lossLine]

theorem baseLine_present (set : ConfigSet) {lines : LineStore} (array : Memory) (f : InputFrame) {g : Segment} {y : Nat}
    {stored : StoredLine} (kind : g.kind = .link) (present : lines.query (g.position y) = .present stored) :
    baseLine set lines array (some f) g y
      = { codes := linkBase set g f.width stored.pixels, substituted := false } := by
  simp [baseLine, kind, present]

/-- A stored line's code at the mapped column, and beyond its end the fill colour (R17, R18). -/
theorem linkBase_getElem? (set : ConfigSet) (g : Segment) {pixels : List Word} {x : Nat} (hx : x < set.wOut) :
    (linkBase set g pixels.length pixels)[x]?
      = some (pixels.getD (g.colStart + if g.mirror then set.wOut - 1 - x else x) g.fill) := by
  simp only [linkBase, List.getElem?_map, List.getElem?_range hx, Option.map_some, g.column_eq]
  generalize g.colStart + (if g.mirror then set.wOut - 1 - x else x) = c
  split
  · rfl
  · next h => rw [List.getD_eq_default _ _ (not_lt.1 h)]

/-- A memory row's index at the mapped column through the palette, and beyond the row the fill colour (R15, R17,
R18). -/
theorem memoryBase_getElem? (set : ConfigSet) (g : Segment) (array : Memory) (row : Nat) {x : Nat} (hx : x < set.wOut) :
    (memoryBase set g array row)[x]?
      = some (if g.column set.wOut x < 1024 then set.paletteCode g.palette (array.pixel row (g.column set.wOut x))
          else g.fill) := by
  simp only [memoryBase, List.getElem?_map, List.getElem?_range hx, Option.map_some]
  rfl

/-! ## The overlay (R22-R24) -/

/-- The overlay reaches output line y of the segment (R22). -/
def Overlay.Reaches (o : Overlay) (g : Segment) (y : Nat) : Prop :=
  g.first + o.lineOffset ≤ y ∧ y < g.first + o.lineOffset + o.rows

/-- The row of picture memory that the overlay draws on line y (R22). -/
def Overlay.rowAt (o : Overlay) (g : Segment) (y : Nat) : Nat :=
  o.rowBase + (y - g.first - o.lineOffset)

theorem ConfigSet.overlayAt_of_reaches {set : ConfigSet} {g : Segment} {y j : Nat} {o : Overlay}
    (named : g.overlay = some j) (filled : set.overlays[j]? = some (some o)) (h : o.Reaches g y) :
    set.overlayAt g y = some (o, o.rowAt g y) := by
  obtain ⟨low, high⟩ := h
  simp only [overlayAt, named, filled]
  exact if_pos ⟨low, by omega⟩

theorem ConfigSet.overlayAt_of_not_reaches {set : ConfigSet} {g : Segment} {y j : Nat} {o : Overlay}
    (named : g.overlay = some j) (filled : set.overlays[j]? = some (some o)) (h : ¬o.Reaches g y) :
    set.overlayAt g y = none := by
  simp only [overlayAt, named, filled]
  exact if_neg fun ⟨low, high⟩ => h ⟨low, by omega⟩

/-- Where the overlay shows at output pixel x: on its lines and columns, but for its key (R22-R24). -/
def Overlay.Shows (o : Overlay) (g : Segment) (array : Memory) (y x : Nat) : Prop :=
  o.Reaches g y ∧ (o.destX ≤ x ∧ x < o.destX + o.span)
    ∧ o.key ≠ some (array.pixel (o.rowAt g y) (o.srcCol + (x - o.destX)))

/-- Where the overlay shows, its index through its own palette stands (R23). -/
theorem overlaid_shows {set : ConfigSet} {array : Memory} {g : Segment} {y j x : Nat} {o : Overlay} {base : List Word}
    (named : g.overlay = some j) (filled : set.overlays[j]? = some (some o)) (hx : x < base.length)
    (shows : o.Shows g array y x) :
    (overlaid set array g y base)[x]?
      = some (set.paletteCode o.palette (array.pixel (o.rowAt g y) (o.srcCol + (x - o.destX)))) := by
  obtain ⟨reaches, inside, key⟩ := shows
  simp only [overlaid, ConfigSet.overlayAt_of_reaches named filled reaches, drawOverlay, List.getElem?_mapIdx,
    List.getElem?_eq_getElem hx, Option.map_some, overlayPixel, if_pos inside, if_neg key]

/-- Elsewhere the base line stands (R23, R24). -/
theorem overlaid_not_shows {set : ConfigSet} {array : Memory} {g : Segment} {y j x : Nat} {o : Overlay}
    {base : List Word} (named : g.overlay = some j) (filled : set.overlays[j]? = some (some o))
    (shows : ¬o.Shows g array y x) : (overlaid set array g y base)[x]? = base[x]? := by
  by_cases reaches : o.Reaches g y
  · simp only [overlaid, ConfigSet.overlayAt_of_reaches named filled reaches, drawOverlay, List.getElem?_mapIdx]
    have same (code : Word) : overlayPixel set array o (o.rowAt g y) x code = code := by
      unfold overlayPixel
      split
      · next inside => exact if_pos (not_not.1 fun key => shows ⟨reaches, inside, key⟩)
      · rfl
    simp [same]
  · simp only [overlaid, ConfigSet.overlayAt_of_not_reaches named filled reaches]

/-- The base line takes from the set its width, palettes and loss colour, and from the segment all but its overlay. -/
theorem baseLine_congr {set plain : ConfigSet} (lines : LineStore) (array : Memory) (bound : Option InputFrame)
    (g : Segment) (y : Nat) (wOut : plain.wOut = set.wOut) (palettes : plain.palettes = set.palettes)
    (loss : plain.lossColour = set.lossColour) :
    baseLine plain lines array bound { g with overlay := none } y = baseLine set lines array bound g y := by
  unfold baseLine memoryBase linkBase lossLine ConfigSet.paletteCode
  rw [wOut, palettes, loss]
  rfl

/-! ## The statements -/

theorem invertCode_toNat (c : Word) : (invertCode c).toNat = 65535 - c.toNat := by
  have := c.isLt
  unfold invertCode
  bv_omega

/-- Settles O21: BLANK is the composer's first case, and INVERT only maps the codes of the NORMAL line. -/
theorem overridesBlankOrComplementTheLine : Obligations.OverridesBlankOrComplementTheLine := by
  refine fun set lines array bound y => ⟨fun blank => ?_, fun invert covered => ?_⟩
  · exact ⟨by simp [composeLine, blank], by simp [sourceQuery, blank], by simp [frameRows, blank]⟩
  · obtain ⟨g, hg⟩ := Option.isSome_iff_exists.1 covered
    have plain := composeLine_normal (set := { set with outputOverride := .normal }) lines array bound rfl hg
    have inverted : composeLine set lines array bound y
        = { codes := (overlaid set array g y (baseLine set lines array bound g y).codes).map invertCode
            substituted := (baseLine set lines array bound g y).substituted } := by
      simp [composeLine, invert, hg, overridden]
    refine ⟨_, _, rfl, rfl, ?_, ?_, fun x c hc => ⟨invertCode c, ?_, invertCode_toNat c⟩⟩
    · rw [plain, inverted]; rfl
    · rw [composeLine_length, composeLine_length]
    · rw [plain] at hc
      rw [inverted, List.getElem?_map]
      exact congrArg (Option.map invertCode) hc

/-- Settles O22: without an overlay the line is its segment's base line, pixel by pixel. -/
theorem baseLinesShowTheirSource : Obligations.BaseLinesShowTheirSource := by
  intro set lines array g y normal covered plain
  have line := fun bound => composeLine_plain lines array bound normal covered plain
  rw [← Segment.position_eq (ConfigSet.segmentAt_some covered).1]
  refine ⟨fun f stored kind present width => ?_, fun f kind missing => ?_, fun kind => ?_,
    fun bound row kind palette rows hrow => ?_⟩
  · refine ⟨_, rfl, ?_, composeLine_length .., fun x hx => ?_⟩ <;>
      rw [line, baseLine_present set array f kind present]
    rw [← width]
    exact linkBase_getElem? set g hx
  · rw [line, baseLine_missing set array f kind missing]
  · rw [line, baseLine_holdover set lines array y kind]
  · refine ⟨_, rfl, ?_, composeLine_length .., fun x col index hx hcol hindex => ?_⟩ <;>
      rw [line, baseLine_memory set lines array bound y kind]
    rw [← Segment.column_eq] at hcol
    rw [← wordPixel_eq_shift] at hindex
    rw [Segment.memoryRow_eq rows hrow, memoryBase_getElem? set g array row hx, ← hcol, hindex]
    split
    · exact set.paletteCode_some palette (wordPixel_lt _ _)
    · rfl

/-- Settles O23: the plain line is the base line, and the overlay is drawn over it where it shows. -/
theorem overlaysAreDrawnOverTheBaseLine : Obligations.OverlaysAreDrawnOverTheBaseLine := by
  intro set lines array bound g y normal covered
  refine ⟨fun plain o j normal' wOut palettes loss covered' named filled palette => ?_, fun kind none' => ?_⟩
  · have drawn := composeLine_normal lines array bound normal covered
    have base : composeLine plain lines array bound y = baseLine set lines array bound g y := by
      rw [composeLine_plain lines array bound normal' covered' rfl,
        baseLine_congr lines array bound g y wOut palettes loss]
    refine ⟨_, _, rfl, rfl, ?_, composeLine_length .., (composeLine_length ..).trans wOut,
      fun x hx => ⟨?_, fun hidden => ?_⟩⟩
    · rw [drawn, base]
    · rintro ⟨low, high, left, right, key⟩
      rw [drawn, overlaid_shows named filled (by simpa using hx) ⟨⟨low, high⟩, ⟨left, right⟩, key⟩]
      exact set.paletteCode_some palette (wordPixel_lt _ _)
    · rw [drawn, base]
      refine overlaid_not_shows named filled fun ⟨⟨low, high⟩, ⟨left, right⟩, key⟩ => ?_
      exact hidden ⟨low, high, left, right, key⟩
  · rw [composeLine_plain lines array bound normal covered none', baseLine_fill set lines array bound y kind]

end Sys2Proof.Machine
end

