-- ==== Sys2Proof/Proofs/ResetAndEmission.lean ====
section
/-! PROOFS. O5 and O17: the soft reset of the part, and the beginning of a line. -/

namespace Sys2Proof.Machine

/-! ## SOFT_RESET in the execution of a packet (R178, R179) -/

/-- The reply of the packet that a soft reset ends: the results so far and its own OK (R171, R179). -/
def resetReply (s : State) (p : ControlPacket) : Reply :=
  formReply p (s.mgt.results ++ [okResult []])

/-- The expected sequence number after a soft reset follows the packet under execution (R179). -/
theorem Management.softReset_expected {g : Management} {p : ControlPacket} {rest : List ControlPacket}
    (h : g.queue = p :: rest) : g.softReset.expected = p.seq + 1 := by
  simp [softReset, resetExpected, h]

/-- The end of an execution with the packet at the head known (R171). -/
theorem State.endExecution_cons {s : State} {p : ControlPacket} {rest : List ControlPacket}
    (h : s.mgt.queue = p :: rest) :
    s.endExecution =
      { s with
        mgt := { s.mgt with queue := rest, history := enterHistory s.mgt.history (formReply p s.mgt.results)
                            readTotal := 0, results := [] }
        rtx := s.rtx.takeReply (formReply p s.mgt.results) } := by
  unfold endExecution
  split
  · next hn => rw [hn] at h; cases h
  · next hq => rw [hq] at h; cases h; rfl

/-- The row, block by block: the part's soft reset, the reply alone in the history and in the reply queue, and the
arbiter's decision (R178, R179, R184, R195). -/
theorem exec_softReset_of_queue {s : State} {p : ControlPacket} {rest : List ControlPacket}
    (h : s.mgt.queue = p :: rest) :
    exec .softReset s = .next
      { s.softReset with
        mgt := { s.mgt.softReset with queue := [], history := [resetReply s p], readTotal := 0, results := [] }
        rtx := (s.rtx.softReset.takeReply (resetReply s p)).arbitrate } := by
  have queue : (State.recordResult (s.softReset, okResult [])).mgt.queue = [p] := by
    simp [Management.softReset, h]
  rw [exec_softReset, State.endExecution_cons queue]
  rfl

theorem resetReply_status (s : State) (p : ControlPacket) : (resetReply s p).status = .ok := by
  simp [resetReply, formReply, packetStatus, okResult]

/-- After the drain nothing is newer than the array, so the holder's load at the origin reads its first word (R140). -/
theorem PictureMemory.softReset_holder (p : PictureMemory) :
    p.softReset.holder = ⟨⟨0, 0⟩, p.softReset.array.read 0⟩ :=
  rfl

/-- An IDLE transmitter starts the reply that the soft reset leaves (R184, R195). -/
theorem ReverseTransmitter.softReset_starts_reply {x : ReverseTransmitter} (r : Reply) (idle : x.transmitter = none) :
    (x.softReset.takeReply r).arbitrate.transmitter = some ⟨.reply r, some .reply⟩ := by
  have idle' : (x.softReset.takeReply r).transmitter = none := by simp [softReset, takeReply, idle]
  rw [arbitrate_transmitter, idle']
  rfl

/-- A packet in transmission goes on, and belongs to no queue any more (R195). -/
theorem ReverseTransmitter.softReset_goes_on {x : ReverseTransmitter} {t : Transmission} (r : Reply)
    (busy : x.transmitter = some t) :
    (x.softReset.takeReply r).arbitrate.transmitter = some { t with queue := none } := by
  have busy' : (x.softReset.takeReply r).transmitter = some { t with queue := none } := by
    simp [softReset, takeReply, busy]
  rw [arbitrate_busy busy', busy']

/-- Settles O5: the row's state is written out block by block, and each block's values are read off it. -/
theorem softResetTakesTheSoftResetValues : Obligations.SoftResetTakesTheSoftResetValues := by
  intro s p rest queue wf
  refine ⟨_, resetReply s p, exec_softReset_of_queue queue, rfl, rfl, rfl, PanelPort.softReset_announce .., ?_, ?_,
    PictureMemory.drain_read wf, rfl, rfl, rfl, rfl, PictureMemory.softReset_holder _, rfl, rfl,
    Management.softReset_expected queue, rfl, rfl, rfl, rfl, rfl, rfl, rfl, rfl, resetReply_status s p, rfl, ?_, ?_, ?_,
    ?_, ?_, ReverseTransmitter.softReset_starts_reply _, fun x => ReverseTransmitter.softReset_goes_on _, rfl⟩
  · intro idle; simp [idle]
  · intro e earlier codes emission strobes width
    simpa [emission] using PanelPort.softReset_cut e strobes width
  all_goals simp [ReverseTransmitter.softReset, ReverseTransmitter.takeReply]

/-! ## The beginning of a line (R69, R71) -/

/-- A driven line that may begin is presented whole and is in emission (R71, R73). -/
theorem execEmissionBegin_driven {s : State} {r : FrameRecord} {pready : Bool} (record : s.osq.record = some r)
    (begins : s.mayBegin r pready = true) (driven : r.drive = true) :
    execEmissionBegin pready s = .next
      { s with
        panel := { s.panel with strobes := s.panel.strobes ++ [.line (s.composeNext r).codes] }
        osq :=
          { s.osq with record := some { r with nextLine := r.nextLine + 1 }
                       emission := some { line := r.nextLine, substituted := (s.composeNext r).substituted } } } := by
  simp [execEmissionBegin, record, begins, driven]

/-- While a condition of R69 fails, at most the held query changes (R93). -/
theorem execEmissionBegin_waits {s : State} {r : FrameRecord} {pready : Bool} (record : s.osq.record = some r)
    (waits : s.mayBegin r pready = false) :
    ∃ held, execEmissionBegin pready s = .next { s with lines := { s.lines with held := held } } := by
  cases emission : s.osq.emission with
  | none =>
    obtain ⟨held, asked⟩ := s.askNext_eq
    exact ⟨held, by simp [execEmissionBegin, record, waits, emission, asked]⟩
  | some e => exact ⟨s.lines.held, by simp [execEmissionBegin, record, waits, emission]⟩

theorem State.mayBegin_iff {s : State} {r : FrameRecord} {pready : Bool} :
    s.mayBegin r pready = true ↔ s.osq.emission = none ∧ r.nextLine < r.lines
      ∧ s.sourceResolved r r.nextLine = true ∧ (r.drive = true → pready = true) := by
  simp only [mayBegin, Bool.and_eq_true, Option.isNone_iff_eq_none, decide_eq_true_eq, and_assoc]
  cases r.drive <;> simp

/-- Settles O17: the conditions of R69 are those of `mayBegin`, and either side of it is said above. -/
theorem aLineBeginsOnlyWhenItsConditionsHold : Obligations.ALineBeginsOnlyWhenItsConditionsHold := by
  refine fun s r record => ⟨fun emission left driven resolved => ?_, fun pready fails => ?_⟩
  · have begins : s.mayBegin r true = true := State.mayBegin_iff.2 ⟨emission, left, resolved, fun _ => rfl⟩
    exact ⟨s.composeNext r, rfl, composeLine_length .., execEmissionBegin_driven record begins driven⟩
  · refine execEmissionBegin_waits record (Bool.eq_false_iff.2 fun begins => ?_)
    obtain ⟨emission, left, resolved, ready⟩ := State.mayBegin_iff.1 begins
    obtain unresolved | ⟨driven, notReady⟩ | emitting | done := fails
    · rw [resolved] at unresolved; cases unresolved
    · rw [ready driven] at notReady; cases notReady
    · exact emitting emission
    · omega

end Sys2Proof.Machine
end

