-- ==== Sys2Proof/Proofs/FrameStarts.lean ====
section
/-! PROOFS. O16: a commit request at an output frame start. -/

namespace Sys2Proof.Machine

/-! ## What a frame start leaves in the blocks that CFG's decision reaches (R50, R62, R73) -/

@[simp] theorem State.startFrame_record (s : State) (kind : FrameKind) :
    (s.startFrame kind).osq.record
      = some (newRecord kind (s.osq.startTag kind) (s.config.frameStart (s.osq.startTag kind))) := by
  obtain ⟨held, h⟩ := s.startFrame_eq kind; rw [h]

@[simp] theorem State.startFrame_panel (s : State) (kind : FrameKind) :
    (s.startFrame kind).panel = s.panel.startFrame
      (newRecord kind (s.osq.startTag kind) (s.config.frameStart (s.osq.startTag kind))) := by
  obtain ⟨held, h⟩ := s.startFrame_eq kind; rw [h]

@[simp] theorem State.startFrame_rtx (s : State) (kind : FrameKind) :
    (s.startFrame kind).rtx = (s.handNotice? (s.config.frameStart (s.osq.startTag kind)).notice).rtx := by
  obtain ⟨held, h⟩ := s.startFrame_eq kind
  rw [h]
  cases (s.config.frameStart (s.osq.startTag kind)).notice <;> rfl

@[simp] theorem State.handNotice?_none (s : State) : s.handNotice? none = s := rfl
@[simp] theorem State.handNotice?_some (s : State) (n : Notice) : s.handNotice? (some n) = s.handNotice n := rfl

/-! ## The due condition (R48, R49) -/

/-- The distance of R49 is the difference modulo 65536. -/
theorem dueAt_at_iff {a tag : Word} :
    dueAt (some (.at a)) tag = true ↔ (tag.toNat + 65536 - a.toNat) % 65536 < 32768 := by
  have := a.isLt
  simp only [dueAt, decide_eq_true_eq, BitVec.toNat_sub]
  rw [show 2 ^ 16 - a.toNat + tag.toNat = tag.toNat + 65536 - a.toNat by omega]

theorem dueAt_iff_requestDue {s : State} {tag : Word} :
    dueAt s.config.due tag = true ↔ Claims.requestDue s tag := by
  unfold Claims.requestDue
  cases hd : s.config.due with
  | none => simp [dueAt]
  | some d =>
    obtain _ | a := d
    · simp [dueAt]
    · rw [dueAt_at_iff]; simp

theorem ConfigStore.sameGeometry_iff {c : ConfigStore} :
    c.sameGeometry = true ↔ c.pending.hOut = c.live.hOut ∧ c.pending.wOut = c.live.wOut :=
  decide_eq_true_iff

/-! ## CFG's decision, by the request (R50) -/

theorem ConfigStore.frameStart_announcing {c : ConfigStore} (tag : Word) (h : c.commit = .announcing) :
    c.frameStart tag = transferNow c tag := by
  simp [frameStart, h]

theorem ConfigStore.frameStart_due {c : ConfigStore} {tag : Word} (h : c.commit = .armed)
    (due : dueAt c.due tag = true) :
    c.frameStart tag = if c.sameGeometry then transferNow c tag else announceNow c := by
  simp [frameStart, h, due]

theorem ConfigStore.frameStart_not_due {c : ConfigStore} {tag : Word} (h : c.commit = .armed)
    (due : dueAt c.due tag = false) : c.frameStart tag = keepLive c := by
  simp [frameStart, h, due]

/-- A transfer, by the request as the rules state it (R50). -/
theorem frameStart_transfers {s : State} {tag : Word}
    (h : (s.config.commit = .armed ∧ Claims.requestDue s tag ∧ s.config.pending.hOut = s.config.live.hOut
        ∧ s.config.pending.wOut = s.config.live.wOut) ∨ s.config.commit = .announcing) :
    s.config.frameStart tag = transferNow s.config tag := by
  obtain ⟨armed, due, same⟩ | announcing := h
  · rw [ConfigStore.frameStart_due armed (dueAt_iff_requestDue.2 due), if_pos (ConfigStore.sameGeometry_iff.2 same)]
  · exact ConfigStore.frameStart_announcing tag announcing

/-- An announce frame (R52). -/
theorem frameStart_announces {s : State} {tag : Word} (armed : s.config.commit = .armed)
    (due : Claims.requestDue s tag)
    (other : s.config.pending.hOut ≠ s.config.live.hOut ∨ s.config.pending.wOut ≠ s.config.live.wOut) :
    s.config.frameStart tag = announceNow s.config := by
  rw [ConfigStore.frameStart_due armed (dueAt_iff_requestDue.2 due), if_neg]
  rw [ConfigStore.sameGeometry_iff]
  omega

/-- A request by AT whose tag is still ahead (R49). -/
theorem frameStart_keeps {s : State} {a tag : Word} (armed : s.config.commit = .armed)
    (due : s.config.due = some (.at a)) (ahead : 32768 ≤ (tag.toNat + 65536 - a.toNat) % 65536) :
    s.config.frameStart tag = keepLive s.config := by
  refine ConfigStore.frameStart_not_due armed (Bool.eq_false_iff.2 fun h => ?_)
  rw [due, dueAt_at_iff] at h
  omega

/-! ## The end of the output frame before (R72, R75) -/

/-- Of what a frame end does to the transmitter only its report counts: no notice comes or is lost, and a BUSY
transmitter goes on (R184, R192). -/
structure ReverseTransmitter.Reported (x x' : ReverseTransmitter) : Prop where
  notices : x'.notices = x.notices
  noticesLost : x'.noticesLost = x.noticesLost
  busy : ∀ t, x.transmitter = some t → x' = { x with reports := x'.reports, reportsLost := x'.reportsLost }

theorem ReverseTransmitter.Reported.refl (x : ReverseTransmitter) : x.Reported x := ⟨rfl, rfl, fun _ _ => rfl⟩

theorem ReverseTransmitter.takeReport_reported (x : ReverseTransmitter) (r : Report) :
    x.Reported (x.takeReport r).arbitrate := by
  obtain ⟨-, h⟩ | ⟨-, h⟩ := x.takeReport_cases r
  all_goals
    refine ⟨by simp, by simp [h], fun t ht => ?_⟩
    rw [arbitrate_busy (t := t) (by simpa using ht), h]

/-- A notice with a place reaches a BUSY transmitter after the report (R184, R189). -/
theorem ReverseTransmitter.Reported.takeNotice {x x' : ReverseTransmitter} {t : Transmission} (h : x.Reported x')
    (busy : x.transmitter = some t) (room : x.notices.length < 4) (n : Notice) :
    (x'.takeNotice n).arbitrate = { x with notices := x.notices ++ [n], reports := x'.reports
                                           reportsLost := x'.reportsLost } := by
  have same := h.busy t busy
  have goesOn : (x'.takeNotice n).transmitter = some t := by rw [takeNotice_transmitter, same, busy]
  rw [arbitrate_busy goesOn, takeNotice_of_free n (by rw [h.notices]; exact room), h.notices]
  exact congrArg (fun y : ReverseTransmitter => { y with notices := x.notices ++ [n] }) same

/-- The row that completes a frame's last line is the end of the frame under its last record (R60, R75). -/
theorem exec_of_endsFrame {s : State} {c : Instr} {r : FrameRecord} {sub : Bool} (h : Claims.endsFrame s c r sub) :
    ∃ r' : FrameRecord, r'.kind = r.kind
      ∧ exec c s = .next (State.endFrame { s with osq := { s.osq with record := some r', emission := none } } r') := by
  obtain ⟨record, ⟨rfl, done, e, emission, rfl⟩ | ⟨pready, rfl, idle, dark, last, resolved, rfl⟩⟩ := h
  · obtain ⟨r', hr, he⟩ := s.completeLine_last e.substituted done
    refine ⟨r', by rw [hr], Eq.trans ?_ (congrArg _ he)⟩
    simp [exec, execLineCompletion, record, emission]
  · have begins : s.mayBegin r pready = true :=
      State.mayBegin_iff.2 ⟨idle, by omega, resolved, fun h => by rw [dark] at h; cases h⟩
    obtain ⟨r', hr, he⟩ := s.completeLine_last (r := { r with nextLine := r.nextLine + 1 })
      (s.composeNext r).substituted last.ge
    refine ⟨r', by rw [hr], Eq.trans ?_ (congrArg _ he)⟩
    simp [exec, execEmissionBegin, record, begins, dark]

/-! ## The rows that start an output frame -/

/-- The state in which an output frame with this kind and tag starts, seen from the row's own state: the configuration
store and the strobes are as they were, and of the transmitter at most a report has come. -/
structure State.StartsAs (s d : State) (tag : Word) (kind : FrameKind) : Prop where
  config : d.config = s.config
  tag : d.osq.startTag kind = tag
  strobes : d.panel.strobes = s.panel.strobes
  rtx : s.rtx.Reported d.rtx

theorem frameOpenFields_valid {tag lines width : Word} (h : Claims.validOpen lines width) :
    frameOpenFields [tag, lines, width] = some (Claims.opened tag lines width) :=
  (frameOpenFields_three tag lines width).trans (if_pos h)

/-- Between frames: the holdover timer's expiry in HOLD_GAP, and a FRAME_OPEN on a locked link (R63, R67). -/
theorem exec_of_startsFrame {s : State} {c : Instr} {tag : Word} (h : Claims.startsFrame s c tag) :
    ∃ d kind, exec c s = .next (d.startFrame kind) ∧ s.StartsAs d tag kind ∧ d.rtx = s.rtx := by
  obtain ⟨rfl, ⟨period, timer⟩, state, rfl⟩ | ⟨lines, width, rfl, valid, listening, aligned, locked, state⟩ := h
  · refine ⟨{ s with osq := { s.osq with holdTimer := .expired } }, .holdover, ?_, ⟨rfl, rfl, rfl, .refl _⟩, rfl⟩
    simp [exec, execHoldoverTimerExpiry, timer, state]
  · have opens : exec (.frameOpen [tag, lines, width]) s = .next (s.openFrame (Claims.opened tag lines width)) := by
      simp only [exec, execFrameOpen, State.onLink_aligned _ listening aligned, frameOpenFields_valid valid]
    rw [opens, State.openFrame_eq, locked]
    obtain ⟨-, he⟩ | ⟨state', -⟩ := State.frameOpenArrival_cases
      { s with
        link := { s.link with
                  parser := .inFrame, locked := true, lastTag := tag, lossTimer := some s.mgt.lossTimeout
                  current := some { frame := Claims.opened tag lines width, highest := none } }
        lines := if s.link.current.isSome then s.lines.closeFrame .truncated else s.lines }
      (Claims.opened tag lines width)
    · exact ⟨_, _, congrArg _ he, ⟨rfl, rfl, rfl, .refl _⟩, rfl⟩
    · obtain state | state := state <;> simp [state] at state'

/-- At a frame end: the input frame in the slot, or the next holdover frame (R75). -/
theorem exec_of_startsNextFrame {s : State} {c : Instr} {tag : Word} (h : Claims.startsNextFrame s c tag) :
    ∃ d kind mover, exec c s = .next { d.startFrame kind with mover := mover } ∧ s.StartsAs d tag kind := by
  obtain ⟨r, sub, ends, next⟩ := h
  obtain ⟨r', kind, he⟩ := exec_of_endsFrame ends
  obtain ⟨d, hd, link, config, -, -, -, panel, -, -, reported⟩ := State.endFrame_eq
    { s with osq := { s.osq with record := some r', emission := none } } r'
  have strobes : d.panel.strobes = s.panel.strobes := by rw [panel]
  have rtx : s.rtx.Reported d.rtx := by
    obtain ⟨-, -, hx⟩ | ⟨-, -, hx⟩ := reported <;> rw [hx]
    · exact ReverseTransmitter.takeReport_reported _ _
    · exact .refl _
  obtain ⟨slot, timer, counter⟩ : d.osq.slot = s.osq.slot ∧ d.osq.holdTimer = s.osq.holdTimer
      ∧ d.osq.tagCounter = s.osq.tagCounter := by
    obtain ⟨-, hq, -⟩ | ⟨-, hq, -⟩ := reported <;> rw [hq] <;> exact ⟨rfl, rfl, rfl⟩
  have started {u : State} (hc : d.chooseNext r' = u) :
      exec c s = .next { u with mover := s.mover.resume u.pmem } := by
    rw [he, hd, hc]
  obtain ⟨f, hs, hc⟩ | ⟨hs, hl, -⟩ | ⟨hs, -, hk, ⟨period, ht⟩, -⟩ | ⟨hs, -, hc⟩ := d.chooseNext_cases r'
  · obtain ⟨f', hf, rfl⟩ | ⟨hn, -⟩ := next
    · rw [← slot, hs] at hf
      cases hf
      exact ⟨_, _, _, started hc, config, rfl, strobes, rtx⟩
    · rw [← slot, hs] at hn; cases hn
  · obtain ⟨f', hf, -⟩ | ⟨-, hn, -⟩ := next
    · rw [← slot, hs] at hf; cases hf
    · rw [link, hn] at hl; cases hl
  · obtain ⟨f', hf, -⟩ | ⟨-, -, -, hb | hx⟩ := next
    · rw [← slot, hs] at hf; cases hf
    · exact absurd (kind ▸ hk) hb
    · rw [timer, hx] at ht; cases ht
  · obtain ⟨f', hf, -⟩ | ⟨-, -, ht, -⟩ := next
    · rw [← slot, hs] at hf; cases hf
    · exact ⟨_, _, _, started hc, config, by rw [ht, ← counter]; rfl, strobes, rtx⟩

/-- A row that starts a frame between frames ends none. -/
theorem not_startsFrame_of_startsNextFrame {s : State} {c : Instr} {tag tag' : Word}
    (h : Claims.startsNextFrame s c tag) : ¬Claims.startsFrame s c tag' := by
  obtain ⟨r, sub, ⟨-, ⟨rfl, -⟩ | ⟨pready, rfl, -⟩⟩, -⟩ := h <;>
    rintro (⟨hc, -⟩ | ⟨lines, width, hc, -⟩) <;> cases hc

/-- Every row that starts an output frame does so by `startFrame`, after which at most the mover differs. -/
theorem exec_of_starts {s : State} {c : Instr} {tag : Word}
    (h : Claims.startsFrame s c tag ∨ Claims.startsNextFrame s c tag) :
    ∃ d kind mover, exec c s = .next { d.startFrame kind with mover := mover } ∧ s.StartsAs d tag kind
      ∧ (Claims.startsFrame s c tag → d.rtx = s.rtx) := by
  obtain h | h := h
  · obtain ⟨d, kind, he, starts, rtx⟩ := exec_of_startsFrame h
    exact ⟨d, kind, _, he, starts, fun _ => rtx⟩
  · obtain ⟨d, kind, mover, he, starts⟩ := exec_of_startsNextFrame h
    exact ⟨d, kind, mover, he, starts, fun h' => absurd h' (not_startsFrame_of_startsNextFrame h)⟩

/-- The FRAME strobe and PANNOUNCE of an announce frame (R73, R74). -/
theorem PanelPort.startFrame_announce (p : PanelPort) {r : FrameRecord} {h w : Nat}
    (announce : r.announce = some (h, w)) :
    (p.startFrame r).announce = r.drive
      ∧ (p.startFrame r).strobes
          = p.strobes ++ if r.drive then [.frame [BitVec.ofNat 16 h, BitVec.ofNat 16 w]] else [] := by
  cases hd : r.drive <;> simp [startFrame, hd, announce, announceWords]

/-- Settles O16: every start is `startFrame` on the row's own configuration, and CFG's decision there is a transfer, an
announcement or nothing. -/
theorem aCommitTakesEffectAtAFrameStart : Obligations.ACommitTakesEffectAtAFrameStart := by
  intro s c tag starts
  obtain ⟨d, kind, mover, he, ⟨config, rfl, strobes, rtx⟩, own⟩ := exec_of_starts starts
  refine ⟨fun x busy room request => ?_, fun armed due other => ?_, fun a armed due far => ?_⟩
  · have decision : d.config.frameStart (d.osq.startTag kind) = transferNow s.config (d.osq.startTag kind) := by
      rw [config, frameStart_transfers request]
    have handed : (d.startFrame kind).rtx
        = (d.rtx.takeNotice (.commitApplied (s.config.generation + 1) (d.osq.startTag kind))).arbitrate := by
      rw [State.startFrame_rtx, decision]
      rfl
    have sent := handed.trans (rtx.takeNotice busy room _)
    refine ⟨_, newRecord kind (d.osq.startTag kind) (transferNow s.config (d.osq.startTag kind)), he, ?_, ?_,
      fun h => ?_, ?_, rfl, rfl, rfl, rfl, rfl, rfl⟩
    · simp [decision, transferNow, ConfigStore.transfer]
    · simp only [sent]
    · simp only [sent, own h, and_self]
    · simp [decision]
  · have decision : d.config.frameStart (d.osq.startTag kind) = announceNow s.config := by
      rw [config, frameStart_announces armed due other]
    obtain ⟨level, shown⟩ := d.panel.startFrame_announce
      (r := newRecord kind (d.osq.startTag kind) (announceNow s.config)) rfl
    refine ⟨_, newRecord kind (d.osq.startTag kind) (announceNow s.config), he, ?_, ?_, ?_, fun h => ?_, ?_, rfl, rfl,
      rfl, rfl, ?_, ?_⟩
    · simp [decision, announceNow]
    · simp [decision, announceNow, rtx.notices]
    · simp [decision, announceNow, rtx.noticesLost]
    · simp [decision, announceNow, own h]
    · simp [decision]
    · simp only [State.startFrame_panel, decision]
      exact level
    · simp only [State.startFrame_panel, decision]
      rw [strobes] at shown
      exact shown
  · have decision : d.config.frameStart (d.osq.startTag kind) = keepLive s.config := by
      rw [config, frameStart_keeps armed due far]
    refine ⟨_, newRecord kind (d.osq.startTag kind) (keepLive s.config), he, ?_, ?_, ?_, fun h => ?_, ?_, rfl, rfl, rfl⟩
    · simp [decision, keepLive]
    · simp [decision, keepLive, rtx.notices]
    · simp [decision, keepLive, rtx.noticesLost]
    · simp [decision, keepLive, own h]
    · simp [decision]

end Sys2Proof.Machine
end

