-- ==== Sys2Proof/Proofs/LiveSet.lean ====
section
/-! PROOFS. O3 and O59: the default sets of a reset, and what else changes the live set. -/

namespace Sys2Proof.Machine

/-! ## The defaults (R32) -/

theorem defaultConfig_holdsDefaults : Claims.holdsDefaults defaultConfig := by
  refine ⟨rfl, rfl, rfl, rfl, rfl, by decide, by decide, fun p i => ?_, rfl, rfl, rfl, rfl, rfl, by decide, rfl,
    rfl, rfl⟩
  simp [defaultConfig, defaultSet, greyRamp]

/-- Settles O3: both resets put the default store in place. -/
theorem bothResetsGiveTheDefaultSets : Obligations.BothResetsGiveTheDefaultSets := by
  refine fun s => ⟨⟨_, rfl, defaultConfig_holdsDefaults⟩, ⟨_, exec_softReset s, ?_⟩⟩
  rw [State.arbitrate_config, State.endExecution_eq]
  exact defaultConfig_holdsDefaults

/-! ## Commands and executions -/

/-- No frame is in progress and both sets hold the defaults, as a soft reset leaves them (R32, R80). -/
def State.HoldsReset (s : State) : Prop :=
  s.osq.record = none ∧ s.config = defaultConfig

/-- The live set is that of `s`, or the part has been reset since. -/
def State.LiveOrReset (s t : State) : Prop :=
  t.config.live = s.config.live ∨ t.HoldsReset

/-- Neither block counts for it but the configuration store and the sequencer. -/
theorem State.LiveOrReset.congr {s t u : State} (h : s.LiveOrReset t) (config : u.config = t.config)
    (osq : u.osq = t.osq) : s.LiveOrReset u := by
  unfold LiveOrReset HoldsReset at *
  rw [config, osq]
  exact h

/-- No command but SOFT_RESET touches the live set (R30). -/
theorem OwnerEffect.live {s t : State} {c : CommandName} (h : OwnerEffect s c t) (reset : c ≠ .softReset) :
    t.config.live = s.config.live := by
  cases h
  case reset => exact absurd rfl reset
  case edited h => exact h.live
  all_goals rfl

theorem commandRow_live (s : State) {c : CommandName} (ops : List Word) (reset : c ≠ .softReset) :
    (commandRow c ops s).config.live = s.config.live := by
  unfold commandRow runCommand
  split
  · exact (runOwner_effect s c ops).live reset
  · rfl

/-- A packet's commands keep the live set up to a SOFT_RESET, which is the last one to run and leaves no packet behind
its own (R178, R179). -/
theorem runEntries_live (es : List CommandEntry) (s : State) :
    (runEntries es s).config.live = s.config.live
      ∨ ((runEntries es s).HoldsReset ∧ (runEntries es s).mgt.queue.tail = []) := by
  induction es generalizing s with
  | nil => exact .inl rfl
  | cons e es ih =>
    have next (kept : (runEntry s e).1.config.live = s.config.live) :
        (runEntries (e :: es) s).config.live = s.config.live
          ∨ ((runEntries (e :: es) s).HoldsReset ∧ (runEntries (e :: es) s).mgt.queue.tail = []) := by
      unfold runEntries
      dsimp only
      split
      · exact .inl kept
      · exact (ih (State.recordResult (runEntry s e))).imp_left (·.trans kept)
    obtain ⟨c, code, -, he⟩ | ⟨c, -, -, he⟩ | ⟨-, he⟩ := runEntry_cases s e
    · by_cases reset : c = .softReset
      · subst reset
        refine .inr ?_
        unfold runEntries
        rw [he, if_pos (by simp [endsExecution, code])]
        refine ⟨⟨rfl, rfl⟩, ?_⟩
        change (s.mgt.queue.take 1).tail = []
        cases s.mgt.queue <;> rfl
      · exact next (by rw [he]; exact (runOwner_effect s c e.operands).live reset)
    · exact next (by rw [he])
    · exact next (by rw [he])

@[simp] theorem State.endExecution_config (s : State) : s.endExecution.config = s.config := by
  rw [endExecution_eq]

@[simp] theorem State.endExecution_osq (s : State) : s.endExecution.osq = s.osq := by
  rw [endExecution_eq]

theorem State.endExecution_queue (s : State) : s.endExecution.mgt.queue = s.mgt.queue.tail := by
  unfold endExecution
  split
  · next h => simp [h]
  · next h => simp [h]

/-- Executions follow one another over the same live set, and none follows one that has reset the part (R168, R179). -/
theorem executeWhileReady_live (fuel : Nat) (s : State) : s.LiveOrReset (executeWhileReady fuel s) := by
  induction fuel generalizing s with
  | zero => exact .inl rfl
  | succ fuel ih =>
    unfold executeWhileReady
    split
    · exact .inl rfl
    · next p rest _ =>
      split
      · obtain live | ⟨⟨record, config⟩, last⟩ := runEntries_live p.entries
          { s with mgt := { s.mgt with readTotal := 0, results := [] } }
        · have kept : (s.executePacket p).config.live = s.config.live := by
            rw [State.executePacket, State.endExecution_config, live]
          exact (ih (s.executePacket p)).imp_left (·.trans kept)
        · have empty : (s.executePacket p).mgt.queue = [] := by
            rw [State.executePacket, State.endExecution_queue, last]
          refine .inr ?_
          have done : executeWhileReady fuel (s.executePacket p) = s.executePacket p := by
            cases fuel <;> simp [executeWhileReady, empty]
          rw [done]
          exact ⟨by rw [State.executePacket, State.endExecution_osq, record],
            by rw [State.executePacket, State.endExecution_config, config]⟩
      · exact .inl rfl

theorem State.executeReady_live (s : State) : s.LiveOrReset s.executeReady :=
  executeWhileReady_live _ s

/-! ## The rows of the management unit -/

theorem State.acceptControl_live (s : State) (p : ControlPacket) : s.LiveOrReset (s.acceptControl p) := by
  have accepted (expected : Seq) (history : List Reply) : s.LiveOrReset (s.accept p expected history) := by
    unfold State.accept
    dsimp only
    split
    · exact State.executeReady_live
        { s with mgt := { s.mgt with queue := s.mgt.queue ++ [p], expected := expected, history := history } }
    · exact .inl rfl
  have answered (g : Management) (r : Reply) : s.LiveOrReset (State.answer { s with mgt := g } r) := by
    unfold State.answer
    split <;> exact .inl rfl
  unfold State.acceptControl
  split
  · exact .inl rfl
  · split
    · exact accepted _ _
    · exact .inl rfl
  · split
    · exact accepted _ _
    · exact .inl rfl
  · exact answered _ _
  · exact answered _ _
  · split
    · exact answered s.mgt _
    · exact .inl rfl

theorem ManagementRow.live {s t : State} (h : ManagementRow s t) : s.LiveOrReset t := by
  cases h
  case command ops reset _ => exact .inl (commandRow_live s ops reset)
  case reset =>
    refine .inr ?_
    rw [State.HoldsReset, State.arbitrate_osq, State.arbitrate_config, State.endExecution_osq,
      State.endExecution_config]
    exact ⟨rfl, rfl⟩
  case abort => exact .inl (commandRow_live s [] (by decide))
  case packet p => exact State.acceptControl_live s p
  case dropped => exact .inl rfl
  case sent x h =>
    have sent : s.LiveOrReset (State.afterSent { s with rtx := s.rtx.dropSent x.queue } x.queue) := by
      unfold State.afterSent
      split
      · exact State.executeReady_live _
      · exact .inl rfl
    rw [h]
    exact sent.congr rfl rfl
  case executed => exact (State.executeReady_live s).congr rfl rfl

/-! ## Every row -/

/-- What a row does to the live set: it keeps it, it is a reset, or it starts an output frame on the configuration it
found, with no frame in progress before it but one that it has ended (R30, R50). -/
inductive LiveEffect (c : Instr) (s : State) : State → Prop
  | kept {t : State} (h : s.LiveOrReset t) : LiveEffect c s t
  | started {d : State} {kind : FrameKind} (mover : Mover)
      (before : s.osq.record = none ∨ ∃ r sub, Claims.endsFrame s c r sub) (config : d.config = s.config) :
      LiveEffect c s { d.startFrame kind with mover := mover }

theorem State.onLink_live {c : Instr} {s t : State} {event : State → State} (h : s.onLink event = .next t)
    (effect : LiveEffect c s (event s)) : LiveEffect c s t := by
  unfold onLink at h
  split at h <;> cases h
  · exact effect
  · exact .kept (.inl rfl)

/-- What follows a frame end keeps the configuration or starts a frame on it (R75). -/
theorem State.endFrame_live {c : Instr} {s u : State} {r r' : FrameRecord} {sub : Bool}
    (ends : Claims.endsFrame s c r sub) (config : u.config = s.config) : LiveEffect c s (u.endFrame r') := by
  obtain ⟨d, hd, -, hc, -⟩ := u.endFrame_eq r'
  have kept {v : State} (h : v.config = d.config) : s.LiveOrReset v := .inl (by rw [h, hc, config])
  have follows {v : State} (hv : d.chooseNext r' = v)
      (effect : LiveEffect c s { v with mover := u.mover.resume v.pmem }) : LiveEffect c s (u.endFrame r') := by
    rw [hd, hv]; exact effect
  obtain ⟨f, -, h⟩ | ⟨-, -, h⟩ | ⟨-, -, -, -, h⟩ | ⟨-, -, h⟩ := d.chooseNext_cases r' <;> refine follows h ?_
  · exact .started _ (.inr ⟨r, sub, ends⟩) (hc.trans config)
  · exact .kept (kept rfl)
  · exact .kept (kept rfl)
  · exact .started _ (.inr ⟨r, sub, ends⟩) (hc.trans config)

/-- A line that completes asks for the next one's source, or is the last and ends its frame (R71, R75). -/
theorem State.completeLine_live {c : Instr} {s : State} {r r' : FrameRecord} {sub : Bool}
    (ends : r'.lines ≤ r'.nextLine → Claims.endsFrame s c r sub) : LiveEffect c s (s.completeLine r' sub) := by
  by_cases last : r'.lines ≤ r'.nextLine
  · obtain ⟨r'', -, h⟩ := s.completeLine_last sub last
    rw [h]
    exact endFrame_live (ends last) rfl
  · have more : r'.nextLine < r'.lines := not_le.1 last
    refine .kept (.inl ?_)
    unfold completeLine
    cases sub <;> simp [more]

theorem execLineCompletion_live {s t : State} (h : execLineCompletion s = .next t) :
    LiveEffect .lineCompletion s t := by
  unfold execLineCompletion at h
  split at h <;> cases h
  · next r e record emission =>
    exact State.completeLine_live fun last => ⟨record, .inl ⟨rfl, last, e, emission, rfl⟩⟩
  · exact .kept (.inl rfl)

theorem execEmissionBegin_live {s t : State} {pready : Bool} (h : execEmissionBegin pready s = .next t) :
    LiveEffect (.emissionBegin pready) s t := by
  unfold execEmissionBegin at h
  split at h
  · cases h; exact .kept (.inl rfl)
  · next r record =>
    dsimp only at h
    split_ifs at h with begins driven <;> cases h
    · exact .kept (.inl rfl)
    · obtain ⟨idle, left, resolved, -⟩ := State.mayBegin_iff.1 begins
      refine State.completeLine_live (r := r) fun last => ⟨record, .inr ⟨pready, rfl, idle, by simpa using driven, ?_,
        resolved, rfl⟩⟩
      exact le_antisymm left last
    · exact .kept (.inl (by simp))
    · exact .kept (.inl rfl)

theorem execFrameOpen_live {s t : State} {payload : List Word} (hq : s.osq.consistent = true)
    (h : execFrameOpen payload s = .next t) : LiveEffect (.frameOpen payload) s t := by
  refine State.onLink_live h ?_
  split
  · next f _ =>
    rw [State.openFrame_eq]
    obtain ⟨state, he⟩ | ⟨-, skipAcc, framesSkipped, he⟩ := State.frameOpenArrival_cases _ f <;> rw [he]
    · exact .started _ (.inl (Sequencer.between_frames hq state).1) rfl
    · exact .kept (.inl rfl)
  · exact .kept (.inl rfl)

theorem execLossExpiry_live {s t : State} (hq : s.osq.consistent = true) (h : execLossExpiry s = .next t) :
    LiveEffect .lossExpiry s t := by
  obtain ⟨-, -, he⟩ | ⟨-, he⟩ := execLossExpiry_cases s <;> rw [he] at h <;> cases h
  · rw [State.loseLink_eq]
    obtain ⟨state, he⟩ | ⟨-, he⟩ := State.lossAtSequencer_cases _ <;> rw [he]
    · exact .started _ (.inl (Sequencer.between_frames hq (.inl state)).1) rfl
    · exact .kept (.inl rfl)
  · exact .kept (.inl rfl)

theorem execHoldoverTimerExpiry_live {s t : State} (hq : s.osq.consistent = true)
    (h : execHoldoverTimerExpiry s = .next t) : LiveEffect .holdoverTimerExpiry s t := by
  unfold execHoldoverTimerExpiry at h
  split at h
  · dsimp only at h
    split at h <;> cases h
    · next state => exact .started _ (.inl (Sequencer.between_frames hq (.inr state)).1) rfl
    · exact .kept (.inl rfl)
  · cases h; exact .kept (.inl rfl)

/-! Rows that touch neither the configuration store nor the frame in progress. -/

theorem execInitialisationComplete_live {s t : State} (h : execInitialisationComplete s = .next t) :
    LiveEffect .initialisationComplete s t := by
  unfold execInitialisationComplete at h
  split at h <;> cases h <;> exact .kept (.inl rfl)

theorem execStartMarkerInHunt_live {s t : State} (h : execStartMarkerInHunt s = .next t) :
    LiveEffect .startMarkerInHunt s t := by
  unfold execStartMarkerInHunt at h
  split at h <;> cases h <;> exact .kept (.inl rfl)

theorem execHeaderCheckFailure_live {s t : State} (h : execHeaderCheckFailure s = .next t) :
    LiveEffect .headerCheckFailure s t :=
  State.onLink_live h (.kept (.inl rfl))

theorem execPayloadCheckFailedPacket_live {s t : State} {kind : KindCode} {payload : List Word}
    (h : execPayloadCheckFailedPacket kind payload s = .next t) :
    LiveEffect (.payloadCheckFailedPacket kind payload) s t :=
  State.onLink_live h (.kept (.inl rfl))

theorem execLine_live {s t : State} {payload : List Word} (h : execLine payload s = .next t) :
    LiveEffect (.line payload) s t := by
  refine State.onLink_live h (.kept (.inl ?_))
  split
  · unfold State.lineInFrame; split <;> rfl
  · rfl

theorem execFrameClose_live {s t : State} {payload : List Word} (h : execFrameClose payload s = .next t) :
    LiveEffect (.frameClose payload) s t := by
  refine State.onLink_live h (.kept (.inl ?_))
  split
  · unfold State.closeInFrame; split <;> rfl
  · rfl

theorem execRowStepCompletion_live {s t : State} (h : execRowStepCompletion s = .next t) :
    LiveEffect .rowStepCompletion s t := by
  unfold execRowStepCompletion at h
  split at h
  · split at h <;> cases h <;> exact .kept (.inl (by simp))
  · cases h; exact .kept (.inl rfl)

/-! Rows of the management unit. -/

theorem execControl_live {s t : State} {payload : List Word} (h : execControl payload s = .next t) :
    LiveEffect (.control payload) s t := by
  refine State.onLink_live h (.kept ?_)
  split
  · exact (ManagementRow.packet _).live
  · exact ManagementRow.dropped.live

theorem execTransmissionCompletion_live {s t : State} (h : execTransmissionCompletion s = .next t) :
    LiveEffect .transmissionCompletion s t := by
  unfold execTransmissionCompletion at h
  split at h <;> cases h
  · exact .kept (.inl rfl)
  · exact .kept (ManagementRow.sent rfl).live

theorem execExecution_live {s t : State} (h : execExecution s = .next t) : LiveEffect .execution s t := by
  unfold execExecution at h
  split at h <;> cases h
  · exact .kept ManagementRow.executed.live
  · exact .kept (.inl rfl)

/-- Every row, by what it does to the live set, where the sequencer keeps the table of R59. -/
theorem exec_live {c : Instr} {s t : State} (hq : s.osq.consistent = true) (h : exec c s = .next t) :
    LiveEffect c s t := by
  have managed {u : State} (h : ManagementRow s u) : LiveEffect c s u := .kept h.live
  cases c
  case powerOn => cases h; exact .kept (.inr ⟨rfl, rfl⟩)
  case frameOpen => exact execFrameOpen_live hq h
  case lossExpiry => exact execLossExpiry_live hq h
  case holdoverTimerExpiry => exact execHoldoverTimerExpiry_live hq h
  case emissionBegin => exact execEmissionBegin_live h
  case lineCompletion => exact execLineCompletion_live h
  case initialisationComplete => exact execInitialisationComplete_live h
  case startMarkerInHunt => exact execStartMarkerInHunt_live h
  case headerCheckFailure => exact execHeaderCheckFailure_live h
  case payloadCheckFailedPacket kind payload => exact execPayloadCheckFailedPacket_live h
  case filler => exact State.onLink_live h (.kept (.inl rfl))
  case unknownKindPacket => exact State.onLink_live h (.kept (.inl rfl))
  case line => exact execLine_live h
  case frameClose => exact execFrameClose_live h
  case control => exact execControl_live h
  case rowStepCompletion => exact execRowStepCompletion_live h
  case transmissionCompletion => exact execTransmissionCompletion_live h
  case execution => exact execExecution_live h
  case softReset => cases h; exact managed .reset
  case moveAbort => cases h; exact managed .abort
  all_goals cases h; exact managed (.command _ (by decide) (by decide))

/-- The live set changes at a frame start by a transfer only (R50). -/
theorem ConfigStore.frameStart_live_ne {c : ConfigStore} {tag : Word}
    (h : (c.frameStart tag).config.live ≠ c.live) : c.frameStart tag = transferNow c tag := by
  obtain he | ⟨he, -⟩ | ⟨he, -⟩ := c.frameStart_cases tag
  · exact absurd (by rw [he]; rfl) h
  · exact he
  · exact absurd (by rw [he]; rfl) h

/-- Settles O59: of the three things a row can do to the live set, a reset and a start with a transfer change it. -/
theorem theLiveSetChangesOnlyBetweenFrames : Obligations.TheLiveSetChangesOnlyBetweenFrames := by
  intro c s t hq h changed
  cases exec_live hq h with
  | kept effect =>
    obtain live | ⟨record, config⟩ := effect
    · exact absurd live changed
    · exact .inl ⟨record, config ▸ defaultConfig_holdsDefaults⟩
  | @started d kind mover before config =>
    have transfer : d.config.frameStart (d.osq.startTag kind) = transferNow s.config (d.osq.startTag kind) := by
      rw [config]
      refine ConfigStore.frameStart_live_ne fun live => changed ?_
      rw [State.startFrame_config, config, live]
    refine .inr ⟨before, ?_, ?_, _, State.startFrame_record d kind, rfl, ?_, ?_⟩ <;>
      simp [transfer, transferNow, ConfigStore.transfer, newRecord]

end Sys2Proof.Machine
end

