-- ==== Sys2Proof/Proofs/ConfigEdits.lean ====
section
/-! PROOFS. O27 to O32: the edits of the pending set. -/

namespace Sys2Proof.Machine

/-! ## An edit command's row, by what its change comes to (R31) -/

section Edit

variable {s : State} {change : ConfigSet → Except Status ConfigSet}

theorem recordEdit_busy (h : s.config.commit ≠ .none) :
    State.recordResult (s.byConfig (s.config.edit change)) = Claims.recorded s (Claims.refused .busy) := by
  rw [ConfigStore.edit_busy change h]
  rfl

theorem recordEdit_ok {set : ConfigSet} (h : s.config.commit = .none) (hc : change s.config.pending = .ok set) :
    State.recordResult (s.byConfig (s.config.edit change))
      = Claims.recorded (Claims.withPending s set) (Claims.ok []) := by
  rw [ConfigStore.edit_none change h, hc]
  rfl

theorem recordEdit_refused {status : Status} (h : s.config.commit = .none)
    (hc : change s.config.pending = .error status) :
    State.recordResult (s.byConfig (s.config.edit change)) = Claims.recorded s (Claims.refused status) := by
  rw [ConfigStore.edit_none change h, hc]
  rfl

end Edit

/-! A count that the command does not take is found before the commit request is looked at (R170). -/

theorem exec_segWrite_length {s : State} {slot : Word} {record : List Word} (h : record.length ≠ 12) :
    exec (.segWrite slot record) s = .next (Claims.recorded s (Claims.refused .length)) := by
  rw [exec_segWrite, if_neg h]
  rfl

theorem exec_ovlWrite_length {s : State} {slot : Word} {record : List Word} (h : record.length ≠ 8) :
    exec (.ovlWrite slot record) s = .next (Claims.recorded s (Claims.refused .length)) := by
  rw [exec_ovlWrite, if_neg h]
  rfl

theorem exec_palWrite_length {s : State} {p first : Word} {codes : List Word}
    (h : ¬(1 ≤ codes.length ∧ codes.length ≤ 16)) :
    exec (.palWrite p first codes) s = .next (Claims.recorded s (Claims.refused .length)) := by
  rw [exec_palWrite, if_neg h]
  rfl

theorem exec_segWrite_taken (s : State) (slot : Word) {record : List Word} (h : record.length = 12) :
    exec (.segWrite slot record) s = .next (State.recordResult (s.byConfig (s.config.writeSegment slot record))) := by
  rw [exec_segWrite, if_pos h]

theorem exec_ovlWrite_taken (s : State) (slot : Word) {record : List Word} (h : record.length = 8) :
    exec (.ovlWrite slot record) s = .next (State.recordResult (s.byConfig (s.config.writeOverlay slot record))) := by
  rw [exec_ovlWrite, if_pos h]

theorem exec_palWrite_taken (s : State) (p first : Word) {codes : List Word}
    (h : 1 ≤ codes.length ∧ codes.length ≤ 16) :
    exec (.palWrite p first codes) s
      = .next (State.recordResult (s.byConfig (s.config.writePalette p first codes))) := by
  rw [exec_palWrite, if_pos h]

/-- Settles O27: all nine commands are edits, and an edit is refused before its change is looked at. -/
theorem editsAreBusyWhileACommitWaits : Obligations.EditsAreBusyWhileACommitWaits := by
  intro s a b c record waits
  have busy (change : ConfigSet → Except Status ConfigSet) :
      Host.Outcome.next (φ := Fault) (ρ := Refusal) (State.recordResult (s.byConfig (s.config.edit change)))
        = .next (Claims.recorded s (Claims.refused .busy)) :=
    congrArg _ (recordEdit_busy waits)
  refine ⟨busy _, busy _, fun h => ?_, exec_segWrite_length, fun h => ?_, exec_ovlWrite_length, busy _, fun h h' => ?_,
    fun h => exec_palWrite_length (by omega), busy _, busy _, busy _⟩
  · rw [exec_segWrite_taken s a h]; exact busy _
  · rw [exec_ovlWrite_taken s a h]; exact busy _
  · rw [exec_palWrite_taken s a b ⟨h, h'⟩]; exact busy _

/-! ## Geometry and list length (R33, R34) -/

/-- Settles O28: the change of SET_GEOMETRY is both values or RANGE. -/
theorem setGeometryWritesBothOrNeither : Obligations.SetGeometryWritesBothOrNeither := by
  refine fun s h w idle => ⟨fun valid => ?_, fun invalid => ?_⟩
  · obtain ⟨h1, h2, w1, w2, w4⟩ := valid
    refine congrArg _ (recordEdit_ok idle ?_)
    simp only [numOperand_of_range ⟨h1, h2⟩, numOperand_of_range ⟨w1, w2⟩, if_pos w4]
  · refine congrArg _ (recordEdit_refused idle ?_)
    split
    · next hn wn hh hw =>
      obtain ⟨rfl, h1, h2⟩ := numOperand_some hh
      obtain ⟨rfl, w1, w2⟩ := numOperand_some hw
      exact if_neg fun w4 => invalid ⟨h1, h2, w1, w2, w4⟩
    · rfl

/-- COMMIT of an invalid set: the reason's code and the index (R45, R47). -/
theorem exec_commit_invalid {s : State} {kind tag : Word} {due : Due} {reason : InvalidReason} {index : Nat}
    (idle : s.config.commit = .none) (known : dueOperand kind tag = some due)
    (invalid : validate s.config.pending = some (reason, index)) :
    exec (.commit kind tag) s = .next (Claims.recorded s
      { status := .invalid, data := [reason.code, BitVec.ofNat 16 index] }) := by
  rw [exec_commit]
  simp only [ConfigStore.requestCommit, if_pos idle, known, invalid]
  rfl

theorem dueOperand_known {kind : Word} (tag : Word) (h : kind = 1 ∨ kind = 2) :
    dueOperand kind tag = some (if kind = 1 then .next else .at tag) := by
  obtain rfl | rfl := h <;> rfl

/-- Settles O29: MAP_LENGTH changes the length alone, and validation looks at the length first. -/
theorem mapLengthWritesTheLength : Obligations.MapLengthWritesTheLength := by
  refine fun s n idle => ⟨fun fits => ?_, fun exceeds => ?_, fun empty kind tag known => ?_⟩
  · refine congrArg _ (recordEdit_ok idle ?_)
    simp only [numOperand_of_range ⟨n.toNat.zero_le, fits⟩]
  · refine congrArg _ (recordEdit_refused idle ?_)
    simp only [numOperand_out_of_range fun h : 0 ≤ n.toNat ∧ n.toNat ≤ 32 => absurd h.2 exceeds.not_ge]
  · exact exec_commit_invalid idle (dueOperand_known tag known) (if_pos empty)

/-! ## Records (R35-R37) -/

theorem word_toNat_of_lt {n : Nat} (h : n < 65536) : (BitVec.ofNat 16 n : Word).toNat = n :=
  BitVec.toNat_ofNat n 16 ▸ Nat.mod_eq_of_lt h

/-- The words of a segment record in range are read as the record (R35, R205). -/
theorem segmentOperand_segmentWords {g : Segment} (h : g.inRange = true) :
    segmentOperand (segmentWords g) = some g := by
  have ranges := h
  simp only [Segment.inRange, Bool.and_eq_true, within_iff] at ranges
  obtain ⟨⟨⟨⟨⟨⟨⟨first, count⟩, start⟩, base⟩, rows⟩, col⟩, palette⟩, overlay⟩ := ranges
  have limit : srcStartLimit g.kind ≤ 1023 := by cases g.kind <;> decide
  simp (disch := omega) only [segmentOperand, segmentWords, kindOperand_kindWord, stepOperand_stepWord,
    boolOperand_boolWord, absentOperand_absentWord overlay, word_toNat_of_lt]
  exact if_pos h

/-- A segment record that is read gives its words back, so no others are read (R35, R209). -/
theorem segmentWords_of_segmentOperand {ws : List Word} {g : Segment} (h : segmentOperand ws = some g) :
    segmentWords g = ws := by
  unfold segmentOperand at h
  split at h
  · split at h
    · next hk hs hm ho =>
      dsimp only at h
      split at h
      · cases h
        simp only [segmentWords, kindWord_of_kindOperand hk, stepWord_of_stepOperand hs, boolWord_of_boolOperand hm,
          absentWord_of_absentOperand ho, BitVec.ofNat_toNat, BitVec.setWidth_eq]
      · cases h
    · cases h
  · cases h

theorem overlayOperand_overlayWords {o : Overlay} (h : o.inRange = true) :
    overlayOperand (overlayWords o) = some o := by
  have ranges := h
  simp only [Overlay.inRange, Bool.and_eq_true, within_iff] at ranges
  obtain ⟨⟨⟨⟨⟨⟨⟨base, rows⟩, offset⟩, col⟩, span, -⟩, dest⟩, palette⟩, key⟩ := ranges
  simp (disch := omega) only [overlayOperand, overlayWords, absentOperand_absentWord key, word_toNat_of_lt]
  exact if_pos h

theorem overlayWords_of_overlayOperand {ws : List Word} {o : Overlay} (h : overlayOperand ws = some o) :
    overlayWords o = ws := by
  unfold overlayOperand at h
  split at h
  · split at h
    · next hk =>
      dsimp only at h
      split at h
      · cases h
        simp only [overlayWords, absentWord_of_absentOperand hk, BitVec.ofNat_toNat, BitVec.setWidth_eq]
      · cases h
    · cases h
  · cases h

/-- A slot number below a bound that fits in a word. -/
theorem numOperand_slot {n i : Nat} (hi : i < n) (hn : n ≤ 65536) :
    numOperand 0 (n - 1) (BitVec.ofNat 16 i) = some i := by
  have hw : (BitVec.ofNat 16 i : Word).toNat = i := word_toNat_of_lt (by omega)
  rw [numOperand_of_range (by rw [hw]; omega), hw]

theorem setIfInBounds_fin {α : Type} {n : Nat} (v : Vector α n) (i : Fin n) (a : α) :
    v.setIfInBounds i.val a = v.set i a := by
  ext k hk
  rw [Vector.getElem_setIfInBounds hk, Vector.getElem_set]

/-- SEG_WRITE of a record that can be read (R35). -/
theorem exec_segWrite_ok {s : State} {i : Nat} {record : List Word} {g : Segment} (idle : s.config.commit = .none)
    (length : record.length = 12) (slot : i < 32) (read : segmentOperand record = some g) :
    exec (.segWrite (BitVec.ofNat 16 i) record) s = .next (Claims.recorded
      (Claims.withPending s { s.config.pending with segments := s.config.pending.segments.setIfInBounds i g })
      (Claims.ok [])) := by
  rw [exec_segWrite_taken _ _ length]
  refine congrArg _ (recordEdit_ok idle ?_)
  simp only [numOperand_slot slot (by decide), read]

/-- SEG_WRITE with no such slot, or a record that cannot be read (R35). -/
theorem exec_segWrite_refused {s : State} {slot : Word} {record : List Word} (idle : s.config.commit = .none)
    (length : record.length = 12) (h : 31 < slot.toNat ∨ segmentOperand record = none) :
    exec (.segWrite slot record) s = .next (Claims.recorded s (Claims.refused .range)) := by
  rw [exec_segWrite_taken _ _ length]
  refine congrArg _ (recordEdit_refused idle ?_)
  split
  · next i g hi hg =>
    obtain h | h := h
    · have := numOperand_some hi
      omega
    · rw [h] at hg; cases hg
  · rfl

/-- OVL_WRITE of a record that can be read (R36). -/
theorem exec_ovlWrite_ok {s : State} {j : Nat} {record : List Word} {o : Overlay} (idle : s.config.commit = .none)
    (length : record.length = 8) (slot : j < 16) (read : overlayOperand record = some o) :
    exec (.ovlWrite (BitVec.ofNat 16 j) record) s = .next (Claims.recorded
      (Claims.withPending s { s.config.pending with overlays := s.config.pending.overlays.setIfInBounds j (some o) })
      (Claims.ok [])) := by
  rw [exec_ovlWrite_taken _ _ length]
  refine congrArg _ (recordEdit_ok idle ?_)
  simp only [numOperand_slot slot (by decide), read]

/-- OVL_WRITE with no such slot, or a record that cannot be read (R36). -/
theorem exec_ovlWrite_refused {s : State} {slot : Word} {record : List Word} (idle : s.config.commit = .none)
    (length : record.length = 8) (h : 15 < slot.toNat ∨ overlayOperand record = none) :
    exec (.ovlWrite slot record) s = .next (Claims.recorded s (Claims.refused .range)) := by
  rw [exec_ovlWrite_taken _ _ length]
  refine congrArg _ (recordEdit_refused idle ?_)
  split
  · next j o hj ho =>
    obtain h | h := h
    · have := numOperand_some hj
      omega
    · rw [h] at ho; cases ho
  · rfl

/-- Settles O30: a record in range is read back from its own words, and nothing else is read. -/
theorem recordsReplaceOneSlotOrAreRefused : Obligations.RecordsReplaceOneSlotOrAreRefused := by
  refine fun s idle => ⟨fun i g range => ?_, fun slot record length bad => ?_, fun j o range => ?_,
    fun slot record length bad => ?_, fun j => ?_, fun slot exceeds => ?_⟩
  · rw [exec_segWrite_ok idle rfl i.isLt (segmentOperand_segmentWords range), setIfInBounds_fin]
  · refine exec_segWrite_refused idle length (bad.imp_right fun unread => ?_)
    refine Option.eq_none_iff_forall_ne_some.2 fun g hg => ?_
    exact unread g (segmentOperand_inRange hg) (segmentWords_of_segmentOperand hg)
  · rw [exec_ovlWrite_ok idle rfl j.isLt (overlayOperand_overlayWords range), setIfInBounds_fin]
  · refine exec_ovlWrite_refused idle length (bad.imp_right fun unread => ?_)
    refine Option.eq_none_iff_forall_ne_some.2 fun o ho => ?_
    exact unread o (overlayOperand_inRange ho) (overlayWords_of_overlayOperand ho)
  · refine congrArg _ (recordEdit_ok idle ?_)
    simp only [numOperand_slot j.isLt (by decide), setIfInBounds_fin]
  · refine congrArg _ (recordEdit_refused idle ?_)
    simp only [numOperand_out_of_range fun h : 0 ≤ slot.toNat ∧ slot.toNat ≤ 15 => absurd h.2 exceeds.not_ge]

/-! ## Palettes (R38) -/

/-- A run of codes written from entry `i` on, entry by entry. -/
theorem writeEntries_getElem (palette : Vector Word 16) (i : Nat) (codes : List Word) {k : Nat} (hk : k < 16) :
    (writeEntries palette i codes)[k]
      = if i ≤ k ∧ k < i + codes.length then codes.getD (k - i) 0 else palette[k] := by
  induction codes generalizing palette i with
  | nil =>
    rw [if_neg (by simp only [List.length_nil]; omega)]
    rfl
  | cons code codes ih =>
    rw [writeEntries, ih, Vector.getElem_setIfInBounds hk, List.length_cons]
    by_cases first : i = k
    · subst first
      rw [if_neg (by omega), if_pos rfl, if_pos (by omega), Nat.sub_self]
      rfl
    · rw [if_neg first]
      by_cases run : i + 1 ≤ k ∧ k < i + 1 + codes.length
      · rw [if_pos run, if_pos (by omega), show k - i = k - (i + 1) + 1 by omega, List.getD_cons_succ]
      · rw [if_neg run, if_neg (by omega)]

/-- Settles O31: the run is written into the palette that is named, and its range is looked at before its fit. -/
theorem palWriteWritesConsecutiveEntries : Obligations.PalWriteWritesConsecutiveEntries := by
  intro s p first codes idle one sixteen
  rw [exec_palWrite_taken s p first ⟨one, sixteen⟩]
  refine ⟨fun ⟨palette, fits⟩ => ?_, fun range => ?_, fun ⟨palette, entry, long⟩ => ?_⟩
  · have hp : p.toNat < 8 := by omega
    refine ⟨s.config.pending.palettes.setIfInBounds p.toNat
      (writeEntries s.config.pending.palettes[p.toNat] first.toNat codes), congrArg _ (recordEdit_ok idle ?_),
      fun q i => ?_⟩
    · simp only [Vector.getElem?_eq_getElem hp, numOperand_of_range (show 0 ≤ first.toNat ∧ first.toNat ≤ 15 by omega)]
      exact if_neg fits.not_gt
    · simp only [Fin.getElem_fin, Vector.getElem_setIfInBounds q.isLt]
      by_cases named : p.toNat = q.val
      · simp only [named, if_true, true_and, writeEntries_getElem _ _ _ i.isLt]
      · simp only [if_neg named, if_neg fun h : q.val = p.toNat ∧ _ => named h.1.symm]
  · refine congrArg _ (recordEdit_refused idle ?_)
    split
    · next pal i hp hi =>
      have := numOperand_some hi
      have := (Vector.getElem?_eq_some_iff.1 hp).1
      omega
    · rfl
  · have hp : p.toNat < 8 := by omega
    refine congrArg _ (recordEdit_refused idle ?_)
    simp only [Vector.getElem?_eq_getElem hp, numOperand_of_range ⟨first.toNat.zero_le, entry⟩]
    exact if_pos long

/-! ## Colours and output (R39, R40) -/

theorem overrideOperand_of_le {w : Word} (h : w.toNat ≤ 2) :
    overrideOperand w = some (if w.toNat = 0 then .normal else if w.toNat = 1 then .blank else .invert) := by
  have : w.toNat = 0 ∨ w.toNat = 1 ∨ w.toNat = 2 := by omega
  obtain h | h | h := this
  · obtain rfl : w = 0 := BitVec.eq_of_toNat_eq h
    rfl
  · obtain rfl : w = 1 := BitVec.eq_of_toNat_eq h
    rfl
  · obtain rfl : w = 2 := BitVec.eq_of_toNat_eq h
    rfl

theorem overrideOperand_of_gt {w : Word} (h : 2 < w.toNat) : overrideOperand w = none := by
  unfold overrideOperand
  rw [if_neg, if_neg, if_neg] <;> (rintro rfl; revert h; decide)

/-- Settles O32: SET_COLOURS is an edit that nothing refuses, and SET_OUTPUT reads its three codes before it writes. -/
theorem coloursAndOutputAreWrittenTogether : Obligations.ColoursAndOutputAreWrittenTogether := by
  refine fun s idle => ⟨fun loss blank => ?_, fun o g d ⟨ho, hg, hd⟩ => ?_, fun o g d invalid => ?_⟩
  · rw [exec_setColours]
    exact congrArg _ (recordEdit_ok idle rfl)
  · refine congrArg _ (recordEdit_ok idle ?_)
    simp only [overrideOperand_of_le ho, boolOperand_of_le hg, boolOperand_of_le hd]
  · refine congrArg _ (recordEdit_refused idle ?_)
    split
    · next mode guard drive ho hg hd =>
      refine absurd ⟨?_, ?_, ?_⟩ invalid
      · exact not_lt.1 fun h => by rw [overrideOperand_of_gt h] at ho; cases ho
      · exact not_lt.1 fun h => by rw [boolOperand_of_gt h] at hg; cases hg
      · exact not_lt.1 fun h => by rw [boolOperand_of_gt h] at hd; cases hd
    · rfl

end Sys2Proof.Machine
end

