-- ==== Sys2Proof/Proofs/CommitRequests.lean ====
section
/-! PROOFS. O33, O34, O35: COPY_LIVE_TO_PENDING, READ_CONFIG, COMMIT and CANCEL_COMMIT. -/

namespace Sys2Proof.Machine

/-! ## The items of a set (R42, R209) -/

section Items

variable (c : ConfigStore) (set : ConfigSet) (index : Word)

theorem ConfigStore.itemWords_geometry :
    c.itemWords set 0 index = some [BitVec.ofNat 16 set.hOut, BitVec.ofNat 16 set.wOut] := rfl

theorem ConfigStore.itemWords_length : c.itemWords set 1 index = some [BitVec.ofNat 16 set.mapLength] := rfl

theorem ConfigStore.itemWords_segment :
    c.itemWords set 2 index = set.segments[index.toNat]?.map segmentWords := rfl

theorem ConfigStore.itemWords_overlay :
    c.itemWords set 3 index
      = set.overlays[index.toNat]?.map fun o => o.elim [0] fun o => 1 :: overlayWords o := by
  unfold itemWords
  rw [if_neg (by decide), if_neg (by decide), if_neg (by decide), if_pos rfl]
  split
  · next h => rw [h]; rfl
  · next h => rw [h]; rfl
  · next h => rw [h]; rfl

theorem ConfigStore.itemWords_palette : c.itemWords set 4 index = set.palettes[index.toNat]?.map Vector.toList := rfl

theorem ConfigStore.itemWords_colours : c.itemWords set 5 index = some [set.lossColour, set.blankColour] := rfl

theorem ConfigStore.itemWords_output :
    c.itemWords set 6 index
      = some [overrideWord set.outputOverride, boolWord set.tearGuard, boolWord set.panelDrive] := rfl

theorem ConfigStore.itemWords_request :
    c.itemWords set 7 index = some [c.generation, c.commit.code, dueKindCode c.due, dueTagWord c.due,
      if c.pending = c.live then 0 else 1] := by
  have differs : boolWord (decide (c.pending ≠ c.live)) = if c.pending = c.live then 0 else 1 := by
    by_cases h : c.pending = c.live <;> simp [boolWord, h]
  rw [← differs]
  rfl

/-- Only the codes 0 to 7 name an item. -/
theorem ConfigStore.itemWords_unknown {item : Word} (h : 7 < item.toNat) : c.itemWords set item index = none := by
  have other (w : Word) (hw : w.toNat ≤ 7) : item ≠ w := fun he => by subst he; omega
  unfold itemWords
  rw [if_neg (other 0 (by decide)), if_neg (other 1 (by decide)), if_neg (other 2 (by decide)),
    if_neg (other 3 (by decide)), if_neg (other 4 (by decide)), if_neg (other 5 (by decide)),
    if_neg (other 6 (by decide)), if_neg (other 7 (by decide))]

end Items

/-- The set that a selector names (R42). -/
def ConfigStore.selected (c : ConfigStore) (isLive : Bool) : ConfigSet :=
  if isLive then c.live else c.pending

theorem exec_readConfig_ok {s : State} {sel item index : Word} {isLive : Bool} {data : List Word}
    (selector : selectorOperand sel = some isLive)
    (words : s.config.itemWords (s.config.selected isLive) item index = some data) :
    exec (.readConfig sel item index) s = .next (Claims.recorded s (Claims.ok data)) := by
  have read : s.config.readItem sel item index = okResult data := by
    unfold ConfigStore.selected at words
    simp only [ConfigStore.readItem, selector, words]
  rw [exec_readConfig, read]
  rfl

theorem exec_readConfig_refused {s : State} {sel item index : Word}
    (h : selectorOperand sel = none ∨ ∀ set, s.config.itemWords set item index = none) :
    exec (.readConfig sel item index) s = .next (Claims.recorded s (Claims.refused .range)) := by
  have read : s.config.readItem sel item index = refusal .range := by
    unfold ConfigStore.readItem
    obtain h | h := h
    · rw [h]
    · cases selectorOperand sel <;> simp only [h]
  rw [exec_readConfig, read]
  rfl

theorem selectorOperand_code (isLive : Bool) : selectorOperand (if isLive then 1 else 0) = some isLive :=
  boolOperand_boolWord isLive

/-- The element that an index below the size names. -/
theorem getElem?_slot {α : Type} {n : Nat} (v : Vector α n) (i : Fin n) (hn : n ≤ 65536) :
    v[(BitVec.ofNat 16 i.val : Word).toNat]? = some v[i] := by
  have := i.isLt
  rw [word_toNat_of_lt (by omega), Vector.getElem?_eq_getElem i.isLt]
  rfl

/-- Settles O34: READ_CONFIG's answer, item by item, does not look at the request. -/
theorem readConfigReturnsTheItem : Obligations.ReadConfigReturnsTheItem := by
  rintro s isLive set sel index rfl rfl
  have read {item index : Word} {data : List Word}
      (words : s.config.itemWords (s.config.selected isLive) item index = some data) :=
    exec_readConfig_ok (selectorOperand_code isLive) words
  refine ⟨read (ConfigStore.itemWords_geometry _ _ _), read (ConfigStore.itemWords_length _ _ _), fun i => read ?_,
    fun j => read ?_, fun p => read ?_, read (ConfigStore.itemWords_colours _ _ _), read ?_, read ?_,
    fun bad item i unread => exec_readConfig_refused ?_⟩
  · rw [ConfigStore.itemWords_segment, getElem?_slot _ i (by decide)]
    rfl
  · rw [ConfigStore.itemWords_overlay, getElem?_slot _ j (by decide)]
    change some _ = some _
    unfold ConfigStore.selected
    cases (if isLive then s.config.live else s.config.pending).overlays[j] <;> rfl
  · rw [ConfigStore.itemWords_palette, getElem?_slot _ p (by decide)]
    rfl
  · rw [ConfigStore.itemWords_output]
    rfl
  · rw [ConfigStore.itemWords_request]
    rfl
  · obtain selector | item | ⟨rfl, i⟩ | ⟨rfl, i⟩ | ⟨rfl, i⟩ := unread
    · exact .inl (boolOperand_of_gt selector)
    · exact .inr fun set => ConfigStore.itemWords_unknown _ _ _ item
    · exact .inr fun set => by rw [ConfigStore.itemWords_segment, Vector.getElem?_eq_none i]; rfl
    · exact .inr fun set => by rw [ConfigStore.itemWords_overlay, Vector.getElem?_eq_none i]; rfl
    · exact .inr fun set => by rw [ConfigStore.itemWords_palette, Vector.getElem?_eq_none i]; rfl

/-- Settles O33: the copy is an edit, and after it an item reads the same from both sets. -/
theorem copyLiveToPendingReplacesTheWholeSet : Obligations.CopyLiveToPendingReplacesTheWholeSet := by
  intro s idle
  have copied : exec .copyLiveToPending s
      = .next (Claims.recorded (Claims.withPending s s.config.live) (Claims.ok [])) := by
    rw [exec_copyLiveToPending]
    exact congrArg _ (recordEdit_ok idle rfl)
  refine ⟨copied, fun t selector index h known => ?_⟩
  rw [copied] at h
  cases h
  obtain ⟨isLive, read⟩ : ∃ isLive, selectorOperand selector = some isLive := by
    obtain rfl | rfl := known
    · exact ⟨false, rfl⟩
    · exact ⟨true, rfl⟩
  refine exec_readConfig_ok read ((ConfigStore.itemWords_request _ _ _).trans ?_)
  simp only [Claims.recorded, Claims.withPending, idle, if_true]
  rfl

/-! ## The commit request (R45, R54) -/

theorem exec_commit_busy {s : State} {kind tag : Word} (waits : s.config.commit ≠ .none) :
    exec (.commit kind tag) s = .next (Claims.recorded s (Claims.refused .busy)) := by
  rw [exec_commit, ConfigStore.requestCommit, if_neg waits]
  rfl

theorem exec_commit_unknown_due {s : State} {kind tag : Word} (idle : s.config.commit = .none)
    (unknown : dueOperand kind tag = none) :
    exec (.commit kind tag) s = .next (Claims.recorded s (Claims.refused .range)) := by
  rw [exec_commit]
  simp only [ConfigStore.requestCommit, if_pos idle, unknown]
  rfl

/-- COMMIT of a valid set arms the request (R45). -/
theorem exec_commit_arms {s : State} {kind tag : Word} {due : Due} (idle : s.config.commit = .none)
    (known : dueOperand kind tag = some due) (valid : validate s.config.pending = none) :
    exec (.commit kind tag) s = .next (Claims.recorded
      { s with config := { s.config with commit := .armed, due := some due } }
      (Claims.ok [s.config.generation + 1])) := by
  rw [exec_commit]
  simp only [ConfigStore.requestCommit, if_pos idle, known, valid]
  rfl

/-- Settles O35: COMMIT looks at the request, the due kind and the set in this order; CANCEL_COMMIT at the request. -/
theorem commitArmsAndCancelWithdraws : Obligations.CommitArmsAndCancelWithdraws := by
  refine fun s kind tag => ⟨exec_commit_busy, fun idle next other => ?_, fun reason index idle known invalid => ?_,
    fun idle known valid => ?_, fun idle => ?_, fun armed => ?_, fun announcing => ?_⟩
  · exact exec_commit_unknown_due idle ((if_neg next).trans (if_neg other))
  · rw [exec_commit_invalid idle (dueOperand_known tag known) invalid]
    cases reason <;> rfl
  · exact exec_commit_arms idle (dueOperand_known tag known) (validate_none_iff_passesR46.2 valid)
  · simp only [exec_cancelCommit, ConfigStore.cancelCommit, idle]
    rfl
  · simp only [exec_cancelCommit, ConfigStore.cancelCommit, armed]
    rfl
  · simp only [exec_cancelCommit, ConfigStore.cancelCommit, announcing]
    rfl

end Sys2Proof.Machine
end

