-- ==== Sys2Proof/Proofs/FirstFailure.lean ====
section
/-! PROOFS. O36: the failure that validation reports is the first in the order of R46. -/

namespace Sys2Proof.Machine

/-! ## One segment (checks 2 to 5 of R46) -/

theorem Segment.windowFits_iff {g : Segment} : g.WindowFits ↔ ¬Claims.failsWindow g := by
  simp [WindowFits, Claims.failsWindow]

theorem Segment.overlayFilled_iff {p : ConfigSet} {g : Segment} : g.OverlayFilled p ↔ ¬Claims.failsReference p g := by
  simp [OverlayFilled, Claims.failsReference]

theorem segmentFault_none_iff_passesSegment {p : ConfigSet} {i : Nat} {g : Segment} :
    segmentFault p (Claims.expectedStart p i) g = none ↔ Claims.passesSegment p i g := by
  rw [segmentFault_none, Segment.windowFits_iff, Segment.overlayFilled_iff]
  simp only [Claims.passesSegment, Claims.failsTiling, Claims.failsHeight, not_not, not_lt]

/-- The checks are made in their order: a reason says that the checks before its own are passed (R46). -/
theorem segmentFault_some {p : ConfigSet} {i : Nat} {g : Segment} {reason : InvalidReason}
    (h : segmentFault p (Claims.expectedStart p i) g = some reason) :
    (reason = .tiling ∧ Claims.failsTiling p i g)
      ∨ (reason = .height ∧ ¬Claims.failsTiling p i g ∧ Claims.failsHeight p g)
      ∨ (reason = .window ∧ ¬Claims.failsTiling p i g ∧ ¬Claims.failsHeight p g ∧ Claims.failsWindow g)
      ∨ (reason = .overlayRef ∧ ¬Claims.failsTiling p i g ∧ ¬Claims.failsHeight p g ∧ ¬Claims.failsWindow g
          ∧ Claims.failsReference p g) := by
  unfold segmentFault at h
  split_ifs at h with tiling height window reference <;> cases h
  · exact .inl ⟨rfl, tiling⟩
  · exact .inr (.inl ⟨rfl, tiling, height⟩)
  · exact .inr (.inr (.inl ⟨rfl, tiling, height, window⟩))
  · refine .inr (.inr (.inr ⟨rfl, tiling, height, window, ?_⟩))
    simpa [Claims.failsReference, Option.any_eq_true] using reference

/-! ## The pass over the segments (checks 2 to 6 of R46) -/

/-- The segments below `n` pass checks 2 to 5. -/
def ConfigSet.PassesBelow (p : ConfigSet) (n : Nat) : Prop :=
  ∀ (k : Nat) (g : Segment), k < n → p.list[k]? = some g → Claims.passesSegment p k g

theorem ConfigSet.PassesBelow.succ {p : ConfigSet} {i : Nat} {g : Segment} (h : p.PassesBelow i)
    (hg : p.list[i]? = some g) (passes : Claims.passesSegment p i g) : p.PassesBelow (i + 1) := by
  intro k g' hk hg'
  obtain hk | rfl := Nat.lt_succ_iff_lt_or_eq.1 hk
  · exact h k g' hk hg'
  · rw [hg] at hg'
    cases hg'
    exact passes

theorem expectedStart_succ {p : ConfigSet} {i : Nat} {g : Segment} (h : p.list[i]? = some g) :
    Claims.expectedStart p (i + 1) = g.first + g.count := by
  simp only [Claims.expectedStart, h]

/-- The pass from segment `i` on, all before it having passed: it stops at the first segment that fails a check, or
passes all and compares the end of the last one with the height (check 6). -/
theorem passSegments_cases {p : ConfigSet} {i : Nat} {gs : List Segment} (suffix : p.list.drop i = gs)
    (bound : i ≤ p.list.length) (passed : p.PassesBelow i) :
    (∃ k g reason, passSegments p i (Claims.expectedStart p i) gs = some (reason, k) ∧ p.PassesBelow k
        ∧ p.list[k]? = some g ∧ segmentFault p (Claims.expectedStart p k) g = some reason)
      ∨ (p.PassesBelow p.list.length
        ∧ passSegments p i (Claims.expectedStart p i) gs
          = if Claims.expectedStart p p.list.length ≠ p.hOut then some (.height, p.list.length - 1) else none) := by
  induction gs generalizing i with
  | nil =>
    obtain rfl : i = p.list.length := le_antisymm bound (List.drop_eq_nil_iff.1 suffix)
    exact .inr ⟨passed, rfl⟩
  | cons g rest ih =>
    have here : p.list[i]? = some g := by rw [← List.head?_drop, suffix]; rfl
    have inside : i < p.list.length := (List.getElem?_eq_some_iff.1 here).1
    unfold passSegments
    cases fault : segmentFault p (Claims.expectedStart p i) g with
    | some reason => exact .inl ⟨i, g, reason, rfl, passed, here, fault⟩
    | none =>
      have next := passed.succ here (segmentFault_none_iff_passesSegment.1 fault)
      have suffix' : p.list.drop (i + 1) = rest := by rw [← List.tail_drop, suffix]; rfl
      have := ih suffix' inside next
      rwa [expectedStart_succ here] at this

/-! ## The whole validation -/

/-- Validation reports the empty list, the pass's failure, or the first named overlay that does not fit (R46). -/
theorem validate_some {p : ConfigSet} {reason : InvalidReason} {i : Nat} (h : validate p = some (reason, i)) :
    (p.mapLength = 0 ∧ reason = .emptyMap ∧ i = 0)
      ∨ (p.mapLength ≠ 0 ∧ passSegments p 0 0 p.list = some (reason, i))
      ∨ (p.mapLength ≠ 0 ∧ passSegments p 0 0 p.list = none ∧ reason = .overlayFit
          ∧ ((List.range 16).find? fun j => p.names j && overlayMisfit p j) = some i) := by
  unfold validate at h
  split at h
  · next empty => cases h; exact .inl ⟨empty, rfl, rfl⟩
  · next filled =>
    split at h
    · next pass => cases h; exact .inr (.inl ⟨filled, pass⟩)
    · next pass =>
      obtain ⟨j, found, hj⟩ := Option.map_eq_some_iff.1 h
      cases hj
      exact .inr (.inr ⟨filled, pass, rfl, found⟩)

theorem overlayMisfit_iff {p : ConfigSet} {j : Nat} : overlayMisfit p j = true ↔ Claims.failsFit p j := by
  rw [← Bool.not_eq_false, overlayMisfit_false]
  simp only [overlayFits, Claims.failsFit, not_forall, not_and_or, not_le, exists_prop]

/-- Settles O36: the pass stops at its first failure, and the overlays are searched in rising order after it. -/
theorem theFirstValidationFailureIsReported : Obligations.TheFirstValidationFailureIsReported := by
  intro p reason i h
  have start := passSegments_cases (p := p) (i := 0) rfl (Nat.zero_le _) fun k g hk => absurd hk (Nat.not_lt_zero k)
  obtain ⟨empty, rfl, rfl⟩ | ⟨filled, pass⟩ | ⟨filled, pass, rfl, found⟩ := validate_some h
  · exact ⟨⟨fun _ => empty, fun _ => rfl⟩, fun _ => rfl, fun h => absurd rfl h, nofun⟩
  · have reported : (reason = .emptyMap ↔ p.mapLength = 0) ↔ reason ≠ .emptyMap := by simp [filled]
    obtain ⟨k, g, reason', stops, below, hg, fault⟩ | ⟨all, ends⟩ := start
    · cases pass.symm.trans stops
      rw [reported]
      obtain ⟨rfl, t⟩ | ⟨rfl, t, h⟩ | ⟨rfl, t, h, w⟩ | ⟨rfl, checks⟩ := segmentFault_some fault
      · exact ⟨nofun, nofun, fun _ _ => ⟨g, hg, below, fun _ => t, nofun, nofun, nofun⟩, nofun⟩
      · exact ⟨nofun, nofun, fun _ _ => ⟨g, hg, below, nofun, fun _ => ⟨t, .inl h⟩, nofun, nofun⟩, nofun⟩
      · exact ⟨nofun, nofun, fun _ _ => ⟨g, hg, below, nofun, nofun, fun _ => ⟨t, h, w⟩, nofun⟩, nofun⟩
      · exact ⟨nofun, nofun, fun _ _ => ⟨g, hg, below, nofun, nofun, nofun, fun _ => checks⟩, nofun⟩
    · have outcome := pass.symm.trans ends
      split_ifs at outcome with short
      cases outcome
      have one : 1 ≤ p.list.length := by rw [ConfigSet.list_length]; omega
      have hg : p.list[p.list.length - 1]? = some p.list[p.list.length - 1] := List.getElem?_eq_getElem (by omega)
      have last := all _ _ (by omega) hg
      rw [← Nat.sub_add_cancel one, expectedStart_succ hg] at short
      rw [reported]
      exact ⟨nofun, nofun, fun _ _ => ⟨_, hg, fun k g hk => all k g (by omega), nofun,
        fun _ => ⟨last.1, .inr ⟨last, Nat.sub_add_cancel one, short⟩⟩, nofun, nofun⟩, nofun⟩
  · obtain ⟨k, g, reason', stops, -⟩ | ⟨all, -⟩ := start
    · cases pass.symm.trans stops
    · obtain ⟨bad, -, first⟩ := List.find?_range_eq_some.1 found
      obtain ⟨named, misfit⟩ := Bool.and_eq_true_iff.1 bad
      refine ⟨⟨nofun, fun h => absurd h filled⟩, nofun, nofun, fun _ => ⟨(passSegments_none.1 pass).1, fun k g hg => ?_,
        overlayMisfit_iff.1 misfit, ConfigSet.names_iff.1 named, fun j hj named fails => ?_⟩⟩
      · exact all k g (List.getElem?_eq_some_iff.1 hg).1 hg
      · have := first j hj
        simp [ConfigSet.names_iff.2 named, overlayMisfit_iff.2 fails] at this

end Sys2Proof.Machine
end

