-- ==== Sys2Proof/Proofs/FrameOperations.lean ====
section
/-! PROOFS. What a frame start, the choice at a frame end and the mover's resumption leave in each block. -/

namespace Sys2Proof.Machine

/-! ## Notices and reports at the transmitter (R189, R192) -/

@[simp] theorem ReverseTransmitter.takeNotice_reportsLost (x : ReverseTransmitter) (n : Notice) :
    (x.takeNotice n).reportsLost = x.reportsLost := by
  unfold takeNotice; split <;> rfl

/-- A report takes the count of lost reports at its arrival, whatever it held (R192). -/
theorem ReverseTransmitter.takeReport_lost (x : ReverseTransmitter) (r : Report) (lost : Word) :
    x.takeReport { r with lost := lost } = x.takeReport r :=
  rfl

@[simp] theorem State.handNotice?_replies (s : State) (n : Option Notice) :
    (s.handNotice? n).rtx.replies = s.rtx.replies := by
  cases n <;> simp

@[simp] theorem State.handNotice?_reports (s : State) (n : Option Notice) :
    (s.handNotice? n).rtx.reports = s.rtx.reports := by
  cases n <;> simp

@[simp] theorem State.handNotice?_reportsLost (s : State) (n : Option Notice) :
    (s.handNotice? n).rtx.reportsLost = s.rtx.reportsLost := by
  cases n <;> simp

/-! ## A frame start (R62) -/

theorem State.startFrame_osq (s : State) (kind : FrameKind) :
    (s.startFrame kind).osq =
      { s.osq with
        state := startState kind
        record := some (newRecord kind (s.osq.startTag kind) (s.config.frameStart (s.osq.startTag kind)))
        emission := none
        holdTimer := startTimer s.mgt.holdoverPeriod kind
        tagCounter := s.osq.startTag kind } := by
  obtain ⟨held, h⟩ := s.startFrame_eq kind; rw [h]

/-- Picture memory takes the rows and the guard of the set that is live once CFG has decided (R131). -/
theorem State.startFrame_pmem (s : State) (kind : FrameKind) :
    (s.startFrame kind).pmem = s.pmem.startFrame (s.startFrame kind).config.live := by
  obtain ⟨held, h⟩ := s.startFrame_eq kind; rw [h]

/-! ## The choice at a frame end (R75, step 4) -/

section Choice

variable (s : State) (r : FrameRecord)

@[simp] theorem State.chooseNext_pending : (s.chooseNext r).pending = s.pending := by
  obtain ⟨f, -, h⟩ | ⟨-, -, h⟩ | ⟨-, -, -, -, h⟩ | ⟨-, -, h⟩ := s.chooseNext_cases r <;> simp [h]

/-- Of picture memory at most the view is new. -/
theorem State.chooseNext_pmem : (s.chooseNext r).pmem = { s.pmem with view := (s.chooseNext r).pmem.view } := by
  obtain ⟨f, -, h⟩ | ⟨-, -, h⟩ | ⟨-, -, -, -, h⟩ | ⟨-, -, h⟩ := s.chooseNext_cases r <;> rw [h]
  · rw [startFrame_pmem]; rfl
  · rw [startFrame_pmem]; rfl

/-- Of the sequencer the slot is empty, and the skip counts and the emission are as they were. -/
theorem State.chooseNext_osq (emission : s.osq.emission = none) :
    (s.chooseNext r).osq.slot = none ∧ (s.chooseNext r).osq.emission = none
      ∧ (s.chooseNext r).osq.skipAcc = s.osq.skipAcc
      ∧ (s.chooseNext r).osq.framesSkipped = s.osq.framesSkipped := by
  obtain ⟨f, -, h⟩ | ⟨slot, -, h⟩ | ⟨slot, -, -, -, h⟩ | ⟨slot, -, h⟩ := s.chooseNext_cases r <;>
    simp [startFrame_osq, *]

/-- Of the transmitter only the notices and what is being sent may be new. -/
theorem State.chooseNext_rtx :
    (s.chooseNext r).rtx.replies = s.rtx.replies ∧ (s.chooseNext r).rtx.reports = s.rtx.reports
      ∧ (s.chooseNext r).rtx.reportsLost = s.rtx.reportsLost := by
  obtain ⟨f, -, h⟩ | ⟨-, -, h⟩ | ⟨-, -, -, -, h⟩ | ⟨-, -, h⟩ := s.chooseNext_cases r <;> simp [h]

/-- With the slot empty the line store keeps its entries and lines. -/
theorem State.chooseNext_lines (slot : s.osq.slot = none) :
    (s.chooseNext r).lines.waiting = s.lines.waiting ∧ (s.chooseNext r).lines.bound = s.lines.bound
      ∧ (s.chooseNext r).lines.slots = s.lines.slots := by
  obtain ⟨f, hs, -⟩ | ⟨-, -, h⟩ | ⟨-, -, -, -, h⟩ | ⟨-, -, h⟩ := s.chooseNext_cases r
  · rw [slot] at hs; cases hs
  all_goals simp [h]

/-! The choice by the conditions of R75. -/

variable {s r}

theorem State.chooseNext_bound {f : InputFrame} (slot : s.osq.slot = some f) :
    s.chooseNext r =
      State.startFrame { s with lines := s.lines.bindWaiting, osq := { s.osq with slot := none } } (.bound f) := by
  simp [chooseNext, slot]

theorem State.chooseNext_wait (slot : s.osq.slot = none) (locked : s.link.locked = true) :
    s.chooseNext r = { s with osq := { s.osq with state := .wait, holdTimer := .stopped } } := by
  simp [chooseNext, slot, locked]

theorem State.chooseNext_holdGap {period : Nat} (slot : s.osq.slot = none) (unlocked : s.link.locked = false)
    (kind : r.kind = .holdover) (timer : s.osq.holdTimer = .running period) :
    s.chooseNext r = { s with osq := { s.osq with state := .holdGap } } := by
  simp [chooseNext, slot, unlocked, kind, timer]

theorem State.chooseNext_holdover (slot : s.osq.slot = none) (unlocked : s.link.locked = false)
    (next : r.kind ≠ .holdover ∨ s.osq.holdTimer = .expired) : s.chooseNext r = s.startFrame .holdover := by
  obtain ⟨f, hs, -⟩ | ⟨-, hl, -⟩ | ⟨-, -, kind, ⟨period, timer⟩, -⟩ | ⟨-, -, h⟩ := s.chooseNext_cases r
  · rw [slot] at hs; cases hs
  · rw [unlocked] at hl; cases hl
  · obtain hk | ht := next
    · exact absurd kind hk
    · rw [timer] at ht; cases ht
  · exact h

end Choice

/-! ## The stall condition and the mover's resumption (R150, R151) -/

theorem MoveOp.stalls_iff {o : MoveOp} {p : PictureMemory} {i : Nat} :
    o.stalls p i = true ↔ Claims.stallCondition p o i := by
  unfold stalls Claims.stallCondition
  cases p.view <;> simp

theorem Mover.decideStep_decides (m : Mover) (p : PictureMemory) :
    Claims.decides p m.op m.op.nextOffset (m.decideStep p) := by
  simp only [Claims.decides, ← MoveOp.stalls_iff]
  exact ⟨fun goes => if_neg goes, fun stalls => if_pos stalls⟩

theorem Mover.resume_resumes (m : Mover) (p : PictureMemory) : Claims.resumes m p (m.resume p) := by
  refine ⟨fun going => if_neg going, fun stalled => ?_⟩
  rw [resume, if_pos stalled]
  exact m.decideStep_decides p

/-- Between frames nothing stalls, so a STALLED mover goes on (R150, R151). -/
theorem Mover.resume_between_frames (m : Mover) {p : PictureMemory} (view : p.view = none) :
    m.resume p =
      if m.state = .stalled then { state := .running, op := { m.op with stepRow := some m.op.nextOffset } } else m := by
  simp [resume, decideStep, MoveOp.stalls, view]

end Sys2Proof.Machine
end

