-- ==== Sys2Proof/Proofs/FrameEnds.lean ====
section
/-! PROOFS. O18, O19, O20: the completion of a line, and the end of an output frame. -/

namespace Sys2Proof.Machine

/-! ## The completion of a line (R60, R71, R72) -/

theorem execLineCompletion_emitting {s : State} {r : FrameRecord} {e : Emission} (record : s.osq.record = some r)
    (emission : s.osq.emission = some e) : execLineCompletion s = .next (s.completeLine r e.substituted) := by
  simp [execLineCompletion, record, emission]

/-- A line of a dark frame completes within its beginning, whatever PREADY is (R72). -/
theorem execEmissionBegin_dark {s : State} {r : FrameRecord} (pready : Bool) (record : s.osq.record = some r)
    (idle : s.osq.emission = none) (left : r.nextLine < r.lines) (dark : r.drive = false)
    (resolved : s.sourceResolved r r.nextLine = true) :
    execEmissionBegin pready s = .next
      (s.completeLine { r with nextLine := r.nextLine + 1 }
        (composeLine s.config.live s.lines s.pmem.array r.input r.nextLine).substituted) := by
  have begins : s.mayBegin r pready = true :=
    State.mayBegin_iff.2 ⟨idle, left, resolved, fun driven => by rw [dark] at driven; cases driven⟩
  simp [execEmissionBegin, record, begins, dark, State.composeNext]

/-- A completed line with lines left to begin is counted, and the next line's source is asked for (R60, R93). -/
theorem State.completeLine_left (s : State) {r : FrameRecord} (substituted : Bool) (left : r.nextLine < r.lines) :
    ∃ held, s.completeLine r substituted =
      { s with
        osq :=
          { s.osq with
            emission := none
            record := some { r with substituted := r.substituted + if substituted then 1 else 0 } }
        lines := { s.lines with held := held } } := by
  cases substituted <;> simp only [completeLine, left, if_true, Bool.false_eq_true, if_false]
  all_goals exact State.askNext_eq { s with osq := { s.osq with emission := none, record := some _ } }

/-- Settles O18: in a driven frame the row is a completion, in a dark one the beginning is; lines are left, so that it
counts and asks, and ends nothing. -/
theorem aLineCompletesAndIsCounted : Obligations.ALineCompletesAndIsCounted := by
  refine fun s r record => ⟨fun e emission left => ?_, fun pready idle left dark resolved => ?_⟩
  · obtain ⟨held, completed⟩ := s.completeLine_left e.substituted left
    exact ⟨_, (execLineCompletion_emitting record emission).trans (congrArg _ completed), rfl, rfl, rfl⟩
  · obtain ⟨held, completed⟩ := s.completeLine_left (r := { r with nextLine := r.nextLine + 1 })
      (composeLine s.config.live s.lines s.pmem.array r.input r.nextLine).substituted left
    have begins := execEmissionBegin_dark pready record idle (by omega) dark resolved
    refine ⟨_, begins.trans (congrArg _ completed), ?_, rfl, rfl⟩
    rw [← idle]

/-! ## The state that the choice at a frame end is made from (R75, steps 1 to 3) -/

theorem FrameRecord.input_isSome {r : FrameRecord} : r.input.isSome = true ↔ r.kind ≠ .holdover := by
  unfold input; split <;> simp [*]

/-- In the report of a holdover frame no close kind shows (R77). -/
theorem reportOf_holdover (s : State) {r : FrameRecord} (sub : Bool) (close : Option CloseKind)
    (h : r.kind = .holdover) : Claims.reportOf s r sub close = Claims.reportOf s r sub none := by
  simp [Claims.reportOf, h]

/-- The report that a frame end assembles is the one of R76 and R77, but for the count that the transmitter adds. -/
theorem endReport_eq_reportOf (s : State) (r : FrameRecord) (n : Nat) (sub : Bool) (close : Option CloseKind) :
    endReport { r with nextLine := n, substituted := r.substituted + if sub then 1 else 0 } s.osq close
        s.pmem.deferred.length s.pmem.torn
      = { Claims.reportOf s r sub close with lost := 0 } := by
  cases hk : r.kind <;> simp [endReport, reportFlags, Claims.reportOf, hk, beq_eq_decide]

theorem takeReport_endReport (s : State) (r : FrameRecord) (n : Nat) (sub : Bool) (close : Option CloseKind) :
    s.rtx.takeReport
        (endReport { r with nextLine := n, substituted := r.substituted + if sub then 1 else 0 } s.osq close
          s.pmem.deferred.length s.pmem.torn)
      = s.rtx.takeReport (Claims.reportOf s r sub close) :=
  (congrArg _ (endReport_eq_reportOf s r n sub close)).trans (s.rtx.takeReport_lost _ 0)

/-- The output frame with record `r` has ended, its last line substituted or not, and nothing has been chosen yet: the
frame is gone from every block, and its report is with the transmitter (R75, R76, R78, R90, R132). -/
structure State.Ended (s : State) (r : FrameRecord) (sub : Bool) (d : State) : Prop where
  link : d.link = s.link
  config : d.config = s.config
  mgt : d.mgt = s.mgt
  pending : d.pending = s.pending
  pmem : d.pmem = s.pmem.endFrame
  panel : d.panel = { s.panel with announce := false }
  lines : d.lines = if r.input.isSome then s.lines.freeBound else s.lines
  osq : d.osq =
    { s.osq with record := none, emission := none, skipAcc := if s.mgt.reports then 0 else s.osq.skipAcc }
  rtx : d.rtx =
    if s.mgt.reports then
      (s.rtx.takeReport (Claims.reportOf s r sub (s.lines.bound.bind FrameEntry.close))).arbitrate
    else s.rtx

/-- A row that ends a frame completes its last line (R72). -/
theorem exec_of_endsFrame_completes {s : State} {c : Instr} {r : FrameRecord} {sub : Bool}
    (h : Claims.endsFrame s c r sub) :
    ∃ n, r.lines ≤ n ∧ exec c s = .next (s.completeLine { r with nextLine := n } sub) := by
  obtain ⟨record, ⟨rfl, done, e, emission, rfl⟩ | ⟨pready, rfl, idle, dark, last, resolved, rfl⟩⟩ := h
  · exact ⟨r.nextLine, done, execLineCompletion_emitting record emission⟩
  · exact ⟨r.nextLine + 1, last.ge, execEmissionBegin_dark pready record idle (by omega) dark resolved⟩

/-- The row ends the frame, then chooses what follows, then lets a STALLED mover go on (R75, R151). -/
theorem exec_of_endsFrame_ended {s : State} {c : Instr} {r : FrameRecord} {sub : Bool}
    (h : Claims.endsFrame s c r sub) :
    ∃ d r', r'.kind = r.kind ∧ s.Ended r sub d
      ∧ exec c s = .next { d.chooseNext r' with mover := s.mover.resume (d.chooseNext r').pmem } := by
  obtain ⟨n, done, he⟩ := exec_of_endsFrame_completes h
  obtain ⟨r', hr, hc⟩ := s.completeLine_last sub (r := { r with nextLine := n }) done
  obtain ⟨d, hd, link, config, mgt, pmem, -, panel, pending, lines, reported⟩ := State.endFrame_eq
    { s with osq := { s.osq with record := some r', emission := none } } r'
  replace reported : (s.mgt.reports = true ∧ _) ∨ (s.mgt.reports = false ∧ _) := reported
  have kind : r'.kind = r.kind := by rw [hr]
  have input : r'.input = r.input := by simp only [FrameRecord.input, kind]
  refine ⟨d, r', kind, ⟨link, config, mgt, pending, pmem, panel, by rw [lines, input], ?_, ?_⟩,
    he.trans (congrArg _ (hc.trans hd))⟩
  · obtain ⟨on, hq, -⟩ | ⟨off, hq, -⟩ := reported <;> rw [hq]
    · simp [on]
    · simp [off]
  · obtain ⟨on, -, hx⟩ | ⟨off, -, hx⟩ := reported <;> rw [hx]
    · rw [if_pos on, hr]
      exact congrArg ReverseTransmitter.arbitrate (takeReport_endReport s r n sub _)
    · rw [if_neg (by simp [off])]

/-- What the drain hands on stays through the choice: every deferred write is in the array, and the host's place in it
is as it was (R121, R137). -/
theorem State.Ended.drained {s d : State} {r : FrameRecord} {sub : Bool} (h : s.Ended r sub d) (r' : FrameRecord) :
    (s.pmem.array.wf = true → ∀ a : Addr, (d.chooseNext r').pmem.array.read a.key = s.pmem.newest a)
      ∧ (d.chooseNext r').pmem.deferred = [] ∧ (d.chooseNext r').pmem.cursor = s.pmem.cursor
      ∧ (d.chooseNext r').pmem.holder = s.pmem.holder ∧ (d.chooseNext r').pmem.patch = s.pmem.patch := by
  rw [State.chooseNext_pmem, h.pmem]
  exact ⟨PictureMemory.drain_read, rfl, rfl, rfl, rfl⟩

/-- Without reports neither the queue nor a count moves; with them the accumulator is spent, and the report joins a
queue with a place or is counted (R76, R78, R192). -/
theorem State.Ended.reported {s d : State} {r : FrameRecord} {sub : Bool} (h : s.Ended r sub d) :
    (s.mgt.reports = false → d.osq.skipAcc = s.osq.skipAcc ∧ d.rtx = s.rtx)
      ∧ (s.mgt.reports = true → d.osq.skipAcc = 0
          ∧ (s.rtx.reports.length < 4 → d.rtx.reportsLost = 0
              ∧ d.rtx.reports
                  = s.rtx.reports ++ [Claims.reportOf s r sub (s.lines.bound.bind FrameEntry.close)])
          ∧ (4 ≤ s.rtx.reports.length →
              d.rtx.reports = s.rtx.reports ∧ d.rtx.reportsLost = Claims.raised s.rtx.reportsLost)) := by
  rw [h.rtx, h.osq]
  refine ⟨fun off => by simp [off], fun on => ⟨by simp [on], ?_⟩⟩
  rw [if_pos on, ReverseTransmitter.arbitrate_reports, ReverseTransmitter.arbitrate_reportsLost]
  obtain ⟨room, taken⟩ | ⟨full, taken⟩ := s.rtx.takeReport_cases
    (Claims.reportOf s r sub (s.lines.bound.bind FrameEntry.close)) <;> rw [taken]
  · exact ⟨fun _ => ⟨rfl, rfl⟩, fun full => by omega⟩
  · exact ⟨fun room => by omega, fun _ => ⟨rfl, satInc_eq _⟩⟩

/-- The duties of a frame end, whatever has been chosen (R75). -/
theorem State.Ended.endsWhole {s d : State} {r : FrameRecord} {sub : Bool} (h : s.Ended r sub d) (r' : FrameRecord) :
    Claims.endsWhole s r sub { d.chooseNext r' with mover := s.mover.resume (d.chooseNext r').pmem } := by
  obtain ⟨array, deferred, cursor, holder, patch⟩ := h.drained r'
  obtain ⟨slot, emission, skipAcc, framesSkipped⟩ := d.chooseNext_osq r' (by rw [h.osq])
  obtain ⟨replies, reports, reportsLost⟩ := d.chooseNext_rtx r'
  obtain ⟨off, on⟩ := h.reported
  refine ⟨array, deferred, cursor, holder, patch, (d.chooseNext_link r').trans h.link,
    (d.chooseNext_mgt r').trans h.mgt, (d.chooseNext_pending r').trans h.pending, slot, emission,
    framesSkipped.trans (by rw [h.osq]), replies.trans ?_, fun disabled => ?_, fun enabled => ?_,
    s.mover.resume_resumes _⟩
  · rw [h.rtx]; split <;> simp
  · obtain ⟨acc, same⟩ := off disabled
    exact ⟨skipAcc.trans acc, reports.trans (by rw [same]), reportsLost.trans (by rw [same])⟩
  · obtain ⟨acc, room, full⟩ := on enabled
    simp only [skipAcc, reports, reportsLost]
    refine ⟨acc, fun place => ?_, full⟩
    obtain ⟨lost, joined⟩ := room place
    refine ⟨lost, fun kind => ?_, fun f entry _ bound => ?_⟩
    · rw [joined, reportOf_holdover s sub _ kind]
    · rw [joined, bound]; rfl

/-- Of the notices a frame end hands over none by itself. -/
theorem State.Ended.rtx_reported {s d : State} {r : FrameRecord} {sub : Bool} (h : s.Ended r sub d) :
    s.rtx.Reported d.rtx := by
  rw [h.rtx]
  split
  · exact ReverseTransmitter.takeReport_reported _ _
  · exact .refl _

/-! ## The statements -/

/-- Settles O19: the frame ends, the line store keeps what the choice leaves it, and each row of R75's table with the
slot empty is one value of the choice. -/
theorem aFrameEndDrainsReportsAndWaits : Obligations.AFrameEndDrainsReportsAndWaits := by
  intro s c r sub ends slot
  obtain ⟨d, r', kind, ended, he⟩ := exec_of_endsFrame_ended ends
  have empty : d.osq.slot = none := by rw [ended.osq]; exact slot
  have timer : d.osq.holdTimer = s.osq.holdTimer := by rw [ended.osq]
  have counter : d.osq.tagCounter = s.osq.tagCounter := by rw [ended.osq]
  have between : d.pmem.view = none := by rw [ended.pmem]; rfl
  have silent := ended.rtx_reported
  have unreported (off : s.mgt.reports = false) : d.rtx = s.rtx := (ended.reported.1 off).2
  obtain ⟨waiting, bound, slots⟩ := d.chooseNext_lines r' empty
  refine ⟨_, he, ended.endsWhole r', waiting.trans ?_, fun wasBound => ?_, fun wasHoldover => ?_, fun locked => ?_,
    fun unlocked next => ?_, fun period unlocked wasHoldover running => ?_⟩
  · rw [ended.lines]; split <;> rfl
  · rw [bound, slots, ended.lines, if_pos (FrameRecord.input_isSome.2 wasBound)]
    exact ⟨rfl, rfl⟩
  · rw [bound, slots, ended.lines, if_neg fun input => FrameRecord.input_isSome.1 input wasHoldover]
    exact ⟨rfl, rfl⟩
  · rw [State.chooseNext_wait empty (by rw [ended.link]; exact locked)]
    exact ⟨rfl, by rw [ended.osq], rfl, counter, between, ended.config, ended.panel,
      s.mover.resume_between_frames between, silent.notices, silent.noticesLost, unreported⟩
  · have start : d.chooseNext r' = d.startFrame .holdover :=
      State.chooseNext_holdover empty (by rw [ended.link]; exact unlocked) (by rwa [kind, timer])
    have tag : d.osq.startTag .holdover = s.osq.tagCounter + 1 := congrArg (· + 1) counter
    obtain ⟨held, started⟩ := d.startFrame_eq .holdover
    rw [start, started, ← tag, ← ended.mgt]
    exact ⟨rfl, rfl, rfl, rfl, _, rfl, rfl, rfl, rfl, rfl, rfl, rfl⟩
  · rw [State.chooseNext_holdGap empty (by rw [ended.link]; exact unlocked) (by rwa [kind]) (by rwa [timer])]
    exact ⟨rfl, by rw [ended.osq], timer.trans running, counter, between, ended.config, ended.panel, silent.notices,
      silent.noticesLost, unreported⟩

/-- Freed of the bound entry's lines, the line store binds what waits: the waiting lines, in their order (R83, R90). -/
theorem waiting_slots_bound (slots : List StoredLine) :
    ((slots.filter fun x => x.entry == .waiting).map fun x =>
        if x.entry = .waiting then { x with entry := .bound } else x)
      = (slots.filter fun x => x.entry == .waiting).map fun x => { x with entry := .bound } :=
  List.map_congr_left fun x hx => if_pos (by simpa using (List.mem_filter.1 hx).2)

/-- What is not bound waits. -/
theorem filter_not_bound (slots : List StoredLine) :
    (slots.filter fun x => x.entry != .bound) = slots.filter fun x => x.entry == .waiting :=
  List.filter_congr fun x _ => by cases x.entry <;> rfl

/-- Settles O20: the first row of R75's table, with the frame start on the state that the frame end leaves. -/
theorem aFrameEndBindsTheWaitingInputFrame : Obligations.AFrameEndBindsTheWaitingInputFrame := by
  intro s c r sub f ends slot
  obtain ⟨d, r', -, ended, he⟩ := exec_of_endsFrame_ended ends
  have start := State.chooseNext_bound (r := r') (by rw [ended.osq]; exact slot : d.osq.slot = some f)
  obtain ⟨held, started⟩ := State.startFrame_eq
    { d with lines := d.lines.bindWaiting, osq := { d.osq with slot := none } } (.bound f)
  have whole := ended.endsWhole r'
  rw [start, started] at he whole
  refine ⟨_, _, he, whole, rfl, rfl, rfl, rfl, rfl, rfl, rfl, rfl, rfl, rfl, rfl, ?_, rfl, fun kept => ?_⟩
  · simp only [LineStore.bindWaiting, ended.lines]; split <;> rfl
  · have slots : d.lines.slots = s.lines.slots.filter fun x => x.entry == .waiting := by
      rw [ended.lines]
      split
      · exact filter_not_bound _
      · next held =>
        obtain wasBound | all := kept
        · exact absurd (FrameRecord.input_isSome.2 wasBound) held
        · exact (List.filter_eq_self.2 fun x hx => by simp [all x hx]).symm
    simp only [LineStore.bindWaiting, slots, waiting_slots_bound]

end Sys2Proof.Machine
end

