-- ==== Sys2Proof/Proofs/LinkAndSequencer.lean ====
section
/-! PROOFS. O8, O9, O12, O15: what a FRAME_OPEN, the loss of the link and the holdover timer do at the sequencer. -/

namespace Sys2Proof.Machine

/-! ## Notices outside an execution (R112, R189) -/

/-- A notice handed over while the queue has a place is its last; without one it is counted (R189). -/
theorem ReverseTransmitter.handed_notices (x : ReverseTransmitter) (n : Notice) :
    (x.notices.length < 4 → (x.takeNotice n).arbitrate.notices = x.notices ++ [n]
        ∧ (x.takeNotice n).arbitrate.noticesLost = x.noticesLost)
      ∧ (4 ≤ x.notices.length → (x.takeNotice n).arbitrate.notices = x.notices
        ∧ (x.takeNotice n).arbitrate.noticesLost = Claims.raised x.noticesLost) := by
  simp only [arbitrate_notices, arbitrate_noticesLost]
  obtain ⟨room, taken⟩ | ⟨full, taken⟩ := x.takeNotice_cases n <;> rw [taken]
  · exact ⟨fun _ => ⟨rfl, rfl⟩, fun full => by omega⟩
  · exact ⟨fun room => by omega, fun _ => ⟨rfl, satInc_eq _⟩⟩

theorem regained_of_rtx {s t : State} {tag : Word}
    (h : t.rtx = (s.rtx.takeNotice (.linkRegained tag)).arbitrate) : Claims.regained s tag t := by
  obtain ⟨room, full⟩ := s.rtx.handed_notices (.linkRegained tag)
  rw [Claims.regained, h]
  exact ⟨room, full, by simp, by simp, by simp⟩

/-- A notice that may be absent comes after those that wait, and none comes into a full queue (R189). -/
theorem State.handNotice?_notices (s : State) (n : Option Notice) :
    ∃ later, (s.handNotice? n).rtx.notices = s.rtx.notices ++ later ∧ (n = none → later = [])
      ∧ (4 ≤ s.rtx.notices.length → later = []) := by
  cases n with
  | none => exact ⟨[], by simp, fun _ => rfl, fun _ => rfl⟩
  | some n =>
    obtain ⟨room, full⟩ := s.rtx.handed_notices n
    rcases Nat.lt_or_ge s.rtx.notices.length 4 with h | h
    · exact ⟨[n], (room h).1, nofun, fun full => by omega⟩
    · exact ⟨[], by simpa using (full h).1, fun _ => rfl, fun _ => rfl⟩

/-! ## Truncation of an open input frame (R85, R106) -/

/-- An entry that is OPEN takes the kind of the close. -/
theorem LineStore.closeFrame_open {l : LineStore} {r : EntryRef} {e : FrameEntry} (kind : CloseKind)
    (receiving : l.receiving = some r) (entry : l.entry r = some e) (isOpen : e.close = none) :
    (l.closeFrame kind).entry r = some { e with close := some kind } := by
  rw [closeFrame_receiving kind receiving, entry, Option.map_some, isOpen]
  rfl

/-- The line store once the open input frame, if there is one, is truncated. -/
def State.truncatedLines (s : State) : LineStore :=
  if s.link.current.isSome then s.lines.closeFrame .truncated else s.lines

@[simp] theorem State.truncatedLines_slots (s : State) : s.truncatedLines.slots = s.lines.slots := by
  unfold truncatedLines; split <;> simp

theorem State.truncatedLines_of_none {s : State} (h : s.link.current = none) : s.truncatedLines = s.lines := by
  simp [truncatedLines, h]

theorem State.truncatedLines_of_open {s : State} (h : s.link.current.isSome = true) :
    s.truncatedLines = s.lines.closeFrame .truncated :=
  if_pos h

/-! ## A valid FRAME_OPEN (R63, R64, R105) -/

theorem exec_frameOpen_valid {s : State} {tag lines width : Word} (listening : s.link.ignoring = false)
    (aligned : s.link.delineation = .aligned) (valid : Claims.validOpen lines width) :
    exec (.frameOpen [tag, lines, width]) s = .next (s.openFrame (Claims.opened tag lines width)) := by
  simp only [exec, execFrameOpen, State.onLink_aligned _ listening aligned, frameOpenFields_valid valid]

/-- The link receiver after a valid FRAME_OPEN (R103, R105, R110). -/
def LinkReceiver.opened (l : LinkReceiver) (f : InputFrame) (timeout : Nat) : LinkReceiver :=
  { l with parser := .inFrame, locked := true, lastTag := f.tag, lossTimer := some timeout
           current := some { frame := f, highest := none } }

/-- The transmitter after a FRAME_OPEN with this tag has locked the link (R112). -/
def State.lockedRtx (s : State) (tag : Word) : ReverseTransmitter :=
  if s.link.locked then s.rtx else (s.rtx.takeNotice (.linkRegained tag)).arbitrate

theorem State.lockedRtx_of_locked {s : State} (tag : Word) (h : s.link.locked = true) : s.lockedRtx tag = s.rtx :=
  if_pos h

theorem State.lockedRtx_of_unlocked {s : State} (tag : Word) (h : s.link.locked = false) :
    s.lockedRtx tag = (s.rtx.takeNotice (.linkRegained tag)).arbitrate :=
  if_neg (by simp [h])

/-- During a frame the input frame takes the slot, and one that was there is counted as skipped (R64, R65, R91). -/
theorem State.openFrame_during {s : State} (f : InputFrame) (during : s.osq.state = .frame ∨ s.osq.state = .holdFrame) :
    s.openFrame f =
      { s with
        link := s.link.opened f s.mgt.lossTimeout
        lines := s.truncatedLines.openWaiting f
        rtx := s.lockedRtx f.tag
        osq :=
          { s.osq with
            slot := some f
            skipAcc := if s.osq.slot.isSome then Claims.raised s.osq.skipAcc else s.osq.skipAcc
            framesSkipped :=
              if s.osq.slot.isSome then Claims.raised s.osq.framesSkipped else s.osq.framesSkipped } } := by
  rw [openFrame_eq]
  obtain state | state := during <;> simp only [frameOpenArrival, state, satInc_eq] <;> rfl

/-- A frame start at which no commit request waits (R50, R62). -/
theorem State.startFrame_idle {s : State} (kind : FrameKind) (idle : s.config.commit = .none) :
    ∃ held, s.startFrame kind =
      { s with
        pmem := s.pmem.startFrame s.config.live
        panel := s.panel.startFrame (newRecord kind (s.osq.startTag kind) (keepLive s.config))
        osq :=
          { s.osq with
            state := startState kind
            record := some (newRecord kind (s.osq.startTag kind) (keepLive s.config))
            emission := none
            holdTimer := startTimer s.mgt.holdoverPeriod kind
            tagCounter := s.osq.startTag kind }
        lines := { s.lines with held := held } } := by
  obtain ⟨held, h⟩ := s.startFrame_eq kind
  rw [ConfigStore.frameStart_none _ idle] at h
  exact ⟨held, h⟩

/-- Between frames the input frame is bound and an output frame starts (R63, R84). -/
theorem State.openFrame_between {s : State} (f : InputFrame) (between : s.osq.state = .wait ∨ s.osq.state = .holdGap) :
    s.openFrame f = State.startFrame
      { s with link := s.link.opened f s.mgt.lossTimeout, lines := s.truncatedLines.openBound f
               rtx := s.lockedRtx f.tag } (.bound f) := by
  rw [openFrame_eq]
  obtain state | state := between <;> simp only [frameOpenArrival, state] <;> rfl

/-- The panel port at the start of a frame that announces nothing (R73, R74). -/
theorem PanelPort.startFrame_plain (p : PanelPort) {r : FrameRecord} (h : r.announce = none) :
    p.startFrame r = { p with announce := false, strobes := p.strobes ++ if r.drive then [.frame []] else [] } := by
  cases hd : r.drive <;> simp [startFrame, hd, h, announceWords]

/-- Settles O8: the row is a frame start on the state in which the link is locked and the input frame open and bound. -/
theorem frameOpenBetweenFramesStartsABoundFrame : Obligations.FrameOpenBetweenFramesStartsABoundFrame := by
  intro s tag lines width listening aligned valid between idle
  obtain ⟨held, started⟩ := State.startFrame_idle (.bound (Claims.opened tag lines width)) (s :=
    { s with link := s.link.opened (Claims.opened tag lines width) s.mgt.lossTimeout
             lines := s.truncatedLines.openBound (Claims.opened tag lines width), rtx := s.lockedRtx tag }) idle
  refine ⟨_, (exec_frameOpen_valid listening aligned valid).trans
    (congrArg _ ((State.openFrame_between _ between).trans started)), rfl, rfl, rfl, rfl, rfl, rfl, rfl, rfl, rfl, rfl,
    s.truncatedLines_slots, rfl, ?_, ?_, rfl, rfl, rfl, State.lockedRtx_of_locked tag, fun unlocked => ?_⟩
  · rw [PanelPort.startFrame_plain _ rfl]
  · rw [PanelPort.startFrame_plain _ rfl]; rfl
  · exact regained_of_rtx (State.lockedRtx_of_unlocked tag unlocked)

/-- Settles O9: the row changes the slot with its counts, the pending entry with its lines, and the entry that a
truncation closes. -/
theorem frameOpenDuringAFrameTakesTheSlot : Obligations.FrameOpenDuringAFrameTakesTheSlot := by
  intro s tag lines width listening aligned valid during
  refine ⟨_, (exec_frameOpen_valid listening aligned valid).trans (congrArg _ (State.openFrame_during _ during)), rfl,
    rfl, ?_, rfl, rfl, rfl, rfl, rfl, fun e opened empty bound isOpen => ?_, fun kept => ?_, rfl, rfl, rfl, rfl, rfl,
    State.lockedRtx_of_locked tag, fun unlocked => regained_of_rtx (State.lockedRtx_of_unlocked tag unlocked)⟩
  · simp [LineStore.openWaiting]
  · have receiving : s.lines.receiving = some .bound := LineStore.receiving_bound.2 ⟨by simp [bound], empty⟩
    rw [State.truncatedLines_of_open opened]
    exact LineStore.closeFrame_open .truncated receiving bound isOpen
  · change s.truncatedLines.bound = s.lines.bound
    cases current : s.link.current with
    | none => rw [State.truncatedLines_of_none current]
    | some c =>
      have pending : s.lines.waiting ≠ none := by
        obtain closed | taken := kept
        · rw [current] at closed; cases closed
        · exact Option.isSome_iff_ne_none.1 taken
      rw [State.truncatedLines_of_open (by simp [current])]
      exact LineStore.closeFrame_other (r' := .bound) .truncated (LineStore.receiving_waiting.2 pending) nofun

/-! ## Holdover (R66, R67) -/

/-- A holdover frame asks the line store for nothing (R13). -/
theorem State.startFrame_holdover_lines (s : State) : (s.startFrame .holdover).lines = s.lines := by
  have silent (set : ConfigSet) (y : Nat) : sourceQuery set none y = none := by simp [sourceQuery]
  unfold startFrame askNext
  simp only [newRecord, FrameRecord.input, silent, ite_self, handNotice?_eq]

/-- Settles O15: in HOLD_GAP the row is a holdover frame start, in HOLD_FRAME it is the timer's alone. -/
theorem holdoverTimerPacesHoldoverFrames : Obligations.HoldoverTimerPacesHoldoverFrames := by
  refine fun s period timer => ⟨fun state => ?_, fun state => ?_⟩
  · simp [exec, execHoldoverTimerExpiry, timer, state]
  · have starts : exec .holdoverTimerExpiry s
        = .next (State.startFrame { s with osq := { s.osq with holdTimer := .expired } } .holdover) := by
      simp [exec, execHoldoverTimerExpiry, timer, state]
    obtain ⟨held, started⟩ := State.startFrame_eq { s with osq := { s.osq with holdTimer := .expired } } .holdover
    have lines : { s.lines with held := held } = s.lines :=
      (congrArg State.lines started).symm.trans (State.startFrame_holdover_lines _)
    exact ⟨_, _, starts.trans (congrArg _ started), rfl, rfl, rfl, rfl, rfl, rfl, rfl, rfl, rfl, lines, rfl, rfl, rfl,
      rfl, rfl⟩

/-! ## Loss of the link (R111) -/

/-- The state in which the loss of the link reaches the sequencer (R85, R110, R111, R112). -/
def State.unlinked (s : State) : State :=
  { s with
    link := { s.link with parser := .search, locked := false, lossTimer := none, current := none }
    lines := s.truncatedLines
    rtx := if s.link.locked then (s.rtx.takeNotice (.linkLost s.link.lastTag)).arbitrate else s.rtx }

theorem State.loseLink_eq_unlinked (s : State) : s.loseLink = s.unlinked.lossAtSequencer :=
  s.loseLink_eq

/-- The loss of the link leaves every entry and line of the store as the truncation has them. -/
theorem State.lossAtSequencer_lines (s : State) :
    s.lossAtSequencer.lines.slots = s.lines.slots ∧ ∀ r, s.lossAtSequencer.lines.entry r = s.lines.entry r := by
  obtain ⟨-, h⟩ | ⟨-, h⟩ := s.lossAtSequencer_cases <;> rw [h]
  · rw [startFrame_holdover_lines]; exact ⟨rfl, fun _ => rfl⟩
  · exact ⟨rfl, fun _ => rfl⟩

/-- The notice of a transfer at the holdover frame start, if there is one, is all that the sequencer hands over
(R50, R66). -/
theorem State.lossAtSequencer_rtx (s : State) :
    ∃ n : Option Notice, s.lossAtSequencer.rtx = (s.handNotice? n).rtx
      ∧ (s.osq.state ≠ .wait ∨ s.config.commit = .none → n = none) := by
  obtain ⟨waits, h⟩ | ⟨-, h⟩ := s.lossAtSequencer_cases <;> rw [h]
  · refine ⟨_, s.startFrame_rtx .holdover, fun quiet => ?_⟩
    obtain busy | idle := quiet
    · exact absurd waits busy
    · rw [ConfigStore.frameStart_none _ idle]; rfl
  · exact ⟨none, rfl, fun _ => rfl⟩

/-- Settles O12: the link is lost block by block, and from WAIT a holdover frame starts on that state. -/
theorem lossExpiryUnlocksTheLinkAndEntersHoldover : Obligations.LossExpiryUnlocksTheLinkAndEntersHoldover := by
  intro s period listening timer
  have lost : exec .lossExpiry s = .next s.unlinked.lossAtSequencer := by
    rw [← State.loseLink_eq_unlinked]
    simp [exec, execLossExpiry, listening, timer]
  obtain ⟨slots, entries⟩ : s.unlinked.lossAtSequencer.lines.slots = s.truncatedLines.slots
      ∧ ∀ r, s.unlinked.lossAtSequencer.lines.entry r = s.truncatedLines.entry r := s.unlinked.lossAtSequencer_lines
  obtain ⟨n, rtx, quiet⟩ := s.unlinked.lossAtSequencer_rtx
  obtain ⟨later, notices, nothing, full⟩ := s.unlinked.handNotice?_notices n
  obtain ⟨joins, counted⟩ := s.rtx.handed_notices (.linkLost s.link.lastTag)
  have handed (locked : s.link.locked = true) :
      s.unlinked.rtx = (s.rtx.takeNotice (.linkLost s.link.lastTag)).arbitrate := if_pos locked
  refine ⟨_, lost, State.lossAtSequencer_link _, State.lossAtSequencer_mgt _, State.lossAtSequencer_mover _,
    slots.trans s.truncatedLines_slots, fun r e opened receiving entry isOpen => ⟨?_, fun other differs => ?_⟩,
    fun current r => ?_, fun locked room => ⟨later, ?_, fun h => nothing (quiet h)⟩,
    fun locked noPlace => ⟨?_, fun h => ?_⟩, fun unlocked h => ?_, fun busy => ?_, fun waits => ?_⟩
  · rw [entries, State.truncatedLines_of_open opened, LineStore.closeFrame_open .truncated receiving entry isOpen]
  · rw [entries, State.truncatedLines_of_open opened, LineStore.closeFrame_other .truncated receiving differs]
  · rw [entries, State.truncatedLines_of_none current]
  · rw [rtx, notices, handed locked, (joins room).1, List.append_assoc, List.singleton_append]
  · have same := (counted noPlace).1
    rw [rtx, notices, full (by rw [handed locked, same]; exact noPlace), handed locked, same, List.append_nil]
  · rw [rtx, quiet h]
    exact (congrArg ReverseTransmitter.noticesLost (handed locked)).trans (counted noPlace).2
  · rw [rtx, quiet h]
    exact if_neg (by simp [unlocked])
  · obtain ⟨waits, -⟩ | ⟨-, same⟩ := s.unlinked.lossAtSequencer_cases
    · exact absurd waits busy
    · rw [same]
      exact ⟨rfl, rfl, rfl, rfl⟩
  · obtain ⟨-, starts⟩ | ⟨busy, -⟩ := s.unlinked.lossAtSequencer_cases
    · obtain ⟨held, started⟩ := s.unlinked.startFrame_eq .holdover
      rw [starts, started]
      exact ⟨rfl, rfl, rfl, rfl, _, rfl, rfl, rfl, rfl, rfl, rfl⟩
    · exact absurd waits busy

end Sys2Proof.Machine
end

