-- ==== Sys2Proof/Proofs/PowerOn.lean ====
section
/-! PROOFS. O4, O54: the values of power-on, the end of initialisation, and the relations that hold at reset. -/

namespace Sys2Proof.Machine

/-- An array that nothing has written reads 0 (R141). -/
theorem Memory.read_nil (key : Nat) : Memory.read [] key = 0 := rfl

/-- Settles O4: POWER_ON puts the power-on values in place, and while the link is ignored one of the two other rows has
its effect and the other has none. -/
theorem powerOnAndInitialisationTakeTheirValues : Obligations.PowerOnAndInitialisationTakeTheirValues := by
  refine fun s => ⟨⟨_, rfl, ?_⟩, fun ignoring => ?_, fun ignoring => ?_⟩
  · simp [State.reset, powerOnLink, emptyLines, powerOnSequencer, powerOnPictureMemory, powerOnMover, powerOnManagement,
      powerOnReverse, Config.defaultLossTimeout, Config.defaultHoldoverPeriod]
  · have cleared : exec .initialisationComplete s = .next
        { s with pmem := { s.pmem with array := [] }
                 link := { s.link with ignoring := false, delineation := .hunt } } := if_pos ignoring
    exact ⟨_, cleared, fun row col _ _ => Memory.read_nil _, rfl, rfl⟩
  · obtain ⟨listening, -⟩ | ⟨-, unchanged⟩ := execLossExpiry_cases s
    · rw [ignoring] at listening; cases listening
    · exact unchanged

/-- The relations at reset, by blocks: nothing is open, bound, in progress or queued. -/
theorem State.reset_sound : State.reset.Sound where
  link := rfl
  sequencer := rfl
  lines := linesSound_reset rfl rfl rfl
  config := defaultConfig_sound
  frame := ⟨rfl, rfl, rfl, rfl⟩
  mover := ⟨rfl, fun _ => rfl⟩
  queues := powerOn_queuesSound

/-- Settles O54: the relations of a good state are those of the blocks together. -/
theorem resetIsGood : Obligations.ResetIsGood :=
  State.good_iff.2 State.reset_sound

end Sys2Proof.Machine
end

