-- ==== Sys2Proof/Proofs/LineResolution.lean ====
section
/-! PROOFS. O10, O11, O13, O14: an accepted line, the close of an input frame, and the answers to queries. -/

namespace Sys2Proof.Machine

/-! ## Line resolution (R92) -/

/-- What rows 2 to 4 of R92's table ask of the bound entry: no line with this number is stored, or comes any more. -/
def FrameEntry.RulesOut (e : FrameEntry) (q : Int) : Prop :=
  q < 0 ∨ (e.frame.declared : Int) ≤ q ∨ e.close ≠ none ∨ ∃ h, e.highest = some h ∧ q ≤ (h : Int)

theorem LineStore.stored_eq_none_iff {l : LineStore} {q : Int} :
    l.stored q = none ↔ ∀ x ∈ l.slots, ¬(x.entry = .bound ∧ (x.number : Int) = q) := by
  refine ⟨stored_none, fun absent => ?_⟩
  cases h : l.stored q with
  | none => rfl
  | some x =>
    obtain ⟨mem, found⟩ := stored_some h
    exact absurd found (absent x mem)

/-- The table by its three answers. -/
theorem LineStore.query_cases {l : LineStore} {e : FrameEntry} (bound : l.bound = some e) (q : Int) :
    (∃ x, l.stored q = some x ∧ l.query q = .present x)
      ∨ (l.stored q = none ∧ e.RulesOut q ∧ l.query q = .missing)
      ∨ (l.stored q = none ∧ ¬e.RulesOut q ∧ l.query q = .waiting) := by
  rw [query_of_bound bound]
  cases l.stored q with
  | some x => exact .inl ⟨x, rfl, rfl⟩
  | none =>
    right
    dsimp only
    split_ifs with outside closed passed
    · exact .inl ⟨rfl, outside.elim .inl fun h => .inr (.inl h), rfl⟩
    · exact .inl ⟨rfl, .inr (.inr (.inl (Option.isSome_iff_ne_none.1 closed))), rfl⟩
    · exact .inl ⟨rfl, .inr (.inr (.inr (by simpa [Option.any_eq_true] using passed))), rfl⟩
    · refine .inr ⟨rfl, ?_, rfl⟩
      rintro (below | above | isClosed | received)
      · exact outside (.inl below)
      · exact outside (.inr above)
      · exact closed (Option.isSome_iff_ne_none.2 isClosed)
      · exact passed (by simpa [Option.any_eq_true] using received)

theorem LineStore.query_missing_iff {l : LineStore} {e : FrameEntry} (bound : l.bound = some e) (q : Int) :
    l.query q = .missing ↔ l.stored q = none ∧ e.RulesOut q := by
  obtain ⟨x, _, _⟩ | ⟨_, _, _⟩ | ⟨_, _, _⟩ := query_cases bound q <;> simp [*]

theorem LineStore.query_waiting_iff {l : LineStore} {e : FrameEntry} (bound : l.bound = some e) (q : Int) :
    l.query q = .waiting ↔ l.stored q = none ∧ ¬e.RulesOut q := by
  obtain ⟨x, _, _⟩ | ⟨_, _, _⟩ | ⟨_, _, _⟩ := query_cases bound q <;> simp [*]

/-- Settles O13: row 1 of the table is the search of the slots, and the other rows are `FrameEntry.RulesOut`. -/
theorem queriesAreAnsweredByTheTable : Obligations.QueriesAreAnsweredByTheTable := by
  refine fun l e q bound => ⟨fun ⟨y, mem, found⟩ => ?_, fun absent => ?_⟩
  · obtain ⟨x, stored, answer⟩ | ⟨absent, -⟩ | ⟨absent, -⟩ := LineStore.query_cases bound q
    · obtain ⟨mem, entry, number⟩ := LineStore.stored_some stored
      exact ⟨x, mem, entry, number, answer⟩
    · exact absurd found (LineStore.stored_none absent y mem)
    · exact absurd found (LineStore.stored_none absent y mem)
  · have notStored := LineStore.stored_eq_none_iff.2 absent
    exact ⟨(LineStore.query_missing_iff bound q).trans (and_iff_right notStored),
      (LineStore.query_waiting_iff bound q).trans (and_iff_right notStored)⟩

/-! ## The close of an input frame (R85, R109) -/

theorem State.countStray_eq (s : State) :
    s.countStray = { s with link := { s.link with strayPackets := Claims.raised s.link.strayPackets } } := by
  simp only [countStray, satInc_eq, Claims.raised]

theorem State.countLineError_eq (s : State) :
    s.countLineError = { s with link := { s.link with lineErrors := Claims.raised s.link.lineErrors } } := by
  simp only [countLineError, satInc_eq, Claims.raised]

/-- A CLOSED bound entry leaves no query waiting, so a held one is dropped (R92, R93). -/
theorem LineStore.answerHeld_of_closed {l : LineStore} {e : FrameEntry} (bound : l.bound = some e)
    (closed : e.close ≠ none) : l.answerHeld.held = none := by
  have answered (q : Int) : l.query q ≠ .waiting := fun waits =>
    ((query_waiting_iff bound q).1 waits).2 (.inr (.inr (.inl closed)))
  cases held : l.held with
  | none => simp only [answerHeld, held]
  | some q => simp only [answerHeld, held, if_neg (answered q)]

theorem LineStore.closeFrame_held {l : LineStore} {e : FrameEntry} (kind : CloseKind)
    (receiving : l.receiving = some .bound) (bound : l.bound = some e) (isOpen : e.close = none) :
    (l.closeFrame kind).held = none := by
  unfold closeFrame
  rw [receiving]
  refine answerHeld_of_closed (e := { e with close := some kind }) ?_ nofun
  simp [mapEntry, bound, isOpen]

/-- Outside IN_FRAME a FRAME_CLOSE is stray (R109). -/
theorem exec_frameClose_stray {s : State} (p : List Word) (listening : s.link.ignoring = false)
    (aligned : s.link.delineation = .aligned) (parser : s.link.parser = .search ∨ s.link.parser = .gap) :
    exec (.frameClose p) s = .next s.countStray := by
  obtain parser | parser := parser <;> simp only [exec, execFrameClose, State.onLink_aligned _ listening aligned, parser]

theorem exec_frameClose_inFrame {s : State} {c : CurrentFrame} (p : List Word) (listening : s.link.ignoring = false)
    (aligned : s.link.delineation = .aligned) (parser : s.link.parser = .inFrame) (current : s.link.current = some c) :
    exec (.frameClose p) s = .next (s.closeInFrame c p) := by
  simp only [exec, execFrameClose, State.onLink_aligned _ listening aligned, parser, current]

/-- A FRAME_CLOSE of another length than one word is a line error (R109). -/
theorem State.closeInFrame_of_length (s : State) (c : CurrentFrame) {p : List Word} (length : p.length ≠ 1) :
    s.closeInFrame c p = s.countLineError := by
  match p, length with
  | [], _ => rfl
  | _ :: _ :: _, _ => rfl

/-- Settles O11: the row by the parser state and the length of the payload. -/
theorem frameCloseClosesTheOpenInputFrame : Obligations.FrameCloseClosesTheOpenInputFrame := by
  intro s listening aligned
  refine ⟨fun p parser => ?_, fun c p parser current length => ?_, fun c tag parser current =>
    ⟨_, exec_frameClose_inFrame [tag] listening aligned parser current, rfl, fun r e receiving entry isOpen => ?_, ?_,
      fun e receiving bound isOpen => ?_, rfl⟩⟩
  · rw [exec_frameClose_stray p listening aligned parser, s.countStray_eq]
  · rw [exec_frameClose_inFrame p listening aligned parser current, s.closeInFrame_of_length c length,
      s.countLineError_eq]
  · exact LineStore.closeFrame_open _ receiving entry isOpen
  · exact LineStore.closeFrame_slots _ _
  · exact LineStore.closeFrame_held _ receiving bound isOpen

/-! ## An accepted LINE (R86-R89, R107) -/

/-- A line of the other entry with the new line's tag and number is freed, and no line else (R88). -/
theorem makeRoom_of_clash {slots : List StoredLine} {r : EntryRef} {tag : Word} {number : Nat}
    (clash : ∃ x ∈ slots, x.entry ≠ r ∧ x.tag = tag ∧ x.number = number) :
    makeRoom slots r tag number = slots.filter fun x => decide (¬(x.entry ≠ r ∧ x.tag = tag ∧ x.number = number)) := by
  refine (if_pos (by simpa [and_assoc] using clash)).trans (List.filter_congr fun x _ => ?_)
  rw [Bool.eq_iff_iff]
  simp [or_assoc]

/-- Without such a line a free slot is taken, and of 32 lines the oldest is freed (R87). -/
theorem makeRoom_of_no_clash {slots : List StoredLine} {r : EntryRef} {tag : Word} {number : Nat}
    (apart : ∀ x ∈ slots, ¬(x.entry ≠ r ∧ x.tag = tag ∧ x.number = number)) :
    makeRoom slots r tag number = if slots.length < 32 then slots else slots.drop 1 := by
  rw [List.drop_one]
  exact if_neg (by simpa using apart)

/-- The new line is the youngest, after the lines that room was made among (R86). -/
theorem LineStore.storeLine_slots {l : LineStore} {r : EntryRef} (tag : Word) (number : Nat) (pixels : List Word)
    (receiving : l.receiving = some r) :
    (l.storeLine tag number pixels).slots
      = makeRoom l.slots r tag number ++ [{ entry := r, tag := tag, number := number, pixels := pixels }] := by
  simp only [storeLine, receiving, answerHeld_slots, mapEntry_slots]

/-- A late line, of a frame without an entry, is not stored (R89). -/
theorem LineStore.storeLine_late {l : LineStore} (tag : Word) (number : Nat) (pixels : List Word)
    (late : l.receiving = none) : l.storeLine tag number pixels = l := by
  simp only [storeLine, late]

/-- A payload that meets the checks of R107 is accepted. -/
theorem acceptedLine_of_checks {c : CurrentFrame} {number : Word} {pixels : List Word}
    (above : ∀ h, c.highest = some h → h < number.toNat) (declared : number.toNat < c.frame.declared)
    (width : pixels.length = c.frame.width) : acceptedLine c (number :: pixels) = some (number.toNat, pixels) :=
  if_pos (by simpa [declared, width, Option.all_eq_true] using above)

theorem exec_line_accepted {s : State} {c : CurrentFrame} {payload : List Word} {n : Nat} {pixels : List Word}
    (listening : s.link.ignoring = false) (aligned : s.link.delineation = .aligned) (parser : s.link.parser = .inFrame)
    (current : s.link.current = some c) (accepted : acceptedLine c payload = some (n, pixels)) :
    exec (.line payload) s = .next
      { s with link := { s.link with current := some { c with highest := some n } }
               lines := s.lines.storeLine c.frame.tag n pixels } := by
  simp only [exec, execLine, State.onLink_aligned _ listening aligned, parser, current, State.lineInFrame, accepted]

/-- Settles O10: an accepted line reaches the receiver and the line store, which stores it for the receiving entry. -/
theorem anAcceptedLineIsStoredYoungest : Obligations.AnAcceptedLineIsStoredYoungest := by
  intro s c n pixels listening aligned parser current above declared width
  have stored := exec_line_accepted listening aligned parser current (acceptedLine_of_checks above declared width)
  refine ⟨fun r receiving => ⟨_, stored, rfl, ?_, fun other differs => ?_,
    ⟨_, LineStore.storeLine_slots _ _ _ receiving, makeRoom_of_clash, makeRoom_of_no_clash⟩, rfl⟩,
    fun bound waiting => ?_⟩
  · exact (LineStore.storeLine_entry _ _ _ receiving r).trans (LineStore.mapEntry_entry _ _ _)
  · exact (LineStore.storeLine_entry _ _ _ receiving other).trans (LineStore.mapEntry_entry_other _ _ differs)
  · rw [stored, LineStore.storeLine_late _ _ _ (LineStore.receiving_none.2 ⟨bound, waiting⟩)]

/-! ## A missing answer is final (R94) -/

/-- A missing answer stays when what ruled the line out still does and no line with its number has come. -/
theorem LineStore.query_missing_mono {l l' : LineStore} {e e' : FrameEntry} {q : Int} (missing : l.query q = .missing)
    (bound : l.bound = some e) (bound' : l'.bound = some e') (out : e.RulesOut q → e'.RulesOut q)
    (slots : ∀ x ∈ l'.slots, x.entry = .bound → (x.number : Int) = q → x ∈ l.slots) : l'.query q = .missing := by
  obtain ⟨absent, ruledOut⟩ := (query_missing_iff bound q).1 missing
  refine (query_missing_iff bound' q).2 ⟨stored_eq_none_iff.2 fun x mem ⟨entry, number⟩ => ?_, out ruledOut⟩
  exact stored_none absent x (slots x mem entry number) ⟨entry, number⟩

/-- A close adds no line, and rules no fewer lines out (R85, R94). -/
theorem LineStore.closeFrame_missing {l : LineStore} {e : FrameEntry} {q : Int} (kind : CloseKind)
    (bound : l.bound = some e) (missing : l.query q = .missing) : (l.closeFrame kind).query q = .missing := by
  have slots : ∀ x ∈ (l.closeFrame kind).slots, x.entry = .bound → (x.number : Int) = q → x ∈ l.slots :=
    fun x mem _ _ => by rwa [closeFrame_slots] at mem
  have same : (l.closeFrame kind).bound = some e → (l.closeFrame kind).query q = .missing := fun bound' =>
    query_missing_mono missing bound bound' id slots
  have other : EntryRef.bound ≠ .waiting := nofun
  cases receiving : l.receiving with
  | none => exact same (by rw [closeFrame_of_none kind receiving, bound])
  | some r =>
    cases r with
    | waiting => exact same ((closeFrame_other kind receiving other).trans bound)
    | bound =>
      by_cases isOpen : e.close = none
      · exact query_missing_mono missing bound (closeFrame_open kind receiving bound isOpen)
          (fun _ => .inr (.inr (.inl nofun))) slots
      · refine same ((closeFrame_receiving kind receiving).trans ?_)
        simp [entry, bound, isOpen]

/-- An accepted line of the bound entry is above all that the entry has received, and below what it declares: its number
was not ruled out, for the entry is OPEN (R92, R94, R107). -/
theorem FrameEntry.not_rulesOut_of_accepted {e : FrameEntry} {c : CurrentFrame} {payload : List Word} {n : Nat}
    {pixels : List Word} (accepted : acceptedLine c payload = some (n, pixels)) (frame : e.frame = c.frame)
    (highest : e.highest = c.highest) (isOpen : e.close = none) : ¬e.RulesOut n := by
  obtain ⟨-, -, -, above, declared, -⟩ := acceptedLine_some accepted
  rintro (negative | undeclared | closed | ⟨h, received, passed⟩)
  · omega
  · rw [frame] at undeclared; omega
  · exact closed isOpen
  · have := above h (highest ▸ received); omega

/-- A number that is ruled out stays so when the highest received line rises (R94). -/
theorem FrameEntry.RulesOut.raise {e : FrameEntry} {q : Int} {n : Nat} (out : e.RulesOut q)
    (above : ∀ h, e.highest = some h → h < n) : FrameEntry.RulesOut { e with highest := some n } q := by
  obtain negative | undeclared | closed | ⟨h, received, passed⟩ := out
  · exact .inl negative
  · exact .inr (.inl undeclared)
  · exact .inr (.inr (.inl closed))
  · have := above h received
    exact .inr (.inr (.inr ⟨n, rfl, by omega⟩))

/-- An accepted line leaves a missing answer missing (R94). -/
theorem LineStore.storeLine_missing {k : LinkReceiver} {l : LineStore} {e : FrameEntry} {c : CurrentFrame}
    {payload : List Word} {n : Nat} {pixels : List Word} {q : Int} (matched : receiverMatches k l = true)
    (current : k.current = some c) (accepted : acceptedLine c payload = some (n, pixels)) (bound : l.bound = some e)
    (missing : l.query q = .missing) : (l.storeLine c.frame.tag n pixels).query q = .missing := by
  cases receiving : l.receiving with
  | none => rwa [storeLine_late _ _ _ receiving]
  | some r =>
    have entry := storeLine_entry c.frame.tag n pixels receiving .bound
    have older : ∀ x ∈ (l.storeLine c.frame.tag n pixels).slots, x ∈ l.slots ∨ (x.entry = r ∧ x.number = n) := by
      rw [storeLine_slots _ _ _ receiving]
      intro x mem
      obtain old | new := List.mem_append.1 mem
      · exact .inl ((makeRoom_sublist _ _ _ _).subset old)
      · rw [List.mem_singleton.1 new]; exact .inr ⟨rfl, rfl⟩
    cases r with
    | waiting =>
      have other : EntryRef.bound ≠ .waiting := nofun
      refine query_missing_mono missing bound (entry.trans ((mapEntry_entry_other _ _ other).trans bound)) id
        fun x mem isBound _ => (older x mem).resolve_right fun new => ?_
      rw [isBound] at new
      exact nomatch new.1
    | bound =>
      obtain ⟨⟨e', bound', frame, highest, isOpen⟩, -⟩ := (receiverMatches_iff.1 matched).2 c .bound current receiving
      obtain rfl : e = e' := Option.some.inj (bound.symm.trans bound')
      obtain ⟨-, -, -, above, -, -⟩ := acceptedLine_some accepted
      have out := ((query_missing_iff bound q).1 missing).2
      refine query_missing_mono missing bound (entry.trans (by rw [mapEntry_entry, bound']; rfl))
        (fun out => out.raise (highest ▸ above)) fun x mem _ number => (older x mem).resolve_right fun new => ?_
      rw [← number, new.2] at out
      exact FrameEntry.not_rulesOut_of_accepted accepted frame highest isOpen out

/-- A LINE leaves the line store alone or is stored (R107, R108). -/
theorem execLine_lines {s t : State} {payload : List Word} (h : execLine payload s = .next t) :
    t.lines = s.lines ∨ ∃ c n pixels, s.link.current = some c ∧ acceptedLine c payload = some (n, pixels)
      ∧ t.lines = s.lines.storeLine c.frame.tag n pixels := by
  unfold execLine State.onLink at h
  split at h <;> cases h
  · dsimp only
    split
    · next current =>
      unfold State.lineInFrame
      split
      · next accepted => exact .inr ⟨_, _, _, current, accepted, rfl⟩
      · exact .inl rfl
    · exact .inl rfl
  · exact .inl rfl

/-- A FRAME_CLOSE leaves the line store alone or closes the open input frame there (R109). -/
theorem execFrameClose_lines {s t : State} {payload : List Word} (h : execFrameClose payload s = .next t) :
    t.lines = s.lines ∨ ∃ kind, t.lines = s.lines.closeFrame kind := by
  unfold execFrameClose State.onLink at h
  split at h <;> cases h
  · dsimp only
    split
    · unfold State.closeInFrame
      split
      · exact .inr ⟨_, rfl⟩
      · exact .inl rfl
    · exact .inl rfl
  · exact .inl rfl

/-- Settles O14: neither row brings the line, nor lifts what rules it out. -/
theorem aMissingAnswerIsFinal : Obligations.AMissingAnswerIsFinal := by
  intro s t p q matched isBound missing row
  obtain ⟨e, bound⟩ := Option.isSome_iff_exists.1 isBound
  obtain line | close := row
  · obtain same | ⟨c, n, pixels, current, accepted, stored⟩ := execLine_lines line
    · rw [same]; exact missing
    · rw [stored]; exact LineStore.storeLine_missing matched current accepted bound missing
  · obtain same | ⟨kind, closed⟩ := execFrameClose_lines close
    · rw [same]; exact missing
    · rw [closed]; exact LineStore.closeFrame_missing kind bound missing

end Sys2Proof.Machine
end

