-- ==== Sys2Proof/Proofs/Framing.lean ====
section
/-! PROOFS. O53: the words that frame a packet, and what the link receiver makes of them. -/

namespace Sys2Proof.Machine

/-! ## Header word 1 (R197) -/

theorem headerKind_headerWord (kind : KindCode) (length : Nat) : headerKind (headerWord kind length) = kind :=
  BitVec.extractLsb'_append_eq_left

theorem headerLength_eq (w1 : Word) : headerLength w1 = w1.toNat % 2048 := by
  simp [headerLength]

/-- The length field has 11 bits, which hold every length up to 1100. -/
theorem headerLength_headerWord (kind : KindCode) {length : Nat} (fits : length ≤ 1100) :
    headerLength (headerWord kind length) = length := by
  have field : (headerWord kind length).extractLsb' 0 11 = BitVec.ofNat 11 length := BitVec.extractLsb'_append_eq_right
  rw [headerLength, field, BitVec.toNat_ofNat]
  omega

/-! ## The header check (R99) -/

theorem headerPasses_iff {w1 w2 : Word} :
    headerPasses w1 w2 = true ↔ w2 = crc [Config.startMarker, w1] ∧ headerLength w1 ≤ 1100 := by
  rw [headerPasses, Bool.and_eq_true, decide_eq_true_iff, decide_eq_true_iff, Config.maxPayload]

theorem headerPasses_headerWord (kind : KindCode) {length : Nat} (fits : length ≤ 1100) :
    headerPasses (headerWord kind length) (crc [Config.startMarker, headerWord kind length]) = true :=
  headerPasses_iff.2 ⟨rfl, (headerLength_headerWord kind fits).trans_le fits⟩

/-! ## Reception from ALIGNED (R98, R99, R101) -/

/-- A first word that is not the start marker fails the header check by itself. -/
theorem receivePacket_of_no_marker {w : Word} (rest : List Word) (other : w ≠ Config.startMarker) :
    receivePacket (w :: rest) = some (.headerCheckFailure, .hunt, rest) :=
  if_pos other

/-- Behind a start marker a failed header leaves its words 1 and 2 to be examined again. -/
theorem receivePacket_of_failed_header {w1 w2 : Word} (rest : List Word) (fails : headerPasses w1 w2 = false) :
    receivePacket (Config.startMarker :: w1 :: w2 :: rest) = some (.headerCheckFailure, .hunt, w1 :: w2 :: rest) := by
  simp only [receivePacket, ne_eq, not_true, if_false, fails, Bool.false_eq_true]

/-- The row that a packet with a passed header is, by its last word (R101, R102). -/
def checkedEvent (kind : KindCode) (payload : List Word) (check : Word) : Instr :=
  if check = crc payload then packetEvent kind payload else .payloadCheckFailedPacket kind payload

/-- A framed packet is taken up to and with its last word, which decides between the two rows. -/
theorem receivePacket_framed (kind : KindCode) {payload : List Word} (check : Word) (rest : List Word)
    (fits : payload.length ≤ 1100) :
    receivePacket ((frameWords kind payload).dropLast ++ check :: rest)
      = some (checkedEvent kind payload check, .aligned, rest) := by
  have words : (frameWords kind payload).dropLast ++ check :: rest
      = Config.startMarker :: headerWord kind payload.length
          :: crc [Config.startMarker, headerWord kind payload.length] :: (payload ++ check :: rest) := by
    rw [frameWords, List.dropLast_concat]
    rfl
  rw [words]
  simp only [receivePacket, ne_eq, not_true, if_false, headerPasses_headerWord kind fits, if_true,
    headerLength_headerWord kind fits, headerKind_headerWord, List.drop_left, List.take_left, checkedEvent]
  split <;> rfl

/-- The words of a packet are those before the last one, and the check value of its payload. -/
theorem frameWords_eq_dropLast_append (kind : KindCode) (payload : List Word) :
    frameWords kind payload = (frameWords kind payload).dropLast ++ [crc payload] := by
  rw [frameWords, List.dropLast_concat]

/-! ## Dispatch by kind code (R102, R200) -/

/-- What holds of each of the five forward kinds with its row, and of every other kind with the row of an unknown one,
holds of a kind and its packet's arrival. -/
theorem packetEvent_induction {payload : List Word} {motive : KindCode → Instr → Prop}
    (frameOpen : motive 0x01 (.frameOpen payload)) (line : motive 0x02 (.line payload))
    (frameClose : motive 0x03 (.frameClose payload)) (control : motive 0x04 (.control payload))
    (filler : motive 0x1F (.filler payload))
    (unknown : ∀ kind, kind ∉ forwardKindCodes → motive kind (.unknownKindPacket kind payload)) (kind : KindCode) :
    motive kind (packetEvent kind payload) := by
  unfold packetEvent
  split_ifs with isOpen isLine isClose isControl isFiller
  · exact isOpen ▸ frameOpen
  · exact isLine ▸ line
  · exact isClose ▸ frameClose
  · exact isControl ▸ control
  · exact isFiller ▸ filler
  · exact unknown kind (by
      simp only [forwardKindCodes, List.mem_cons, List.not_mem_nil, isOpen, isLine, isClose, isControl, isFiller,
        or_false, not_false_iff])

theorem encodePacket_packetEvent (kind : KindCode) (payload : List Word) :
    encodePacket (packetEvent kind payload) = frameWords kind payload :=
  packetEvent_induction (motive := fun kind row => encodePacket row = frameWords kind payload)
    rfl rfl rfl rfl rfl (fun _ _ => rfl) kind

theorem packetEvent_wellFormed (kind : KindCode) {payload : List Word} (fits : payload.length ≤ 1100) :
    (packetEvent kind payload).wellFormed = true := by
  have payloadFits : payloadFits payload = true := decide_eq_true fits
  refine packetEvent_induction (motive := fun _ row => row.wellFormed = true) payloadFits payloadFits payloadFits
    payloadFits payloadFits (fun kind unknown => ?_) kind
  rw [Instr.wellFormed, payloadFits, Bool.true_and, Bool.not_eq_true', ← Bool.not_eq_true, List.contains_iff_mem]
  exact unknown

/-- Settles O53: after a passed header the last word decides which row comes about; the rest are headers that fail. -/
theorem framedPacketsAreReceivedAsSent : Obligations.FramedPacketsAreReceivedAsSent := by
  refine fun kind payload rest fits => ⟨?_, encodePacket_packetEvent kind payload, packetEvent_wellFormed kind fits,
    fun check wrong => ?_, fun w other => receivePacket_of_no_marker rest other,
    fun w1 w2 fails => receivePacket_of_failed_header rest ?_⟩
  · rw [frameWords_eq_dropLast_append, List.append_assoc, List.singleton_append, receivePacket_framed kind _ rest fits,
      checkedEvent, if_pos rfl]
  · rw [receivePacket_framed kind check rest fits, checkedEvent, if_neg wrong]
  · rw [← Bool.not_eq_true, headerPasses_iff, headerLength_eq]
    rintro ⟨sameCheck, inRange⟩
    obtain otherCheck | tooLong := fails
    · exact otherCheck sameCheck
    · omega

end Sys2Proof.Machine
end

