-- ==== Sys2Proof/Proofs/DiscardedPackets.lean ====
section
/-! PROOFS. O6, O7: words and packets of the forward link that are discarded or refused. -/

namespace Sys2Proof.Machine

/-! ## Words and packets that are discarded (R98-R102, R116) -/

theorem satInc_eq_raised (n : Word) : satInc n = Claims.raised n :=
  satInc_eq n

theorem LinkReceiver.receives_eq_false {l : LinkReceiver} (deaf : l.ignoring = true ∨ l.delineation = .hunt) :
    l.receives = false := by
  obtain ignoring | hunting := deaf
  · rw [receives, ignoring]; rfl
  · rw [receives, hunting]; exact Bool.and_false _

theorem exec_startMarkerInHunt_ignoring {s : State} (ignoring : s.link.ignoring = true) :
    exec .startMarkerInHunt s = .next s :=
  if_pos ignoring

theorem exec_startMarkerInHunt_listening {s : State} (listening : s.link.ignoring = false) :
    exec .startMarkerInHunt s = .next { s with link := { s.link with delineation := .aligned } } :=
  if_neg (by rw [listening]; exact Bool.false_ne_true)

theorem exec_headerCheckFailure_aligned {s : State} (listening : s.link.ignoring = false)
    (aligned : s.link.delineation = .aligned) :
    exec .headerCheckFailure s = .next
      { s with link := { s.link with delineation := .hunt, headerErrors := Claims.raised s.link.headerErrors } } := by
  simp only [exec, execHeaderCheckFailure, State.onLink_aligned _ listening aligned, satInc_eq_raised]

theorem exec_payloadCheckFailedPacket_aligned {s : State} (kind : KindCode) (p : List Word)
    (listening : s.link.ignoring = false) (aligned : s.link.delineation = .aligned) :
    exec (.payloadCheckFailedPacket kind p) s = .next
      { s with link := { s.link with payloadErrors := Claims.raised s.link.payloadErrors } } := by
  simp only [exec, execPayloadCheckFailedPacket, State.onLink_aligned _ listening aligned, satInc_eq_raised]

/-- Settles O6: a deaf receiver takes no header and no packet, and an ALIGNED one has each row's own effect. -/
theorem discardedWordsOnlyRaiseTheirCounter : Obligations.DiscardedWordsOnlyRaiseTheirCounter := by
  refine fun s kind p => ⟨fun deaf => ?_, exec_startMarkerInHunt_ignoring,
    fun listening _ => exec_startMarkerInHunt_listening listening, fun listening aligned =>
    ⟨exec_headerCheckFailure_aligned listening aligned, State.onLink_aligned id listening aligned, ?_,
      exec_payloadCheckFailedPacket_aligned kind p listening aligned⟩⟩
  · have unchanged (event : State → State) : s.onLink event = .next s :=
      State.onLink_deaf event (LinkReceiver.receives_eq_false deaf)
    simp only [exec, execHeaderCheckFailure, execFrameOpen, execLine, execFrameClose, execControl, execFiller,
      execUnknownKindPacket, execPayloadCheckFailedPacket, unchanged, and_self]
  · rw [← s.countStray_eq]
    exact State.onLink_aligned _ listening aligned

/-! ## Refused packets of an input frame (R104, R107, R108) -/

/-- A FRAME_OPEN has three words, whose fields are in range (R104). -/
theorem frameOpenFields_refused {p : List Word}
    (refused : ∀ tag lines width, p = [tag, lines, width] → ¬Claims.validOpen lines width) :
    frameOpenFields p = none := by
  match p with
  | [] | [_] | [_, _] | _ :: _ :: _ :: _ :: _ => rfl
  | [tag, lines, width] => exact (frameOpenFields_three tag lines width).trans (if_neg (refused _ _ _ rfl))

theorem exec_frameOpen_refused {s : State} {p : List Word} (listening : s.link.ignoring = false)
    (aligned : s.link.delineation = .aligned) (refused : frameOpenFields p = none) :
    exec (.frameOpen p) s = .next s.countLineError := by
  simp only [exec, execFrameOpen, State.onLink_aligned _ listening aligned, refused]

/-- A LINE without a number, or with a number or a length that R107 rules out, is not accepted. -/
theorem acceptedLine_refused {c : CurrentFrame} {p : List Word}
    (refused : p = [] ∨ ∃ (n : Word) (pixels : List Word), p = n :: pixels
      ∧ ((∃ h, c.highest = some h ∧ n.toNat ≤ h) ∨ c.frame.declared ≤ n.toNat ∨ pixels.length ≠ c.frame.width)) :
    acceptedLine c p = none := by
  refine Option.eq_none_iff_forall_ne_some.2 fun (number, pixels) accepted => ?_
  obtain ⟨n, rfl, rfl, above, declared, width⟩ := acceptedLine_some accepted
  obtain empty | ⟨n, pixels, same, fails⟩ := refused
  · cases empty
  · cases same
    obtain ⟨h, highest, below⟩ | undeclared | otherWidth := fails
    · exact absurd (above h highest) (by omega)
    · omega
    · exact otherWidth width

theorem exec_line_refused {s : State} {c : CurrentFrame} {p : List Word} (listening : s.link.ignoring = false)
    (aligned : s.link.delineation = .aligned) (parser : s.link.parser = .inFrame) (current : s.link.current = some c)
    (refused : acceptedLine c p = none) : exec (.line p) s = .next s.countLineError := by
  simp only [exec, execLine, State.onLink_aligned _ listening aligned, parser, current, State.lineInFrame, refused]

/-- Outside IN_FRAME a LINE is stray (R108). -/
theorem exec_line_stray {s : State} (p : List Word) (listening : s.link.ignoring = false)
    (aligned : s.link.delineation = .aligned) (parser : s.link.parser = .search ∨ s.link.parser = .gap) :
    exec (.line p) s = .next s.countStray := by
  obtain parser | parser := parser <;> simp only [exec, execLine, State.onLink_aligned _ listening aligned, parser]

/-- Settles O7: each packet fails the check that its kind and the parser state give it. -/
theorem refusedFramePacketsOnlyRaiseTheirCounter : Obligations.RefusedFramePacketsOnlyRaiseTheirCounter := by
  intro s p listening aligned
  rw [← s.countLineError_eq, ← s.countStray_eq]
  exact ⟨fun refused => exec_frameOpen_refused listening aligned (frameOpenFields_refused refused),
    fun _ parser current refused => exec_line_refused listening aligned parser current (acceptedLine_refused refused),
    exec_line_stray p listening aligned⟩

end Sys2Proof.Machine
end

