-- ==== Sys2Proof/Proofs/MemoryOperations.lean ====
section
/-! PROOFS. What the memory commands do to picture memory, case by case: addresses, the newest value, the words of a
MEM_WRITE and of a MEM_READ, patch mode, and the rows that hand these operations their operands. -/

namespace Sys2Proof.Machine

open Claims (onward protectedWord)

/-! ## Word addresses one after another (R119) -/

/-- Address arithmetic is arithmetic of keys around the end of the array. -/
theorem onward_key (a : Addr) (n : Nat) : (onward a n).key = (a.key + n) % 65536 := by
  induction n generalizing a with
  | zero => rw [onward, Nat.add_zero, Nat.mod_eq_of_lt a.key_lt]
  | succ n ih => rw [onward, ih, Addr.next_key]; omega

/-- Fewer words than the array holds do not come back to the first (R119). -/
theorem onward_next_ne (a : Addr) {n : Nat} (h : n < 65535) : onward a.next n ≠ a := by
  intro same
  have keys : (onward a.next n).key = a.key := by rw [same]
  have := a.key_lt
  rw [onward_key, Addr.next_key] at keys
  omega

/-! ## The newest value of a word (R120) -/

/-- A word with no deferred entry has the array's value. -/
theorem PictureMemory.newest_of_not_deferred {p : PictureMemory} {a : Addr} (h : ∀ d ∈ p.deferred, d.addr ≠ a) :
    p.newest a = p.array.read a.key := by
  have absent : p.deferred.reverse.find? (fun d => d.addr == a) = none := by
    simpa [List.find?_eq_none] using h
  simp only [newest, absent]

/-- A word with deferred entries has the value of the youngest. -/
theorem PictureMemory.newest_of_youngest {p : PictureMemory} {a : Addr} {older newer : List Deferred}
    {youngest : Deferred} (queue : p.deferred = older ++ youngest :: newer) (addr : youngest.addr = a)
    (last : ∀ d ∈ newer, d.addr ≠ a) : p.newest a = youngest.value := by
  have later : newer.reverse.find? (fun d => d.addr == a) = none := by
    simpa [List.find?_eq_none] using last
  simp [newest, queue, List.find?_append, later, addr]

/-- A row that the guard defers is a row of the frame row set under the guard (R133). -/
theorem PictureMemory.defers_iff {p : PictureMemory} {a : Addr} :
    p.defers a = true ↔ ∃ v, p.view = some v ∧ v.guard = true ∧ a.row.toNat ∈ v.rowSet := by
  cases h : p.view <;> simp [defers, h]

theorem PictureMemory.defers_eq_false {p : PictureMemory} {a : Addr} :
    p.defers a = false ↔ ∀ v, p.view = some v → ¬(v.guard = true ∧ a.row.toNat ∈ v.rowSet) := by
  rw [← Bool.not_eq_true, defers_iff]
  exact ⟨fun h v hv hr => h ⟨v, hv, hr⟩, fun h ⟨v, hv, hr⟩ => h v hv hr⟩

/-- Without a frame in progress nothing is deferred. -/
theorem PictureMemory.defers_of_no_view {p : PictureMemory} (a : Addr) (view : p.view = none) : p.defers a = false :=
  defers_eq_false.2 fun v hv => by rw [view] at hv; cases hv

/-- A word that the guard does not defer has no deferred entry, as every entry is one that the guard deferred (R133). -/
theorem PictureMemory.not_deferred_of_not_defers {p : PictureMemory} {a : Addr} (ok : p.deferredOk = true)
    (h : p.defers a = false) : ∀ d ∈ p.deferred, d.addr ≠ a := by
  intro d hd same
  have deferred : p.defers d.addr = true := List.all_eq_true.1 (Bool.and_eq_true_iff.1 ok).2 d hd
  rw [same, h] at deferred
  cases deferred

/-! ## Protected words (R146) -/

theorem Mover.protects_iff {m : Mover} {a : Addr} : m.protects a = true ↔ protectedWord m a := by
  simp [protects, inFlight, MoveOp.covers, inRectangle, protectedWord, Claims.insideRectangle, and_assoc]

theorem Mover.protects_eq_false {m : Mover} {a : Addr} : m.protects a = false ↔ ¬protectedWord m a := by
  rw [← Bool.not_eq_true, protects_iff]

/-- With no operation in flight no word is protected. -/
theorem Mover.protects_of_idle {m : Mover} (a : Addr) (idle : m.state = .idle) : m.protects a = false :=
  protects_eq_false.2 fun h => h.1 idle

/-! ## One word of a MEM_WRITE (R121, R124, R133, R134, R136) -/

/-- The holder after a word has been taken at an address (R121). -/
def Holder.seeing (h : Holder) (a : Addr) (w : Word) : Holder :=
  if h.addr = a then { h with value := w } else h

theorem PictureMemory.refreshHolder_eq (p : PictureMemory) (a : Addr) (w : Word) :
    p.refreshHolder a w = { p with holder := p.holder.seeing a w } := by
  unfold refreshHolder Holder.seeing
  split <;> rfl

@[simp] theorem Holder.seeing_addr (h : Holder) (a : Addr) (w : Word) : (h.seeing a w).addr = h.addr := by
  unfold seeing; split <;> rfl

theorem Holder.seeing_value {h : Holder} {a : Addr} (w : Word) (same : a = h.addr) : (h.seeing a w).value = w := by
  rw [seeing, if_pos same.symm]

theorem Holder.seeing_other {h : Holder} {a : Addr} (w : Word) (other : a ≠ h.addr) : h.seeing a w = h :=
  if_neg other.symm

section Word

variable {p : PictureMemory} {m : Mover} (w : Word)

theorem PictureMemory.writeWord_protected (h : m.protects p.cursor = true) : p.writeWord m w = .error .busy :=
  if_pos h

theorem PictureMemory.writeWord_full (free : m.protects p.cursor = false) (defers : p.defers p.cursor = true)
    (full : 64 ≤ p.deferred.length) : p.writeWord m w = .error .full := by
  simp [writeWord, free, defers, Config.deferredEntries, full]

theorem PictureMemory.writeWord_deferred (free : m.protects p.cursor = false) (defers : p.defers p.cursor = true)
    (room : p.deferred.length < 64) :
    p.writeWord m w = .ok
      { p with deferred := p.deferred ++ [{ addr := p.cursor, value := w }]
               cursor := p.cursor.next, holder := p.holder.seeing p.cursor w } := by
  simp [writeWord, free, defers, Config.deferredEntries, room, place, refreshHolder_eq]

/-- A word that is not deferred is written at once, and may tear an unguarded frame. -/
theorem PictureMemory.writeWord_placed (free : m.protects p.cursor = false) (now : p.defers p.cursor = false) :
    p.writeWord m w = .ok
      { p with array := p.array.write p.cursor.key w, view := (p.tear p.cursor.row.toNat).view
               cursor := p.cursor.next, holder := p.holder.seeing p.cursor w } := by
  simp [writeWord, free, now, place, refreshHolder_eq, tear]

end Word

/-- A row outside the set, or under the guard, tears nothing (R134). -/
theorem PictureMemory.tear_view_of_not_mem {p : PictureMemory} {v : FrameView} {row : Nat} (view : p.view = some v)
    (safe : v.guard = true ∨ row ∉ v.rowSet) : (p.tear row).view = some v := by
  obtain guard | outside := safe
  · rw [tear_of_guard row view guard, view]
  · simp [tear, view, outside]

/-- A write to a row of the set with the guard off tears the frame (R134). -/
theorem PictureMemory.tear_view_of_mem {p : PictureMemory} {v : FrameView} {row : Nat} (view : p.view = some v)
    (guard : v.guard = false) (inside : row ∈ v.rowSet) : (p.tear row).view = some { v with torn := true } := by
  simp [tear, view, guard, inside]

theorem PictureMemory.tear_view_of_none {p : PictureMemory} (row : Nat) (view : p.view = none) :
    (p.tear row).view = none := by
  rw [tear_of_none row view, view]

/-! ## The words of a MEM_WRITE (R124, R125) -/

/-- The first word of a MEM_WRITE is not taken: the command stops with that status. -/
theorem PictureMemory.writeWords_stopped {p : PictureMemory} {m : Mover} {w : Word} {status : Status} (ws : List Word)
    (taken : Nat) (h : p.writeWord m w = .error status) :
    PictureMemory.writeWords m (w :: ws) taken p = (p, { status := status, data := [BitVec.ofNat 16 taken] }) := by
  simp only [writeWords, h]

/-- The first word is taken, and the others follow. -/
theorem PictureMemory.writeWords_taken {p p' : PictureMemory} {m : Mover} {w : Word} (ws : List Word) (taken : Nat)
    (h : p.writeWord m w = .ok p') :
    PictureMemory.writeWords m (w :: ws) taken p = PictureMemory.writeWords m ws (taken + 1) p' := by
  simp only [writeWords, h]

/-- What the words do depends on no count; the count of those taken is added to the one brought along. -/
theorem PictureMemory.writeWords_counts (m : Mover) (ws : List Word) (p : PictureMemory) :
    ∃ (p' : PictureMemory) (status : Status) (n : Nat), ∀ taken,
      PictureMemory.writeWords m ws taken p = (p', { status := status, data := [BitVec.ofNat 16 (taken + n)] }) := by
  induction ws generalizing p with
  | nil => exact ⟨p, .ok, 0, fun _ => rfl⟩
  | cons w ws ih =>
    cases h : p.writeWord m w with
    | ok q =>
      obtain ⟨p', status, n, rest⟩ := ih q
      refine ⟨p', status, n + 1, fun taken => ?_⟩
      rw [writeWords_taken ws taken h, rest, Nat.add_assoc, Nat.add_comm 1]
    | error status => exact ⟨p, status, 0, fun taken => writeWords_stopped ws taken h⟩

/-- MEM_WRITE is no matter of patch mode (R130). -/
theorem PictureMemory.memWrite_patch (p : PictureMemory) (m : Mover) (words : List Word) :
    (p.memWrite m words).1.patch = p.patch := by
  refine writeWords_induct (P := fun q => q.patch = p.patch) (fun q q' w hq hw => ?_) words 0 p rfl
  obtain ⟨-, -, rfl⟩ := writeWord_ok hw
  obtain ⟨-, placed⟩ | ⟨-, placed⟩ := q.place_cases w <;> simpa [placed] using hq

/-! ## Words written between frames, with no operation in flight -/

/-- `p'` is `p` with these words written from the cursor on (R119, R121, R124). -/
structure PictureMemory.Written (p : PictureMemory) (ws : List Word) (p' : PictureMemory) : Prop where
  words : ∀ k w, ws[k]? = some w → p'.array.read (onward p.cursor k).key = w
  others : ∀ a : Addr, (∀ k, k < ws.length → onward p.cursor k ≠ a) → p'.array.read a.key = p.array.read a.key
  cursor : p'.cursor = onward p.cursor ws.length
  holderAddr : p'.holder.addr = p.holder.addr
  holderValue : ∀ k w, ws[k]? = some w → onward p.cursor k = p.holder.addr → p'.holder.value = w
  holderKept : (∀ k, k < ws.length → onward p.cursor k ≠ p.holder.addr) → p'.holder = p.holder
  deferred : p'.deferred = p.deferred
  patch : p'.patch = p.patch
  view : p'.view = none

theorem PictureMemory.Written.nil {p : PictureMemory} (view : p.view = none) : p.Written [] p where
  words := by simp
  others _ _ := rfl
  cursor := rfl
  holderAddr := rfl
  holderValue := by simp
  holderKept _ := rfl
  deferred := rfl
  patch := rfl
  view := view

/-- A word written first, and others from the next address on, which do not come back to it. -/
theorem PictureMemory.Written.cons {p q p' : PictureMemory} {w : Word} {ws : List Word} (wf : p.array.wf = true)
    (first : q = { p with array := p.array.write p.cursor.key w, cursor := p.cursor.next
                          holder := p.holder.seeing p.cursor w })
    (rest : q.Written ws p') (length : ws.length < 65536) : p.Written (w :: ws) p' := by
  subst first
  have apart (k : Nat) (hk : k < ws.length) : onward p.cursor.next k ≠ p.cursor := onward_next_ne _ (by omega)
  exact
    { words := fun k x hx => by
        cases k with
        | zero =>
          cases hx
          exact (rest.others p.cursor apart).trans (by rw [Memory.read_write wf, if_pos rfl])
        | succ k => exact rest.words k x hx
      others := fun a ha => by
        have other : a.key ≠ p.cursor.key := fun same => ha 0 (by simp) (Addr.key_inj.1 same).symm
        rw [rest.others a fun k hk => ha (k + 1) (by simpa using hk), Memory.read_write wf, if_neg other]
      cursor := rest.cursor
      holderAddr := by rw [rest.holderAddr, Holder.seeing_addr]
      holderValue := fun k x hx same => by
        cases k with
        | zero =>
          cases hx
          have kept := rest.holderKept fun k hk => by
            rw [Holder.seeing_addr, ← same]
            exact apart k hk
          rw [kept]
          exact Holder.seeing_value w same
        | succ k => exact rest.holderValue k x hx (by rw [Holder.seeing_addr]; exact same)
      holderKept := fun h => by
        have first := Holder.seeing_other w (h 0 (by simp))
        refine (rest.holderKept fun k hk => ?_).trans first
        rw [Holder.seeing_addr]
        exact h (k + 1) (by simpa using hk)
      deferred := rest.deferred
      patch := rest.patch
      view := rest.view }

/-- With no operation in flight and no frame in progress every word is written at once (R124, R133). -/
theorem PictureMemory.writeWords_written {m : Mover} (idle : m.state = .idle) (ws : List Word) (taken : Nat)
    {p : PictureMemory} (view : p.view = none) (wf : p.array.wf = true) (length : ws.length < 65536) :
    ∃ p', PictureMemory.writeWords m ws taken p = (p', okResult [BitVec.ofNat 16 (taken + ws.length)])
      ∧ p.Written ws p' := by
  induction ws generalizing taken p with
  | nil => exact ⟨p, rfl, .nil view⟩
  | cons w ws ih =>
    have word := writeWord_placed w (Mover.protects_of_idle p.cursor idle) (defers_of_no_view _ view)
    rw [tear_view_of_none _ view, ← view] at word
    have shorter : ws.length < 65536 := Nat.lt_of_succ_lt length
    obtain ⟨p', he, written⟩ := ih (taken + 1) (p := { p with array := p.array.write p.cursor.key w
                                                              cursor := p.cursor.next
                                                              holder := p.holder.seeing p.cursor w })
      view (Memory.write_wf wf p.cursor.key_lt) shorter
    refine ⟨p', ?_, .cons wf rfl written shorter⟩
    rw [writeWords_taken ws taken word, he, List.length_cons, Nat.add_assoc, Nat.add_comm 1]

/-! ## The words of a MEM_READ (R127) -/

/-- The address whose newest value is in the holder after `k` words of a MEM_READ (R127, R130). -/
def PictureMemory.readAddr (p : PictureMemory) (k : Nat) : Addr :=
  if p.patch = none then onward p.cursor k else p.cursor

theorem PictureMemory.afterRead_eq (p : PictureMemory) :
    p.afterRead =
      { p with cursor := p.readAddr 1
               holder := { addr := p.readAddr 1, value := p.newest (p.readAddr 1) } } := by
  unfold afterRead readAddr
  cases p.patch <;> rfl

theorem PictureMemory.afterRead_readAddr (p : PictureMemory) (k : Nat) :
    p.afterRead.readAddr k = p.readAddr (k + 1) := by
  rw [afterRead_eq]
  unfold readAddr
  cases p.patch <;> rfl

theorem PictureMemory.afterRead_newest (p : PictureMemory) (a : Addr) : p.afterRead.newest a = p.newest a :=
  newest_congr rfl rfl a

/-- A word of MEM_READ whose cursor or holder address is protected stops the command (R122, R127). -/
theorem PictureMemory.readWords_protected {m : Mover} {p : PictureMemory} (n : Nat) (got : List Word)
    (h : protectedWord m p.cursor ∨ protectedWord m p.holder.addr) :
    PictureMemory.readWords m (n + 1) got p = (p, { status := .busy, data := got }) := by
  refine if_pos ?_
  rw [Bool.or_eq_true, Mover.protects_iff, Mover.protects_iff]
  exact h

/-- Any other word is read from the holder, and the holder is loaded again (R127). -/
theorem PictureMemory.readWords_succ {m : Mover} {p : PictureMemory} (n : Nat) (got : List Word)
    (cursor : m.protects p.cursor = false) (holder : m.protects p.holder.addr = false) :
    PictureMemory.readWords m (n + 1) got p = PictureMemory.readWords m n (got ++ [p.holder.value]) p.afterRead := by
  simp [readWords, cursor, holder]

/-- With no operation in flight: the holder's word, then the newest values of the addresses that follow, or in patch
mode of the cursor (R127, R130). -/
theorem PictureMemory.readWords_idle {m : Mover} (idle : m.state = .idle) (n : Nat) (got : List Word)
    (p : PictureMemory) :
    PictureMemory.readWords m (n + 1) got p =
      ({ p with cursor := p.readAddr (n + 1)
                holder := { addr := p.readAddr (n + 1), value := p.newest (p.readAddr (n + 1)) } },
       okResult (got ++ p.holder.value :: (List.range n).map fun k => p.newest (p.readAddr (k + 1)))) := by
  induction n generalizing got p with
  | zero =>
    rw [readWords_succ 0 got (Mover.protects_of_idle _ idle) (Mover.protects_of_idle _ idle), afterRead_eq]
    rfl
  | succ n ih =>
    rw [readWords_succ _ got (Mover.protects_of_idle _ idle) (Mover.protects_of_idle _ idle), ih]
    simp only [afterRead_readAddr, afterRead_newest, List.range_succ_eq_map, List.map_cons, List.map_map,
      List.append_assoc, List.singleton_append]
    rw [afterRead_eq]
    rfl

/-! ## MEM_ADDRESS and patch mode (R123, R128, R129) -/

section Cursor

variable {p : PictureMemory}

theorem PictureMemory.memAddress_mode (row col : Word) (patch : p.patch ≠ none) :
    p.memAddress row col = (p, refusal .mode) :=
  if_pos (Option.isSome_iff_ne_none.2 patch)

theorem PictureMemory.memAddress_range {row col : Word} (patch : p.patch = none)
    (range : 255 < row.toNat ∨ 255 < col.toNat) : p.memAddress row col = (p, refusal .range) := by
  rw [memAddress, if_neg (by simp [patch]), if_pos range]

/-- The holder is loaded at the cursor placed (R120, R123). -/
theorem PictureMemory.memAddress_placed {row col : Word} {a : Addr} (patch : p.patch = none)
    (hr : row.toNat = a.row.toNat) (hc : col.toNat = a.col.toNat) :
    p.memAddress row col = ({ p with cursor := a, holder := { addr := a, value := p.newest a } }, okResult []) := by
  obtain ⟨r, c⟩ := a
  have := r.isLt; have := c.isLt
  have hr : row.toNat = r.toNat := hr
  have hc : col.toNat = c.toNat := hc
  have inside : ¬(row.toNat > 255 ∨ col.toNat > 255) := by omega
  have row8 : row.setWidth 8 = r := BitVec.eq_of_toNat_eq (by rw [BitVec.toNat_setWidth]; omega)
  have col8 : col.setWidth 8 = c := BitVec.eq_of_toNat_eq (by rw [BitVec.toNat_setWidth]; omega)
  rw [memAddress, if_neg (by simp [patch]), if_neg inside, row8, col8]
  rfl

theorem PictureMemory.patchBegin_open (patch : p.patch = none) :
    p.patchBegin = ({ p with patch := some p.cursor }, okResult []) :=
  if_neg (by simp [patch])

theorem PictureMemory.patchBegin_mode (patch : p.patch ≠ none) : p.patchBegin = (p, refusal .mode) :=
  if_pos (Option.isSome_iff_ne_none.2 patch)

theorem PictureMemory.patchEnd_mode (patch : p.patch = none) : p.patchEnd = (p, refusal .mode) := by
  rw [patchEnd, patch]

theorem PictureMemory.patchEnd_restores {a : Addr} (patch : p.patch = some a) :
    p.patchEnd =
      ({ p with cursor := a, patch := none, holder := { addr := a, value := p.newest a } }, okResult []) := by
  rw [patchEnd, patch]
  rfl

end Cursor

/-! ## The rows of the memory commands -/

theorem exec_memWrite_taken (s : State) {words : List Word} (h : 1 ≤ words.length ∧ words.length ≤ 64) :
    exec (.memWrite words) s = .next (State.recordResult (s.byMemory (s.pmem.memWrite s.mover words))) := by
  rw [exec_memWrite, if_pos h]

theorem exec_memRead_range {s : State} {n : Word} (h : n.toNat = 0 ∨ 64 < n.toNat) :
    exec (.memRead n) s = .next (State.recordResult (s, refusal .range)) := by
  have out : ¬within 1 64 n.toNat = true := by rw [within_iff]; omega
  rw [exec_memRead, State.memRead, if_neg out]

theorem exec_memRead_length {s : State} {n : Word} (range : 1 ≤ n.toNat ∧ n.toNat ≤ 64)
    (total : Config.packetReadWords < s.mgt.readTotal + n.toNat) :
    exec (.memRead n) s = .next (State.recordResult (s, refusal .length)) := by
  rw [exec_memRead, State.memRead, if_pos (within_iff.2 range), if_pos total]

/-- A MEM_READ that passes the checks: the words read, and the packet's total raised by the operand (R126, R127). -/
theorem exec_memRead_taken {s : State} {n : Word} {p : PictureMemory} {r : Result}
    (range : 1 ≤ n.toNat ∧ n.toNat ≤ 64) (total : s.mgt.readTotal + n.toNat ≤ Config.packetReadWords)
    (words : PictureMemory.readWords s.mover n.toNat [] s.pmem = (p, r)) :
    exec (.memRead n) s = .next
      { s with pmem := p, mgt := { s.mgt with readTotal := s.mgt.readTotal + n.toNat
                                              results := s.mgt.results ++ [r] } } := by
  rw [exec_memRead, State.memRead, if_pos (within_iff.2 range), if_neg (not_lt.2 total), words]
  rfl

end Sys2Proof.Machine
end

