-- ==== Sys2Proof/Proofs/PictureMemory.lean ====
section
/-! PROOFS. O37 to O43: the memory commands of the host. -/

namespace Sys2Proof.Machine

open Claims (onward protectedWord recorded)

/-! ## MEM_ADDRESS (R120, R123) -/

/-- A command that leaves picture memory as it is: only its result is recorded. -/
theorem recordResult_byMemory_same {s : State} {r : PictureMemory × Result} {result : Result}
    (h : r = (s.pmem, result)) : State.recordResult (s.byMemory r) = recorded s result := by
  rw [h]; rfl

theorem exec_memAddress_placed {s : State} {row col : Word} {a : Addr} (patch : s.pmem.patch = none)
    (hr : row.toNat = a.row.toNat) (hc : col.toNat = a.col.toNat) :
    exec (.memAddress row col) s = .next (recorded
      { s with pmem := { s.pmem with cursor := a, holder := { addr := a, value := s.pmem.newest a } } }
      (Claims.ok [])) := by
  rw [exec_memAddress, PictureMemory.memAddress_placed patch hr hc]
  rfl

/-- Settles O37: the value loaded is the newest, by whether the word has deferred entries. -/
theorem memAddressPlacesTheCursorAndLoads : Obligations.MemAddressPlacesTheCursorAndLoads := by
  refine fun s row col => ⟨fun patch => ?_, fun patch range => ?_, fun patch a hr hc =>
    ⟨s.pmem.newest a, exec_memAddress_placed patch hr hc, PictureMemory.newest_of_not_deferred,
      fun older youngest newer => PictureMemory.newest_of_youngest⟩⟩
  · exact congrArg _ (recordResult_byMemory_same (PictureMemory.memAddress_mode row col patch))
  · exact congrArg _ (recordResult_byMemory_same (PictureMemory.memAddress_range patch range))

/-! ## MEM_WRITE between frames (R119, R121, R124) -/

/-- Settles O38: every word is written at its address, which no later one comes back to. -/
theorem memWriteWritesItsWordsInOrder : Obligations.MemWriteWritesItsWordsInOrder := by
  intro s words least most idle view wf
  obtain ⟨p, written, h⟩ := PictureMemory.writeWords_written idle words 0 view wf (by omega)
  refine ⟨_, exec_memWrite_taken s ⟨least, most⟩, ?_⟩
  rw [PictureMemory.memWrite, written, Nat.zero_add]
  exact ⟨h.words, h.others, h.cursor, h.holderAddr, h.holderValue, h.holderKept, h.deferred, h.patch, h.view, rfl⟩

/-! ## MEM_WRITE during a frame (R124, R125, R133-R136) -/

/-- One word of a MEM_WRITE that is taken. -/
theorem exec_memWrite_one {s : State} {w : Word} {p : PictureMemory} (h : s.pmem.writeWord s.mover w = .ok p) :
    exec (.memWrite [w]) s = .next (recorded { s with pmem := p } (Claims.ok [1])) := by
  rw [exec_memWrite_taken s (words := [w]) ⟨le_rfl, Nat.le_add_left 1 63⟩, PictureMemory.memWrite,
    PictureMemory.writeWords_taken [] 0 h]
  rfl

/-- A MEM_WRITE that stops at its first word takes none and changes nothing (R125). -/
theorem exec_memWrite_none {s : State} {w : Word} {status : Status} (ws : List Word) (length : ws.length ≤ 63)
    (h : s.pmem.writeWord s.mover w = .error status) :
    exec (.memWrite (w :: ws)) s = .next (recorded s { status := status, data := [0] }) := by
  rw [exec_memWrite_taken s (by simp only [List.length_cons]; omega), PictureMemory.memWrite,
    PictureMemory.writeWords_stopped ws 0 h]
  rfl

/-- Which picture memory a MEM_WRITE leaves and which result it records can be read off the next state. -/
theorem recorded_memory_inj {s : State} {p p' : PictureMemory} {r r' : Result}
    (h : (.next (State.recordResult (s.byMemory (p, r))) : Host.Outcome State Fault Refusal)
      = .next (recorded { s with pmem := p' } r')) : p = p' ∧ r = r' := by
  have states : recorded { s with pmem := p } r = recorded { s with pmem := p' } r' := Host.Outcome.next.inj h
  refine ⟨congrArg State.pmem states, ?_⟩
  have results : s.mgt.results ++ [r] = s.mgt.results ++ [r'] := congrArg (fun t : State => t.mgt.results) states
  simpa using results

/-- A MEM_WRITE that takes all its words, and one that goes on where it stopped, are one (R124, R125). -/
theorem exec_memWrite_append {s : State} {taken later : List Word} {q : PictureMemory} (nonempty : taken ≠ [])
    (length : taken.length + later.length ≤ 64)
    (first : exec (.memWrite taken) s
      = .next (recorded { s with pmem := q } (Claims.ok [BitVec.ofNat 16 taken.length]))) :
    exec (.memWrite (taken ++ later)) s = .next (State.recordResult (s.byMemory
      (PictureMemory.writeWords s.mover later taken.length q))) := by
  have least : 1 ≤ taken.length := List.length_pos_iff.2 nonempty
  rw [exec_memWrite_taken s ⟨least, by omega⟩] at first
  obtain ⟨memory, result⟩ := recorded_memory_inj first
  have ran : PictureMemory.writeWords s.mover taken 0 s.pmem = (q, Claims.ok [BitVec.ofNat 16 taken.length]) :=
    Prod.ext memory result
  rw [exec_memWrite_taken s (by rw [List.length_append]; omega), PictureMemory.memWrite,
    PictureMemory.writeWords_append, ran, Nat.zero_add]
  rfl

/-- The words that go on after others are handled as by themselves, their count added (R125). -/
theorem exec_memWrite_continued {s : State} {taken later : List Word} {q q' : PictureMemory} {status : Status}
    {n : Word} (nonempty : taken ≠ []) (more : later ≠ []) (length : taken.length + later.length ≤ 64)
    (first : exec (.memWrite taken) s
      = .next (recorded { s with pmem := q } (Claims.ok [BitVec.ofNat 16 taken.length])))
    (second : exec (.memWrite later) { s with pmem := q }
      = .next (recorded { s with pmem := q' } { status := status, data := [n] })) :
    exec (.memWrite (taken ++ later)) s = .next (recorded { s with pmem := q' }
      { status := status, data := [BitVec.ofNat 16 taken.length + n] }) := by
  obtain ⟨p, stopped, k, counts⟩ := PictureMemory.writeWords_counts s.mover later q
  have least : 1 ≤ later.length := List.length_pos_iff.2 more
  rw [exec_memWrite_taken _ ⟨least, by omega⟩, PictureMemory.memWrite, counts] at second
  obtain ⟨rfl, result⟩ := recorded_memory_inj second
  cases result
  rw [exec_memWrite_append nonempty length first, counts, Nat.zero_add, BitVec.ofNat_add]
  rfl

/-- A word that is not taken after others leaves those taken and their count (R125). -/
theorem exec_memWrite_stops {s : State} {taken later : List Word} {q : PictureMemory} {status : Status}
    (nonempty : taken ≠ []) (more : later ≠ []) (length : taken.length + later.length ≤ 64)
    (first : exec (.memWrite taken) s
      = .next (recorded { s with pmem := q } (Claims.ok [BitVec.ofNat 16 taken.length])))
    (stops : ∀ w, q.writeWord s.mover w = .error status) :
    exec (.memWrite (taken ++ later)) s = .next (recorded { s with pmem := q }
      { status := status, data := [BitVec.ofNat 16 taken.length] }) := by
  obtain ⟨w, ws, rfl⟩ := List.exists_cons_of_ne_nil more
  rw [exec_memWrite_append nonempty length first, PictureMemory.writeWords_stopped ws _ (stops w)]
  rfl

/-- Settles O39: a word by the guard and its row, then the words of one command by those of two. -/
theorem theTearGuardDefersWritesToTheFrameRows : Obligations.TheTearGuardDefersWritesToTheFrameRows := by
  refine fun s => ⟨?_, fun taken later q nonempty more length first => ⟨fun q' status n second => ?_, fun held => ?_,
    fun v free view guard inside full => ?_⟩⟩
  · rintro w v holder idle view rfl
    have free := Mover.protects_of_idle s.pmem.cursor idle
    refine ⟨fun guard inside room => ?_, fun guard inside full => ?_, fun guard inside => ?_, fun outside => ?_⟩
    · have defers := PictureMemory.defers_iff.2 ⟨v, view, guard, inside⟩
      exact exec_memWrite_one (PictureMemory.writeWord_deferred w free defers room)
    · have defers := PictureMemory.defers_iff.2 ⟨v, view, guard, inside⟩
      exact exec_memWrite_none [] (by decide) (PictureMemory.writeWord_full w free defers full)
    · have now : s.pmem.defers s.pmem.cursor = false := by simp [PictureMemory.defers, view, guard]
      have word := PictureMemory.writeWord_placed w free now
      rw [PictureMemory.tear_view_of_mem view guard inside] at word
      exact exec_memWrite_one word
    · have now : s.pmem.defers s.pmem.cursor = false := by simp [PictureMemory.defers, view, outside]
      have word := PictureMemory.writeWord_placed w free now
      rw [PictureMemory.tear_view_of_not_mem view (.inr outside), ← view] at word
      exact exec_memWrite_one word
  · exact exec_memWrite_continued nonempty more length first second
  · exact exec_memWrite_stops nonempty more length first fun w =>
      PictureMemory.writeWord_protected w (Mover.protects_iff.2 held)
  · exact exec_memWrite_stops nonempty more length first fun w =>
      PictureMemory.writeWord_full w (Mover.protects_eq_false.2 free)
        (PictureMemory.defers_iff.2 ⟨v, view, guard, inside⟩) full

/-! ## MEM_READ (R120, R126, R127) -/

/-- Settles O40: the words read with no operation in flight, one by one. -/
theorem memReadReturnsConsecutiveWords : Obligations.MemReadReturnsConsecutiveWords := by
  intro s n least most total idle
  obtain ⟨m, hm⟩ : ∃ m, n.toNat = m + 1 := ⟨n.toNat - 1, by omega⟩
  have words := PictureMemory.readWords_idle idle m [] s.pmem
  rw [← hm] at words
  refine ⟨_, _, exec_memRead_taken ⟨least, most⟩ total words, rfl, rfl, by simp [hm], rfl, fun k hk => ?_, rfl, rfl,
    rfl, rfl, rfl, rfl⟩
  have hk : k < m := by omega
  simp [hk, PictureMemory.readAddr]

/-- Settles O41: the checks before the first word, in their order. -/
theorem memoryCommandsStopBeforeTheirFirstWord : Obligations.MemoryCommandsStopBeforeTheirFirstWord := by
  refine fun s n => ⟨exec_memRead_range, fun least most total => exec_memRead_length ⟨least, most⟩ total,
    fun least most total held => ?_, fun w words length held => ?_, fun w view free => ?_,
    fun total cursor holder => ?_⟩
  · obtain ⟨m, hm⟩ : ∃ m, n.toNat = m + 1 := ⟨n.toNat - 1, by omega⟩
    have stopped := PictureMemory.readWords_protected m [] held
    rw [← hm] at stopped
    exact ⟨_, exec_memRead_taken ⟨least, most⟩ total stopped, rfl, rfl⟩
  · exact exec_memWrite_none words length (PictureMemory.writeWord_protected w (Mover.protects_iff.2 held))
  · have word := PictureMemory.writeWord_placed w (Mover.protects_eq_false.2 free)
      (PictureMemory.defers_of_no_view _ view)
    exact ⟨_, exec_memWrite_one word, rfl, rfl, rfl, rfl⟩
  · have word := PictureMemory.readWords_succ 0 [] (Mover.protects_eq_false.2 cursor)
      (Mover.protects_eq_false.2 holder)
    rw [PictureMemory.afterRead_eq] at word
    exact ⟨_, exec_memRead_taken (n := 1) ⟨le_rfl, by decide⟩ total word, rfl, rfl, rfl, rfl⟩

/-! ## Patch mode (R128-R130) -/

theorem exec_patchBegin_open {s : State} (patch : s.pmem.patch = none) :
    exec .patchBegin s
      = .next (recorded { s with pmem := { s.pmem with patch := some s.pmem.cursor } } (Claims.ok [])) := by
  rw [exec_patchBegin, PictureMemory.patchBegin_open patch]
  rfl

theorem exec_patchEnd_restores {s : State} {a : Addr} (patch : s.pmem.patch = some a) :
    exec .patchEnd s = .next (recorded
      { s with pmem := { s.pmem with cursor := a, patch := none,
                                     holder := { addr := a, value := s.pmem.newest a } } } (Claims.ok [])) := by
  rw [exec_patchEnd, PictureMemory.patchEnd_restores patch]
  rfl

/-- A MEM_WRITE, of whatever count of words, leaves patch mode as it is (R130, R170). -/
theorem exec_memWrite_patch (s : State) (words : List Word) :
    ∃ t, exec (.memWrite words) s = .next t ∧ t.pmem.patch = s.pmem.patch := by
  refine ⟨_, exec_memWrite s words, ?_⟩
  split
  · exact PictureMemory.memWrite_patch s.pmem s.mover words
  · rfl

theorem rowsAfter_cons {s t : State} {c : Instr} (cs : List Instr) (h : exec c s = .next t) :
    Claims.rowsAfter s (c :: cs) = Claims.rowsAfter t cs := by
  rw [Claims.rowsAfter, h]

/-- Settles O42: the cursor saved by PATCH_BEGIN is still the saved one at PATCH_END. -/
theorem patchModeRestoresTheCursor : Obligations.PatchModeRestoresTheCursor := by
  refine fun s => ⟨exec_patchBegin_open,
    fun patch => congrArg _ (recordResult_byMemory_same (PictureMemory.patchBegin_mode patch)),
    fun patch => congrArg _ (recordResult_byMemory_same (PictureMemory.patchEnd_mode patch)),
    fun a => exec_patchEnd_restores, fun words patch => ?_⟩
  obtain ⟨t, wrote, saved⟩ := exec_memWrite_patch
    (recorded { s with pmem := { s.pmem with patch := some s.pmem.cursor } } (Claims.ok [])) words
  rw [rowsAfter_cons _ (exec_patchBegin_open patch), rowsAfter_cons _ wrote,
    rowsAfter_cons _ (exec_patchEnd_restores saved)]
  exact ⟨_, rfl, rfl, rfl⟩

/-! ## Reading back (R120) -/

/-- A word taken at the cursor is the newest value of its address from then on, deferred or written (R120, R133). -/
theorem PictureMemory.writeWord_newest {p : PictureMemory} {m : Mover} (w : Word) (idle : m.state = .idle)
    (room : p.deferred.length < 64) (wf : p.array.wf = true) (ok : p.deferredOk = true) :
    ∃ q, p.writeWord m w = .ok q ∧ q.newest p.cursor = w ∧ q.patch = p.patch := by
  have free := Mover.protects_of_idle p.cursor idle
  cases defers : p.defers p.cursor with
  | true =>
    refine ⟨_, writeWord_deferred w free defers room, ?_, rfl⟩
    exact newest_of_youngest (youngest := { addr := p.cursor, value := w }) (newer := []) rfl rfl nofun
  | false =>
    refine ⟨_, writeWord_placed w free defers, ?_, rfl⟩
    rw [newest_of_not_deferred]
    · exact (Memory.read_write wf).trans (if_pos rfl)
    · exact fun d hd => not_deferred_of_not_defers ok defers d hd

/-- With no operation in flight a MEM_READ of one word returns the holder's value (R127). -/
theorem exec_memRead_one {s : State} (idle : s.mover.state = .idle) (total : s.mgt.readTotal < 256) :
    ∃ t, exec (.memRead 1) s = .next t ∧ t.mgt.results = s.mgt.results ++ [Claims.ok [s.pmem.holder.value]] :=
  ⟨_, exec_memRead_taken (n := 1) ⟨le_rfl, by decide⟩ total (PictureMemory.readWords_idle idle 0 [] s.pmem), rfl⟩

/-- Settles O43: the word is the newest value of its address, which the second MEM_ADDRESS loads for MEM_READ. -/
theorem theHostReadsBackWhatItWrote : Obligations.TheHostReadsBackWhatItWrote := by
  intro s a w patch idle room total wf ok
  have hr : (a.row.setWidth 16).toNat = a.row.toNat := BitVec.toNat_setWidth_of_le (by decide)
  have hc : (a.col.setWidth 16).toNat = a.col.toNat := BitVec.toNat_setWidth_of_le (by decide)
  obtain ⟨q, taken, newest, kept⟩ := PictureMemory.writeWord_newest
    (p := { s.pmem with cursor := a, holder := { addr := a, value := s.pmem.newest a } }) w idle room wf ok
  rw [rowsAfter_cons _ (exec_memAddress_placed patch hr hc), rowsAfter_cons _ (exec_memWrite_one taken),
    rowsAfter_cons _ (exec_memAddress_placed (kept.trans patch) hr hc)]
  obtain ⟨t, read, results⟩ := exec_memRead_one (s := recorded { s with
      pmem := { q with cursor := a, holder := { addr := a, value := q.newest a } }
      mgt := { s.mgt with results := s.mgt.results ++ [Claims.ok []] ++ [Claims.ok [1]] } } (Claims.ok [])) idle total
  refine ⟨t, rowsAfter_cons _ read, ?_⟩
  rw [results]
  simp [recorded, newest]

end Sys2Proof.Machine
end

