-- ==== Sys2Proof/Proofs/RowSteps.lean ====
section
/-! PROOFS. O45: a row step of the mover, applied or discarded. -/

namespace Sys2Proof.Machine

/-! ## A notice outside an execution (R184, R189) -/

/-- The arbiter's decision over an IDLE transmitter serves the head of the queues (R184). -/
theorem ReverseTransmitter.arbitrate_servesHead {x : ReverseTransmitter} (idle : x.transmitter = none) :
    Claims.servesHead x x.arbitrate := by
  obtain ⟨notices, replies, reports, _, noticesLost, reportsLost, lane⟩ := x
  subst idle
  cases notices with
  | cons n ns => simp [Claims.servesHead, arbitrate, nextEntry]
  | nil =>
    cases replies with
    | cons r rs => simp [Claims.servesHead, arbitrate, nextEntry]
    | nil => cases reports <;> simp [Claims.servesHead, arbitrate, nextEntry]

@[simp] theorem ReverseTransmitter.takeNotice_lane (x : ReverseTransmitter) (n : Notice) :
    (x.takeNotice n).lane = x.lane := by
  unfold takeNotice; split <;> rfl

/-- A notice handed over at an event reaches the transmitter as R184 and R189 have it. -/
theorem ReverseTransmitter.handed_takesNotice (x : ReverseTransmitter) (n : Notice) :
    Claims.takesNotice x n (x.takeNotice n).arbitrate := by
  obtain ⟨room, full⟩ := x.handed_notices n
  refine ⟨room, full, by simp, by simp, by simp, fun busy => ?_, fun idle => ?_⟩
  · obtain ⟨t, ht⟩ := Option.ne_none_iff_exists'.1 busy
    rw [arbitrate_busy (t := t) (by simpa using ht)]
    simp
  · have serves := arbitrate_servesHead (x := x.takeNotice n) (by simpa using idle)
    simpa only [Claims.servesHead, takeNotice_lane] using serves

/-! ## The array after a row step (R148) -/

/-- A word that a step writes: the fill value, or the source's word of the same column (R148). -/
def MoveOp.stepWord (o : MoveOp) (array : Memory) (i j : Nat) : Word :=
  match o.kind with
  | .fill => o.value
  | .copy => array.read (wordKey (o.srcRow + i) (o.srcCol + j))

theorem MoveOp.stepWords_getD (o : MoveOp) (array : Memory) {i j : Nat} (hj : j < o.words) (other : Word) :
    (o.stepWords array i).getD j other = o.stepWord array i j := by
  unfold stepWords stepWord
  cases o.kind with
  | fill => simp [List.getD, hj]
  | copy => simp [List.getD, Memory.readSpan_getElem? _ _ hj, wordKey, Nat.add_assoc]

/-- A step writes its destination row span and no other word of the array (R143, R144, R148). -/
theorem MoveOp.applyStep_read {o : MoveOp} {array : Memory} {i row col : Nat} (fits : o.InFlight) (hi : i < o.rows)
    (wf : array.wf = true) (hcol : col < 256) :
    (o.applyStep array i).read (wordKey row col) =
      if row = o.dstRow + i ∧ o.dstCol ≤ col ∧ col < o.dstCol + o.words then o.stepWord array i (col - o.dstCol)
      else array.read (wordKey row col) := by
  obtain ⟨-, dst, -⟩ := fits
  obtain ⟨-, -, -, -, hdst, hwords⟩ := rectangleFits_iff.1 dst
  have inside : wordKey (o.dstRow + i) o.dstCol + (o.stepWords array i).length ≤ 65536 := by
    rw [stepWords_length, wordKey]; omega
  rw [applyStep, (Memory.writeSpan_spec wf inside).2]
  by_cases span : row = o.dstRow + i ∧ o.dstCol ≤ col ∧ col < o.dstCol + o.words
  · obtain ⟨rfl, left, right⟩ := span
    have offset : wordKey (o.dstRow + i) col - wordKey (o.dstRow + i) o.dstCol = col - o.dstCol := by
      simp only [wordKey]; omega
    have after : wordKey (o.dstRow + i) o.dstCol ≤ wordKey (o.dstRow + i) col := Nat.add_le_add_left left _
    rw [if_pos after, if_pos ⟨rfl, left, right⟩, offset, stepWords_getD o array (by omega)]
  · rw [if_neg span]
    split
    · next after =>
      have beyond : (o.stepWords array i).length ≤ wordKey row col - wordKey (o.dstRow + i) o.dstCol := by
        simp only [wordKey] at after
        rw [stepWords_length]
        simp only [wordKey]
        omega
      rw [List.getD_eq_default _ _ beyond]
    · rfl

/-! ## The row (R149, R150, R152) -/

theorem exec_rowStepCompletion_applied {s : State} {i : Nat} (running : s.mover.state = .running)
    (step : s.mover.op.stepRow = some i) (goes : s.mover.op.stalls s.pmem i = false) :
    exec .rowStepCompletion s = .next (s.applyRowStep i).afterRowStep := by
  simp [exec, execRowStepCompletion, running, step, goes]

theorem exec_rowStepCompletion_discarded {s : State} {i : Nat} (running : s.mover.state = .running)
    (step : s.mover.op.stepRow = some i) (stalls : s.mover.op.stalls s.pmem i = true) :
    exec .rowStepCompletion s
      = .next { s with mover := { state := .stalled, op := { s.mover.op with stepRow := none } } } := by
  simp [exec, execRowStepCompletion, running, step, stalls]

/-- The last row's step completes the operation (R152). -/
theorem State.applyRowStep_last {s : State} (i : Nat) (last : s.mover.op.rowsDone + 1 = s.mover.op.rows) :
    (s.applyRowStep i).afterRowStep = (s.applyRowStep i).completeMove :=
  if_pos last

/-- After any other the next offset is decided at once (R149). -/
theorem State.applyRowStep_more {s : State} (i : Nat) (more : s.mover.op.rowsDone + 1 ≠ s.mover.op.rows) :
    (s.applyRowStep i).afterRowStep
      = { s.applyRowStep i with mover := (s.applyRowStep i).mover.decideStep (s.applyRowStep i).pmem } :=
  if_neg more

/-- An applied step changes picture memory, the mover and the transmitter alone. -/
theorem State.applyRowStep_frame (s : State) (i : Nat) :
    ∃ m x, (s.applyRowStep i).afterRowStep = { s with pmem := (s.applyRowStep i).pmem, mover := m, rtx := x } := by
  obtain ⟨-, h⟩ | ⟨-, h⟩ := (s.applyRowStep i).afterRowStep_cases <;> exact ⟨_, _, h⟩

@[simp] theorem Mover.decideStep_rowsDone (m : Mover) (p : PictureMemory) :
    (m.decideStep p).op.rowsDone = m.op.rowsDone := by
  unfold decideStep; split <;> rfl

/-- An applied step is counted, whatever follows it (R149). -/
theorem State.applyRowStep_rowsDone (s : State) (i : Nat) :
    (s.applyRowStep i).afterRowStep.mover.op.rowsDone = s.mover.op.rowsDone + 1 := by
  obtain ⟨-, h⟩ | ⟨-, h⟩ := (s.applyRowStep i).afterRowStep_cases <;> rw [h]
  · rfl
  · exact Mover.decideStep_rowsDone _ _

/-- The step in progress is at an offset of the operation. -/
theorem Mover.stepRow_lt {m : Mover} {i : Nat} (consistent : m.consistent = true) (running : m.state = .running)
    (step : m.op.stepRow = some i) : m.op.InFlight ∧ i < m.op.rows := by
  obtain ⟨next, fits⟩ := (consistent_running running).1 consistent
  rw [step] at next
  cases next
  exact ⟨fits, MoveOp.nextOffset_lt fits⟩

/-- The decision about the next offset is no matter of the step that was in progress (R150). -/
theorem Mover.decideStep_decides_of_step (m : Mover) (p : PictureMemory) (step : Option Nat) {op : MoveOp}
    (h : m.op = { op with stepRow := step }) : Claims.decides p op op.nextOffset (m.decideStep p) := by
  have decided := m.decideStep_decides p
  rw [h] at decided
  exact decided

/-- Settles O45: the span written, what the last step and the others are followed by, and the tear. -/
theorem aRowStepIsAppliedOrDiscardedWhole : Obligations.ARowStepIsAppliedOrDiscardedWhole := by
  refine fun s i running step => ⟨fun consistent wf goes => ?_, fun v view guard held => ?_⟩
  · obtain ⟨fits, hi⟩ := Mover.stepRow_lt consistent running step
    have pmem : (s.applyRowStep i).afterRowStep.pmem = PictureMemory.tear
        { s.pmem with array := s.mover.op.applyStep s.pmem.array i } (s.mover.op.dstRow + i) := by simp
    refine ⟨_, exec_rowStepCompletion_applied running step goes, ?_⟩
    rw [pmem]
    refine ⟨fun row col _ hcol => MoveOp.applyStep_read fits hi wf hcol, s.applyRowStep_rowsDone i, rfl, rfl, rfl,
      fun last => ?_, fun op hop more => ?_, rfl, PictureMemory.tear_view_of_none _,
      fun v view => ⟨PictureMemory.tear_view_of_mem view, PictureMemory.tear_view_of_not_mem view⟩, ?_⟩
    · rw [State.applyRowStep_last i last, ← last]
      exact ⟨rfl, rfl, s.rtx.handed_takesNotice _⟩
    · rw [State.applyRowStep_more i more, hop]
      exact ⟨rfl, Mover.decideStep_decides_of_step _ _ none rfl⟩
    · obtain ⟨m, x, h⟩ := s.applyRowStep_frame i
      rw [h]
      rfl
  · have stalls := MoveOp.stalls_iff.2 ⟨v, view, guard, held⟩
    exact exec_rowStepCompletion_discarded running step stalls

end Sys2Proof.Machine
end

