-- ==== Sys2Proof/Proofs/ReplyLength.lean ====
section
/-! PROOFS. O51: the longest reply of an execution (section 10.7). -/

namespace Sys2Proof.Machine

/-! ## The data of the results, command by command -/

theorem ConfigStore.edit_data (c : ConfigStore) (change : ConfigSet → Except Status ConfigSet) :
    (c.edit change).2.data = [] := by
  obtain ⟨status, h⟩ | ⟨set, -, -, h⟩ := c.edit_cases change <;> rw [h] <;> rfl

/-- The longest item is a palette (R209). -/
theorem ConfigStore.itemWords_atMost {c : ConfigStore} {set : ConfigSet} {item index : Word} {data : List Word}
    (h : c.itemWords set item index = some data) : data.length ≤ 16 := by
  unfold itemWords at h
  have short {words : List Word} (h : some words = some data) (hw : words.length ≤ 16) : data.length ≤ 16 := by
    cases h; exact hw
  split_ifs at h
  · exact short h (Nat.le_add_left 2 14)
  · exact short h (Nat.le_add_left 1 15)
  · obtain ⟨g, -, rfl⟩ := Option.map_eq_some_iff.1 h
    exact Nat.le_add_left 12 4
  · split at h
    · cases h
    · exact short h (Nat.le_add_left 1 15)
    · exact short h (Nat.le_add_left 9 7)
  · obtain ⟨v, -, rfl⟩ := Option.map_eq_some_iff.1 h
    exact v.length_toList.le
  · exact short h (Nat.le_add_left 2 14)
  · exact short h (Nat.le_add_left 3 13)
  · exact short h (Nat.le_add_left 5 11)

theorem ConfigStore.readItem_data (c : ConfigStore) (selector item index : Word) :
    (c.readItem selector item index).data.length ≤ 16 := by
  unfold readItem
  split
  · exact Nat.zero_le _
  · split
    · next h => exact itemWords_atMost h
    · exact Nat.zero_le _

theorem ConfigStore.requestCommit_data (c : ConfigStore) (kind tag : Word) :
    (c.requestCommit kind tag).2.data.length ≤ 2 := by
  unfold requestCommit
  split
  · split
    · exact Nat.zero_le _
    · split
      · exact le_rfl
      · exact Nat.le_succ 1
  · exact Nat.zero_le _

theorem ConfigStore.cancelCommit_data (c : ConfigStore) : c.cancelCommit.2.data = [] := by
  unfold cancelCommit
  split <;> rfl

theorem Management.setParam_data (g : Management) (t h e : Word) :
    (g.setParam t h e).2.data = [] ∧ (g.setParam t h e).1.readTotal = g.readTotal := by
  unfold setParam
  split <;> exact ⟨rfl, rfl⟩

theorem PictureMemory.memWrite_data (p : PictureMemory) (m : Mover) (words : List Word) :
    (p.memWrite m words).2.data.length = 1 := by
  obtain ⟨p', status, n, counts⟩ := writeWords_counts m words p
  rw [memWrite, counts]
  rfl

theorem PictureMemory.memAddress_data (p : PictureMemory) (row col : Word) : (p.memAddress row col).2.data = [] := by
  unfold memAddress
  split_ifs <;> rfl

theorem PictureMemory.patchBegin_data (p : PictureMemory) : p.patchBegin.2.data = [] := by
  unfold patchBegin
  split_ifs <;> rfl

theorem PictureMemory.patchEnd_data (p : PictureMemory) : p.patchEnd.2.data = [] := by
  unfold patchEnd
  split <;> rfl

/-- What a command adds to a reply: at most 25 data words, the snapshot of STATUS being the longest; or, for a MEM_READ,
at most the words that it adds to the packet's read total, which stays within 256 (R126, R208). -/
def Answers (s : State) (r : State × Result) : Prop :=
  (r.1.mgt.readTotal = s.mgt.readTotal ∧ r.2.data.length ≤ 25)
    ∨ ∃ n, n ≤ 64 ∧ r.1.mgt.readTotal = s.mgt.readTotal + n ∧ s.mgt.readTotal + n ≤ 256 ∧ r.2.data.length ≤ n

theorem Answers.refusal (s : State) (status : Status) : Answers s (s, refusal status) := .inl ⟨rfl, Nat.zero_le _⟩

/-- A command without data that leaves the read total. -/
theorem Answers.silent {s t : State} {r : Result} (total : t.mgt.readTotal = s.mgt.readTotal) (data : r.data = []) :
    Answers s (t, r) :=
  .inl ⟨total, by rw [data]; exact Nat.zero_le _⟩

theorem State.memRead_answers (s : State) (n : Word) : Answers s (s.memRead n) := by
  unfold memRead
  split
  · next range =>
    split
    · exact .refusal s _
    · next total =>
      refine .inr ⟨n.toNat, (within_iff.1 range).2, rfl, not_lt.1 total, ?_⟩
      have words := (PictureMemory.readWords_length s.mover n.toNat [] s.pmem).1
      rwa [List.length_nil, Nat.zero_add] at words
  · exact .refusal s _

theorem State.acceptMove_answers (s : State) (fits : Bool) (m : Mover) : Answers s (s.acceptMove fits m) := by
  unfold acceptMove
  split_ifs <;> exact .silent rfl rfl

theorem State.moveAbort_answers (s : State) : Answers s s.moveAbort := by
  unfold moveAbort
  split_ifs <;> exact .silent rfl rfl

theorem runOwner_answers (s : State) (c : CommandName) (ops : List Word) : Answers s (runOwner s c ops) := by
  have edits (store : ConfigStore) (change : ConfigSet → Except Status ConfigSet) :
      Answers s (s.byConfig (store.edit change)) := .silent rfl (store.edit_data change)
  have memory {r : PictureMemory × Result} (data : r.2.data = []) : Answers s (s.byMemory r) := .silent rfl data
  cases c <;> simp only [runOwner]
  case nop | clearCounts | softReset => exact .silent rfl rfl
  case identify => exact .inl ⟨rfl, Nat.le_add_left 15 10⟩
  case status => exact .inl ⟨rfl, le_rfl⟩
  case setParam =>
    split
    · next t h e =>
      obtain ⟨data, total⟩ := s.mgt.setParam_data t h e
      exact .silent total data
    · exact .refusal s _
  case setGeometry | mapLength | segWrite | ovlWrite | ovlClear | palWrite | setColours | setOutput =>
    split; exacts [edits _ _, .refusal s _]
  case copyLiveToPending => exact edits _ _
  case readConfig =>
    split
    · exact .inl ⟨rfl, le_trans (ConfigStore.readItem_data _ _ _ _) (by decide)⟩
    · exact .refusal s _
  case commit =>
    split
    · exact .inl ⟨rfl, le_trans (ConfigStore.requestCommit_data _ _ _) (by decide)⟩
    · exact .refusal s _
  case cancelCommit => exact .silent rfl (ConfigStore.cancelCommit_data _)
  case memAddress => split; exacts [memory (PictureMemory.memAddress_data _ _ _), .refusal s _]
  case memWrite => exact .inl ⟨rfl, by rw [State.byMemory_result, PictureMemory.memWrite_data]; decide⟩
  case memRead => split; exacts [State.memRead_answers _ _, .refusal s _]
  case patchBegin => exact memory (PictureMemory.patchBegin_data _)
  case patchEnd => exact memory (PictureMemory.patchEnd_data _)
  case moveFill | moveCopy => split; exacts [State.acceptMove_answers _ _ _, .refusal s _]
  case moveAbort => exact State.moveAbort_answers _

/-! ## The results of an execution -/

/-- The data words of results. -/
def dataWords (results : List Result) : Nat :=
  (results.map fun r => r.data.length).sum

/-- The results of an execution so far, some of MEM_READs and the others of at most 25 data words each: a MEM_READ reads
at most 64 words, and all of them together at most 256 (R126). -/
def Management.Bounded (g : Management) : Prop :=
  ∃ reads others, g.results.length = reads + others ∧ dataWords g.results ≤ g.readTotal + 25 * others
    ∧ g.readTotal ≤ 64 * reads ∧ g.readTotal ≤ 256

/-- No command changes the results before its own. -/
theorem OwnerEffect.results {s t : State} {c : CommandName} (h : OwnerEffect s c t) :
    t.mgt.results = s.mgt.results := by
  cases h <;> rfl

/-- No command takes the packet under execution from the queue; SOFT_RESET takes those behind it (R179). -/
theorem OwnerEffect.head {s t : State} {c : CommandName} (h : OwnerEffect s c t) :
    t.mgt.queue.head? = s.mgt.queue.head? := by
  cases h
  case reset => change (s.mgt.queue.take 1).head? = _; cases s.mgt.queue <;> rfl
  all_goals rfl

theorem runEntry_answers (s : State) (e : CommandEntry) :
    Answers s (runEntry s e) ∧ (runEntry s e).1.mgt.results = s.mgt.results := by
  obtain ⟨c, -, -, h⟩ | ⟨c, -, -, h⟩ | ⟨-, h⟩ := runEntry_cases s e <;> rw [h]
  · exact ⟨runOwner_answers s c _, (runOwner_effect s c _).results⟩
  · exact ⟨.refusal s _, rfl⟩
  · exact ⟨.refusal s _, rfl⟩

/-- A command's result is one more, within the bound. -/
theorem recordResult_bounded {s : State} {e : CommandEntry} (h : s.mgt.Bounded) :
    (State.recordResult (runEntry s e)).mgt.Bounded
      ∧ (State.recordResult (runEntry s e)).mgt.results.length = s.mgt.results.length + 1 := by
  obtain ⟨answers, kept⟩ := runEntry_answers s e
  obtain ⟨reads, others, count, words, total, most⟩ := h
  have results : (State.recordResult (runEntry s e)).mgt.results = s.mgt.results ++ [(runEntry s e).2] := by
    rw [← kept]; rfl
  have length : (State.recordResult (runEntry s e)).mgt.results.length = s.mgt.results.length + 1 := by
    rw [results, List.length_append, List.length_singleton]
  have data : dataWords (State.recordResult (runEntry s e)).mgt.results
      = dataWords s.mgt.results + (runEntry s e).2.data.length := by
    rw [results]; simp [dataWords]
  have readTotal : (State.recordResult (runEntry s e)).mgt.readTotal = (runEntry s e).1.mgt.readTotal := rfl
  refine ⟨?_, length⟩
  rw [Management.Bounded, length, data, readTotal]
  obtain ⟨same, short⟩ | ⟨n, atMost, raised, within, short⟩ := answers
  · exact ⟨reads, others + 1, by omega, by omega, by omega, by omega⟩
  · exact ⟨reads + 1, others, by omega, by omega, by omega, by omega⟩

/-- The commands of a packet give at most one result each, within the bound (R170). -/
theorem runEntries_bounded (es : List CommandEntry) {s : State} (h : s.mgt.Bounded) :
    (runEntries es s).mgt.Bounded
      ∧ (runEntries es s).mgt.results.length ≤ s.mgt.results.length + es.length := by
  induction es generalizing s with
  | nil => exact ⟨h, le_rfl⟩
  | cons e es ih =>
    obtain ⟨bounded, length⟩ := recordResult_bounded (e := e) h
    unfold runEntries
    dsimp only
    rw [List.length_cons]
    split
    · exact ⟨bounded, by omega⟩
    · obtain ⟨rest, most⟩ := ih bounded
      exact ⟨rest, by omega⟩

/-! ## The reply -/

theorem parseEntries_length {n : Nat} {ws : List Word} {es : List CommandEntry} (h : parseEntries n ws = some es) :
    es.length = n := by
  induction n generalizing ws es with
  | zero =>
    cases ws with
    | nil => cases h; rfl
    | cons => cases h
  | succ n ih =>
    cases ws with
    | nil => cases h
    | cons w rest =>
      simp only [parseEntries] at h
      split at h
      · cases h
      · split at h
        · next rest' hr => cases h; rw [List.length_cons, ih hr]
        · cases h

/-- A control packet has at most 16 commands (R159). -/
theorem parseControl_entries {payload : List Word} {p : ControlPacket} (h : parseControl payload = some p) :
    p.entries.length ≤ 16 := by
  unfold parseControl at h
  split_ifs at h
  split at h
  · split_ifs at h with count
    split at h
    · next hes => cases h; rw [parseEntries_length hes]; exact (within_iff.1 count).2
    · cases h
  · cases h

theorem flatMap_resultWords_length (results : List Result) :
    (results.flatMap resultWords).length = results.length + dataWords results := by
  induction results with
  | nil => rfl
  | cons r rs ih =>
    simp only [List.flatMap_cons, List.length_append, ih, resultWords, dataWords, List.map_cons, List.sum_cons,
      List.length_cons]
    omega

/-- A reply has three words and, for every command, one more and its data (R206, R207). -/
theorem replyPayload_formReply {p : ControlPacket} {results : List Result} (h : results.length ≤ p.entries.length) :
    (replyPayload (formReply p results)).length = 3 + p.entries.length + dataWords results := by
  have data : dataWords (formReply p results).results = dataWords results := by
    simp [formReply, dataWords, refusal]
  have count : (formReply p results).results.length = p.entries.length := by
    simp [formReply, h]
  change (_ :: _ :: _ :: (formReply p results).results.flatMap resultWords).length = _
  simp only [List.length_cons, flatMap_resultWords_length, data, count]
  omega

/-- The execution of the only packet in the queue (R168, R169, R191). -/
theorem exec_execution_single {s : State} {p : ControlPacket} (queue : s.mgt.queue = [p])
    (room : s.rtx.replies.length < 8) : exec .execution s = .next (s.executePacket p).arbitrate := by
  have free : s.rtx.replyFree = true := s.rtx.replyFree_iff.2 room
  simp [exec, execExecution, queue, free, State.executeReady, executeWhileReady]

/-- An execution leaves its packet's reply as the youngest of the history (R167, R171). -/
theorem State.executePacket_history {s : State} {p : ControlPacket} {rest : List ControlPacket}
    (queue : s.mgt.queue = p :: rest) :
    (s.executePacket p).mgt.history.getLast?
      = some (formReply p (runEntries p.entries (Claims.executionStart s)).mgt.results) := by
  have head : (runEntries p.entries (Claims.executionStart s)).mgt.queue.head? = some p :=
    runEntries_induct (P := fun t => t.mgt.queue.head? = some p)
      (fun t c ops h => (runOwner_effect t c ops).head.trans h) (fun _ _ h => h) p.entries _
      (by simp [Claims.executionStart, queue])
  obtain ⟨rest', queue'⟩ := List.head?_eq_some_iff.1 head
  change (runEntries p.entries (Claims.executionStart s)).endExecution.mgt.history.getLast? = _
  rw [State.endExecution_cons queue']
  simp [enterHistory]

/-- Settles O51: sixteen results, of which four or more MEM_READs share 256 words and the others have at most 25. -/
theorem noReplyExceeds575Words : Obligations.NoReplyExceeds575Words := by
  intro s payload p parses queue room
  have commands := parseControl_entries parses
  have start : (Claims.executionStart s).mgt.Bounded := ⟨0, 0, rfl, le_rfl, le_rfl, Nat.zero_le _⟩
  obtain ⟨⟨reads, others, count, words, total, most⟩, length⟩ := runEntries_bounded p.entries start
  have length : (runEntries p.entries (Claims.executionStart s)).mgt.results.length ≤ p.entries.length := by
    simpa [Claims.executionStart] using length
  refine ⟨_, _, exec_execution_single queue room, State.executePacket_history queue, ?_⟩
  rw [replyPayload_formReply length]
  omega

end Sys2Proof.Machine
end

