-- ==== Sys2Proof/Proofs/FrameRows.lean ====
section
/-! PROOFS. O60: under the tear guard no row of the table but those that can end the frame writes to the frame rows. -/

namespace Sys2Proof.Machine

/-! ## The frame rows in picture memory -/

/-- Picture memory has no frame view, or it has the view `v` and its array reads in the rows of `v` as `array` does. -/
def PictureMemory.HoldsRows (v : FrameView) (array : Memory) (p : PictureMemory) : Prop :=
  p.view = none
    ∨ (p.view = some v ∧ p.array.wf = true
      ∧ ∀ row col, row ∈ v.rowSet → col < 256 → p.array.read (wordKey row col) = array.read (wordKey row col))

section Rows

variable {v : FrameView} {array : Memory} {p p' : PictureMemory}

/-- Only the array and the view count for it. -/
theorem PictureMemory.HoldsRows.congr (h : p.HoldsRows v array) (same : p'.array = p.array ∧ p'.view = p.view) :
    p'.HoldsRows v array := by
  unfold HoldsRows
  rw [same.1, same.2]
  exact h

/-- A write outside the rows of the view keeps them. -/
theorem PictureMemory.HoldsRows.write (h : p.HoldsRows v array) {a : Addr} (w : Word)
    (outside : p.view = some v → a.row.toNat ∉ v.rowSet) (view : p'.view = p.view)
    (written : p'.array = p.array.write a.key w) : p'.HoldsRows v array := by
  obtain gone | ⟨held, wf, rows⟩ := h
  · exact .inl (view.trans gone)
  · refine .inr ⟨view.trans held, ?_, fun row col inside hcol => ?_⟩
    · rw [written]
      exact Memory.write_wf wf a.key_lt
    · have other : wordKey row col ≠ a.key := fun same => by
        obtain ⟨rfl, -⟩ := (wordKey_inj hcol a.col.isLt).1 same
        exact outside held inside
      rw [written, Memory.read_write wf, if_neg other]
      exact rows row col inside hcol

/-- A word of a MEM_WRITE is deferred where it lies in the rows of a guarded view (R133). -/
theorem PictureMemory.HoldsRows.writeWord {m : Mover} {w : Word} (guard : v.guard = true) (h : p.HoldsRows v array)
    (taken : p.writeWord m w = .ok p') : p'.HoldsRows v array := by
  obtain ⟨-, -, rfl⟩ := writeWord_ok taken
  obtain ⟨-, placed⟩ | ⟨now, placed⟩ := p.place_cases w
  · exact h.congr (by simp [placed])
  · have untorn : (p.tear p.cursor.row.toNat).view = p.view := by
      obtain gone | ⟨held, -⟩ := h
      · rw [tear_of_none _ gone]
      · rw [tear_of_guard _ held guard]
    refine h.write (a := p.cursor) w (fun held inside => ?_) ?_ (by simp [placed])
    · exact defers_eq_false.1 now v held ⟨guard, inside⟩
    · rw [← untorn]; simp [placed, tear]

theorem PictureMemory.HoldsRows.memWrite (guard : v.guard = true) (h : p.HoldsRows v array) (m : Mover)
    (words : List Word) : (p.memWrite m words).1.HoldsRows v array :=
  writeWords_induct (P := fun p => p.HoldsRows v array) (fun _ _ _ => HoldsRows.writeWord guard) words 0 p h

end Rows

/-! ## Commands -/

theorem PictureMemory.memAddress_array_view (p : PictureMemory) (row col : Word) :
    (p.memAddress row col).1.array = p.array ∧ (p.memAddress row col).1.view = p.view := by
  unfold memAddress
  split_ifs <;> exact ⟨rfl, rfl⟩

theorem PictureMemory.patchBegin_array_view (p : PictureMemory) :
    p.patchBegin.1.array = p.array ∧ p.patchBegin.1.view = p.view := by
  unfold patchBegin
  split_ifs <;> exact ⟨rfl, rfl⟩

theorem PictureMemory.patchEnd_array_view (p : PictureMemory) :
    p.patchEnd.1.array = p.array ∧ p.patchEnd.1.view = p.view := by
  unfold patchEnd
  split <;> exact ⟨rfl, rfl⟩

theorem State.memRead_array_view (s : State) (n : Word) :
    (s.memRead n).1.pmem.array = s.pmem.array ∧ (s.memRead n).1.pmem.view = s.pmem.view := by
  unfold memRead
  split_ifs
  · exact ⟨rfl, rfl⟩
  · obtain ⟨cursor, holder, h⟩ := PictureMemory.readWords_frame s.mover n.toNat [] s.pmem
    rw [byMemory_pmem, h]
    exact ⟨rfl, rfl⟩
  · exact ⟨rfl, rfl⟩

@[simp] theorem State.acceptMove_pmem (s : State) (fits : Bool) (m : Mover) :
    (s.acceptMove fits m).1.pmem = s.pmem := by
  unfold acceptMove
  split_ifs <;> rfl

@[simp] theorem State.moveAbort_pmem (s : State) : s.moveAbort.1.pmem = s.pmem := by
  unfold moveAbort
  split_ifs <;> rfl

/-- No command but MEM_WRITE and SOFT_RESET touches the array or the view. -/
theorem runOwner_array_view (s : State) {c : CommandName} (ops : List Word) (reset : c ≠ .softReset)
    (write : c ≠ .memWrite) :
    (runOwner s c ops).1.pmem.array = s.pmem.array ∧ (runOwner s c ops).1.pmem.view = s.pmem.view := by
  cases c <;> simp only [runOwner]
  case softReset => exact absurd rfl reset
  case memWrite => exact absurd rfl write
  case memAddress => split; exacts [s.pmem.memAddress_array_view _ _, ⟨rfl, rfl⟩]
  case memRead => split; exacts [s.memRead_array_view _, ⟨rfl, rfl⟩]
  case patchBegin => exact s.pmem.patchBegin_array_view
  case patchEnd => exact s.pmem.patchEnd_array_view
  case moveFill => split <;> simp [State.moveFill]
  case moveCopy => split <;> simp [State.moveCopy]
  case moveAbort => simp
  case nop | identify | status => exact ⟨trivial, trivial⟩
  case clearCounts | copyLiveToPending | cancelCommit => exact ⟨rfl, rfl⟩
  all_goals split <;> exact ⟨rfl, rfl⟩

/-- A command keeps the rows of a guarded view, or it is SOFT_RESET and there is no view any more (R133, R140). -/
theorem runOwner_holdsRows {v : FrameView} {array : Memory} (guard : v.guard = true) (s : State) (c : CommandName)
    (ops : List Word) (h : s.pmem.HoldsRows v array) : (runOwner s c ops).1.pmem.HoldsRows v array := by
  by_cases reset : c = .softReset
  · subst reset; exact .inl rfl
  · by_cases write : c = .memWrite
    · subst write; exact h.memWrite guard s.mover ops
    · exact h.congr (runOwner_array_view s ops reset write)

/-! ## Rows of the management unit -/

/-- A control packet only changes the queues of the management unit and of the transmitter, or executions and the
arbiter's decision follow (R161-R168). -/
theorem State.acceptControl_cases (s : State) (p : ControlPacket) :
    (∃ g x, s.acceptControl p = { s with mgt := g, rtx := x })
      ∨ ∃ g, s.acceptControl p = (State.executeReady { s with mgt := g }).arbitrate := by
  have accepted (expected : Seq) (history : List Reply) :
      (∃ g x, s.accept p expected history = { s with mgt := g, rtx := x })
        ∨ ∃ g, s.accept p expected history = (State.executeReady { s with mgt := g }).arbitrate := by
    unfold accept
    dsimp only
    split
    · exact .inr ⟨_, rfl⟩
    · exact .inl ⟨_, s.rtx, rfl⟩
  have answered (g : Management) (r : Reply) :
      ∃ g' x, State.answer { s with mgt := g } r = { s with mgt := g', rtx := x } := by
    unfold answer
    split
    · exact ⟨g, _, rfl⟩
    · exact ⟨g, s.rtx, rfl⟩
  have counted (g : Management) : ∃ g' x, ({ s with mgt := g } : State) = { s with mgt := g', rtx := x } :=
    ⟨g, s.rtx, rfl⟩
  unfold acceptControl
  split
  · exact .inl (counted _)
  · split
    · exact accepted _ _
    · exact .inl (counted _)
  · split
    · exact accepted _ _
    · exact .inl (counted _)
  · exact .inl (answered _ _)
  · exact .inl (answered _ _)
  · split
    · exact .inl (answered s.mgt _)
    · exact .inl (counted _)

/-- What every owner keeps, and what does not look at the queues of the management unit and of the transmitter, every
row of the management unit keeps. -/
theorem ManagementRow.keeps {P : State → Prop} (owner : ∀ s c ops, P s → P (runOwner s c ops).1)
    (queues : ∀ s g x, P s → P { s with mgt := g, rtx := x }) {s t : State} (h : ManagementRow s t) (hs : P s) :
    P t := by
  have ended (s : State) (h : P s) : P s.endExecution := by
    rw [s.endExecution_eq]; exact queues s _ _ h
  have executed (s : State) (h : P s) : P s.executeReady :=
    executeWhileReady_induct owner (fun s _ h => queues s _ s.rtx h) (fun s h => queues s _ s.rtx h) ended _ s h
  have row (c : CommandName) (ops : List Word) : P (commandRow c ops s) := by
    unfold commandRow runCommand
    split
    · exact queues _ _ _ (owner s c ops hs)
    · exact queues s _ _ hs
  cases h
  case command ops _ _ => exact row _ ops
  case reset => exact queues _ _ _ (ended _ (row _ _))
  case abort => exact queues _ _ _ (row _ _)
  case packet p =>
    obtain ⟨g, x, h⟩ | ⟨g, h⟩ := s.acceptControl_cases p <;> rw [h]
    · exact queues s g x hs
    · exact queues _ _ _ (executed _ (queues s g s.rtx hs))
  case dropped => exact queues s _ s.rtx hs
  case sent t x h =>
    have dropped : P { s with rtx := s.rtx.dropSent x.queue } := queues s s.mgt _ hs
    refine queues t t.mgt _ ?_
    rw [h]
    unfold State.afterSent
    split
    · exact executed _ dropped
    · exact dropped
  case executed => exact queues _ _ _ (executed s hs)

/-! ## Every row -/

/-- The rows that can end a frame, or initialise the array, apart: a row leaves the array as it is, removes the view,
applies a step of the mover that the stall test lets through, or is one of the management unit's. -/
inductive ArrayEffect (s : State) : State → Prop
  | kept {t : State} (array : t.pmem.array = s.pmem.array) : ArrayEffect s t
  | unframed {t : State} (view : t.pmem.view = none) : ArrayEffect s t
  | stepped {i : Nat} (running : s.mover.state = .running) (step : s.mover.op.stepRow = some i)
      (goes : s.mover.op.stalls s.pmem i = false) : ArrayEffect s (s.applyRowStep i).afterRowStep
  | managed {t : State} (h : ManagementRow s t) : ArrayEffect s t

/-- The end of a packet has its own effect where it is received, and none elsewhere (R98, R116). -/
theorem State.onLink_array {s t : State} {event : State → State} (h : s.onLink event = .next t)
    (effect : ArrayEffect s (event s)) : ArrayEffect s t := by
  unfold onLink at h
  split at h <;> cases h
  · exact effect
  · exact .kept rfl

/-! Rows of the forward link and of the timers: an output frame that starts leaves the array (R131). -/

theorem execFrameOpen_array {s t : State} {payload : List Word} (h : execFrameOpen payload s = .next t) :
    ArrayEffect s t := by
  refine State.onLink_array h (.kept ?_)
  split
  · rw [State.openFrame_eq, State.frameOpenArrival_array]
  · rfl

theorem execLine_array {s t : State} {payload : List Word} (h : execLine payload s = .next t) : ArrayEffect s t := by
  refine State.onLink_array h (.kept ?_)
  split
  · unfold State.lineInFrame; split <;> rfl
  · rfl

theorem execFrameClose_array {s t : State} {payload : List Word} (h : execFrameClose payload s = .next t) :
    ArrayEffect s t := by
  refine State.onLink_array h (.kept ?_)
  split
  · unfold State.closeInFrame; split <;> rfl
  · rfl

theorem execStartMarkerInHunt_array {s t : State} (h : execStartMarkerInHunt s = .next t) : ArrayEffect s t := by
  unfold execStartMarkerInHunt at h
  split at h <;> cases h <;> exact .kept rfl

theorem execLossExpiry_array {s t : State} (h : execLossExpiry s = .next t) : ArrayEffect s t := by
  obtain ⟨-, -, he⟩ | ⟨-, he⟩ := execLossExpiry_cases s <;> rw [he] at h <;> cases h
  · exact .kept (by rw [State.loseLink_eq, State.lossAtSequencer_array])
  · exact .kept rfl

theorem execHoldoverTimerExpiry_array {s t : State} (h : execHoldoverTimerExpiry s = .next t) : ArrayEffect s t := by
  unfold execHoldoverTimerExpiry at h
  split at h
  · dsimp only at h
    split at h <;> cases h
    · exact .kept (State.startFrame_array _ _)
    · exact .kept rfl
  · cases h; exact .kept rfl

/-! Rows of background work. -/

theorem execRowStepCompletion_array {s t : State} (h : execRowStepCompletion s = .next t) : ArrayEffect s t := by
  unfold execRowStepCompletion at h
  split at h
  · next running step =>
    split at h <;> cases h
    · exact .kept rfl
    · next goes => exact .stepped running step (by simpa using goes)
  · cases h; exact .kept rfl

theorem execControl_array {s t : State} {payload : List Word} (h : execControl payload s = .next t) :
    ArrayEffect s t := by
  refine State.onLink_array h ?_
  split
  · exact .managed (.packet _)
  · exact .managed .dropped

theorem execTransmissionCompletion_array {s t : State} (h : execTransmissionCompletion s = .next t) :
    ArrayEffect s t := by
  unfold execTransmissionCompletion at h
  split at h <;> cases h
  · exact .kept rfl
  · exact .managed (.sent rfl)

theorem execExecution_array {s t : State} (h : execExecution s = .next t) : ArrayEffect s t := by
  unfold execExecution at h
  split at h <;> cases h
  · exact .managed .executed
  · exact .kept rfl

/-- Every row but those that can end the frame or initialise the array, by what it does to the array. -/
theorem exec_array {c : Instr} {s t : State} (h : exec c s = .next t) (begin : ∀ pready, c ≠ .emissionBegin pready)
    (completion : c ≠ .lineCompletion) (initialisation : c ≠ .initialisationComplete) : ArrayEffect s t := by
  have counted {event : State → State} (h : s.onLink event = .next t) (array : (event s).pmem.array = s.pmem.array) :
      ArrayEffect s t := State.onLink_array h (.kept array)
  cases c
  case powerOn => cases h; exact .unframed rfl
  case emissionBegin pready => exact absurd rfl (begin pready)
  case lineCompletion => exact absurd rfl completion
  case initialisationComplete => exact absurd rfl initialisation
  case headerCheckFailure => unfold exec execHeaderCheckFailure at h; exact counted h rfl
  case payloadCheckFailedPacket => unfold exec execPayloadCheckFailedPacket at h; exact counted h rfl
  case filler => unfold exec execFiller at h; exact counted h rfl
  case unknownKindPacket => unfold exec execUnknownKindPacket at h; exact counted h rfl
  case startMarkerInHunt => exact execStartMarkerInHunt_array h
  case frameOpen => exact execFrameOpen_array h
  case line => exact execLine_array h
  case frameClose => exact execFrameClose_array h
  case control => exact execControl_array h
  case lossExpiry => exact execLossExpiry_array h
  case holdoverTimerExpiry => exact execHoldoverTimerExpiry_array h
  case rowStepCompletion => exact execRowStepCompletion_array h
  case transmissionCompletion => exact execTransmissionCompletion_array h
  case execution => exact execExecution_array h
  case softReset => cases h; exact .managed .reset
  case moveAbort => cases h; exact .managed .abort
  all_goals cases h; exact .managed (.command _ (by decide) (by decide))

/-- A step that the stall test lets through writes no row of a guarded view (R150). -/
theorem MoveOp.not_mem_of_goes {o : MoveOp} {p : PictureMemory} {v : FrameView} {i : Nat} (view : p.view = some v)
    (guard : v.guard = true) (goes : o.stalls p i = false) : o.dstRow + i ∉ v.rowSet := by
  intro inside
  rw [stalls_iff.2 ⟨v, view, guard, .inl inside⟩] at goes
  cases goes

/-- Settles O60: the mover stalls at the frame rows, a MEM_WRITE to them is deferred, and no other row writes. -/
theorem theTearGuardKeepsTheFrameRows : Obligations.TheTearGuardKeepsTheFrameRows := by
  intro c s t v h view guard wf consistent framed begin completion initialisation row col inside _ hcol
  cases exec_array h begin completion initialisation with
  | kept array => rw [array]
  | unframed gone => exact absurd gone framed
  | @stepped i running step goes =>
    obtain ⟨fits, hi⟩ := Mover.stepRow_lt consistent running step
    have other : ¬(row = s.mover.op.dstRow + i ∧ s.mover.op.dstCol ≤ col
        ∧ col < s.mover.op.dstCol + s.mover.op.words) := fun span =>
      MoveOp.not_mem_of_goes view guard goes (span.1 ▸ inside)
    rw [State.afterRowStep_pmem, State.applyRowStep_pmem, PictureMemory.tear_array,
      MoveOp.applyStep_read fits hi wf hcol, if_neg other]
  | managed managed =>
    have start : s.pmem.HoldsRows v s.pmem.array := .inr ⟨view, wf, fun _ _ _ _ => rfl⟩
    obtain gone | ⟨-, -, rows⟩ := managed.keeps (P := fun t => t.pmem.HoldsRows v s.pmem.array)
      (runOwner_holdsRows guard) (fun _ _ _ h => h) start
    · exact absurd gone framed
    · exact rows row col inside hcol

end Sys2Proof.Machine
end

