-- ==== Sys2Proof/Proofs/MoveCommands.lean ====
section
/-! PROOFS. O44: the commands that start and abort an operation of the mover. -/

namespace Sys2Proof.Machine

open Claims (recorded)

/-! ## Acceptance (R143, R144, R145) -/

theorem Mover.inFlight_iff {m : Mover} : m.inFlight = true ↔ m.state ≠ .idle := by
  simp [inFlight]

theorem State.acceptMove_busy {s : State} (busy : s.mover.state ≠ .idle) (fits : Bool) (m : Mover) :
    s.acceptMove fits m = (s, refusal .busy) :=
  if_pos (Mover.inFlight_iff.2 busy)

theorem State.acceptMove_accepted {s : State} (idle : s.mover.state = .idle) (m : Mover) :
    s.acceptMove true m = ({ s with mover := m }, okResult []) :=
  if_neg (mt Mover.inFlight_iff.1 (not_not_intro idle))

theorem State.acceptMove_misfit {s : State} (idle : s.mover.state = .idle) (m : Mover) :
    s.acceptMove false m = (s, refusal .range) :=
  if_neg (mt Mover.inFlight_iff.1 (not_not_intro idle))

/-- A rectangle that does not fit, by what R143 and R144 refuse in it. -/
theorem rectangleFits_eq_false {row col rows words : Nat} :
    rectangleFits row col rows words = false
      ↔ 255 < row ∨ 255 < col ∨ rows = 0 ∨ words = 0 ∨ 256 < row + rows ∨ 256 < col + words := by
  rw [← Bool.not_eq_true, rectangleFits_iff]
  omega

/-! ## The first step (R145, R147) -/

theorem moveDirection_copy (srcRow dstRow : Nat) :
    moveDirection .copy srcRow dstRow = if srcRow < dstRow then .descending else .ascending := by
  simp [moveDirection]

/-- The first step of an operation is at the last row offset in descending order, else at offset 0 (R147). -/
theorem MoveOp.nextOffset_first {o : MoveOp} (fresh : o.rowsDone = 0) :
    o.nextOffset = if o.direction = .descending then o.rows - 1 else 0 := by
  unfold nextOffset
  cases o.direction <;> simp [fresh]

/-- The decision at an acceptance is about the first offset in the order of rows (R145, R147). -/
theorem startMove_decides (kind : MoveKind) (srcRow srcCol dstRow dstCol rows words : Nat) (value : Word)
    (p : PictureMemory) :
    Claims.decides p
      { kind := kind, dstRow := dstRow, dstCol := dstCol, srcRow := srcRow, srcCol := srcCol, rows := rows,
        words := words, value := value, direction := moveDirection kind srcRow dstRow, rowsDone := 0,
        stepRow := none }
      (if moveDirection kind srcRow dstRow = .descending then rows - 1 else 0)
      (startMove kind srcRow srcCol dstRow dstCol rows words value p) := by
  rw [← MoveOp.nextOffset_first (o := { direction := moveDirection kind srcRow dstRow, rowsDone := 0, .. }) rfl]
  exact Mover.decideStep_decides { state := .running, op := _ } p

/-! ## The rows of the move commands -/

/-! In flight both are refused; in IDLE a FILL is accepted if its rectangle fits, a COPY if both of its do (R143,
R144). -/

theorem exec_moveFill_busy {s : State} (busy : s.mover.state ≠ .idle) (row col rows words value : Word) :
    exec (.moveFill row col rows words value) s = .next (recorded s (Claims.refused .busy)) := by
  rw [exec_moveFill, State.moveFill, State.acceptMove_busy busy]
  rfl

theorem exec_moveCopy_busy {s : State} (busy : s.mover.state ≠ .idle)
    (srcRow srcCol dstRow dstCol rows words : Word) :
    exec (.moveCopy srcRow srcCol dstRow dstCol rows words) s = .next (recorded s (Claims.refused .busy)) := by
  rw [exec_moveCopy, State.moveCopy, State.acceptMove_busy busy]
  rfl

section Idle

variable {s : State} (idle : s.mover.state = .idle)
include idle

theorem exec_moveFill_accepted {row col rows words : Word} (value : Word)
    (dst : rectangleFits row.toNat col.toNat rows.toNat words.toNat = true) :
    exec (.moveFill row col rows words value) s = .next (recorded
      { s with mover := startMove .fill 0 0 row.toNat col.toNat rows.toNat words.toNat value s.pmem }
      (Claims.ok [])) := by
  rw [exec_moveFill, State.moveFill, dst, State.acceptMove_accepted idle]
  rfl

theorem exec_moveFill_range {row col rows words : Word} (value : Word)
    (misfit : rectangleFits row.toNat col.toNat rows.toNat words.toNat = false) :
    exec (.moveFill row col rows words value) s = .next (recorded s (Claims.refused .range)) := by
  rw [exec_moveFill, State.moveFill, misfit, State.acceptMove_misfit idle]
  rfl

theorem exec_moveCopy_accepted {srcRow srcCol dstRow dstCol rows words : Word}
    (src : rectangleFits srcRow.toNat srcCol.toNat rows.toNat words.toNat = true)
    (dst : rectangleFits dstRow.toNat dstCol.toNat rows.toNat words.toNat = true) :
    exec (.moveCopy srcRow srcCol dstRow dstCol rows words) s = .next (recorded
      { s with mover := startMove .copy srcRow.toNat srcCol.toNat dstRow.toNat dstCol.toNat rows.toNat
                          words.toNat 0 s.pmem }
      (Claims.ok [])) := by
  rw [exec_moveCopy, State.moveCopy, src, dst, Bool.and_self, State.acceptMove_accepted idle]
  rfl

theorem exec_moveCopy_range {srcRow srcCol dstRow dstCol rows words : Word}
    (misfit : rectangleFits srcRow.toNat srcCol.toNat rows.toNat words.toNat = false
      ∨ rectangleFits dstRow.toNat dstCol.toNat rows.toNat words.toNat = false) :
    exec (.moveCopy srcRow srcCol dstRow dstCol rows words) s = .next (recorded s (Claims.refused .range)) := by
  rw [exec_moveCopy, State.moveCopy, Bool.and_eq_false_iff.2 misfit, State.acceptMove_misfit idle]
  rfl

end Idle

/-- A BUSY transmitter, and one with nothing to send, are as they were after the arbiter's decision (R184). -/
theorem ReverseTransmitter.arbitrate_still {x : ReverseTransmitter}
    (h : x.transmitter ≠ none ∨ (x.notices = [] ∧ x.replies = [] ∧ x.reports = [])) : x.arbitrate = x := by
  obtain same | ⟨t, idle, next, -⟩ := x.arbitrate_cases
  · exact same
  · obtain busy | ⟨notices, replies, reports⟩ := h
    · exact absurd idle busy
    · simp [nextEntry, notices, replies, reports] at next

theorem exec_moveAbort_idle {s : State} (idle : s.mover.state = .idle)
    (still : s.rtx.transmitter ≠ none ∨ (s.rtx.notices = [] ∧ s.rtx.replies = [] ∧ s.rtx.reports = [])) :
    exec .moveAbort s = .next (recorded s (Claims.ok [])) := by
  rw [exec_moveAbort, State.moveAbort, if_neg (mt Mover.inFlight_iff.1 (not_not_intro idle)), State.arbitrate,
    State.recordResult_rtx, ReverseTransmitter.arbitrate_still still]
  rfl

/-- In flight the operation is halted, and its notice handed over (R153, R184, R189). -/
theorem exec_moveAbort_inFlight {s : State} (busy : s.mover.state ≠ .idle) :
    exec .moveAbort s = .next (recorded
      { s with mover := s.mover.halt
               rtx := (s.rtx.takeNotice (.moveDone .aborted s.mover.op.kind s.mover.op.rowsDone)).arbitrate }
      (Claims.ok [])) := by
  rw [exec_moveAbort, State.moveAbort, if_pos (Mover.inFlight_iff.2 busy)]
  rfl

/-- Settles O44: by whether an operation is in flight and the rectangles fit; the first step by the order of rows. -/
theorem moveCommandsStartAndEndOperations : Obligations.MoveCommandsStartAndEndOperations := by
  intro s a b c d e f
  refine ⟨fun busy => ⟨exec_moveFill_busy busy .., exec_moveCopy_busy busy ..⟩,
    fun idle misfit => exec_moveFill_range idle e (rectangleFits_eq_false.2 misfit),
    fun idle fits => ⟨_, exec_moveFill_accepted idle e (rectangleFits_iff.2 (by omega)), startMove_decides .fill ..⟩,
    fun idle misfit => exec_moveCopy_range idle ?_, fun idle fits => ?_, exec_moveAbort_idle,
    fun busy => ⟨_, exec_moveAbort_inFlight busy, s.rtx.handed_takesNotice _⟩⟩
  · rw [rectangleFits_eq_false, rectangleFits_eq_false]
    omega
  · have src : rectangleFits a.toNat b.toNat e.toNat f.toNat = true := rectangleFits_iff.2 (by omega)
    have dst : rectangleFits c.toNat d.toNat e.toNat f.toNat = true := rectangleFits_iff.2 (by omega)
    refine ⟨_, exec_moveCopy_accepted idle src dst, ?_⟩
    simpa [moveDirection_copy] using startMove_decides .copy a.toNat b.toNat c.toNat d.toNat e.toNat f.toNat 0 s.pmem

end Sys2Proof.Machine
end

