-- ==== Sys2Proof/Proofs/WholeCopies.lean ====
section
/-! PROOFS. O46: a COPY that runs to its end moves the whole rectangle, whatever the overlap. -/

namespace Sys2Proof.Machine

/-! ## The offsets stepped so far (R147) -/

/-- The row offset is one of those that the operation has stepped, in its order of rows (R147). -/
def MoveOp.Stepped (o : MoveOp) (i : Nat) : Prop :=
  match o.direction with
  | .ascending => i < o.rowsDone
  | .descending => o.rows ≤ i + o.rowsDone

/-- The operation with one row step more behind it (R149). -/
def MoveOp.counted (o : MoveOp) : MoveOp :=
  { o with rowsDone := o.rowsDone + 1 }

section Offsets

variable {o : MoveOp} {i : Nat}

theorem MoveOp.not_stepped_of_fresh (fresh : o.rowsDone = 0) (hi : i < o.rows) : ¬o.Stepped i := by
  unfold Stepped
  split <;> omega

theorem MoveOp.stepped_of_done (done : o.rowsDone = o.rows) (hi : i < o.rows) : o.Stepped i := by
  unfold Stepped
  split <;> omega

/-- A row step adds the next offset to those stepped. -/
theorem MoveOp.stepped_counted (left : o.rowsDone < o.rows) :
    o.counted.Stepped i ↔ o.Stepped i ∨ i = o.nextOffset := by
  unfold Stepped counted nextOffset
  cases o.direction <;> dsimp only <;> omega

/-- The order of rows keeps the source row of the next step from the rows written so far (R147). -/
theorem MoveOp.source_not_written (left : o.rowsDone < o.rows) (kind : o.kind = .copy)
    (order : o.direction = moveDirection o.kind o.srcRow o.dstRow) (stepped : o.Stepped i) :
    o.srcRow + o.nextOffset ≠ o.dstRow + i := by
  rw [kind, moveDirection_copy] at order
  unfold Stepped at stepped
  unfold nextOffset
  by_cases higher : o.srcRow < o.dstRow
  · simp only [order, if_pos higher] at stepped ⊢
    omega
  · simp only [order, if_neg higher] at stepped ⊢
    omega

end Offsets

/-! ## The array of a COPY under way (R148) -/

/-- The word lies in the destination row span of the offset (R148). -/
def MoveOp.Spans (o : MoveOp) (i row col : Nat) : Prop :=
  row = o.dstRow + i ∧ o.dstCol ≤ col ∧ col < o.dstCol + o.words

/-- How a COPY that found the array `before` has left it: each stepped row span holds the words that its source row
span held, and every other word is as it was. -/
structure MoveOp.Copied (o : MoveOp) (before array : Memory) : Prop where
  wf : array.wf = true
  done : ∀ i j, i < o.rows → o.Stepped i → j < o.words →
    array.read (wordKey (o.dstRow + i) (o.dstCol + j)) = before.read (wordKey (o.srcRow + i) (o.srcCol + j))
  others : ∀ row col, col < 256 → (∀ i, i < o.rows → o.Stepped i → ¬o.Spans i row col) →
    array.read (wordKey row col) = before.read (wordKey row col)

section Arrays

variable {o : MoveOp} {before array : Memory}

theorem MoveOp.Copied.start (fresh : o.rowsDone = 0) (wf : before.wf = true) : o.Copied before before where
  wf := wf
  done _ _ hi stepped _ := absurd stepped (not_stepped_of_fresh fresh hi)
  others _ _ _ _ := rfl

/-- Which step is in progress is no matter of the array. -/
theorem MoveOp.Copied.withStepRow (h : o.Copied before array) (step : Option Nat) :
    MoveOp.Copied { o with stepRow := step } before array :=
  ⟨h.wf, h.done, h.others⟩

/-- The words of the next step are still those of the source rectangle at the start. -/
theorem MoveOp.Copied.source (h : o.Copied before array) (fits : o.InFlight) (kind : o.kind = .copy)
    (order : o.direction = moveDirection o.kind o.srcRow o.dstRow) {j : Nat} (hj : j < o.words) :
    o.stepWord array o.nextOffset j = before.read (wordKey (o.srcRow + o.nextOffset) (o.srcCol + j)) := by
  obtain ⟨left, -, src⟩ := fits
  have src := rectangleFits_iff.1 (src.resolve_left (by simp [kind]))
  simp only [stepWord, kind]
  exact h.others _ _ (by omega) fun i _ stepped span => source_not_written left kind order stepped span.1

/-- A row step at the next offset goes on with the copy. -/
theorem MoveOp.Copied.step (h : o.Copied before array) (fits : o.InFlight) (kind : o.kind = .copy)
    (order : o.direction = moveDirection o.kind o.srcRow o.dstRow) :
    o.counted.Copied before (o.applyStep array o.nextOffset) := by
  have next := nextOffset_lt fits
  have ⟨left, dst, _⟩ := fits
  have dst := rectangleFits_iff.1 dst
  refine ⟨applyStep_wf fits next h.wf, fun i j (hi : i < o.rows) stepped (hj : j < o.words) => ?_,
    fun row col hcol out => ?_⟩
  · change Memory.read _ (wordKey (o.dstRow + i) (o.dstCol + j)) = before.read (wordKey (o.srcRow + i) (o.srcCol + j))
    rw [applyStep_read fits next h.wf (by omega)]
    by_cases now : i = o.nextOffset
    · subst now
      rw [if_pos (by omega), Nat.add_sub_cancel_left, h.source fits kind order hj]
    · have earlier : o.Stepped i := ((stepped_counted left).1 stepped).resolve_right now
      rw [if_neg (by omega), h.done i j hi earlier hj]
  · have here : ¬o.Spans o.nextOffset row col := out _ next ((stepped_counted left).2 (.inr rfl))
    rw [applyStep_read fits next h.wf hcol]
    exact (if_neg here).trans
      (h.others row col hcol fun i hi stepped => out i hi ((stepped_counted left).2 (.inl stepped)))

/-- When every row is stepped the whole rectangle is copied, and nothing else is changed (R144). -/
theorem MoveOp.Copied.whole (h : o.Copied before array) (done : o.rowsDone = o.rows) :
    (∀ i j, i < o.rows → j < o.words →
        array.read (wordKey (o.dstRow + i) (o.dstCol + j)) = before.read (wordKey (o.srcRow + i) (o.srcCol + j)))
      ∧ (∀ row col, row < 256 → col < 256 →
          ¬(o.dstRow ≤ row ∧ row < o.dstRow + o.rows ∧ o.dstCol ≤ col ∧ col < o.dstCol + o.words) →
          array.read (wordKey row col) = before.read (wordKey row col)) := by
  refine ⟨fun i j hi => h.done i j hi (stepped_of_done done hi), fun row col _ hcol out =>
    h.others row col hcol fun i hi _ span => out ?_⟩
  obtain ⟨rfl, left, right⟩ := span
  omega

end Arrays

/-! ## The rows of a COPY under way (R147, R149, R152) -/

/-- A COPY that found the array `before` is under way, and no frame is in progress. -/
structure State.Copying (before : Memory) (s : State) : Prop where
  running : s.mover.state = .running
  consistent : s.mover.consistent = true
  kind : s.mover.op.kind = .copy
  order : s.mover.op.direction = moveDirection s.mover.op.kind s.mover.op.srcRow s.mover.op.dstRow
  view : s.pmem.view = none
  copied : s.mover.op.Copied before s.pmem.array

theorem MoveOp.stalls_between_frames (o : MoveOp) {p : PictureMemory} (i : Nat) (view : p.view = none) :
    o.stalls p i = false := by
  simp [stalls, view]

/-- Between frames every step begins (R145, R150). -/
theorem Mover.decideStep_between_frames (m : Mover) {p : PictureMemory} (view : p.view = none) :
    m.decideStep p = { state := .running, op := { m.op with stepRow := some m.op.nextOffset } } :=
  if_neg (by simp [MoveOp.stalls_between_frames _ _ view])

section Runs

variable {before : Memory} {s : State}

/-- The row step in progress is the one at the next offset, and it is applied. -/
theorem State.Copying.exec_rowStep (h : s.Copying before) :
    exec .rowStepCompletion s = .next (s.applyRowStep s.mover.op.nextOffset).afterRowStep
      ∧ s.mover.op.counted.Copied before (s.applyRowStep s.mover.op.nextOffset).pmem.array := by
  obtain ⟨step, fits⟩ := (Mover.consistent_running h.running).1 h.consistent
  exact ⟨exec_rowStepCompletion_applied h.running step (MoveOp.stalls_between_frames _ _ h.view),
    h.copied.step fits h.kind h.order⟩

/-- The last row step leaves the mover IDLE and the rectangle copied (R152). -/
theorem State.Copying.last (h : s.Copying before) (last : s.mover.op.rowsDone + 1 = s.mover.op.rows) :
    ∃ t, exec .rowStepCompletion s = .next t ∧ t.mover.state = .idle
      ∧ t.mover.op = { s.mover.op with rowsDone := s.mover.op.rows, stepRow := none }
      ∧ t.mover.op.Copied before t.pmem.array := by
  obtain ⟨ran, copied⟩ := h.exec_rowStep
  rw [State.applyRowStep_last _ last] at ran
  refine ⟨_, ran, rfl, ?_, copied.withStepRow none⟩
  rw [← last]
  rfl

/-- Any other row step is followed by the next (R149). -/
theorem State.Copying.more (h : s.Copying before) (more : s.mover.op.rowsDone + 1 ≠ s.mover.op.rows) :
    ∃ t, exec .rowStepCompletion s = .next t ∧ t.Copying before
      ∧ ∃ step, t.mover.op = { s.mover.op with rowsDone := s.mover.op.rowsDone + 1, stepRow := step } := by
  obtain ⟨ran, copied⟩ := h.exec_rowStep
  obtain ⟨-, left, dst, src⟩ := (Mover.consistent_running h.running).1 h.consistent
  have view : (s.applyRowStep s.mover.op.nextOffset).pmem.view = none := PictureMemory.tear_view_of_none _ h.view
  rw [State.applyRowStep_more _ more, Mover.decideStep_between_frames _ view] at ran
  have fits : s.mover.op.counted.InFlight := ⟨by simp only [MoveOp.counted]; omega, dst, src⟩
  exact ⟨_, ran, ⟨rfl, (Mover.consistent_running rfl).2 ⟨rfl, fits⟩, h.kind, h.order, view, copied.withStepRow _⟩,
    _, rfl⟩

end Runs

/-- As many row steps as rows are left complete a COPY (R147, R149, R152). -/
theorem State.Copying.run {before : Memory} (n : Nat) {s : State} (h : s.Copying before)
    (left : s.mover.op.rowsDone + n = s.mover.op.rows) :
    ∃ t, Claims.rowsAfter s (List.replicate n .rowStepCompletion) = some t ∧ t.mover.state = .idle
      ∧ t.mover.op = { s.mover.op with rowsDone := s.mover.op.rows, stepRow := none }
      ∧ t.mover.op.Copied before t.pmem.array := by
  induction n generalizing s with
  | zero =>
    obtain ⟨-, unfinished, -⟩ := (Mover.consistent_running h.running).1 h.consistent
    omega
  | succ n ih =>
    by_cases last : s.mover.op.rowsDone + 1 = s.mover.op.rows
    · obtain rfl : n = 0 := by omega
      obtain ⟨t, ran, ended⟩ := h.last last
      exact ⟨t, rowsAfter_cons _ ran, ended⟩
    · obtain ⟨u, ran, under, step, op⟩ := h.more last
      obtain ⟨t, rest, idle, final, copied⟩ := ih under (by rw [op]; dsimp only; omega)
      refine ⟨t, (rowsAfter_cons _ ran).trans rest, idle, ?_, copied⟩
      rw [final, op]

/-- Between frames an accepted COPY is under way at once (R144, R145). -/
theorem State.copying_accepted {s : State} {srcRow srcCol dstRow dstCol rows words : Nat} (view : s.pmem.view = none)
    (wf : s.pmem.array.wf = true) (src : rectangleFits srcRow srcCol rows words = true)
    (dst : rectangleFits dstRow dstCol rows words = true) (r : Result) :
    State.Copying s.pmem.array (Claims.recorded
      { s with mover := startMove .copy srcRow srcCol dstRow dstCol rows words 0 s.pmem } r) := by
  have consistent := startMove_consistent (kind := .copy) (value := 0) s.pmem dst (.inr src)
  rw [startMove, Mover.decideStep_between_frames _ view] at consistent ⊢
  exact ⟨rfl, consistent, rfl, rfl, view, .start rfl wf⟩

/-- The record of an accepted operation, but for the step in progress (R145). -/
theorem startMove_op (kind : MoveKind) (srcRow srcCol dstRow dstCol rows words : Nat) (value : Word)
    (p : PictureMemory) :
    ∃ step, (startMove kind srcRow srcCol dstRow dstCol rows words value p).op =
      { kind := kind, dstRow := dstRow, dstCol := dstCol, srcRow := srcRow, srcCol := srcCol, rows := rows,
        words := words, value := value, direction := moveDirection kind srcRow dstRow, rowsDone := 0,
        stepRow := step } := by
  unfold startMove Mover.decideStep
  split <;> exact ⟨_, rfl⟩

/-- Settles O46: the rows stepped so far are copied, and at the end they are all the rows of the rectangle. -/
theorem aCopyMovesTheWholeRectangle : Obligations.ACopyMovesTheWholeRectangle := by
  intro s srcRow srcCol dstRow dstCol rows words idle view wf src dst
  have copying := State.copying_accepted view wf src dst (Claims.ok [])
  obtain ⟨step, op⟩ := startMove_op .copy srcRow.toNat srcCol.toNat dstRow.toNat dstCol.toNat rows.toNat words.toNat 0
    s.pmem
  obtain ⟨t, ran, ended, final, copied⟩ := copying.run rows.toNat (by simp only [Claims.recorded, op, Nat.zero_add])
  simp only [Claims.recorded, op] at final
  rw [final] at copied
  exact ⟨t, (rowsAfter_cons _ (exec_moveCopy_accepted idle src dst)).trans ran, ended, by rw [final],
    copied.whole rfl⟩

end Sys2Proof.Machine
end

