-- ==== Sys2Proof/Proofs/GeneralCommands.lean ====
section
/-! PROOFS. O24, O25, O26: the general commands of the management unit. -/

namespace Sys2Proof.Machine

open Claims (recorded)

/-! ## Information and counters (R172, R173, R176) -/

/-- The snapshot reads patch mode as a flag (R208). -/
theorem boolWord_isSome {α : Type} [DecidableEq α] (o : Option α) : boolWord o.isSome = if o = none then 0 else 1 := by
  cases o <;> rfl

/-- Settles O24: each row records its owner's answer; in the snapshot E and the cursor are widened to words. -/
theorem informationCommandsReturnTheirWords : Obligations.InformationCommandsReturnTheirWords := by
  intro s
  refine ⟨exec_nop s, exec_identify s, ?_⟩
  rw [exec_status]
  simp only [BitVec.ofNat_toNat, ← boolWord_isSome]
  rfl

/-- Settles O26: the row is the unit's operation, and its result is recorded. -/
theorem clearCountsZeroesTheEightCounters : Obligations.ClearCountsZeroesTheEightCounters :=
  exec_clearCounts

/-! ## SET_PARAM (R174) -/

/-- An operand out of its range refuses all three (R174, R205). -/
theorem Management.setParam_range (g : Management) {t h e : Word}
    (out : ¬(1 ≤ t.toNat ∧ t.toNat ≤ 255 ∧ 10 ≤ h.toNat ∧ h.toNat ≤ 255 ∧ e.toNat ≤ 1)) :
    g.setParam t h e = (g, refusal .range) := by
  unfold setParam
  split
  · next ht hh he =>
    refine absurd ?_ out
    have timeout : 1 ≤ t.toNat ∧ t.toNat ≤ 255 :=
      by_contra fun no => by rw [numOperand_out_of_range no] at ht; cases ht
    have period : 10 ≤ h.toNat ∧ h.toNat ≤ 255 :=
      by_contra fun no => by rw [numOperand_out_of_range no] at hh; cases hh
    have enable : e.toNat ≤ 1 := by_contra fun no => by rw [boolOperand_of_gt (not_le.1 no)] at he; cases he
    omega
  · rfl

/-- Settles O25: the three operands are read before any parameter is written. -/
theorem setParamWritesAllThreeOrNone : Obligations.SetParamWritesAllThreeOrNone := by
  intro s t h e
  constructor
  · rintro ⟨ht, ht', hh, hh', he⟩
    rw [exec_setParam, Management.setParam, numOperand_of_range ⟨ht, ht'⟩, numOperand_of_range ⟨hh, hh'⟩,
      boolOperand_of_le he, Nat.mul_comm t.toNat]
    rfl
  · intro out
    rw [exec_setParam, Management.setParam_range _ out]
    rfl

end Sys2Proof.Machine
end

