-- ==== Sys2Proof/Proofs/QueuesAndLane.lean ====
section
/-! PROOFS. O57: every step keeps the queues within their places and the lane served. -/

namespace Sys2Proof.Machine

/-- Settles O57: every effect a row can have keeps the queues' relations, and none looks at the waiting commands. -/
theorem stepsKeepTheQueuesAndTheLane : Obligations.StepsKeepTheQueuesAndTheLane := by
  intro s t unit places lane waits h
  obtain ⟨rest, effect⟩ := step_effect h
  obtain ⟨unit', ⟨places', lane'⟩, waits'⟩ := effect.queuesSound ⟨unit, ⟨places, lane⟩, waits⟩
  exact ⟨unit', places', lane', waits'⟩

end Sys2Proof.Machine
end

