-- ==== Sys2Proof/Proofs/ControlPackets.lean ====
section
/-! PROOFS. O47, O48: the form of control packets, and what each class of them does. -/

namespace Sys2Proof.Machine

open Claims (entryWords controlWords raised)

/-! ## The layout of a control packet (R159, R202) -/

/-- Command code and operand count are the two halves of an entry's first word (R202). -/
theorem entryHeader_eq (w : Word) {n : Nat} (count : n = (w.extractLsb' 0 8).toNat) :
    (w.extractLsb' 8 8 ++ BitVec.ofNat 8 n : Word) = w := by
  rw [count, BitVec.ofNat_toNat, BitVec.setWidth_eq]
  exact BitVec.extractLsb'_append_extractLsb'

theorem entryHeader_code (code : BitVec 8) (n : Nat) :
    (code ++ BitVec.ofNat 8 n : Word).extractLsb' 8 8 = code :=
  BitVec.extractLsb'_append_eq_left

theorem entryHeader_count (code : BitVec 8) {n : Nat} (count : n ≤ 255) :
    ((code ++ BitVec.ofNat 8 n : Word).extractLsb' 0 8).toNat = n := by
  have low : (code ++ BitVec.ofNat 8 n : Word).extractLsb' 0 8 = BitVec.ofNat 8 n := BitVec.extractLsb'_append_eq_right
  rw [low, BitVec.toNat_ofNat]
  exact Nat.mod_eq_of_lt (by omega)

/-- An entry is read from its own words, and what follows them from the words behind. -/
theorem parseEntries_entryWords (n : Nat) {e : CommandEntry} (count : e.operands.length ≤ 255) (area : List Word) :
    parseEntries (n + 1) (entryWords e ++ area) = (parseEntries n area).map (e :: ·) := by
  rw [entryWords, List.cons_append, parseEntries]
  simp only [entryHeader_code, entryHeader_count e.code count]
  rw [if_neg (by rw [List.length_append]; omega), List.drop_left, List.take_left]
  cases parseEntries n area <;> rfl

/-- Where an entry is read, the words are those of the entry and of what is read behind them. -/
theorem parseEntries_succ {n : Nat} {ws : List Word} {es : List CommandEntry}
    (h : parseEntries (n + 1) ws = some es) :
    ∃ e rest area, es = e :: rest ∧ ws = entryWords e ++ area ∧ e.operands.length ≤ 255
      ∧ parseEntries n area = some rest := by
  cases ws with
  | nil => cases h
  | cons w ws =>
    simp only [parseEntries] at h
    split_ifs at h with short
    split at h
    · next rest parsed =>
      cases h
      have taken : (ws.take (w.extractLsb' 0 8).toNat).length = (w.extractLsb' 0 8).toNat :=
        List.length_take_of_le (not_lt.1 short)
      refine ⟨_, rest, _, rfl, ?_, ?_, parsed⟩
      · rw [entryWords, entryHeader_eq w taken, List.cons_append, List.take_append_drop]
      · have := (w.extractLsb' 0 8).isLt
        dsimp only
        omega
    · cases h

/-- Reading `n` entries gives exactly the entries whose words these are (R202). -/
theorem parseEntries_iff {n : Nat} {ws : List Word} {es : List CommandEntry} :
    parseEntries n ws = some es
      ↔ es.length = n ∧ ws = es.flatMap entryWords ∧ ∀ e ∈ es, e.operands.length ≤ 255 := by
  constructor
  · intro h
    refine ⟨parseEntries_length h, ?_⟩
    induction n generalizing ws es with
    | zero =>
      cases ws with
      | nil => cases h; simp
      | cons => cases h
    | succ n ih =>
      obtain ⟨e, rest, area, rfl, rfl, count, parsed⟩ := parseEntries_succ h
      obtain ⟨rfl, counts⟩ := ih parsed
      exact ⟨List.flatMap_cons.symm, List.forall_mem_cons.2 ⟨count, counts⟩⟩
  · rintro ⟨rfl, rfl, counts⟩
    induction es with
    | nil => rfl
    | cons e es ih =>
      obtain ⟨count, counts⟩ := List.forall_mem_cons.1 counts
      rw [List.length_cons, List.flatMap_cons, parseEntries_entryWords _ count, ih counts]
      rfl

/-- The payloads that pass the form check are those of the layout (R159, R202, R203). -/
theorem parseControl_iff {payload : List Word} {p : ControlPacket} :
    parseControl payload = some p ↔
      ∃ (word0 : Word) (entries : List CommandEntry), payload = controlWords word0 entries
        ∧ payload.length ≤ 512 ∧ 1 ≤ entries.length ∧ entries.length ≤ 16
        ∧ (∀ e ∈ entries, e.operands.length ≤ 255)
        ∧ p = { seq := word0.extractLsb' 0 8, sync := word0.getLsbD 15, entries := entries } := by
  constructor
  · intro h
    unfold parseControl at h
    split_ifs at h with fits
    split at h
    · next word0 count area =>
      split_ifs at h with range
      split at h
      · next entries parsed =>
        cases h
        obtain ⟨length, rfl, counts⟩ := parseEntries_iff.1 parsed
        obtain ⟨least, most⟩ := within_iff.1 range
        refine ⟨word0, entries, ?_, fits, by omega, by omega, counts, rfl⟩
        rw [controlWords, length, BitVec.ofNat_toNat, BitVec.setWidth_eq]
      · cases h
    · cases h
  · rintro ⟨word0, entries, rfl, fits, least, most, counts, rfl⟩
    have count : (BitVec.ofNat 16 entries.length).toNat = entries.length := by
      rw [BitVec.toNat_ofNat]
      exact Nat.mod_eq_of_lt (by omega)
    rw [controlWords] at fits ⊢
    rw [parseControl, if_pos (show _ ≤ Config.maxControlPayload from fits)]
    simp only [count, parseEntries_iff.2 ⟨rfl, rfl, counts⟩, if_pos (within_iff.2 ⟨least, most⟩)]

/-- What is too long, too short, or has a command count outside 1-16 is not well formed (R159). -/
theorem parseControl_malformed {payload : List Word}
    (h : 512 < payload.length ∨ payload.length < 2
      ∨ ∃ (a n : Word) (rest : List Word), payload = a :: n :: rest ∧ (n.toNat = 0 ∨ 16 < n.toNat)) :
    parseControl payload = none := by
  refine Option.eq_none_iff_forall_ne_some.2 fun p parsed => ?_
  obtain ⟨word0, entries, rfl, fits, least, most, -, -⟩ := parseControl_iff.1 parsed
  obtain long | short | ⟨a, n, rest, words, range⟩ := h
  · omega
  · simp only [controlWords, List.length_cons] at short
    omega
  · obtain ⟨-, rfl, -⟩ : word0 = a ∧ BitVec.ofNat 16 entries.length = n ∧ _ := by
      simpa only [controlWords, List.cons.injEq] using words
    rw [BitVec.toNat_ofNat] at range
    omega

/-! ## The classes of R161 -/

section
variable {g : Management} {p : ControlPacket}

theorem Management.classify_queued (queued : ∃ q ∈ g.queue, q.seq = p.seq) : g.classify p = .queuedDuplicate :=
  if_pos (by simpa using queued)

/-- The seq of no packet in the command queue: the first row of R161 does not apply. -/
theorem Management.classify_not_queued (fresh : ∀ q ∈ g.queue, q.seq ≠ p.seq) :
    (g.queue.any fun q => q.seq == p.seq) = false := by
  simpa using fresh

theorem Management.classify_synchronising (fresh : ∀ q ∈ g.queue, q.seq ≠ p.seq) (sync : p.sync = true) :
    g.classify p = .synchronising := by
  simp [classify, classify_not_queued fresh, sync]

theorem Management.classify_new (fresh : ∀ q ∈ g.queue, q.seq ≠ p.seq) (plain : p.sync = false)
    (seq : p.seq = g.expected) : g.classify p = .new := by
  rw [classify, classify_not_queued fresh, plain, if_pos seq]
  rfl

theorem Management.classify_answered {r : Reply} (fresh : ∀ q ∈ g.queue, q.seq ≠ p.seq) (plain : p.sync = false)
    (seq : p.seq ≠ g.expected) (near : (g.expected - p.seq).toNat ≤ 8)
    (stored : (g.history.find? fun h => h.seq == p.seq) = some r) : g.classify p = .answeredDuplicate r := by
  rw [classify, classify_not_queued fresh, plain, if_neg seq, if_pos near, stored]
  rfl

theorem Management.classify_unanswered (fresh : ∀ q ∈ g.queue, q.seq ≠ p.seq) (plain : p.sync = false)
    (seq : p.seq ≠ g.expected) (near : (g.expected - p.seq).toNat ≤ 8)
    (stored : (g.history.find? fun h => h.seq == p.seq) = none) : g.classify p = .unansweredDuplicate := by
  rw [classify, classify_not_queued fresh, plain, if_neg seq, if_pos near, stored]
  rfl

theorem Management.classify_outOfOrder (fresh : ∀ q ∈ g.queue, q.seq ≠ p.seq) (plain : p.sync = false)
    (seq : p.seq ≠ g.expected) (far : 8 < (g.expected - p.seq).toNat) : g.classify p = .outOfOrder := by
  rw [classify, classify_not_queued fresh, plain, if_neg seq, if_neg (not_le.2 far)]
  rfl

end

theorem Management.dropControl_eq (g : Management) :
    g.dropControl = { g with controlDropped := raised g.controlDropped } := by
  rw [dropControl, satInc_eq_raised]

theorem Management.countDuplicate_eq (g : Management) :
    g.countDuplicate = { g with duplicates := raised g.duplicates } := by
  rw [countDuplicate, satInc_eq_raised]

/-! ## The rows (R162-R166) -/

section
variable {s : State} {payload : List Word} {p : ControlPacket}

theorem exec_control_parsed (listening : s.link.ignoring = false) (aligned : s.link.delineation = .aligned)
    (parsed : parseControl payload = some p) : exec (.control payload) s = .next (s.acceptControl p) := by
  simp only [exec, execControl, State.onLink_aligned _ listening aligned, parsed]

theorem exec_control_malformed (listening : s.link.ignoring = false) (aligned : s.link.delineation = .aligned)
    (malformed : parseControl payload = none) :
    exec (.control payload) s = .next
      { s with mgt := { s.mgt with controlDropped := raised s.mgt.controlDropped } } := by
  simp only [exec, execControl, State.onLink_aligned _ listening aligned, malformed, Management.dropControl_eq]

/-- The packet that is next in order, or synchronises, is taken while the command queue has a place; E follows it, and
SYNC empties the history (R162, R163). -/
theorem State.acceptControl_taken (fresh : ∀ q ∈ s.mgt.queue, q.seq ≠ p.seq)
    (next : p.sync = true ∨ p.seq = s.mgt.expected) (room : s.mgt.queue.length < 4) :
    s.acceptControl p = s.accept p (p.seq + 1) (if p.sync then [] else s.mgt.history) := by
  cases sync : p.sync with
  | true =>
    simp only [acceptControl, Management.classify_synchronising fresh sync]
    exact if_pos room
  | false =>
    have seq : p.seq = s.mgt.expected := next.resolve_left (by simp [sync])
    simp only [acceptControl, Management.classify_new fresh sync seq]
    rw [seq]
    exact if_pos room

theorem State.acceptControl_full (fresh : ∀ q ∈ s.mgt.queue, q.seq ≠ p.seq)
    (next : p.sync = true ∨ p.seq = s.mgt.expected) (full : 4 ≤ s.mgt.queue.length) :
    s.acceptControl p = { s with mgt := { s.mgt with controlDropped := raised s.mgt.controlDropped } } := by
  rw [← Management.dropControl_eq]
  cases sync : p.sync with
  | true =>
    simp only [acceptControl, Management.classify_synchronising fresh sync]
    exact if_neg (not_lt.2 full)
  | false =>
    have seq : p.seq = s.mgt.expected := next.resolve_left (by simp [sync])
    simp only [acceptControl, Management.classify_new fresh sync seq]
    exact if_neg (not_lt.2 full)

/-- A packet that joins others waits behind them (R163). -/
theorem State.accept_behind (p : ControlPacket) (expected : Seq) (history : List Reply)
    (behind : 1 ≤ s.mgt.queue.length) :
    s.accept p expected history =
      { s with mgt := { s.mgt with queue := s.mgt.queue ++ [p], expected := expected, history := history } } := by
  refine if_neg fun empty => ?_
  rw [List.isEmpty_iff.1 empty] at behind
  exact absurd behind (by decide)

end

/-- Settles O47: the form check reads exactly the layout, and a packet that is next in order joins or is dropped. -/
theorem controlPacketsJoinTheQueueOrAreDropped : Obligations.ControlPacketsJoinTheQueueOrAreDropped := by
  intro s payload listening aligned
  refine ⟨exec_control_malformed listening aligned, parseControl_malformed, fun p => parseControl_iff,
    fun p parsed fresh next => ⟨fun behind room => ?_, fun full => ?_⟩⟩
  · rw [exec_control_parsed listening aligned parsed, State.acceptControl_taken fresh next room,
      State.accept_behind p _ _ behind]
  · rw [exec_control_parsed listening aligned parsed, State.acceptControl_full fresh next full]

/-! ## Answers (R165, R166) -/

/-- The arbiter's decision changes the transmitter and the lane alone (R184). -/
theorem ReverseTransmitter.arbitrate_eq (x : ReverseTransmitter) :
    x.arbitrate = { x with transmitter := x.arbitrate.transmitter, lane := x.arbitrate.lane } := by
  obtain h | ⟨t, -, -, h⟩ := x.arbitrate_cases <;> rw [h]

/-- An answer changes the reply queue and what the arbiter starts: it is placed where there is a place, and nothing is
done where there is none. -/
theorem State.answer_spec (s : State) (r : Reply) :
    s.answer r = { s with rtx := (s.answer r).rtx }
      ∧ (s.answer r).rtx = { s.rtx with replies := (s.answer r).rtx.replies
                                        transmitter := (s.answer r).rtx.transmitter, lane := (s.answer r).rtx.lane }
      ∧ (8 ≤ s.rtx.replies.length → (s.answer r).rtx = s.rtx)
      ∧ (s.rtx.replies.length < 8 → (s.answer r).rtx.replies = s.rtx.replies ++ [r]) := by
  unfold answer
  split
  · next free =>
    have room := s.rtx.replyFree_iff.1 free
    refine ⟨rfl, ?_, fun full => absurd room (not_lt.2 full), fun _ => by simp [ReverseTransmitter.takeReply]⟩
    exact (ReverseTransmitter.arbitrate_eq _).trans (by rw [ReverseTransmitter.arbitrate_replies]; rfl)
  · next full =>
    exact ⟨rfl, rfl, fun _ => rfl, fun room => absurd (s.rtx.replyFree_iff.2 room) full⟩

section
variable {s : State} {p : ControlPacket}

/-- A duplicate of a packet within distance 8 is counted, and its stored reply sent again or, where the history holds
none, a SEQ reply (R165). -/
theorem State.acceptControl_duplicate (fresh : ∀ q ∈ s.mgt.queue, q.seq ≠ p.seq) (plain : p.sync = false)
    (seq : p.seq ≠ s.mgt.expected) (near : (s.mgt.expected - p.seq).toNat ≤ 8) :
    ∃ r, s.acceptControl p
        = State.answer { s with mgt := { s.mgt with duplicates := raised s.mgt.duplicates } } r
      ∧ (∀ stored, (s.mgt.history.find? fun h => h.seq == p.seq) = some stored → r = { stored with replayed := true })
      ∧ ((∀ h ∈ s.mgt.history, h.seq ≠ p.seq) → r = seqReply p.seq s.mgt.expected) := by
  rw [← Management.countDuplicate_eq]
  cases stored : s.mgt.history.find? fun h => h.seq == p.seq with
  | some r =>
    refine ⟨{ r with replayed := true }, ?_, fun r' same => by cases same; rfl, fun absent => ?_⟩
    · simp only [acceptControl, Management.classify_answered fresh plain seq near stored]
    · have same : r.seq = p.seq := by simpa using List.find?_some stored
      exact absurd same (absent r (List.mem_of_find?_eq_some stored))
  | none =>
    refine ⟨seqReply p.seq s.mgt.expected, ?_, fun _ same => absurd same (by simp), fun _ => rfl⟩
    simp only [acceptControl, Management.classify_unanswered fresh plain seq near stored]

/-- A packet out of order is answered with a SEQ reply where the reply queue has a place, and dropped otherwise
(R166). -/
theorem State.acceptControl_outOfOrder (fresh : ∀ q ∈ s.mgt.queue, q.seq ≠ p.seq) (plain : p.sync = false)
    (seq : p.seq ≠ s.mgt.expected) (far : 8 < (s.mgt.expected - p.seq).toNat) :
    (s.rtx.replies.length < 8 → s.acceptControl p = s.answer (seqReply p.seq s.mgt.expected))
      ∧ (8 ≤ s.rtx.replies.length →
        s.acceptControl p = { s with mgt := { s.mgt with controlDropped := raised s.mgt.controlDropped } }) := by
  rw [← Management.dropControl_eq]
  simp only [acceptControl, Management.classify_outOfOrder fresh plain seq far]
  exact ⟨fun room => if_pos (s.rtx.replyFree_iff.2 room),
    fun full => if_neg fun free => absurd (s.rtx.replyFree_iff.1 free) (not_lt.2 full)⟩

end

/-- Settles O48: each class answers, counts or drops, and none of them executes. -/
theorem oldPacketsAreAnsweredWithoutRunning : Obligations.OldPacketsAreAnsweredWithoutRunning := by
  intro s payload p listening aligned parsed
  rw [exec_control_parsed listening aligned parsed]
  refine ⟨fun queued => ?_, fun fresh plain seq => ⟨_, rfl, ?_⟩⟩
  · rw [State.acceptControl, Management.classify_queued queued, ← Management.countDuplicate_eq]
  · obtain near | far := le_or_gt (s.mgt.expected - p.seq).toNat 8
    · obtain ⟨r, accepted, stored, absent⟩ := State.acceptControl_duplicate fresh plain seq near
      obtain ⟨unit, transmitter, full, room⟩ :=
        State.answer_spec { s with mgt := { s.mgt with duplicates := raised s.mgt.duplicates } } r
      rw [accepted]
      refine ⟨by rw [unit], transmitter, full, fun _ => ⟨by rw [unit], fun r' free found => ?_, fun free none => ?_⟩,
        fun far => absurd near (not_le.2 far)⟩
      · rw [room free, stored r' found]
      · rw [room free, absent none]
        rfl
    · obtain ⟨placed, dropped⟩ := State.acceptControl_outOfOrder fresh plain seq far
      obtain room | full := Nat.lt_or_ge s.rtx.replies.length 8
      · obtain ⟨unit, transmitter, -, joins⟩ := s.answer_spec (seqReply p.seq s.mgt.expected)
        rw [placed room]
        exact ⟨by rw [unit], transmitter, fun full => absurd room (not_lt.2 full),
          fun near => absurd far (not_lt.2 near),
          fun _ => ⟨fun _ => ⟨by rw [unit], joins room⟩, fun full => absurd room (not_lt.2 full)⟩⟩
      · rw [dropped full]
        exact ⟨rfl, rfl, fun _ => rfl, fun near => absurd far (not_lt.2 near),
          fun _ => ⟨fun room => absurd room (not_lt.2 full), fun _ => rfl⟩⟩

end Sys2Proof.Machine
end

