-- ==== Sys2Proof/Proofs/Executions.lean ====
section
/-! PROOFS. O49, O50: the execution of the packet at the head of the command queue. -/

namespace Sys2Proof.Machine

open Claims (entryRow executionStart rowsAfter refused row0 row1 row2 row3)

/-! ## The rows that command entries are (R204) -/

/-- The row of a command with these operands, where the command takes so many. -/
def commandInstr : CommandName → List Word → Option Instr
  | .nop => row0 .nop
  | .identify => row0 .identify
  | .status => row0 .status
  | .setParam => row3 .setParam
  | .clearCounts => row0 .clearCounts
  | .softReset => row0 .softReset
  | .setGeometry => row2 .setGeometry
  | .mapLength => row1 .mapLength
  | .segWrite => Claims.rowRecord 12 .segWrite
  | .ovlWrite => Claims.rowRecord 8 .ovlWrite
  | .ovlClear => row1 .ovlClear
  | .palWrite => Claims.rowPalette
  | .setColours => row2 .setColours
  | .setOutput => row3 .setOutput
  | .copyLiveToPending => row0 .copyLiveToPending
  | .readConfig => row3 .readConfig
  | .commit => row2 .commit
  | .cancelCommit => row0 .cancelCommit
  | .memAddress => row2 .memAddress
  | .memWrite => Claims.rowWords
  | .memRead => row1 .memRead
  | .patchBegin => row0 .patchBegin
  | .patchEnd => row0 .patchEnd
  | .moveFill => Claims.rowFill
  | .moveCopy => Claims.rowCopy
  | .moveAbort => row0 .moveAbort

theorem commandOfCode_of_toNat {code : BitVec 8} {n : Nat} (value : code.toNat = n) :
    commandOfCode code = commandOfCode (BitVec.ofNat 8 n) := by
  rw [← value, BitVec.ofNat_toNat, BitVec.setWidth_eq]

/-- The row of an entry is a row of the command that its code names (R204). -/
theorem entryRow_some {e : CommandEntry} {i : Instr} (h : entryRow e = some i) :
    ∃ c, commandOfCode e.code = some c ∧ commandInstr c e.operands = some i := by
  unfold entryRow at h
  split at h
  case h_27 => cases h
  all_goals
    next value => exact ⟨_, commandOfCode_of_toNat value, h⟩

/-- One code alone names SOFT_RESET (R204). -/
theorem commandOfCode_softReset {code : BitVec 8} (h : commandOfCode code = some .softReset) : code = 0x05 := by
  unfold commandOfCode at h
  split at h <;> cases h
  next value => exact BitVec.eq_of_toNat_eq value

/-- The rows that do more than their command does: SOFT_RESET ends the execution, and MOVE_ABORT ends with the arbiter's
decision (log entry 2). -/
def standsAlone : Instr → Bool
  | .softReset | .moveAbort => true
  | _ => false

/-- The row runs the command with these operands as the next command of the execution under way, or is one of the two
that do more. -/
inductive RowOf (ops : List Word) : CommandName → Instr → Prop
  | command {c : CommandName} {i : Instr} (reset : c ≠ .softReset) (inside : standsAlone i = false)
      (row : ∀ s, exec i s = .next (commandRow c ops s)) : RowOf ops c i
  | reset (empty : ops = []) : RowOf ops .softReset .softReset
  | abort (empty : ops = []) : RowOf ops .moveAbort .moveAbort

section
variable {ops : List Word} {c : CommandName} {i : Instr}

theorem row0_some {r : Instr} (h : row0 r ops = some i) : ops = [] ∧ i = r := by
  unfold row0 at h
  split at h <;> cases h
  exact ⟨rfl, rfl⟩

theorem RowOf.of_row0 {r : Instr} (h : row0 r ops = some i) (reset : c ≠ .softReset) (inside : standsAlone r = false)
    (row : ∀ s, exec r s = .next (commandRow c [] s)) : RowOf ops c i := by
  obtain ⟨rfl, rfl⟩ := row0_some h
  exact .command reset inside row

theorem RowOf.of_row1 {r : Word → Instr} (h : row1 r ops = some i) (reset : c ≠ .softReset)
    (inside : ∀ a, standsAlone (r a) = false) (row : ∀ a s, exec (r a) s = .next (commandRow c [a] s)) :
    RowOf ops c i := by
  unfold row1 at h
  split at h <;> cases h
  exact .command reset (inside _) (row _)

theorem RowOf.of_row2 {r : Word → Word → Instr} (h : row2 r ops = some i) (reset : c ≠ .softReset)
    (inside : ∀ a b, standsAlone (r a b) = false) (row : ∀ a b s, exec (r a b) s = .next (commandRow c [a, b] s)) :
    RowOf ops c i := by
  unfold row2 at h
  split at h <;> cases h
  exact .command reset (inside _ _) (row _ _)

theorem RowOf.of_row3 {r : Word → Word → Word → Instr} (h : row3 r ops = some i) (reset : c ≠ .softReset)
    (inside : ∀ a b d, standsAlone (r a b d) = false)
    (row : ∀ a b d s, exec (r a b d) s = .next (commandRow c [a, b, d] s)) : RowOf ops c i := by
  unfold row3 at h
  split at h <;> cases h
  exact .command reset (inside _ _ _) (row _ _ _)

theorem RowOf.of_record {n : Nat} {r : Word → List Word → Instr} (h : Claims.rowRecord n r ops = some i)
    (reset : c ≠ .softReset) (inside : ∀ a record, standsAlone (r a record) = false)
    (row : ∀ a record s, exec (r a record) s = .next (commandRow c (a :: record) s)) : RowOf ops c i := by
  unfold Claims.rowRecord at h
  split at h
  · split_ifs at h
    cases h
    exact .command reset (inside _ _) (row _ _)
  · cases h

/-- The row that a command with these operands is. -/
theorem commandInstr_rowOf (h : commandInstr c ops = some i) : RowOf ops c i := by
  cases c <;> simp only [commandInstr] at h
  case nop | identify | status | clearCounts | copyLiveToPending | cancelCommit | patchBegin | patchEnd =>
    exact .of_row0 h (by decide) rfl fun _ => rfl
  case mapLength | ovlClear | memRead => exact .of_row1 h (by decide) (fun _ => rfl) fun _ _ => rfl
  case setGeometry | setColours | commit | memAddress =>
    exact .of_row2 h (by decide) (fun _ _ => rfl) fun _ _ _ => rfl
  case setParam | setOutput | readConfig => exact .of_row3 h (by decide) (fun _ _ _ => rfl) fun _ _ _ _ => rfl
  case segWrite | ovlWrite => exact .of_record h (by decide) (fun _ _ => rfl) fun _ _ _ => rfl
  case palWrite =>
    unfold Claims.rowPalette at h
    split at h
    · split_ifs at h
      cases h
      exact .command (by decide) rfl fun _ => rfl
    · cases h
  case memWrite =>
    unfold Claims.rowWords at h
    split_ifs at h
    cases h
    exact .command (by decide) rfl fun _ => rfl
  case moveFill =>
    unfold Claims.rowFill at h
    split at h <;> cases h
    exact .command (by decide) rfl fun _ => rfl
  case moveCopy =>
    unfold Claims.rowCopy at h
    split at h <;> cases h
    exact .command (by decide) rfl fun _ => rfl
  case softReset =>
    obtain ⟨empty, rfl⟩ := row0_some h
    exact .reset empty
  case moveAbort =>
    obtain ⟨empty, rfl⟩ := row0_some h
    exact .abort empty

end

/-- The entry runs as this row, which is no SOFT_RESET. -/
structure CommandEntry.RunsAs (e : CommandEntry) (i : Instr) : Prop where
  plain : commandOfCode e.code ≠ some .softReset
  row : ∀ s, exec i s = .next (State.recordResult (runEntry s e))

theorem runEntry_of_code {e : CommandEntry} {c : CommandName} (code : commandOfCode e.code = some c) (s : State) :
    runEntry s e = runCommand s c e.operands := by
  simp only [runEntry, code]

/-- An entry whose row stands in R204 and acts inside the execution alone runs as that row (R169, R204). -/
theorem CommandEntry.runsAs_of_entryRow {e : CommandEntry} {i : Instr} (h : entryRow e = some i)
    (reset : i ≠ .softReset) (abort : i ≠ .moveAbort) : e.RunsAs i := by
  obtain ⟨c, code, instr⟩ := entryRow_some h
  cases commandInstr_rowOf instr with
  | command plain _ row =>
    refine ⟨by simpa [code] using plain, fun s => ?_⟩
    rw [row, commandRow, runEntry_of_code code]
  | reset => exact absurd rfl reset
  | abort => exact absurd rfl abort

theorem entryRow_softReset {e : CommandEntry} (code : commandOfCode e.code = some .softReset)
    (count : countAllowed .softReset e.operands.length = true) : entryRow e = some .softReset := by
  have empty : e.operands = [] := List.length_eq_zero_iff.1 (Nat.le_zero.1 (countAllowed_iff.1 count).2)
  rw [entryRow, commandOfCode_softReset code, empty]
  rfl

/-- An entry that is a SOFT_RESET resets the part, and its result is OK (R178, R204). -/
theorem runEntry_of_softReset {e : CommandEntry} (h : entryRow e = some .softReset) :
    commandOfCode e.code = some .softReset ∧ ∀ s, runEntry s e = (s.softReset, okResult []) := by
  obtain ⟨c, code, instr⟩ := entryRow_some h
  cases commandInstr_rowOf instr with
  | command _ inside _ => cases inside
  | reset empty => exact ⟨code, fun s => by rw [runEntry_of_code code, empty]; rfl⟩

/-- An entry that is a MOVE_ABORT aborts the operation (R153, R204). -/
theorem runEntry_of_moveAbort {e : CommandEntry} (h : entryRow e = some .moveAbort) (s : State) :
    runEntry s e = s.moveAbort := by
  obtain ⟨c, code, instr⟩ := entryRow_some h
  cases commandInstr_rowOf instr with
  | command _ inside _ => cases inside
  | abort empty => rw [runEntry_of_code code, empty]; rfl

/-! ## The commands of a packet (R169, R170) -/

theorem runEntries_cons (e : CommandEntry) (es : List CommandEntry) (s : State) :
    runEntries (e :: es) s =
      if endsExecution e (runEntry s e).2 then State.recordResult (runEntry s e)
      else runEntries es (State.recordResult (runEntry s e)) :=
  rfl

theorem endsExecution_iff {e : CommandEntry} {r : Result} :
    endsExecution e r = true ↔ r.status ≠ .ok ∨ commandOfCode e.code = some .softReset := by
  simp [endsExecution]

theorem recordResult_runEntry_results (s : State) (e : CommandEntry) :
    (State.recordResult (runEntry s e)).mgt.results = s.mgt.results ++ [(runEntry s e).2] := by
  rw [← (runEntry_answers s e).2]
  rfl

/-- No entry but a SOFT_RESET changes the command queue or the reply queue. -/
theorem runEntry_queue_replies (s : State) {e : CommandEntry} (plain : entryRow e ≠ some .softReset) :
    (runEntry s e).1.mgt.queue = s.mgt.queue ∧ (runEntry s e).1.rtx.replies = s.rtx.replies := by
  obtain ⟨c, code, count, he⟩ | ⟨c, -, -, he⟩ | ⟨-, he⟩ := runEntry_cases s e <;> rw [he]
  · refine (runOwner_effect s c e.operands).queue_replies ?_
    rintro rfl
    exact plain (entryRow_softReset code count)
  · exact ⟨rfl, rfl⟩
  · exact ⟨rfl, rfl⟩

/-- The commands of a packet leave both queues alone, unless one of them is a SOFT_RESET: then only the packet under
execution is left, and no reply (R179, R195). -/
theorem runEntries_queue_replies (es : List CommandEntry) (s : State) :
    ((runEntries es s).mgt.queue = s.mgt.queue ∧ (runEntries es s).rtx.replies = s.rtx.replies)
      ∨ ((∃ e ∈ es, entryRow e = some .softReset)
          ∧ (runEntries es s).mgt.queue = s.mgt.queue.take 1 ∧ (runEntries es s).rtx.replies = []) := by
  induction es generalizing s with
  | nil => exact .inl ⟨rfl, rfl⟩
  | cons e es ih =>
    rw [runEntries_cons]
    by_cases reset : entryRow e = some .softReset
    · obtain ⟨code, reset'⟩ := runEntry_of_softReset reset
      rw [if_pos (endsExecution_iff.2 (.inr code)), reset']
      exact .inr ⟨⟨e, List.mem_cons_self, reset⟩, rfl, rfl⟩
    · obtain ⟨queue, replies⟩ := runEntry_queue_replies s reset
      split
      · exact .inl ⟨queue, replies⟩
      · obtain ⟨queue', replies'⟩ | ⟨⟨e', mem, row⟩, queue', replies'⟩ := ih (State.recordResult (runEntry s e))
        · exact .inl ⟨queue'.trans queue, replies'.trans replies⟩
        · exact .inr ⟨⟨e', List.mem_cons_of_mem e mem, row⟩, queue'.trans (congrArg (List.take 1) queue), replies'⟩

/-- Rows give one result each, and leave the command queue. -/
theorem rowsAfter_results {ran : List CommandEntry} {rows : List Instr}
    (pairs : List.Forall₂ CommandEntry.RunsAs ran rows) {s u : State} (h : rowsAfter s rows = some u) :
    ∃ more, u.mgt.results = s.mgt.results ++ more ∧ more.length = ran.length ∧ u.mgt.queue = s.mgt.queue := by
  induction pairs generalizing s with
  | nil =>
    cases h
    exact ⟨[], (List.append_nil _).symm, rfl, rfl⟩
  | @cons e i ran rows pair _ ih =>
    rw [rowsAfter_cons rows (pair.row s)] at h
    obtain ⟨more, results, length, queue⟩ := ih h
    refine ⟨(runEntry s e).2 :: more, ?_, by rw [List.length_cons, List.length_cons, length], ?_⟩
    · rw [results, recordResult_runEntry_results, List.append_assoc, List.singleton_append]
    · have plain : entryRow e ≠ some .softReset := fun row => pair.plain (runEntry_of_softReset row).1
      exact queue.trans (runEntry_queue_replies s plain).1

/-- Entries that run as these rows, up to the first that is not OK, are what the execution runs (R169, R170). -/
theorem runEntries_eq_of_rows {ran later : List CommandEntry} {rows : List Instr}
    (pairs : List.Forall₂ CommandEntry.RunsAs ran rows) {s u : State} (h : rowsAfter s rows = some u)
    (fresh : ∀ x ∈ s.mgt.results, x.status = .ok) (before : ∀ x ∈ u.mgt.results.dropLast, x.status = .ok)
    (stop : later = [] ∨ ∃ x, u.mgt.results.getLast? = some x ∧ x.status ≠ .ok) :
    runEntries (ran ++ later) s = u := by
  induction pairs generalizing s with
  | nil =>
    cases h
    obtain rfl | ⟨x, last, bad⟩ := stop
    · rfl
    · exact absurd (fresh x (List.mem_of_getLast? last)) bad
  | @cons e i ran rows pair pairs ih =>
    rw [rowsAfter_cons rows (pair.row s)] at h
    rw [List.cons_append, runEntries_cons]
    by_cases ends : (runEntry s e).2.status = .ok
    · rw [if_neg fun no => (endsExecution_iff.1 no).elim (· ends) pair.plain]
      refine ih h fun x mem => ?_
      rw [recordResult_runEntry_results] at mem
      obtain old | new := List.mem_append.1 mem
      · exact fresh x old
      · rw [List.mem_singleton.1 new, ends]
    · rw [if_pos (endsExecution_iff.2 (.inl ends))]
      obtain ⟨more, results, length, -⟩ := rowsAfter_results pairs h
      cases pairs with
      | nil => exact Option.some.inj h
      | cons =>
        refine absurd (before _ ?_) ends
        have nonempty : more ≠ [] := by rintro rfl; cases length
        rw [results, List.dropLast_append_of_ne_nil nonempty, recordResult_runEntry_results]
        simp

/-- After a command E still follows the packet under execution, if it did before (R163, R179). -/
theorem OwnerEffect.follows {s t : State} {c : CommandName} {p : ControlPacket} (h : OwnerEffect s c t)
    (head : s.mgt.queue.head? = some p) (follows : s.mgt.expected = p.seq + 1) : t.mgt.expected = p.seq + 1 := by
  obtain ⟨rest, queue⟩ := List.head?_eq_some_iff.1 head
  cases h
  case reset => exact Management.softReset_expected queue
  all_goals exact follows

/-! ## The execution of the packet at the head (R168-R171) -/

theorem State.executePacket_eq (s : State) (p : ControlPacket) :
    s.executePacket p = (runEntries p.entries (executionStart s)).endExecution :=
  rfl

/-- The reply that the execution of the packet forms (R171). -/
def executionReply (s : State) (p : ControlPacket) : Reply :=
  formReply p (runEntries p.entries (executionStart s)).mgt.results

/-- One result for each entry (R170, R171). -/
theorem formReply_results_length {p : ControlPacket} {results : List Result} (h : results.length ≤ p.entries.length) :
    (formReply p results).results.length = p.entries.length := by
  simp [formReply, h]

theorem executionReply_results_length (s : State) (p : ControlPacket) :
    (executionReply s p).results.length = p.entries.length := by
  refine formReply_results_length ?_
  have start : (executionStart s).mgt.Bounded := ⟨0, 0, rfl, le_rfl, le_rfl, Nat.zero_le _⟩
  simpa [executionStart] using (runEntries_bounded p.entries start).2

/-- No further execution follows where no packet is left, or no place for its reply (R168). -/
theorem executeWhileReady_stops {s : State} (fuel : Nat) (h : s.mgt.queue = [] ∨ 8 ≤ s.rtx.replies.length) :
    executeWhileReady fuel s = s := by
  cases fuel with
  | zero => rfl
  | succ fuel =>
    unfold executeWhileReady
    split
    · rfl
    · next p rest queue =>
      have full := h.resolve_left (by simp [queue])
      exact if_neg fun free => absurd (s.rtx.replyFree_iff.1 free) (not_lt.2 full)

@[simp] theorem State.endExecution_readTotal (s : State) : s.endExecution.mgt.readTotal = 0 := by
  unfold endExecution; split <;> rfl

@[simp] theorem State.endExecution_results (s : State) : s.endExecution.mgt.results = [] := by
  unfold endExecution; split <;> rfl

/-- Executions leave the sender's queue of waiting commands. -/
theorem State.executePacket_pending (s : State) (p : ControlPacket) : (s.executePacket p).pending = s.pending := by
  rw [executePacket_eq, endExecution_eq]
  exact runEntries_induct (P := fun t => t.pending = s.pending) (fun t c ops h => (runOwner_pending t c ops).trans h)
    (fun _ _ h => h) p.entries _ rfl

section
variable {s : State} {p : ControlPacket} {rest : List ControlPacket}

/-- The packet leaves the command queue, and its reply joins as the youngest; a SOFT_RESET among its commands takes the
packets behind it and the replies before its own (R171, R179, R195). -/
theorem State.executePacket_queues (queue : s.mgt.queue = p :: rest) :
    ((s.executePacket p).mgt.queue = rest
        ∧ (s.executePacket p).rtx.replies = s.rtx.replies ++ [executionReply s p])
      ∨ ((∃ e ∈ p.entries, entryRow e = some .softReset)
        ∧ (s.executePacket p).mgt.queue = [] ∧ (s.executePacket p).rtx.replies = [executionReply s p]) := by
  have start : (executionStart s).mgt.queue = p :: rest := queue
  rw [executePacket_eq]
  obtain ⟨queue', replies⟩ | ⟨reset, queue', replies⟩ := runEntries_queue_replies p.entries (executionStart s)
  · rw [start] at queue'
    rw [endExecution_cons queue', ReverseTransmitter.takeReply, replies]
    exact .inl ⟨rfl, rfl⟩
  · rw [start] at queue'
    rw [endExecution_cons queue', ReverseTransmitter.takeReply, replies]
    exact .inr ⟨reset, rfl, rfl⟩

/-- The packet at the head executes alone, where it is the only one or its reply takes the last place (R168). -/
theorem State.executeReady_head (queue : s.mgt.queue = p :: rest) (room : s.rtx.replies.length < 8)
    (alone : rest = [] ∨ s.rtx.replies.length = 7) : s.executeReady = s.executePacket p := by
  have stops : (s.executePacket p).mgt.queue = [] ∨ 8 ≤ (s.executePacket p).rtx.replies.length := by
    obtain ⟨left, replies⟩ | ⟨-, left, -⟩ := State.executePacket_queues queue
    · refine alone.imp (fun h => left.trans h) fun h => ?_
      rw [replies, List.length_append, h]
      rfl
    · exact .inl left
  rw [executeReady, queue, List.length_cons, executeWhileReady, queue]
  exact (if_pos (s.rtx.replyFree_iff.2 room)).trans (executeWhileReady_stops _ stops)

theorem exec_execution_head (queue : s.mgt.queue = p :: rest) (room : s.rtx.replies.length < 8)
    (alone : rest = [] ∨ s.rtx.replies.length = 7) : exec .execution s = .next (s.executePacket p).arbitrate := by
  have free : s.rtx.replyFree = true := s.rtx.replyFree_iff.2 room
  rw [← State.executeReady_head queue room alone]
  exact if_pos (by rw [queue, free]; rfl)

/-- The reply is the youngest in the history and in the reply queue (R171). -/
theorem State.executePacket_youngest (queue : s.mgt.queue = p :: rest) :
    (s.executePacket p).mgt.history.getLast? = some (executionReply s p)
      ∧ (s.executePacket p).rtx.replies.getLast? = some (executionReply s p) := by
  refine ⟨State.executePacket_history queue, ?_⟩
  obtain ⟨-, replies⟩ | ⟨-, -, replies⟩ := State.executePacket_queues queue
  · rw [replies, List.getLast?_concat]
  · rw [replies, List.getLast?_singleton]

end

/-! ## What an execution runs are the rows of the table (R169, R204) -/

theorem forall₂_runsAs {ran : List CommandEntry} {rows : List Instr} (pairs : ran.map entryRow = rows.map some)
    (reset : .softReset ∉ rows) (abort : .moveAbort ∉ rows) : List.Forall₂ CommandEntry.RunsAs ran rows := by
  induction ran generalizing rows with
  | nil =>
    rw [List.map_eq_nil_iff.1 pairs.symm]
    exact .nil
  | cons e ran ih =>
    cases rows with
    | nil => cases pairs
    | cons i rows =>
      obtain ⟨row, pairs⟩ := List.cons.inj pairs
      rw [List.mem_cons, not_or] at reset abort
      exact .cons (CommandEntry.runsAs_of_entryRow row (Ne.symm reset.1) (Ne.symm abort.1)) (ih pairs reset.2 abort.2)

section
variable {s u : State} {p : ControlPacket} {rest : List ControlPacket}

/-- The state at the end of an execution, before the arbiter decides, by the state that its commands leave (R171). -/
theorem State.executePacket_of_runEntries (ran : runEntries p.entries (executionStart s) = u)
    (queue : u.mgt.queue = p :: rest) :
    s.executePacket p =
      { u with mgt := { u.mgt with queue := rest, history := enterHistory u.mgt.history (executionReply s p)
                                   readTotal := 0, results := [] }
               rtx := u.rtx.takeReply (executionReply s p) } := by
  subst ran
  rw [executePacket_eq, endExecution_cons queue]
  rfl

/-- The results of the commands that ran, and NOT_RUN for the entries behind them (R170). -/
theorem executionReply_results {later : List CommandEntry} (ran : runEntries p.entries (executionStart s) = u)
    (length : p.entries.length = u.mgt.results.length + later.length) :
    (executionReply s p).results = u.mgt.results ++ List.replicate later.length (refused .notRun) := by
  subst ran
  rw [executionReply, formReply, length, Nat.add_sub_cancel_left]
  rfl

/-- Entries that run as rows leave every block but the management unit and the reply queue as those rows do. -/
theorem State.executePacket_of_rows {ran later : List CommandEntry} {rows : List Instr}
    (queue : s.mgt.queue = p :: rest) (entries : p.entries = ran ++ later) (pairs : ran.map entryRow = rows.map some)
    (reset : .softReset ∉ rows) (abort : .moveAbort ∉ rows) (run : rowsAfter (executionStart s) rows = some u)
    (before : ∀ x ∈ u.mgt.results.dropLast, x.status = .ok)
    (stop : later = [] ∨ ∃ x, u.mgt.results.getLast? = some x ∧ x.status ≠ .ok) :
    s.executePacket p =
        { u with mgt := { u.mgt with queue := rest, history := enterHistory u.mgt.history (executionReply s p)
                                     readTotal := 0, results := [] }
                 rtx := u.rtx.takeReply (executionReply s p) }
      ∧ (executionReply s p).results = u.mgt.results ++ List.replicate later.length (refused .notRun) := by
  have rowsOf := forall₂_runsAs pairs reset abort
  have ranTo : runEntries p.entries (executionStart s) = u := by
    rw [entries]
    exact runEntries_eq_of_rows rowsOf run (fun x mem => absurd mem List.not_mem_nil) before stop
  obtain ⟨more, results, length, same⟩ := rowsAfter_results rowsOf run
  have ranLength : u.mgt.results.length = ran.length := by rw [results]; exact length
  exact ⟨State.executePacket_of_runEntries ranTo (same.trans queue),
    executionReply_results ranTo (by rw [entries, List.length_append, ranLength])⟩

/-- A packet of one MOVE_ABORT has that command's effect and result, and no other (R153). -/
theorem State.executePacket_of_moveAbort {e : CommandEntry} (queue : s.mgt.queue = p :: rest)
    (entries : p.entries = [e]) (row : entryRow e = some .moveAbort)
    (ends : u = State.recordResult (executionStart s).moveAbort) :
    s.executePacket p =
        { u with mgt := { u.mgt with queue := rest, history := enterHistory u.mgt.history (executionReply s p)
                                     readTotal := 0, results := [] }
                 rtx := u.rtx.takeReply (executionReply s p) }
      ∧ (executionReply s p).results = u.mgt.results := by
  have record : u = State.recordResult (runEntry (executionStart s) e) := by rw [ends, runEntry_of_moveAbort row]
  have ran : runEntries p.entries (executionStart s) = u := by
    rw [entries, runEntries_cons, record]
    exact ite_self _
  have results : u.mgt.results = [(runEntry (executionStart s) e).2] := by
    rw [record, recordResult_runEntry_results]
    rfl
  have same : u.mgt.queue = p :: rest := by
    rw [record]
    exact (runEntry_queue_replies _ (by rw [row]; decide)).1.trans queue
  refine ⟨State.executePacket_of_runEntries ran same, ?_⟩
  rw [executionReply_results (later := []) ran (by rw [entries, results]; rfl), List.length_nil, List.replicate_zero,
    List.append_nil]

/-- A packet of one SOFT_RESET is that row (R178, R179). -/
theorem exec_softReset_of_entry {e : CommandEntry} (entries : p.entries = [e]) (row : entryRow e = some .softReset) :
    exec .softReset (executionStart s) = .next (s.executePacket p).arbitrate := by
  have ran : runEntries [e] (executionStart s) = State.recordResult ((executionStart s).softReset, okResult []) := by
    rw [runEntries_cons, (runEntry_of_softReset row).2]
    exact ite_self _
  rw [exec_softReset, State.executePacket_eq, entries, ran]

/-- Where E follows the packet when its execution begins, it does at its end (R163, R179). -/
theorem State.executePacket_expected (queue : s.mgt.queue = p :: rest) (expected : s.mgt.expected = p.seq + 1) :
    (s.executePacket p).mgt.expected = p.seq + 1 := by
  have kept : (runEntries p.entries (executionStart s)).mgt.queue.head? = some p
      ∧ (runEntries p.entries (executionStart s)).mgt.expected = p.seq + 1 := by
    refine runEntries_induct (P := fun t => t.mgt.queue.head? = some p ∧ t.mgt.expected = p.seq + 1)
      (fun t c ops h => ?_) (fun _ _ h => h) p.entries _ ⟨congrArg List.head? queue, expected⟩
    obtain ⟨head, follows⟩ := h
    have effect := runOwner_effect t c ops
    exact ⟨effect.head.trans head, effect.follows head follows⟩
  obtain ⟨head, follows⟩ := kept
  obtain ⟨rest', queue'⟩ := List.head?_eq_some_iff.1 head
  rw [executePacket_of_runEntries rfl queue']
  exact follows

end

/-- A packet that is accepted into an empty command queue, with a place for its reply, executes at once (R168; log
entry 1). -/
theorem State.accept_empty {s : State} (p : ControlPacket) (expected : Seq) (history : List Reply)
    (empty : s.mgt.queue = []) (room : s.rtx.replies.length < 8) :
    s.accept p expected history =
      (State.executePacket
        { s with mgt := { s.mgt with queue := [p], expected := expected, history := history } } p).arbitrate := by
  rw [accept, empty, List.nil_append]
  exact congrArg State.arbitrate (State.executeReady_head (p := p) rfl room (.inl rfl))

/-- A packet that is next in order executes at once where the command queue is empty: with only itself in the queue, and
E behind it (R163, R168; log entry 1). -/
theorem exec_control_executes {s : State} {p : ControlPacket} {payload : List Word}
    (listening : s.link.ignoring = false) (aligned : s.link.delineation = .aligned)
    (parsed : parseControl payload = some p) (empty : s.mgt.queue = [])
    (next : p.sync = true ∨ p.seq = s.mgt.expected) (room : s.rtx.replies.length < 8) :
    ∃ t : State, exec (.control payload) s = .next (t.executePacket p).arbitrate ∧ t.mgt.queue = [p]
      ∧ t.mgt.expected = p.seq + 1 := by
  have fresh : ∀ q ∈ s.mgt.queue, q.seq ≠ p.seq := by simp [empty]
  rw [exec_control_parsed listening aligned parsed, State.acceptControl_taken fresh next (by simp [empty]),
    State.accept_empty p _ _ empty room]
  exact ⟨_, rfl, rfl, rfl⟩

/-! ## Entries that fail a check (R170) -/

/-- An entry that a check refuses ends the execution (R170). -/
theorem runEntries_refused {e : CommandEntry} {status : Status} {s : State} (es : List CommandEntry)
    (check : runEntry s e = (s, refusal status)) (bad : status ≠ .ok) :
    runEntries (e :: es) s = State.recordResult (s, refusal status) := by
  rw [runEntries_cons, check, if_pos (endsExecution_iff.2 (.inl bad))]

/-- A BUSY transmitter is left alone by the arbiter (R184). -/
theorem State.arbitrate_of_busy {s : State} {x : Transmission} (busy : s.rtx.transmitter = some x) :
    s.arbitrate = s := by
  rw [arbitrate, ReverseTransmitter.arbitrate_busy busy]

/-- A packet whose first entry a check refuses: its reply is formed, and nothing else changes (R170, R171). -/
theorem exec_execution_refused {s : State} {p : ControlPacket} {e : CommandEntry} {es : List CommandEntry}
    {x : Transmission} {status : Status} (queue : s.mgt.queue = [p]) (entries : p.entries = e :: es)
    (room : s.rtx.replies.length < 8) (busy : s.rtx.transmitter = some x)
    (check : runEntry (executionStart s) e = (executionStart s, refusal status)) (bad : status ≠ .ok) :
    exec .execution s = .next
        { s with mgt := { s.mgt with queue := [], history := enterHistory s.mgt.history (executionReply s p)
                                     readTotal := 0, results := [] }
                 rtx := { s.rtx with replies := s.rtx.replies ++ [executionReply s p] } }
      ∧ (executionReply s p).status = status
      ∧ (executionReply s p).results = refused status :: List.replicate es.length (refused .notRun) := by
  have ran : runEntries p.entries (executionStart s) = State.recordResult (executionStart s, refusal status) := by
    rw [entries, runEntries_refused es check bad]
  refine ⟨?_, ?_, ?_⟩
  · rw [exec_execution_single queue room, State.executePacket_of_runEntries ran queue]
    exact congrArg Host.Outcome.next (State.arbitrate_of_busy (x := x) busy)
  · rw [executionReply, ran]
    rfl
  · exact executionReply_results ran (by rw [entries, List.length_cons, Nat.add_comm]; rfl)

/-! ## The statements -/

/-- Settles O49: the head executes alone; its commands are those of the rows, and its reply is formed at their end. -/
theorem anExecutionProducesExactlyOneReply : Obligations.AnExecutionProducesExactlyOneReply := by
  intro s p room
  refine ⟨fun rest queue alone => ?_, fun payload listening aligned parsed empty next => ?_⟩
  · obtain ⟨history, replies⟩ := State.executePacket_youngest queue
    refine ⟨_, executionReply s p, exec_execution_head queue room alone, State.endExecution_readTotal _,
      State.endExecution_results _, rfl, rfl, rfl, executionReply_results_length s p, history, by simpa using replies,
      ?_, ?_, State.executePacket_pending s p, ?_, ?_, ?_⟩
    · simpa using (State.executePacket_queues queue).imp_right And.right
    · intro plain
      obtain kept | ⟨⟨e, mem, reset⟩, -⟩ := State.executePacket_queues queue
      · simpa using kept
      · exact absurd reset (plain e mem)
    · intro ran later rows u entries pairs reset abort run before stop
      obtain ⟨after, results⟩ :=
        State.executePacket_of_rows queue entries pairs reset abort run before stop
      rw [after]
      exact ⟨rfl, rfl, rfl, rfl, rfl, rfl, rfl, by simp [ReverseTransmitter.takeReply],
        by simp [ReverseTransmitter.takeReply], rfl, results⟩
    · intro e u entries row run
      rw [exec_moveAbort] at run
      obtain rfl := Host.Outcome.next.inj run
      obtain ⟨after, results⟩ := State.executePacket_of_moveAbort queue entries row rfl
      rw [after]
      exact ⟨rfl, rfl, rfl, rfl, rfl, rfl, rfl, by simp [ReverseTransmitter.takeReply],
        by simp [ReverseTransmitter.takeReply], results⟩
    · exact fun e entries row => exec_softReset_of_entry entries row
  · obtain ⟨t, run, queue, follows⟩ := exec_control_executes listening aligned parsed empty next room
    obtain ⟨history, replies⟩ := State.executePacket_youngest queue
    refine ⟨_, executionReply t p, run, ?_, State.executePacket_expected queue follows, rfl,
      executionReply_results_length t p, history, by simpa using replies⟩
    obtain ⟨left, -⟩ | ⟨-, left, -⟩ := State.executePacket_queues queue <;> exact left

/-- Settles O50: either check leaves the state as it was, and its status ends the execution. -/
theorem aFailedCheckEndsTheExecution : Obligations.AFailedCheckEndsTheExecution := by
  intro s p e es x queue entries room busy fails
  obtain unknown | ⟨c, code, count⟩ := fails
  · have check : runEntry (executionStart s) e = (executionStart s, refusal .unknown) := by
      simp only [runEntry, unknown]
    obtain ⟨run, status, results⟩ := exec_execution_refused queue entries room busy check (by decide)
    exact ⟨_, _, .unknown, run, fun _ => rfl, absurd unknown, status, results, rfl, rfl, rfl, rfl, rfl, rfl⟩
  · have check : runEntry (executionStart s) e = (executionStart s, refusal .length) := by
      rw [runEntry_of_code code, runCommand, count]
      rfl
    obtain ⟨run, status, results⟩ := exec_execution_refused queue entries room busy check (by decide)
    exact ⟨_, _, .length, run, fun unknown => absurd (code.symm.trans unknown) (by simp), fun _ => rfl, status, results,
      rfl, rfl, rfl, rfl, rfl, rfl⟩

end Sys2Proof.Machine
end

