-- ==== Sys2Proof/Proofs/Completions.lean ====
section
/-! PROOFS. O52: the completion of a transmission. -/

namespace Sys2Proof.Machine

open Claims (servesHead)

/-! ## The arbiter at the end of a transmission (R184, R185) -/

/-- The arbiter serves the head of the queues as they stand at the end of a completion (R185). -/
theorem ReverseTransmitter.release_servesHead {before x : ReverseTransmitter} (lane : x.lane = before.lane) :
    servesHead before x.release := by
  have serves : servesHead { x with transmitter := none } x.release := arbitrate_servesHead rfl
  simpa only [servesHead, lane] using serves

/-- A completion and a decision of the arbiter differ in the transmitter and the lane alone. -/
theorem ReverseTransmitter.release_eq (x : ReverseTransmitter) :
    x.release = { x.arbitrate with transmitter := x.release.transmitter, lane := x.release.lane } := by
  have released := arbitrate_eq { x with transmitter := none }
  rw [x.arbitrate_eq]
  exact released

section
variable (x : ReverseTransmitter)

@[simp] theorem ReverseTransmitter.release_notices : x.release.notices = x.notices := by simp [release]
@[simp] theorem ReverseTransmitter.release_replies : x.release.replies = x.replies := by simp [release]
@[simp] theorem ReverseTransmitter.release_reports : x.release.reports = x.reports := by simp [release]
@[simp] theorem ReverseTransmitter.release_noticesLost : x.release.noticesLost = x.noticesLost := by simp [release]
@[simp] theorem ReverseTransmitter.release_reportsLost : x.release.reportsLost = x.reportsLost := by simp [release]

/-! The place of what was sent is freed, and every other one is kept (R185, R195). -/

variable (q : Option ReverseQueue)

theorem ReverseTransmitter.dropSent_notices :
    (x.dropSent q).notices = if q = some .notice then x.notices.drop 1 else x.notices := by
  obtain _ | q := q
  · rfl
  · cases q <;> simp [dropSent]

theorem ReverseTransmitter.dropSent_replies :
    (x.dropSent q).replies = if q = some .reply then x.replies.drop 1 else x.replies := by
  obtain _ | q := q
  · rfl
  · cases q <;> simp [dropSent]

theorem ReverseTransmitter.dropSent_reports :
    (x.dropSent q).reports = if q = some .report then x.reports.drop 1 else x.reports := by
  obtain _ | q := q
  · rfl
  · cases q <;> simp [dropSent]

theorem ReverseTransmitter.dropSent_rest :
    (x.dropSent q).lane = x.lane ∧ (x.dropSent q).noticesLost = x.noticesLost
      ∧ (x.dropSent q).reportsLost = x.reportsLost := by
  obtain _ | q := q
  · exact ⟨rfl, rfl, rfl⟩
  · cases q <;> exact ⟨rfl, rfl, rfl⟩

end

/-! ## The lane during executions -/

/-- Nothing is started on the lane by a command (log entry 2). -/
theorem OwnerEffect.lane {s t : State} {c : CommandName} (h : OwnerEffect s c t) : t.rtx.lane = s.rtx.lane := by
  cases h
  case aborted n => exact ReverseTransmitter.takeNotice_lane _ n
  all_goals rfl

theorem State.endExecution_lane (s : State) : s.endExecution.rtx.lane = s.rtx.lane := by
  unfold endExecution; split <;> rfl

theorem State.executePacket_lane (s : State) (p : ControlPacket) : (s.executePacket p).rtx.lane = s.rtx.lane := by
  rw [executePacket_eq, endExecution_lane]
  exact runEntries_induct (P := fun t => t.rtx.lane = s.rtx.lane)
    (fun t c ops h => (runOwner_effect t c ops).lane.trans h) (fun _ _ h => h) p.entries _ rfl

/-! ## The row -/

section
variable {s : State} {x : Transmission}

/-- With no packet waiting, or when no reply was sent, no execution follows (R185). -/
theorem exec_transmissionCompletion_frees (busy : s.rtx.transmitter = some x)
    (calm : s.mgt.queue = [] ∨ x.queue ≠ some .reply) :
    exec .transmissionCompletion s = .next { s with rtx := (s.rtx.dropSent x.queue).release } := by
  have after : State.afterSent { s with rtx := s.rtx.dropSent x.queue } x.queue
      = { s with rtx := s.rtx.dropSent x.queue } := by
    unfold State.afterSent
    split
    · next reply => exact executeWhileReady_stops _ (.inl (calm.resolve_right (absurd reply)))
    · rfl
  simp only [exec, execTransmissionCompletion, busy, after]

/-- The state in which the oldest reply has left its place (R185, step 1). -/
def State.replySent (s : State) : State :=
  { s with rtx := { s.rtx with replies := s.rtx.replies.drop 1 } }

theorem State.replySent_eq (s : State) : s.replySent = { s with rtx := s.rtx.dropSent (some .reply) } := by
  rw [replySent, List.drop_one]
  rfl

/-- A reply sent from a full reply queue makes the place in which the waiting packet executes (R168, R185). -/
theorem exec_transmissionCompletion_executes {p : ControlPacket} {rest : List ControlPacket}
    (busy : s.rtx.transmitter = some x) (reply : x.queue = some .reply) (queue : s.mgt.queue = p :: rest)
    (full : s.rtx.replies.length = 8) :
    exec .execution s.replySent = .next (s.replySent.executePacket p).arbitrate
      ∧ exec .transmissionCompletion s = .next
          { s.replySent.executePacket p with rtx := (s.replySent.executePacket p).rtx.release } := by
  have left : s.replySent.rtx.replies.length = 7 := by
    change (s.rtx.replies.drop 1).length = 7
    rw [List.length_drop, full]
  have room : s.replySent.rtx.replies.length < 8 := by omega
  have after : State.afterSent { s with rtx := s.rtx.dropSent x.queue } x.queue = s.replySent.executePacket p := by
    rw [State.afterSent, if_pos reply, reply, ← State.replySent_eq,
      State.executeReady_head (s := s.replySent) queue room (.inr left)]
  exact ⟨exec_execution_head (s := s.replySent) queue room (.inr left),
    by simp only [exec, execTransmissionCompletion, busy, after]⟩

end

/-- Settles O52: the arbiter decides last, over the queues without what was sent and with what executed in its place. -/
theorem aCompletionFreesAPlaceAndServesInOrder : Obligations.ACompletionFreesAPlaceAndServesInOrder := by
  intro s x busy
  refine ⟨fun calm => ?_, fun p rest reply queue full => ?_⟩
  · obtain ⟨lane, noticesLost, reportsLost⟩ := s.rtx.dropSent_rest x.queue
    refine ⟨_, exec_transmissionCompletion_frees busy calm, rfl, ?_, ?_, ?_, ?_, ?_,
      ReverseTransmitter.release_servesHead lane⟩
    · rw [ReverseTransmitter.release_notices, ReverseTransmitter.dropSent_notices]
    · rw [ReverseTransmitter.release_replies, ReverseTransmitter.dropSent_replies]
    · rw [ReverseTransmitter.release_reports, ReverseTransmitter.dropSent_reports]
    · rw [ReverseTransmitter.release_noticesLost, noticesLost]
    · rw [ReverseTransmitter.release_reportsLost, reportsLost]
  · obtain ⟨execution, completion⟩ := exec_transmissionCompletion_executes busy reply queue full
    have sent : s.replySent.mgt.queue = p :: rest := queue
    have queues := State.executePacket_queues sent
    obtain ⟨history, youngest⟩ := State.executePacket_youngest sent
    refine ⟨_, _, executionReply s.replySent p, execution, completion, ?_, rfl, executionReply_results_length _ p,
      history, ?_, ?_, ?_, ReverseTransmitter.release_servesHead (State.executePacket_lane _ p)⟩
    · conv_lhs => rw [ReverseTransmitter.release_eq]
      rfl
    · rw [ReverseTransmitter.release_replies, youngest]
    · intro plain
      rw [ReverseTransmitter.release_replies]
      obtain kept | ⟨⟨e, mem, reset⟩, -⟩ := queues
      · exact kept
      · exact absurd reset (plain e mem)
    · rw [ReverseTransmitter.release_replies]
      exact queues.imp_right And.right

end Sys2Proof.Machine
end

section
/-! PROOFS. O1, O2: a step runs the front of the queue, and every row answers a next state and keeps the queue. -/

namespace Sys2Proof.Machine

/-! ## A step -/

/-- Settles O1: the front of a queue that is not empty runs on the rest. -/
theorem stepRunsTheCommandAtTheFront : Obligations.StepRunsTheCommandAtTheFront :=
  fun _ _ => rfl

/-! ## Every row answers a next state

The rows with branches, one lemma each: a branch is a next state, whether the event comes about or has no effect. -/

section Answers

variable (s : State)

theorem State.onLink_answers (event : State → State) : ∃ t, s.onLink event = .next t := by
  cases receives : s.link.receives
  · exact ⟨_, onLink_deaf event receives⟩
  · exact ⟨_, onLink_receiving event receives⟩

theorem execInitialisationComplete_answers : ∃ t, execInitialisationComplete s = .next t := by
  unfold execInitialisationComplete
  split <;> exact ⟨_, rfl⟩

theorem execStartMarkerInHunt_answers : ∃ t, execStartMarkerInHunt s = .next t := by
  unfold execStartMarkerInHunt
  split <;> exact ⟨_, rfl⟩

theorem execLossExpiry_answers : ∃ t, execLossExpiry s = .next t := by
  obtain ⟨-, -, lost⟩ | ⟨-, kept⟩ := execLossExpiry_cases s
  · exact ⟨_, lost⟩
  · exact ⟨_, kept⟩

theorem execHoldoverTimerExpiry_answers : ∃ t, execHoldoverTimerExpiry s = .next t := by
  unfold execHoldoverTimerExpiry
  cases s.osq.holdTimer with
  | running period => dsimp only; split <;> exact ⟨_, rfl⟩
  | stopped | expired => exact ⟨_, rfl⟩

theorem execEmissionBegin_answers (pready : Bool) : ∃ t, execEmissionBegin pready s = .next t := by
  unfold execEmissionBegin
  cases s.osq.record with
  | none => exact ⟨_, rfl⟩
  | some r => dsimp only; split_ifs <;> exact ⟨_, rfl⟩

theorem execLineCompletion_answers : ∃ t, execLineCompletion s = .next t := by
  unfold execLineCompletion
  split <;> exact ⟨_, rfl⟩

theorem execRowStepCompletion_answers : ∃ t, execRowStepCompletion s = .next t := by
  unfold execRowStepCompletion
  split
  · split <;> exact ⟨_, rfl⟩
  · exact ⟨_, rfl⟩

theorem execTransmissionCompletion_answers : ∃ t, execTransmissionCompletion s = .next t := by
  unfold execTransmissionCompletion
  split <;> exact ⟨_, rfl⟩

theorem execExecution_answers : ∃ t, execExecution s = .next t := by
  unfold execExecution
  split <;> exact ⟨_, rfl⟩

/-- No row ends in a fault or a refusal: power-on and the command rows are one next state, the ends of packets go
through the link receiver, and the other rows answer by their lemmas above. -/
theorem exec_answers (c : Instr) : ∃ t, exec c s = .next t := by
  cases c
  case initialisationComplete => exact execInitialisationComplete_answers s
  case headerCheckFailure | frameOpen | line | frameClose | control | filler | unknownKindPacket |
      payloadCheckFailedPacket => apply State.onLink_answers
  case startMarkerInHunt => exact execStartMarkerInHunt_answers s
  case lossExpiry => exact execLossExpiry_answers s
  case holdoverTimerExpiry => exact execHoldoverTimerExpiry_answers s
  case emissionBegin pready => exact execEmissionBegin_answers s pready
  case lineCompletion => exact execLineCompletion_answers s
  case rowStepCompletion => exact execRowStepCompletion_answers s
  case transmissionCompletion => exact execTransmissionCompletion_answers s
  case execution => exact execExecution_answers s
  all_goals exact ⟨_, rfl⟩

end Answers

/-! ## Every effect of a row keeps the queue of waiting commands -/

@[simp] theorem State.endFrame_pending (s : State) (r : FrameRecord) : (s.endFrame r).pending = s.pending := by
  obtain ⟨d, ended, -, -, -, -, -, -, kept, -⟩ := s.endFrame_eq r
  rw [ended]
  exact (d.chooseNext_pending r).trans kept

@[simp] theorem State.completeLine_pending (s : State) (r : FrameRecord) (substituted : Bool) :
    (s.completeLine r substituted).pending = s.pending := by
  obtain ⟨r', -, asks | ends⟩ := s.completeLine_cases r substituted
  · rw [asks, askNext_pending]
  · rw [ends, endFrame_pending]

@[simp] theorem State.frameOpenArrival_pending (s : State) (f : InputFrame) :
    (s.frameOpenArrival f).pending = s.pending := by
  obtain ⟨-, starts⟩ | ⟨-, _, _, waits⟩ := s.frameOpenArrival_cases f
  · rw [starts, startFrame_pending]
  · rw [waits]

@[simp] theorem State.openFrame_pending (s : State) (f : InputFrame) : (s.openFrame f).pending = s.pending := by
  rw [openFrame_eq, frameOpenArrival_pending]

@[simp] theorem State.loseLink_pending (s : State) : s.loseLink.pending = s.pending := by
  rw [loseLink_eq]
  obtain ⟨-, holdover⟩ | ⟨-, kept⟩ := State.lossAtSequencer_cases _
  · rw [holdover, startFrame_pending]
  · rw [kept]

@[simp] theorem State.afterRowStep_pending (s : State) : s.afterRowStep.pending = s.pending := by
  obtain ⟨-, done⟩ | ⟨-, goesOn⟩ := s.afterRowStep_cases
  · rw [done, completeMove_pending]
  · rw [goesOn]

theorem OwnerEffect.pending {s t : State} {c : CommandName} (h : OwnerEffect s c t) : t.pending = s.pending := by
  cases h <;> rfl

/-- Commands, executions, packets and replies work on the blocks, and the queue is no block's. -/
theorem Managed.pending {s t : State} (h : Managed s t) : t.pending = s.pending :=
  h.keeps (P := fun u => u.pending = s.pending) (fun _ _ _ kept effect => effect.pending.trans kept)
    (fun _ _ _ kept => kept) rfl

theorem RowEffect.pending {s t : State} (h : RowEffect s t) : t.pending = s.pending := by
  cases h
  case managed row => exact row.managed.pending
  case opened f => exact s.openFrame_pending f
  case lost => exact s.loseLink_pending
  case gapEnded => exact State.startFrame_pending _ _
  case lineCompleted r r' substituted _ _ => exact s.completeLine_pending r' substituted
  case asked => exact s.askNext_pending
  case stepped i _ _ => exact (State.afterRowStep_pending _).trans (s.applyRowStep_pending i)
  all_goals rfl

/-- Settles O2: a row's next state is one of the effects of a row, and each of them keeps the queue. -/
theorem everyRowAnswersNextAndKeepsTheQueue : Obligations.EveryRowAnswersNextAndKeepsTheQueue := by
  intro c s
  obtain ⟨t, answers⟩ := exec_answers s c
  exact ⟨t, answers, (exec_effect answers).pending⟩

end Sys2Proof.Machine
end
